-- ==== Sys2Proof/Word.lean ====
section
/-! DEFINITION. Fixed tables and the width names of the model. -/

namespace Sys2Proof

/-- One byte of the configuration image. -/
abbrev Byte := BitVec 8

/-- A table of exactly `n` like things (channels, peers, measures, sequences), as plain data. -/
structure Table (n : Nat) (α : Type) where
  items : List α
  size : items.length = n
deriving DecidableEq, Repr

namespace Table

variable {n : Nat} {α β : Type}

/-- `n` copies of one thing. -/
def fill (n : Nat) (a : α) : Table n α := ⟨List.replicate n a, List.length_replicate⟩

/-- The thing at index `i`. -/
def get (t : Table n α) (i : Fin n) : α := t.items[i.val]'(by rw [t.size]; exact i.isLt)

/-- The table with index `i` replaced. -/
def set (t : Table n α) (i : Fin n) (a : α) : Table n α :=
  ⟨t.items.set i.val a, by rw [List.length_set]; exact t.size⟩

/-- The table with every thing replaced by its image. -/
def map (f : α → β) (t : Table n α) : Table n β :=
  ⟨t.items.map f, by rw [List.length_map]; exact t.size⟩

/-- The table whose thing at index `i` is `f i`. -/
def build (n : Nat) (f : Fin n → α) : Table n α := ⟨List.ofFn f, List.length_ofFn⟩

theorem get_set_self (t : Table n α) (i : Fin n) (a : α) : (t.set i a).get i = a := by
  simp [get, set]

theorem get_set_ne (t : Table n α) {i j : Fin n} (a : α) (h : j ≠ i) :
    (t.set i a).get j = t.get j := by
  have h' : i.val ≠ j.val := fun e => h (Fin.ext e.symm)
  simp [get, set, List.getElem_set_ne h']

@[simp] theorem get_set (t : Table n α) (i j : Fin n) (a : α) :
    (t.set i a).get j = if j = i then a else t.get j := by
  by_cases h : j = i
  · subst h; simp [get_set_self]
  · simp [h, get_set_ne]

@[simp] theorem get_map (f : α → β) (t : Table n α) (i : Fin n) : (t.map f).get i = f (t.get i) := by
  simp [get, map]

@[simp] theorem get_fill (a : α) (i : Fin n) : (fill n a).get i = a := by
  simp [get, fill]

@[simp] theorem get_build (f : Fin n → α) (i : Fin n) : (build n f).get i = f i := by
  simp [get, build]

theorem ext_get {t u : Table n α} (h : ∀ i, t.get i = u.get i) : t = u := by
  cases t with | mk xs hx =>
  cases u with | mk ys hy =>
  congr 1
  refine List.ext_getElem (by rw [hx, hy]) fun k hk _ => ?_
  exact h ⟨k, by omega⟩

theorem set_set (t : Table n α) (i : Fin n) (a b : α) : (t.set i a).set i b = t.set i b := by
  apply ext_get; intro j; by_cases h : j = i <;> simp [h]

@[simp] theorem set_get_self (t : Table n α) (i : Fin n) : t.set i (t.get i) = t := by
  apply ext_get; intro j; by_cases h : j = i <;> simp [h]

end Table

end Sys2Proof
end

