-- ==== Sys2Proof/Syntax.lean ====
section
/-! DEFINITION. The commands of the station: one constructor for each row of spec/opcode_table.json.
The rows give no bits and no fields. A command's operands are what only the outside world knows (levels,
sampled bits, image bytes) or which of several like units the event is of (log 8). -/

namespace Sys2Proof

/-- Polarity of an edge or stamp (R32). -/
inductive Polarity where
  | rise
  | fall
deriving DecidableEq, Repr

/-- The commands (spec/opcode_table.json; spec/95_what_each_step_holds.md). -/
inductive Instr where
  /-- RESET_ASSERT: RESETn goes low (R186). -/
  | resetAssert
  /-- RESET_RELEASE: RESETn rises; `straps` are the levels on SN3..SN0 (R186). -/
  | resetRelease (straps : BitVec 4)
  /-- IMAGE_READ_COMPLETE: CSn goes high; `image` is the bytes read, byte 0 first (R187, R188). -/
  | imageReadComplete (image : List Byte)
  /-- SEEK_TIMEOUT (R14). -/
  | seekTimeout
  /-- ALIGNING_TIMEOUT (R17). -/
  | aligningTimeout
  /-- ALIGNING_OFFSET_WRAP (R10). -/
  | aligningOffsetWrap
  /-- MARK_LEADING_EDGE: a leading edge of MARK at the pin (R11). -/
  | markLeadingEdge
  /-- EPOCH_BOUNDARY (R18). -/
  | epochBoundary
  /-- MARK_PULSE_END (R18). -/
  | markPulseEnd
  /-- HORIZON_HOLD_END (R8). -/
  | horizonHoldEnd
  /-- PIN_EDGE: a transition of pin IN`channel`, its polarity and interpolated fine value (R32, R33). -/
  | pinEdge (channel : Fin 4) (polarity : Polarity) (fine : BitVec 8)
  /-- TEST_SOURCE_EVENT (R47, R48). -/
  | testSourceEvent
  /-- STAMP_RESOLUTION of the channel's oldest stamp in flight (R42). -/
  | stampResolution (channel : Fin 4)
  /-- SNAPSHOT_ANSWER to a measure (R36). -/
  | snapshotAnswer (measure : Fin 8)
  /-- TIMED_GATE_CLOSE (R113). -/
  | timedGateClose (measure : Fin 8)
  /-- TIMED_GATE_REOPEN (R124). -/
  | timedGateReopen (measure : Fin 8)
  /-- GATE_OVERRUN (R115). -/
  | gateOverrun (measure : Fin 8)
  /-- SAMPLE_SETTLE: one measure judges its views (R129). -/
  | sampleSettle (measure : Fin 8)
  /-- INTERVAL_BLOCK_COMPLETE (R145). -/
  | intervalBlockComplete (measure : Fin 8)
  /-- RECIPROCAL_BLOCK_COMPLETE (R148). -/
  | reciprocalBlockComplete (measure : Fin 8)
  /-- TRANSMIT_ASSEMBLY (R72). -/
  | transmitAssembly
  /-- COLLISION: a readback of 1 at a bit sent as 0 (R78). -/
  | collision
  /-- FRAME_SEND_END: the last CRC bit is read back without a collision (R81). `straps` are the levels on
  SN3..SN0, latched if a self-delivered RESTART takes effect (R186). -/
  | frameSendEnd (straps : BitVec 4)
  /-- FRAME_RECEIVED: `bits` are the bits sampled since the start tick, in the order read (R83). `straps`
  as in FRAME_SEND_END. -/
  | frameReceived (bits : List Bool) (straps : BitVec 4)
  /-- WINDOW_END of a peer's window (R95). -/
  | windowEnd
  /-- ARM: the due directive at the front of the Pending Directive List (R173, R108). -/
  | arm
  /-- DISARM (R121). -/
  | disarm
  /-- GATE_OPEN (R112). -/
  | gateOpen
  /-- GATE_CLOSE (R112). -/
  | gateClose
  /-- FLUSH (R114). -/
  | flush
  /-- CLEAR_FAULT (R121). -/
  | clearFault
  /-- RESTART (R176); `straps` are the levels on SN3..SN0 latched by the start (R186). -/
  | restart (straps : BitVec 4)
  /-- FRAME_START_TICK (R83). -/
  | frameStartTick
deriving DecidableEq, Repr

end Sys2Proof
end

