-- ==== Sys2Proof/Config.lean ====
section
/-! DEFINITION. What the part fixes: the figures of 00_scope.md ("Figures that hold across chapters") and
of the chapters' rules. No value of the manual is left to a constant without a body: the orders it leaves
open stand in the state (`FreeOrder`, log 7). -/

namespace Sys2Proof.Config

/-- Stamp Store entries (R52). -/
def storeCapacity : Nat := 128
/-- Result Queue groups (R160). -/
def queueCapacity : Nat := 12
/-- Pending Directive List (R170). -/
def listCapacity : Nat := 8
/-- Directive Outbox (R82). -/
def outboxCapacity : Nat := 6
/-- Record positions of a frame (R72). -/
def framePositions : Nat := 8
/-- Positions left to result groups while a Store entry holds publish (R74). -/
def groupLimitWithStamps : Nat := 6
/-- Capture latency in ticks (R8, R42); also the length of a local horizon hold. -/
def captureLatency : Nat := 8
/-- MARK pulse in ticks (R18). -/
def markPulse : Nat := 16
/-- Guard after each boundary, in ticks (R68). -/
def guardTicks : Nat := 256
/-- Window length in bit periods (R68). -/
def windowBits : Nat := 672
/-- Bit periods from a window's start in which a frame may begin (R84). -/
def startBits : Nat := 16
/-- Test Source cycle in ticks (R47). -/
def testCycle : Nat := 65536
/-- Own windows with a collision in a row that lead to MUTE (R79). -/
def muteCollisions : Nat := 3
/-- Bytes of the configuration image (R187). -/
def imageBytes : Nat := 512
/-- Ticks of one SCLK period (R187). -/
def sclkPeriod : Nat := 8
/-- Bit periods of the image read: command, address and 512 bytes (R187). -/
def readBits : Nat := 8 + 16 + 8 * imageBytes
/-- Ticks of the image read (R187). -/
def readTicks : Nat := readBits * sclkPeriod

end Sys2Proof.Config
end

