-- ==== Sys2Proof/Machine/Bits.lean ====
section
/-! DEFINITION. Bit fields, the two CRCs, saturating counts, and reading the start symbol and the header's
record count (chapters The Timing Link, Formats; R189). -/

namespace Sys2Proof.Machine

/-- The low `w` bits of `n`, most significant first (R198). -/
def natBits : Nat → Nat → List Bool
  | 0, _ => []
  | w + 1, n => n.testBit w :: natBits w n

/-- The number a field of `w` bits gives, most significant first, and the bits after it. A bit that is
not there reads 0: a released line (R70, R89). -/
def takeNat : Nat → List Bool → Nat × List Bool
  | 0, l => (0, l)
  | w + 1, l => ((l.headD false).toNat * 2 ^ w + (takeNat w l.tail).1, (takeNat w l.tail).2)

/-- A field's bits in the order sent (R198). -/
def fieldBits {w : Nat} (x : BitVec w) : List Bool := natBits w x.toNat

/-- The field of `w` bits at the front, and the bits after it. -/
def takeField (w : Nat) (l : List Bool) : BitVec w × List Bool :=
  (BitVec.ofNat w (takeNat w l).1, (takeNat w l).2)

/-- Exactly `n` bits: cut, or filled with 0 (a released line reads 0, R89). -/
def padBits : Nat → List Bool → List Bool
  | 0, _ => []
  | n + 1, l => l.headD false :: padBits n l.tail

/-- A count of `w` bits that stops at its maximum (00_scope.md, Counts). -/
def satAdd {w : Nat} (x : BitVec w) (n : Nat) : BitVec w :=
  BitVec.ofNat w (min (x.toNat + n) (2 ^ w - 1))

/-- One bit of the CRC-8: polynomial 0x4D (R71). -/
def crc8Bit (reg : BitVec 8) (b : Bool) : BitVec 8 :=
  if b != reg.msb then (reg <<< 1) ^^^ 0x4D#8 else reg <<< 1

/-- The CRC-8 of the header and record bits in the order sent, from 0x00 (R71). -/
def crc8 (bits : List Bool) : BitVec 8 := bits.foldl crc8Bit 0x00#8

/-- One bit of the CRC-24: polynomial 0xA31C95 (R189). -/
def crc24Bit (reg : BitVec 24) (b : Bool) : BitVec 24 :=
  if b != reg.msb then (reg <<< 1) ^^^ 0xA31C95#24 else reg <<< 1

/-- The CRC-24 of a list of bytes, from 0xFFFFFF, each byte most significant bit first (R189). -/
def crc24 (bytes : List Byte) : BitVec 24 :=
  bytes.foldl (fun reg x => (fieldBits x).foldl crc24Bit reg) 0xFFFFFF#24

/-- The start symbol 1111111 0 (R70). -/
def startSymbol : List Bool := [true, true, true, true, true, true, true, false]

/-- Bits 0-7 of a frame read as the start symbol (R83). -/
def startSymbolOk (bits : List Bool) : Bool := padBits 8 bits == startSymbol

/-- The record count field of a frame as read: bits 12-15 (R70). -/
def recordCountOf (bits : List Bool) : Nat := (takeNat 4 (bits.drop 12)).1

/-- The length a reception takes from the header it reads: 128 + 64 x min(r, 8) bits (R83). -/
def frameLengthOf (bits : List Bool) : Nat :=
  128 + 64 * min (recordCountOf bits) Config.framePositions

/-- The number of bits a reception samples: 8 at a bad start symbol, else the frame's length (R83). -/
def receptionBits (bits : List Bool) : Nat :=
  if startSymbolOk bits then frameLengthOf bits else 8

end Sys2Proof.Machine
end

