-- ==== Sys2Proof/Machine/State.lean ====
section
/-! DEFINITION. The state of the station as plain data, and the state right after reset. INVENTORY.md lists
each field with the rule that names it and its reset value. -/

namespace Sys2Proof.Machine

/-- A time stamp: epoch number, offset in ticks, fine steps (R2). The offset field has the 24 bits of the
link's layout (R198). -/
structure TimeStamp where
  epoch : BitVec 16
  offset : BitVec 24
  fine : BitVec 8
deriving DecidableEq, Repr

/-- The alignment state (R9). -/
inductive AlignState where
  | loading
  | configFault
  | seeking
  | aligning
  | locked
  | mute
deriving DecidableEq, Repr

/-- The alignment origin (R26). `unset` is code 0, which is never sent (Formats). -/
inductive AlignOrigin where
  | unset
  | joined
  | founder
  | founderTimeout
deriving DecidableEq, Repr

/-- The start cause (R186). -/
inductive StartCause where
  | powerOn
  | restart
deriving DecidableEq, Repr

/-- What the Configuration Loader holds (R186, R189, R192, R197). `readTicks` is the position of the image
read, in ticks since CSn went low (R187). -/
structure Loader where
  number : Fin 16
  cause : StartCause
  signature : BitVec 24
  readTicks : Nat
  measDisabled : BitVec 8
  trigDisabled : BitVec 4
deriving DecidableEq, Repr

/-- The group and station parts of the image as loaded (R190, R192). -/
structure Params where
  stations : BitVec 8
  exponent : BitVec 8
  bitCode : BitVec 8
  missLimit : BitVec 8
  tolerance : BitVec 8
  delay : BitVec 8
  statusInterval : BitVec 8
  density : BitVec 16
deriving DecidableEq, Repr

/-- A local horizon hold: the value kept and the elapsed tick of the change (R8). -/
structure Hold where
  value : TimeStamp
  since : Nat
deriving DecidableEq, Repr

/-- The Epoch Unit (R9, R10, R26). `align` is none while RESETn is held low (R186). `elapsed` counts ticks
since capture began (R35). `prevHorizon` is the local horizon of the tick before, which a hold keeps (R8). -/
structure EpochUnit where
  align : Option AlignState
  epoch : BitVec 16
  offset : Nat
  seekTimer : Nat
  alignTimer : Nat
  disc : BitVec 16
  origin : AlignOrigin
  hold : Option Hold
  prevHorizon : TimeStamp
  markDrive : Bool
  elapsed : Nat
  autoArmed : Bool
deriving DecidableEq, Repr

/-- Input select (R30). -/
inductive InputSelect where
  | pin
  | test
deriving DecidableEq, Repr

/-- Edge select (R30). -/
inductive EdgeSelect where
  | off
  | rise
  | fall
  | both
deriving DecidableEq, Repr

/-- A channel record (R30): holdoff H, prescale P (1 to 65536), rate threshold R. -/
structure ChannelConfig where
  input : InputSelect
  edges : EdgeSelect
  publish : Bool
  holdoff : Nat
  prescale : Nat
  rate : Nat
deriving DecidableEq, Repr

/-- The channel state (R31); `unloaded` is "none until the load ends" (R49). -/
inductive ChannelState where
  | unloaded
  | off
  | normal
  | throttled
deriving DecidableEq, Repr

/-- A formed stamp not yet resolved, with the elapsed tick of its formation (R37, R42). -/
structure FlyingStamp where
  polarity : Polarity
  time : TimeStamp
  suppressed : Bool
  formedAt : Nat
deriving DecidableEq, Repr

/-- A qualified edge of the last ticks, kept for count snapshots (R36; log 10), with what its channel held before
it, so that a change of local time in the edge's own tick can take it again (R33, R39, R47; log 26). -/
structure RecentEdge where
  tick : Nat
  time : TimeStamp
  polarity : Polarity
  lastEdge : Option Nat
  prescale : Nat
  rateCount : Nat
  st : ChannelState
deriving DecidableEq, Repr

/-- A Channel Unit (R30 to R46). `lastEdge` is a position on the elapsed scale, in fine steps (R35). -/
structure Channel where
  config : Option ChannelConfig
  st : ChannelState
  lastEdge : Option Nat
  edgeCount : BitVec 48
  recentEdges : List RecentEdge
  prescale : Nat
  rateCount : Nat
  inFlight : List FlyingStamp
  storeDrops : BitVec 8
  publishDrops : BitVec 8
deriving DecidableEq, Repr

/-- A Stamp Store entry (R51). `wantA`, `wantB`, `wantG` hold bit i when Mi is in the consumer set and the
entry stands in the view of that role of Mi (R63, R64). `examined` holds bit i when Mi has examined the
drop count (R131); `heldA`, `heldB`, `heldG` hold bit i when the entry was offered while that role of Mi held a
final horizon (R151). -/
structure Entry where
  station : Fin 16
  channel : Fin 4
  polarity : Polarity
  time : TimeStamp
  drops : BitVec 8
  publish : Bool
  wantA : BitVec 8
  wantB : BitVec 8
  wantG : BitVec 8
  heldA : BitVec 8
  heldB : BitVec 8
  heldG : BitVec 8
  examined : BitVec 8
deriving DecidableEq, Repr

/-- A directive (R168). -/
structure Directive where
  target : BitVec 5
  code : BitVec 4
  immediate : Bool
  mask : BitVec 8
  epoch : BitVec 16
  offset : BitVec 24
  reserved : BitVec 2
deriving DecidableEq, Repr

/-- Measure kinds other than DISABLED (R104). -/
inductive MeasureKind where
  | totalize
  | reciprocal
  | interval
deriving DecidableEq, Repr

/-- Gate kinds (R104). -/
inductive GateKind where
  | free
  | timed
  | edge
  | directive
deriving DecidableEq, Repr

/-- Align (R104). -/
inductive GateAlign where
  | unaligned
  | mark
deriving DecidableEq, Repr

/-- Restart policy (R104). -/
inductive RestartPolicy where
  | first
  | latest
deriving DecidableEq, Repr

/-- A polarity choice: ANY, RISE or FALL (R104, R179). -/
inductive PolaritySel where
  | any
  | rise
  | fall
deriving DecidableEq, Repr

/-- A source: station, channel and polarity (R104). -/
structure Source where
  station : Fin 16
  channel : Fin 4
  polarity : PolaritySel
deriving DecidableEq, Repr

/-- The roles of a measure (R63). -/
inductive Role where
  | A
  | B
  | G
deriving DecidableEq, Repr

/-- The six fault kinds (R118), in the order of the qualifier table (Formats). -/
inductive FaultKind where
  | gap
  | discontinuity
  | sourceAbsent
  | sourceForeign
  | lateGate
  | storeFull
deriving DecidableEq, Repr

/-- A measure record whose kind is not DISABLED (R104). The accept mask has bit 0 BELOW, 1 INSIDE,
2 ABOVE; the fault mask has the qualifier table's bits (Formats). -/
structure MeasureConfig where
  kind : MeasureKind
  gate : GateKind
  gateAlign : GateAlign
  policy : RestartPolicy
  a : Source
  b : Source
  g : Source
  accept : BitVec 3
  faultMask : BitVec 6
  rearm : BitVec 8
  autoArm : Bool
  length : BitVec 32
  blockSize : BitVec 16
  spanLimit : BitVec 16
  windowLow : BitVec 48
  windowHigh : BitVec 48
deriving DecidableEq, Repr

/-- Measure states (R107); `unloaded` is a measure that holds nothing (R127). -/
inductive MeasureState where
  | unloaded
  | idle
  | armed
  | opened
  | closing
  | reporting
  | fault
  | disabled
deriving DecidableEq, Repr

/-- Rearms remaining (R107). -/
inductive Rearms where
  | left (n : Nat)
  | unlimited
deriving DecidableEq, Repr

/-- The horizon of a source: the one the Peer Table or Epoch Unit supplies (R98), or a final horizon held
under a masked SOURCE_ABSENT or SOURCE_FOREIGN (R100, R151). -/
inductive FinalHorizon where
  | live
  | held (horizon : Option TimeStamp)
deriving DecidableEq, Repr

/-- A result group (R154). `sequence` is written at the enqueue (R153). -/
structure Group where
  measure : Fin 8
  kind : MeasureKind
  isFault : Bool
  quals : BitVec 12
  sequence : BitVec 16
  sampleCount : BitVec 16
  values : List (BitVec 48)
deriving DecidableEq, Repr

/-- The block a measure is forming: qualifiers, marks and accumulators (R107, R144, R146, R149). -/
structure Block where
  quals : BitVec 12
  n : BitVec 16
  sum : BitVec 64
  minimum : BitVec 48
  maximum : BitVec 48
  rejected : BitVec 24
  overrange : BitVec 24
  first : Option TimeStamp
  last : Option TimeStamp
  events : BitVec 48
  openSnapshot : BitVec 48
  openRequest : Option TimeStamp
  closeRequest : Option TimeStamp
deriving DecidableEq, Repr

/-- A measure (R107). `searchAfter` says the EDGE search is for a stamp later than the search time (R124);
`closedByStamp` says the previous gate's closing G stamp was found (R124); `rearmTick` is the elapsed tick
of the enqueue that rearmed it (R124); `lastStop` is the last sample's stop, while an A stamp earlier than it can
still arrive (R133; log 41); `noAutoArm` says a DISARM or CLEAR_FAULT made the measure IDLE (R121). -/
structure Measure where
  config : Option MeasureConfig
  st : MeasureState
  rearms : Rearms
  armingTime : Option TimeStamp
  openTime : Option TimeStamp
  closeTime : Option TimeStamp
  searchTime : Option TimeStamp
  searchAfter : Bool
  carriedOpening : Option TimeStamp
  closedByStamp : Bool
  rearmTick : Option Nat
  block : Block
  pendingA : Bool
  pendingB : Bool
  lossMark : Bool
  lastStop : Option TimeStamp
  finalA : FinalHorizon
  finalB : FinalHorizon
  finalG : FinalHorizon
  heldGroup : Option Group
  pendingFault : Option FaultKind
  heldReport : Option Group
  sequence : BitVec 16
  noAutoArm : Bool
deriving DecidableEq, Repr

/-- Peer states (R91). -/
inductive PeerState where
  | silent
  | present
  | absent
  | foreign
deriving DecidableEq, Repr

/-- A Peer Table entry (R91). -/
structure Peer where
  st : PeerState
  horizon : Option TimeStamp
  disc : Option (BitVec 16)
  missed : BitVec 4
deriving DecidableEq, Repr

/-- A STATUS record's fields (R196). -/
structure Status where
  cause : StartCause
  origin : AlignOrigin
  faultMask : BitVec 8
  disabledMask : BitVec 8
  activeMask : BitVec 8
  throttled : BitVec 4
  disabledTriggers : BitVec 4
  runningTriggers : BitVec 4
  collisions : BitVec 4
  discards : BitVec 8
  directiveDrops : BitVec 4
  triggerOverruns : BitVec 4
deriving DecidableEq, Repr

/-- A record as the station sends it (Formats). -/
inductive Record where
  | stamp (channel : Fin 4) (polarity : Polarity) (drops : BitVec 8) (time : TimeStamp)
  | directive (d : Directive)
  | head (g : Group)
  | data (measure : Fin 8) (index : BitVec 3) (value : BitVec 48)
  | status (x : Status)
deriving DecidableEq, Repr

/-- A frame as assembled: the header fields of R76 and the records. The record count is their number. -/
structure Frame where
  sender : Fin 16
  epoch : BitVec 16
  horizon : TimeStamp
  disc : BitVec 16
  signature : BitVec 24
  records : List Record
deriving DecidableEq, Repr

/-- The frame in flight, the ticks since the window start, and whether its last CRC bit has been read back
(R77, R81). -/
structure Sending where
  frame : Frame
  ticks : Nat
  ended : Bool
deriving DecidableEq, Repr

/-- A reception: ticks since the start tick s, the window that held s, how far into it s lay, and whether a
slip has cut that window since (R69, R83). -/
structure Reception where
  ticks : Nat
  window : Option Nat
  distance : Nat
  cut : Bool
deriving DecidableEq, Repr

/-- The Link Controller (R82, R88, R89, R195). `receiver` is none when IDLE. -/
structure Link where
  outbox : List Directive
  sending : Option Sending
  receiver : Option Reception
  windowPresence : Bool
  consecutive : Nat
  collisions : BitVec 4
  discards : BitVec 8
  statusDue : Bool
deriving DecidableEq, Repr

/-- What fires a trigger sequence (R179). -/
inductive TriggerSource where
  | channel (channel : Fin 4) (polarity : PolaritySel)
  | measure (measure : Fin 8)
deriving DecidableEq, Repr

/-- One step of a trigger sequence (R179). -/
structure TriggerStep where
  target : BitVec 5
  code : BitVec 4
  mask : BitVec 8
  lead : BitVec 8
  pause : BitVec 8
deriving DecidableEq, Repr

/-- A trigger record that passed its checks: its source and its steps in order (R179). -/
structure TriggerConfig where
  source : TriggerSource
  steps : List TriggerStep
deriving DecidableEq, Repr

/-- Sequence states (R181): RUNNING holds the steps still to place after the one placed, that step's pause
and the boundaries counted. `unloaded` is a sequence without configuration (R184). -/
inductive SequenceState where
  | unloaded
  | idle
  | running (rest : List TriggerStep) (pause : Nat) (counted : Nat)
  | disabled
deriving DecidableEq, Repr

/-- A trigger sequence (R179, R181). -/
structure Sequence where
  config : Option TriggerConfig
  st : SequenceState
deriving DecidableEq, Repr

/-- What a trigger moves: the sequences, the Directive Outbox and the two counts (R178, R182, R183). -/
structure TriggerSide where
  sequences : Table 4 Sequence
  outbox : List Directive
  directiveDrops : BitVec 4
  triggerOverruns : BitVec 4
deriving DecidableEq, Repr

/-- A pin edge of this tick that came while the station was not LOCKED (R34; log 42). -/
structure HeldEdge where
  channel : Fin 4
  polarity : Polarity
  fine : BitVec 8
deriving DecidableEq, Repr

/-- What has already been taken in this tick (the model's own; log 6), and the pin edges that wait for the station
to become LOCKED in it. -/
structure TickMarks where
  boundary : Bool
  windowEnd : Bool
  assembly : Bool
  edges : List HeldEdge
deriving DecidableEq, Repr

/-- The orders the manual leaves open inside one step (the model's own free value; log 7): codes of the
permutations of channels, measures, sequences and roles, and four choices of which comes first: the trigger
sequences before the measures at a boundary, the STORE_FULL part before the other part of one point, the
assembly before the reception it cuts, and abandoning a start before passing superseded ones. -/
structure FreeOrder where
  channels : Nat
  measures : Nat
  sequences : Nat
  roles : Nat
  triggersFirst : Bool
  storeFullFirst : Bool
  assemblyFirst : Bool
  abandonFirst : Bool
deriving DecidableEq, Repr

/-- The station itself: every register, buffer and counter of it, with the model's own `marks`. -/
structure Station where
  resetHeld : Bool
  strapPins : BitVec 4
  loader : Loader
  params : Params
  eu : EpochUnit
  channels : Table 4 Channel
  store : List Entry
  link : Link
  peers : Table 16 Peer
  measures : Table 8 Measure
  queue : List Group
  directives : List Directive
  directiveDrops : BitVec 4
  sequences : Table 4 Sequence
  triggerOverruns : BitVec 4
  marks : TickMarks
deriving DecidableEq, Repr

/-- The station, the commands that wait for it, the orders left open, and, from a Test Source event to the end of its
tick, the station as it stands without that event, which a slip of the same tick goes on from (the model's own; R47;
log 39). -/
structure State extends Station where
  pending : List Instr
  order : FreeOrder
  untested : Option Station
deriving DecidableEq, Repr

/-- Why the machine stops: never. Nothing the manual describes stops the station (CONFIG_FAULT, MUTE and a
measure's FAULT are states), so no constructor exists (log 21). -/
inductive Fault where
deriving DecidableEq, Repr

/-- Why a command has no meaning. -/
inductive Refusal where
  /-- Raised by an arm of `exec` whose command is not modelled yet; safe. No arm raises it. -/
  | notModelled (mnemonic : String)
deriving DecidableEq, Repr

/-- Epoch 0, offset 0, fine 0. -/
def TimeStamp.zero : TimeStamp := ⟨0, 0, 0⟩

/-- The loader before a start records anything (R197; log 2). -/
def Loader.reset : Loader := ⟨0, .powerOn, 0, 0, 0, 0⟩

/-- The parameters before a load (log 3). -/
def Params.reset : Params := ⟨0, 0, 0, 0, 0, 0, 0, 0⟩

/-- The Epoch Unit's reset value (R28). The registers R28 leaves undefined hold 0 (log 2). -/
def EpochUnit.reset : EpochUnit where
  align := none
  epoch := 0
  offset := 0
  seekTimer := 0
  alignTimer := 0
  disc := 0
  origin := .unset
  hold := none
  prevHorizon := .zero
  markDrive := false
  elapsed := 0
  autoArmed := false

/-- A Channel Unit's reset value (R49). -/
def Channel.reset : Channel where
  config := none
  st := .unloaded
  lastEdge := none
  edgeCount := 0
  recentEdges := []
  prescale := 0
  rateCount := 0
  inFlight := []
  storeDrops := 0
  publishDrops := 0

/-- An empty block (R108, R152). -/
def Block.empty : Block where
  quals := 0
  n := 0
  sum := 0
  minimum := 0
  maximum := 0
  rejected := 0
  overrange := 0
  first := none
  last := none
  events := 0
  openSnapshot := 0
  openRequest := none
  closeRequest := none

/-- A measure's reset value (R127). -/
def Measure.reset : Measure where
  config := none
  st := .unloaded
  rearms := .left 0
  armingTime := none
  openTime := none
  closeTime := none
  searchTime := none
  searchAfter := false
  carriedOpening := none
  closedByStamp := false
  rearmTick := none
  block := .empty
  pendingA := false
  pendingB := false
  lossMark := false
  lastStop := none
  finalA := .live
  finalB := .live
  finalG := .live
  heldGroup := none
  pendingFault := none
  heldReport := none
  sequence := 0
  noAutoArm := false

/-- A Peer Table entry's reset value (R102). -/
def Peer.reset : Peer := ⟨.silent, none, none, 0⟩

/-- The Link Controller's reset value (R89, R197). -/
def Link.reset : Link := ⟨[], none, none, false, 0, 0, 0, false⟩

/-- A sequence's reset value (R184). -/
def Sequence.reset : Sequence := ⟨none, .unloaded⟩

/-- Nothing taken in this tick. -/
def TickMarks.clear : TickMarks := ⟨false, false, false, []⟩

/-- The station right after reset: RESETn still held low, every block at its reset value (R28, R49, R66,
R89, R102, R127, R166, R184, R186; log 1). -/
def State.reset : State where
  pending := []
  resetHeld := true
  strapPins := 0
  loader := .reset
  params := .reset
  eu := .reset
  channels := .fill 4 .reset
  store := []
  link := .reset
  peers := .fill 16 .reset
  measures := .fill 8 .reset
  queue := []
  directives := []
  directiveDrops := 0
  sequences := .fill 4 .reset
  triggerOverruns := 0
  untested := none
  marks := .clear
  order := ⟨0, 0, 0, 0, false, false, false, false⟩

end Sys2Proof.Machine
end

