-- ==== Sys2Proof/Machine/Ops.lean ====
section
/-! DEFINITION. The named operations every block shares: time arithmetic (R2 to R6), what the loaded
parameters fix (R2, R68), local time and the local horizon (R7, R8), reads and writes of the tables, and
the orders the manual leaves open (log 7). -/

namespace Sys2Proof.Machine

/-! ### Time stamps -/

/-- Serial comparison of epoch `b` against epoch `a` (R3): `gt` when b is later. -/
def compareEpoch (a b : BitVec 16) : Ordering :=
  if (b - a).toNat = 0 then .eq else if (b - a).toNat ≤ 32767 then .gt else .lt

/-- Comparison of time `b` against time `a` (R4): by epoch, then offset, then fine. -/
def compareTime (a b : TimeStamp) : Ordering :=
  match compareEpoch a.epoch b.epoch with
  | .eq =>
    match compare b.offset.toNat a.offset.toNat with
    | .eq => compare b.fine.toNat a.fine.toNat
    | o => o
  | o => o

/-- `x` is later than `y`: the comparison of x against y is GREATER (R4; log 16). -/
def later (x y : TimeStamp) : Bool := compareTime y x == .gt

/-- `x` is earlier than `y` (R4; log 16). -/
def earlier (x y : TimeStamp) : Bool := compareTime y x == .lt

/-- `x` is at or after `y` (R4). -/
def atOrAfter (x y : TimeStamp) : Bool := compareTime y x != .lt

/-- `x` is at or before `y` (R4). -/
def atOrBefore (x y : TimeStamp) : Bool := compareTime y x != .gt

/-- The serial difference of epoch b from epoch a (R3). -/
def serialDiff (a b : BitVec 16) : Int := (b - a).toInt

/-- The interval from a to b in fine steps (R5). -/
def interval (E : Nat) (a b : TimeStamp) : Int :=
  serialDiff a.epoch b.epoch * E * 256 + (b.offset.toNat * 256 + b.fine.toNat : Nat)
    - (a.offset.toNat * 256 + a.fine.toNat : Nat)

/-- The time at tick `o` of epoch `e`, where o may reach past the epoch's end (R6). -/
def timeAt (E : Nat) (e : BitVec 16) (o : Nat) (fine : BitVec 8) : TimeStamp :=
  ⟨e + BitVec.ofNat 16 (o / E), BitVec.ofNat 24 (o % E), fine⟩

/-- Adding L ticks (R6). -/
def addTicks (E : Nat) (t : TimeStamp) (L : Nat) : TimeStamp :=
  timeAt E t.epoch (t.offset.toNat + L) t.fine

/-- Subtracting L ticks (R6): each borrow adds E and takes 1 from the epoch number. -/
def subTicks (E : Nat) (t : TimeStamp) (L : Nat) : TimeStamp :=
  let borrows := (L - t.offset.toNat + (E - 1)) / E
  ⟨t.epoch - BitVec.ofNat 16 borrows, BitVec.ofNat 24 (t.offset.toNat + borrows * E - L), t.fine⟩

/-- Adding n epochs (R6). -/
def addEpochs (t : TimeStamp) (n : Nat) : TimeStamp := { t with epoch := t.epoch + BitVec.ofNat 16 n }

/-- One station's part of the discontinuity test (R27): 1 ≤ x ≤ y. -/
def crossesAt (a b : TimeStamp) (d : BitVec 16) : Bool :=
  decide (1 ≤ (d - a.epoch).toNat) && decide ((d - a.epoch).toNat ≤ (b.epoch - a.epoch).toNat)

/-! ### What the loaded parameters fix -/

/-- The epoch length E = 2^k (R2). -/
def State.epochLength (s : State) : Nat := 2 ^ s.params.exponent.toNat

/-- The bit period b: 4, 8, 16 or 32 ticks (R68). -/
def State.bitPeriod (s : State) : Nat := 4 * 2 ^ s.params.bitCode.toNat

/-- The window length in ticks (R68). -/
def State.windowLength (s : State) : Nat := Config.windowBits * s.bitPeriod

/-- Wn, the windows of an epoch (R68). -/
def State.windowCount (s : State) : Nat := (s.epochLength - Config.guardTicks) / s.windowLength

/-- The start offset of window w (R68). -/
def State.windowStart (s : State) (w : Nat) : Nat := Config.guardTicks + w * s.windowLength

/-- The station that owns window w (R68). -/
def State.windowOwner (s : State) (w : Nat) : Nat := w % s.params.stations.toNat

/-- The window that holds offset `o`, if any (R68). -/
def State.windowAt (s : State) (o : Nat) : Option Nat :=
  let w := (o - Config.guardTicks) / s.windowLength
  if Config.guardTicks ≤ o && decide (w < s.windowCount) then some w else none

/-- The window that ends at offset `o`, if any (R68). -/
def State.windowEndingAt (s : State) (o : Nat) : Option Nat :=
  let w := (o - Config.guardTicks) / s.windowLength - 1
  if s.windowStart (w + 1) = o ∧ w < s.windowCount then some w else none

/-! ### Local time -/

/-- LOCKED or MUTE: local time exists, capture and the Pending Directive List work (R7, R34, R169). -/
def State.hasTime (s : State) : Bool :=
  s.eu.align == some .locked || s.eu.align == some .mute

/-- The window schedule exists (R9, R68). -/
def State.hasSchedule (s : State) : Bool := s.hasTime || s.eu.align == some .aligning

/-- Local time (R7). In the tick of a boundary it is the new epoch's first tick, whether or not
EPOCH_BOUNDARY has been taken (R18, R33, R39; log 9). -/
def State.localTime (s : State) : TimeStamp := timeAt s.epochLength s.eu.epoch s.eu.offset 0

/-- The local horizon (R8). A hold lasts until HORIZON_HOLD_END is taken in its eighth tick: the model's choice of
the order inside that tick (log 38). -/
def State.localHorizon (s : State) : TimeStamp :=
  match s.eu.hold with
  | some h => h.value
  | none => subTicks s.epochLength s.localTime Config.captureLatency

/-- Local time has reached t (R7). -/
def State.reached (s : State) (t : TimeStamp) : Bool := s.hasTime && atOrAfter s.localTime t

/-- A boundary of the station is due: the offset counter has reached E in LOCKED or MUTE (R10, R18). -/
def State.boundaryDue (s : State) : Bool := s.hasTime && decide (s.epochLength ≤ s.eu.offset)

/-! ### The tables -/

/-- Measure i. -/
abbrev State.meas (s : State) (i : Fin 8) : Measure := s.measures.get i

/-- Write measure i. -/
def State.setMeas (s : State) (i : Fin 8) (m : Measure) : State :=
  { s with measures := s.measures.set i m }

/-- Change measure i. -/
def State.modMeas (s : State) (i : Fin 8) (f : Measure → Measure) : State := s.setMeas i (f (s.meas i))

/-- Channel c. -/
abbrev State.chan (s : State) (c : Fin 4) : Channel := s.channels.get c

/-- Write channel c. -/
def State.setChan (s : State) (c : Fin 4) (x : Channel) : State :=
  { s with channels := s.channels.set c x }

/-- Change channel c. -/
def State.modChan (s : State) (c : Fin 4) (f : Channel → Channel) : State := s.setChan c (f (s.chan c))

/-- Peer p. -/
abbrev State.peer (s : State) (p : Fin 16) : Peer := s.peers.get p

/-- Write peer p. -/
def State.setPeer (s : State) (p : Fin 16) (x : Peer) : State := { s with peers := s.peers.set p x }

/-! ### Without this tick's Test Source event -/

/-- A station by itself, with the commands and the orders left open as they stand here. -/
def State.alone (s : State) (w : Station) : State :=
  { toStation := w, pending := s.pending, order := s.order, untested := none }

/-- The station of a state, while it has local time. -/
def State.kept (s : State) : Option Station := if s.hasTime then some s.toStation else none

/-- A command's effect on the station, and on the station as it stands without this tick's Test Source event
(R47; log 39). -/
def State.inBoth (f : State → State) (s : State) : State :=
  { f s with untested := s.untested.bind fun w => (f (s.alone w)).kept }

/-! ### Orders the manual leaves open -/

/-- The arrangement of a list that a code names: a permutation for every code, the list itself for 0. -/
def arrange {α : Type} : Nat → List α → List α
  | _, [] => []
  | code, x :: xs => (arrange (code / (xs.length + 1)) xs).insertIdx (code % (xs.length + 1)) x

/-- The measures in the order this step serves them. -/
def State.measureOrder (s : State) : List (Fin 8) := arrange s.order.measures (List.finRange 8)

/-- The channels in the order this step serves them. -/
def State.channelOrder (s : State) : List (Fin 4) := arrange s.order.channels (List.finRange 4)

/-- The sequences in the order this step serves them. -/
def State.sequenceOrder (s : State) : List (Fin 4) := arrange s.order.sequences (List.finRange 4)

/-- The roles in the order this step asks about them. -/
def State.roleOrder (s : State) : List Role := arrange s.order.roles [.A, .B, .G]

/-- Serve a list of like units one after another. -/
def forEach {α : Type} (l : List α) (f : State → α → State) (s : State) : State := l.foldl f s

end Sys2Proof.Machine
end

