-- ==== Sys2Proof/Machine/Operands.lean ====
section
/-! DEFINITION. The operand forms: the five records and the frame as bits (chapter Formats, R198, R199), and
the configuration image as bytes with its field checks (R30, R105, R179, R190, R200). -/

namespace Sys2Proof.Machine

/-! ### Frames and records as sent -/

/-- A polarity's bit: 0 RISE, 1 FALL (Formats). -/
def polarityBit : Polarity → Bool
  | .rise => false
  | .fall => true

/-- The polarity a bit gives (Formats). -/
def polarityOfBit (b : Bool) : Polarity := if b then .fall else .rise

/-- A time stamp's 48 bits: epoch, offset, fine (R198). -/
def timeBits (t : TimeStamp) : List Bool :=
  fieldBits t.epoch ++ fieldBits t.offset ++ fieldBits t.fine

/-- A measure kind's code (Formats). -/
def MeasureKind.code : MeasureKind → Nat
  | .totalize => 1
  | .reciprocal => 2
  | .interval => 3

/-- An alignment origin's code (Formats). -/
def AlignOrigin.code : AlignOrigin → Nat
  | .unset => 0
  | .joined => 1
  | .founder => 2
  | .founderTimeout => 3

/-- A start cause's bit (Formats). -/
def StartCause.bit : StartCause → Bool
  | .powerOn => false
  | .restart => true

/-- A record's 64 bits, bit 63 first (Formats, R198); reserved bits are 0 (R199). -/
def recordBits : Record → List Bool
  | .stamp channel polarity drops time =>
    natBits 4 1 ++ natBits 2 channel.val ++ [polarityBit polarity] ++ [false] ++ fieldBits drops
      ++ timeBits time
  | .directive d =>
    natBits 4 2 ++ fieldBits d.target ++ fieldBits d.code ++ [d.immediate] ++ fieldBits d.mask
      ++ fieldBits d.epoch ++ fieldBits d.offset ++ fieldBits d.reserved
  | .head g =>
    natBits 4 3 ++ natBits 3 g.measure.val ++ natBits 2 g.kind.code ++ natBits 3 g.values.length
      ++ [g.isFault] ++ fieldBits g.quals ++ fieldBits g.sequence ++ fieldBits g.sampleCount
      ++ natBits 7 0
  | .data measure index value =>
    natBits 4 4 ++ natBits 3 measure.val ++ fieldBits index ++ natBits 6 0 ++ fieldBits value
  | .status x =>
    natBits 4 5 ++ [x.cause.bit] ++ natBits 2 x.origin.code ++ fieldBits x.faultMask
      ++ fieldBits x.disabledMask ++ fieldBits x.activeMask ++ fieldBits x.throttled
      ++ fieldBits x.disabledTriggers ++ fieldBits x.runningTriggers ++ fieldBits x.collisions
      ++ fieldBits x.discards ++ fieldBits x.directiveDrops ++ fieldBits x.triggerOverruns ++ [false]

/-- The header's 112 bits (R70, R76). -/
def headerBits (f : Frame) : List Bool :=
  natBits 4 f.sender.val ++ natBits 4 f.records.length ++ fieldBits f.epoch ++ timeBits f.horizon
    ++ fieldBits f.disc ++ fieldBits f.signature

/-- The header and record bits, which the CRC covers (R71). -/
def frameBody (f : Frame) : List Bool := headerBits f ++ (f.records.map recordBits).flatten

/-- A frame's bits in the order sent (R70). -/
def frameBits (f : Frame) : List Bool :=
  startSymbol ++ frameBody f ++ fieldBits (crc8 (frameBody f))

/-! ### Frames and records as read -/

/-- A record as a receiver takes it (R84, R87, R199). -/
inductive ReadRecord where
  | stamp (channel : Fin 4) (polarity : Polarity) (drops : BitVec 8) (time : TimeStamp)
  | directive (d : Directive)
  /-- RESULT_HEAD, RESULT_DATA or STATUS: ignored (R87). -/
  | ignored
  /-- A kind other than 1-5 (R84). -/
  | unknown
deriving DecidableEq, Repr

/-- A channel or measure number read from a field, kept in its range. -/
def finOfNat (n : Nat) (k : Nat) : Fin (n + 1) := ⟨k % (n + 1), Nat.mod_lt _ (Nat.succ_pos n)⟩

/-- The time stamp at the front (R198). -/
def takeTime (l : List Bool) : TimeStamp × List Bool :=
  let e := takeField 16 l
  let o := takeField 24 e.2
  let f := takeField 8 o.2
  (⟨e.1, o.1, f.1⟩, f.2)

/-- A STAMP record after its kind; its reserved bit is ignored (R199). -/
def readStamp (l : List Bool) : ReadRecord :=
  let c := takeNat 2 l
  let p := takeNat 1 c.2
  let r := takeNat 1 p.2
  let d := takeField 8 r.2
  .stamp (finOfNat 3 c.1) (polarityOfBit (p.1 == 1)) d.1 (takeTime d.2).1

/-- A DIRECTIVE record after its kind. -/
def readDirective (l : List Bool) : ReadRecord :=
  let t := takeField 5 l
  let c := takeField 4 t.2
  let i := takeNat 1 c.2
  let m := takeField 8 i.2
  let e := takeField 16 m.2
  let o := takeField 24 e.2
  let r := takeField 2 o.2
  .directive ⟨t.1, c.1, i.1 == 1, m.1, e.1, o.1, r.1⟩

/-- A record of 64 bits by its kind (Formats, R87). -/
def readRecord (l : List Bool) : ReadRecord :=
  match (takeNat 4 l).1 with
  | 1 => readStamp (takeNat 4 l).2
  | 2 => readDirective (takeNat 4 l).2
  | 3 | 4 | 5 => .ignored
  | _ => .unknown

/-- The next `n` records of 64 bits each. -/
def readRecords : Nat → List Bool → List ReadRecord
  | 0, _ => []
  | n + 1, l => readRecord l :: readRecords n (l.drop 64)

/-- A frame as read (R83, R198). `crcOk` is the CRC check of R71. -/
structure ReadFrame where
  startOk : Bool
  sender : Nat
  count : Nat
  epoch : BitVec 16
  horizon : TimeStamp
  disc : BitVec 16
  signature : BitVec 24
  records : List ReadRecord
  crcOk : Bool
deriving DecidableEq, Repr

/-- Read the sampled bits as R70 arranges them, to the length the header announces (R83). -/
def readFrame (bits : List Bool) : ReadFrame :=
  let length := frameLengthOf bits
  let body := padBits (length - 16) (bits.drop 8)
  let sender := takeNat 4 body
  let count := takeNat 4 sender.2
  let epoch := takeField 16 count.2
  let horizon := takeTime epoch.2
  let disc := takeField 16 horizon.2
  let signature := takeField 24 disc.2
  { startOk := startSymbolOk bits
    sender := sender.1
    count := count.1
    epoch := epoch.1
    horizon := horizon.1
    disc := disc.1
    signature := signature.1
    records := readRecords (min count.1 Config.framePositions) signature.2
    crcOk := crc8 body == (takeField 8 (bits.drop (length - 8))).1 }

/-! ### The configuration image -/

/-- A byte of the image as a number; a byte that was not read is 0 (log 11). -/
def byteAt (image : List Byte) (i : Nat) : Nat := (image.getD i 0).toNat

/-- A multi-byte field: big-endian (Formats). -/
def fieldAt (image : List Byte) (start : Nat) : Nat → Nat
  | 0 => 0
  | n + 1 => fieldAt image start n * 256 + byteAt image (start + n)

/-- Bytes `start` to `start + n - 1` are 0. -/
def zerosAt (image : List Byte) (start n : Nat) : Bool :=
  (List.range n).all fun i => byteAt image (start + i) == 0

/-- An input select code (Formats). -/
def inputOfCode (n : Nat) : InputSelect := if n = 1 then .test else .pin

/-- An edge select code (Formats). -/
def edgesOfCode : Nat → EdgeSelect
  | 1 => .rise
  | 2 => .fall
  | 3 => .both
  | _ => .off

/-- A polarity choice code (Formats). -/
def polarityOfCode : Nat → PolaritySel
  | 1 => .rise
  | 2 => .fall
  | _ => .any

/-- Where channel c's record starts (Formats). -/
def channelBase (c : Fin 4) : Nat := 24 + 12 * c.val

/-- A channel record's fields are in range and its reserved bytes 0 (R30, R190). -/
def channelRecordOk (image : List Byte) (c : Fin 4) : Bool :=
  let r := channelBase c
  decide (byteAt image r ≤ 1) && decide (byteAt image (r + 1) ≤ 3) && decide (byteAt image (r + 2) ≤ 1)
    && zerosAt image (r + 3) 1
    && decide (1 ≤ fieldAt image (r + 6) 3) && decide (fieldAt image (r + 6) 3 ≤ 65536)
    && zerosAt image (r + 11) 1

/-- Channel c's configuration (R30, Formats). -/
def channelConfig (image : List Byte) (c : Fin 4) : ChannelConfig :=
  let r := channelBase c
  { input := inputOfCode (byteAt image r)
    edges := edgesOfCode (byteAt image (r + 1))
    publish := byteAt image (r + 2) == 1
    holdoff := fieldAt image (r + 4) 2
    prescale := fieldAt image (r + 6) 3
    rate := fieldAt image (r + 9) 2 }

/-- The group and station parts (Formats). -/
def imageParams (image : List Byte) : Params where
  stations := BitVec.ofNat 8 (byteAt image 4)
  exponent := BitVec.ofNat 8 (byteAt image 5)
  bitCode := BitVec.ofNat 8 (byteAt image 6)
  missLimit := BitVec.ofNat 8 (byteAt image 7)
  tolerance := BitVec.ofNat 8 (byteAt image 8)
  delay := BitVec.ofNat 8 (byteAt image 16)
  statusInterval := BitVec.ofNat 8 (byteAt image 17)
  density := BitVec.ofNat 16 (fieldAt image 18 2)

/-- Check 1: the marker (R188). -/
def markerOk (image : List Byte) : Bool := byteAt image 0 == 0xC5 && byteAt image 1 == 0x3A

/-- Check 2: the revision (R188). -/
def revisionOk (image : List Byte) : Bool := byteAt image 2 == 0x02

/-- Check 3: the CRC-24 of bytes 0-508 (R188, R189). -/
def imageCrcOk (image : List Byte) : Bool :=
  (crc24 (image.take 509)).toNat == fieldAt image 509 3

/-- Check 4: every field in range, every reserved byte 0 (R190). -/
def fieldsOk (image : List Byte) : Bool :=
  zerosAt image 3 1
    && decide (2 ≤ byteAt image 4) && decide (byteAt image 4 ≤ 16)
    && decide (16 ≤ byteAt image 5) && decide (byteAt image 5 ≤ 24)
    && decide (byteAt image 6 ≤ 3)
    && decide (2 ≤ byteAt image 7) && decide (byteAt image 7 ≤ 15)
    && decide (1 ≤ byteAt image 8) && decide (byteAt image 8 ≤ 15)
    && zerosAt image 9 7
    && decide (1 ≤ byteAt image 17)
    && zerosAt image 20 4
    && (List.finRange 4).all (channelRecordOk image)
    && zerosAt image 472 37

/-- Check 5: Wn ≥ S, and the latched number is less than S (R188, R190). -/
def placeOk (image : List Byte) (number : Fin 16) : Bool :=
  let E := 2 ^ byteAt image 5
  let b := 4 * 2 ^ byteAt image 6
  decide (byteAt image 4 ≤ (E - Config.guardTicks) / (Config.windowBits * b))
    && decide (number.val < byteAt image 4)

/-- The five image checks (R188). -/
def imageOk (image : List Byte) (number : Fin 16) : Bool :=
  markerOk image && revisionOk image && imageCrcOk image && fieldsOk image && placeOk image number

/-- The group signature: the CRC-24 of bytes 4-15 (R189). -/
def groupSignature (image : List Byte) : BitVec 24 := crc24 ((image.drop 4).take 12)

/-! ### Measure records -/

/-- Where measure i's record starts (Formats). -/
def measureBase (i : Fin 8) : Nat := 72 + 40 * i.val

/-- A source's three bytes (Formats). -/
def sourceAt (image : List Byte) (i : Nat) : Source :=
  ⟨finOfNat 15 (byteAt image i), finOfNat 3 (byteAt image (i + 1)), polarityOfCode (byteAt image (i + 2))⟩

/-- A source's bytes are listed codes (R200). -/
def sourceCodesOk (image : List Byte) (i : Nat) : Bool :=
  decide (byteAt image i ≤ 15) && decide (byteAt image (i + 1) ≤ 3) && decide (byteAt image (i + 2) ≤ 2)

/-- A measure kind code 1-3 (Formats). -/
def kindOfCode : Nat → MeasureKind
  | 1 => .totalize
  | 2 => .reciprocal
  | _ => .interval

/-- A gate kind code (Formats). -/
def gateOfCode : Nat → GateKind
  | 0 => .free
  | 1 => .timed
  | 2 => .edge
  | _ => .directive

/-- Measure i's record as fields (R104, Formats), meaningful when its checks pass. -/
def measureFields (image : List Byte) (i : Fin 8) : MeasureConfig :=
  let r := measureBase i
  { kind := kindOfCode (byteAt image r)
    gate := gateOfCode (byteAt image (r + 1))
    gateAlign := if byteAt image (r + 2) = 1 then .mark else .unaligned
    policy := if byteAt image (r + 3) = 1 then .latest else .first
    a := sourceAt image (r + 4)
    b := sourceAt image (r + 7)
    g := sourceAt image (r + 10)
    accept := BitVec.ofNat 3 (byteAt image (r + 13))
    faultMask := BitVec.ofNat 6 (byteAt image (r + 14))
    rearm := BitVec.ofNat 8 (byteAt image (r + 15))
    autoArm := byteAt image (r + 16) == 1
    length := BitVec.ofNat 32 (fieldAt image (r + 18) 4)
    blockSize := BitVec.ofNat 16 (fieldAt image (r + 22) 2)
    spanLimit := BitVec.ofNat 16 (fieldAt image (r + 24) 2)
    windowLow := BitVec.ofNat 48 (fieldAt image (r + 26) 6)
    windowHigh := BitVec.ofNat 48 (fieldAt image (r + 32) 6) }

/-- Codes check (R105, R200). -/
def measureCodesOk (image : List Byte) (i : Fin 8) : Bool :=
  let r := measureBase i
  decide (byteAt image r ≤ 3) && decide (byteAt image (r + 1) ≤ 3) && decide (byteAt image (r + 2) ≤ 1)
    && decide (byteAt image (r + 3) ≤ 1)
    && sourceCodesOk image (r + 4) && sourceCodesOk image (r + 7) && sourceCodesOk image (r + 10)
    && decide (byteAt image (r + 16) ≤ 1)
    && (byteAt image (r + 2) != 1 || byteAt image (r + 1) == 1)

/-- Reserved check (R105). -/
def measureReservedOk (image : List Byte) (i : Fin 8) : Bool :=
  let r := measureBase i
  decide (byteAt image (r + 13) < 8) && decide (byteAt image (r + 14) < 64) && zerosAt image (r + 17) 1
    && zerosAt image (r + 38) 2

/-- The sources a kind and gate use (R104, R105). -/
def MeasureConfig.usedSources (c : MeasureConfig) : List Source :=
  [c.a] ++ (if c.kind = .interval then [c.b] else []) ++ (if c.gate = .edge then [c.g] else [])

/-- The other checks of R105 on a record's fields: ranges, window, timed length, stations, local channels,
TOTALIZE source, TOTALIZE gate, free gate. -/
def measureFieldsOk (c : MeasureConfig) (stations E : Nat) (number : Fin 16)
    (edges : Fin 4 → EdgeSelect) : Bool :=
  decide (1 ≤ c.spanLimit.toNat) && decide (c.spanLimit.toNat ≤ 32767)
    && (c.kind != .interval || decide (1 ≤ c.blockSize.toNat))
    && (c.gate != .timed || decide (1 ≤ c.length.toNat))
    && (c.kind != .interval || decide (c.windowLow.toNat ≤ c.windowHigh.toNat))
    && (c.gate != .timed || decide (c.length.toNat ≤ c.spanLimit.toNat * E))
    && c.usedSources.all (fun x => decide (x.station.val < stations))
    && c.usedSources.all (fun x => x.station != number || edges x.channel != .off)
    && (c.kind != .totalize || (c.a.station == number && c.a.polarity == .any))
    && (c.kind != .totalize || c.gate != .edge || c.g.station == number)
    && (c.kind == .interval || c.gate != .free)

/-- Measure i's configuration when its record is not of kind DISABLED and passes every check (R105). -/
def measureConfig (image : List Byte) (number : Fin 16) (i : Fin 8) : Option MeasureConfig :=
  let c := measureFields image i
  if byteAt image (measureBase i) != 0 && measureCodesOk image i && measureReservedOk image i
      && measureFieldsOk c (byteAt image 4) (2 ^ byteAt image 5) number
          (fun ch => (channelConfig image ch).edges)
  then some c else none

/-! ### Trigger records -/

/-- Where sequence i's record starts (Formats). -/
def triggerBase (i : Fin 4) : Nat := 392 + 20 * i.val

/-- Step j (from 0) of the record at r (Formats). -/
def stepAt (image : List Byte) (r j : Nat) : TriggerStep where
  target := BitVec.ofNat 5 (byteAt image (r + 5 + 5 * j))
  code := BitVec.ofNat 4 (byteAt image (r + 6 + 5 * j))
  mask := BitVec.ofNat 8 (byteAt image (r + 7 + 5 * j))
  lead := BitVec.ofNat 8 (byteAt image (r + 8 + 5 * j))
  pause := BitVec.ofNat 8 (byteAt image (r + 9 + 5 * j))

/-- Step j's bytes pass the target, code and lead checks (R179, R200). -/
def stepOk (image : List Byte) (r j : Nat) : Bool :=
  (byteAt image (r + 5 + 5 * j) == 16 || decide (byteAt image (r + 5 + 5 * j) < byteAt image 4))
    && decide (1 ≤ byteAt image (r + 6 + 5 * j)) && decide (byteAt image (r + 6 + 5 * j) ≤ 7)
    && decide (1 ≤ byteAt image (r + 8 + 5 * j))

/-- The source of the record at r (Formats). -/
def triggerSource (image : List Byte) (r : Nat) : TriggerSource :=
  if byteAt image r = 1 then
    .channel (finOfNat 3 (byteAt image (r + 1) % 4)) (polarityOfCode (byteAt image (r + 1) / 16 % 4))
  else .measure (finOfNat 7 (byteAt image (r + 2)))

/-- The record at r passes the checks of R179 that do not concern its steps. -/
def triggerHeadOk (image : List Byte) (r : Nat) : Bool :=
  decide (byteAt image r ≤ 2)
    && decide (byteAt image (r + 1) / 64 = 0) && decide (byteAt image (r + 1) / 4 % 4 = 0)
    && decide (byteAt image (r + 1) / 16 % 4 ≤ 2)
    && decide (byteAt image (r + 2) ≤ 7)
    && decide (1 ≤ byteAt image (r + 3)) && decide (byteAt image (r + 3) ≤ 3)
    && zerosAt image (r + 4) 1
    && (byteAt image r != 1 || edgesOfCode (byteAt image (channelBase
          (finOfNat 3 (byteAt image (r + 1) % 4)) + 1)) != .off)

/-- Sequence i's configuration when its source is not NONE and it passes every check (R179). -/
def triggerConfig (image : List Byte) (i : Fin 4) : Option TriggerConfig :=
  let r := triggerBase i
  let count := byteAt image (r + 3)
  if byteAt image r != 0 && triggerHeadOk image r && (List.range count).all (stepOk image r) then
    some ⟨triggerSource image r, (List.range count).map (stepAt image r)⟩
  else none

end Sys2Proof.Machine
end

