-- ==== Sys2Proof/Machine/Flags.lean ====
section
/-! DEFINITION. Flags: qualifiers and masks (R159, Formats), the lines the station shows (R18, R77, R187,
R193, R194), and the STATUS record's fields (R196). -/

namespace Sys2Proof.Machine

/-- The twelve qualifiers (chapter Blocks and Results). -/
inductive Qualifier where
  | fault (k : FaultKind)
  | overrange
  | partialBlock
  | shifted
  | noEvents
  | gateEnd
  | drops
deriving DecidableEq, Repr

/-- The qualifier index of a fault kind, which is also its fault mask bit (Formats). -/
def FaultKind.index : FaultKind → Nat
  | .gap => 0
  | .discontinuity => 1
  | .sourceAbsent => 2
  | .sourceForeign => 3
  | .lateGate => 4
  | .storeFull => 5

/-- A qualifier's index (Formats). -/
def Qualifier.index : Qualifier → Nat
  | .fault k => k.index
  | .overrange => 6
  | .partialBlock => 7
  | .shifted => 8
  | .noEvents => 9
  | .gateEnd => 10
  | .drops => 11

/-- A mask with one more member: bit i is member i (R198). -/
def withBit {w : Nat} (m : BitVec w) (i : Nat) : BitVec w := m ||| BitVec.twoPow w i

/-- A mask without a member. -/
def withoutBit {w : Nat} (m : BitVec w) (i : Nat) : BitVec w := m &&& ~~~(BitVec.twoPow w i)

/-- The mask of the indices with a property (R198). -/
def maskOf (n : Nat) (f : Fin n → Bool) : BitVec n :=
  (List.finRange n).foldl (fun m i => if f i then withBit m i.val else m) 0

/-- Set a qualifier (R159). -/
def setQual (q : Qualifier) (quals : BitVec 12) : BitVec 12 := withBit quals q.index

/-- Set a qualifier when a condition holds. -/
def setQualIf (p : Bool) (q : Qualifier) (quals : BitVec 12) : BitVec 12 :=
  if p then setQual q quals else quals

/-- A qualifier is set. -/
def hasQual (q : Qualifier) (quals : BitVec 12) : Bool := quals.getLsbD q.index

/-- Set a qualifier on the block being formed (R120, R159). -/
def Measure.qualify (q : Qualifier) (m : Measure) : Measure :=
  { m with block := { m.block with quals := setQual q m.block.quals } }

/-- The fault kind's flag in the fault mask is set (R118). -/
def Measure.masks (m : Measure) (k : FaultKind) : Bool :=
  match m.config with
  | some c => c.faultMask.getLsbD k.index
  | none => false

/-- ARMED, OPEN and CLOSING are the active states (R107). -/
def MeasureState.active : MeasureState → Bool
  | .armed | .opened | .closing => true
  | _ => false

/-- Counted active in STATUS: the active states and REPORTING (R107). -/
def MeasureState.reported (x : MeasureState) : Bool := x.active || x == .reporting

/-- A sequence is RUNNING (R181). -/
def SequenceState.isRunning : SequenceState → Bool
  | .running _ _ _ => true
  | _ => false

/-- The STATUS record's fields at this moment (R196). -/
def State.status (s : State) : Status where
  cause := s.loader.cause
  origin := s.eu.origin
  faultMask := maskOf 8 fun i => (s.meas i).st == .fault
  disabledMask := s.loader.measDisabled
  activeMask := maskOf 8 fun i => (s.meas i).st.reported
  throttled := maskOf 4 fun c => (s.chan c).st == .throttled
  disabledTriggers := s.loader.trigDisabled
  runningTriggers := maskOf 4 fun i => (s.sequences.get i).st.isRunning
  collisions := s.link.collisions
  discards := s.link.discards
  directiveDrops := s.directiveDrops
  triggerOverruns := s.triggerOverruns

/-! ### Lines -/

/-- READY: high while LOCKED or MUTE (R193). -/
def State.ready (s : State) : Bool := s.hasTime

/-- FAULT: high in CONFIG_FAULT, in MUTE, or while a measure is in FAULT (R194). -/
def State.faultLine (s : State) : Bool :=
  s.eu.align == some .configFault || s.eu.align == some .mute
    || (s.eu.align.isSome && (List.finRange 8).any fun i => (s.meas i).st == .fault)

/-- The station's pull on MARK (R18). -/
def State.markLine (s : State) : Bool := s.eu.markDrive

/-- The station's pull on DATA: bit i of the frame for the b ticks from window start + i x b (R77). -/
def State.dataLine (s : State) : Bool :=
  match s.link.sending with
  | some x => ((frameBits x.frame)[x.ticks / s.bitPeriod]?).getD false
  | none => false

/-- CSn is low during the image read (R187). -/
def State.chipSelectLow (s : State) : Bool :=
  s.eu.align == some .loading && decide (s.loader.readTicks < Config.readTicks)

/-- SCLK: idle low, one period of 8 ticks a bit, rising in mid period (R187; log 19). -/
def State.sclk (s : State) : Bool :=
  s.chipSelectLow && decide (Config.sclkPeriod / 2 ≤ s.loader.readTicks % Config.sclkPeriod)

/-- MOSI: command 0x03 and address 0x0000, then low (R187), and low while CSn is high (log 48). -/
def State.mosi (s : State) : Bool :=
  s.chipSelectLow
    && ((natBits 8 0x03 ++ natBits 16 0x0000)[s.loader.readTicks / Config.sclkPeriod]?).getD false

end Sys2Proof.Machine
end

