-- ==== Sys2Proof/Machine/Store.lean ====
section
/-! DEFINITION. The Stamp Store: who wants an entry, the views of the roles, passing and release (chapter
The Stamp Store). -/

namespace Sys2Proof.Machine

/-- A polarity choice takes a polarity (R63). -/
def PolaritySel.takes : PolaritySel → Polarity → Bool
  | .any, _ => true
  | .rise, p => p == .rise
  | .fall, p => p == .fall

/-- A source names the stamps of a station's channel with a polarity (R43, R56). -/
def Source.names (x : Source) (station : Fin 16) (channel : Fin 4) (p : Polarity) : Bool :=
  x.station == station && x.channel == channel && x.polarity.takes p

/-- The source a role reads stamps of, if the measure fills the role: A but for TOTALIZE, B for INTERVAL,
G for an EDGE gate (R63). -/
def MeasureConfig.roleSource (c : MeasureConfig) : Role → Option Source
  | .A => if c.kind = .totalize then none else some c.a
  | .B => if c.kind = .interval then some c.b else none
  | .G => if c.gate = .edge then some c.g else none

/-- The source of a measure's role, if it has one. -/
def Measure.roleSource (m : Measure) (r : Role) : Option Source := m.config.bind (·.roleSource r)

/-- What a measure holds about a role's horizon (R107). -/
def Measure.final (m : Measure) : Role → FinalHorizon
  | .A => m.finalA
  | .B => m.finalB
  | .G => m.finalG

/-- The measures in whose view of a role an entry stands (R63). -/
def Entry.want (e : Entry) : Role → BitVec 8
  | .A => e.wantA
  | .B => e.wantB
  | .G => e.wantG

/-- The entry stands in the view of a role of measure i (R63). -/
def Entry.inView (e : Entry) (i : Fin 8) (r : Role) : Bool := (e.want r).getLsbD i.val

/-- The measures whose role held the entry's source when it was offered (R151). -/
def Entry.held (e : Entry) : Role → BitVec 8
  | .A => e.heldA
  | .B => e.heldB
  | .G => e.heldG

/-- The entry was offered while the role of measure i held its source, in the block that is being formed
(R151). -/
def Entry.heldFor (e : Entry) (i : Fin 8) (r : Role) : Bool := (e.held r).getLsbD i.val

/-- The measures of the consumer set (R59). -/
def Entry.consumers (e : Entry) : BitVec 8 := e.wantA ||| e.wantB ||| e.wantG

/-- The consumer set is not empty (R52, R59). -/
def Entry.wanted (e : Entry) : Bool := e.publish || e.consumers != 0

/-- Two entries hold the same stamp: within a source no two have the same time (R53). Remote records whose times wrap
can put two entries of equal time into one list all the same, as R58 tests the newest entry only: the model then
passes, publishes and examines the two as one, its own choice (log 49). -/
def Entry.same (e f : Entry) : Bool :=
  e.station == f.station && e.channel == f.channel && e.time == f.time

/-- An entry a role of a measure is done with (R64). -/
def Entry.drop (e : Entry) (i : Fin 8) : Role → Entry
  | .A => { e with wantA := withoutBit e.wantA i.val }
  | .B => { e with wantB := withoutBit e.wantB i.val }
  | .G => { e with wantG := withoutBit e.wantG i.val }

/-- An entry a measure has left in every role (R62). -/
def Entry.leave (e : Entry) (i : Fin 8) : Entry := ((e.drop i .A).drop i .B).drop i .G

/-- A new block of measure i judges the entry like any other (R123, R151). -/
def Entry.unhold (e : Entry) (i : Fin 8) : Entry :=
  { e with
    heldA := withoutBit e.heldA i.val
    heldB := withoutBit e.heldB i.val
    heldG := withoutBit e.heldG i.val }

/-- Write the Store, removing every entry with an empty consumer set (R59). -/
def State.setStore (s : State) (l : List Entry) : State := { s with store := l.filter Entry.wanted }

/-- The Store has a free place (R52). -/
def State.storeRoom (s : State) : Bool := decide (s.store.length < Config.storeCapacity)

/-- The measures whose role refers to a stamp (R43, R56, R63). -/
def State.wantMask (s : State) (r : Role) (station : Fin 16) (channel : Fin 4) (p : Polarity) :
    BitVec 8 :=
  maskOf 8 fun i => (s.meas i).st.active &&
    (match (s.meas i).roleSource r with
     | some x => x.names station channel p
     | none => false)

/-- The measures that hold a final horizon for a role (R151). -/
def State.heldMask (s : State) (r : Role) : BitVec 8 :=
  maskOf 8 fun i => (s.meas i).final r != .live

/-- The entry an offered stamp would make (R51). -/
def State.offeredEntry (s : State) (station : Fin 16) (channel : Fin 4) (p : Polarity) (t : TimeStamp)
    (drops : BitVec 8) (publish : Bool) : Entry where
  station := station
  channel := channel
  polarity := p
  time := t
  drops := drops
  publish := publish
  wantA := s.wantMask .A station channel p
  wantB := s.wantMask .B station channel p
  wantG := s.wantMask .G station channel p
  heldA := 0
  heldB := 0
  heldG := 0
  examined := 0

/-- The view of a role: the entries it refers to and has not passed, oldest first (R63). Its cursor stands
at the first. -/
def State.view (s : State) (i : Fin 8) (r : Role) : List Entry :=
  s.store.filter fun e => e.inView i r

/-- The stamps of a view that a block judges: all but those offered while the role held its source (R151). -/
def State.stamps (s : State) (i : Fin 8) (r : Role) : List Entry :=
  (s.view i r).filter fun e => !e.heldFor i r

/-- The measures that hold a final horizon for a role whose cursor stands at the end: such a role meets an arriving
stamp at once (R65, R151). -/
def State.metMask (s : State) (r : Role) : BitVec 8 :=
  maskOf 8 fun i => (s.meas i).final r != .live && (s.view i r).isEmpty

/-- An arriving stamp at the roles that hold its source: a role whose cursor stands at the end passes it at once,
and any other role will pass it as it meets it (R65, R151; log 12). -/
def State.passHeld (s : State) (e : Entry) : Entry :=
  { e with
    wantA := e.wantA &&& ~~~(s.metMask .A)
    wantB := e.wantB &&& ~~~(s.metMask .B)
    wantG := e.wantG &&& ~~~(s.metMask .G)
    heldA := s.heldMask .A
    heldB := s.heldMask .B
    heldG := s.heldMask .G }

/-- Join an entry to the end (R53, R65), past the roles that hold its source and meet it there (R151). -/
def State.store1 (s : State) (e : Entry) : State := s.setStore (s.store ++ [s.passHeld e])

/-- A role passes an entry (R64). -/
def State.passEntry (s : State) (i : Fin 8) (r : Role) (e : Entry) : State :=
  s.setStore (s.store.map fun f => if f.same e then f.drop i r else f)

/-- A new block of measure i judges every entry of its views (R123, R151). -/
def State.unhold (s : State) (i : Fin 8) : State := s.setStore (s.store.map (·.unhold i))

/-- A measure leaves the consumer set of every entry (R62). -/
def State.releaseMeasure (s : State) (i : Fin 8) : State := s.setStore (s.store.map (·.leave i))

/-- Publish leaves every consumer set (R61). -/
def State.stripPublish (s : State) : State :=
  s.setStore (s.store.map fun e => { e with publish := false })

/-- A remote record is out of order: not later than the newest entry of its source (R58). -/
def State.outOfOrder (s : State) (station : Fin 16) (channel : Fin 4) (t : TimeStamp) : Bool :=
  match (s.store.filter fun e => e.station == station && e.channel == channel).getLast? with
  | some newest => !later t newest.time
  | none => false

/-- The source horizon a measure reads for a role (R98, R151). -/
def State.roleHorizon (s : State) (i : Fin 8) (r : Role) : Option TimeStamp :=
  match (s.meas i).final r with
  | .held h => h
  | .live =>
    match (s.meas i).roleSource r with
    | none => none
    | some x => if x.station = s.loader.number then some s.localHorizon else (s.peer x.station).horizon

/-- A horizon is later than a time; none is earlier than every time (R91, R98). -/
def horizonLater (h : Option TimeStamp) (t : TimeStamp) : Bool :=
  match h with
  | some x => later x t
  | none => false

/-- A horizon is at or after a time. -/
def horizonAtOrAfter (h : Option TimeStamp) (t : TimeStamp) : Bool :=
  match h with
  | some x => atOrAfter x t
  | none => false

/-- A span crosses a discontinuity of the own station or of one of the stations named (R27). -/
def State.crosses (s : State) (a b : TimeStamp) (stations : List (Fin 16)) : Bool :=
  crossesAt a b s.eu.disc ||
    stations.any fun p => p != s.loader.number &&
      (match (s.peer p).disc with
       | some d => crossesAt a b d
       | none => false)

end Sys2Proof.Machine
end

