-- ==== Sys2Proof/Machine/Triggers.lean ====
section
/-! DEFINITION. The Trigger Sequence Unit and the Directive Outbox's placements (R82, R178 to R183). -/

namespace Sys2Proof.Machine

/-! ### What a trigger moves -/

/-- What a trigger moves, as it stands. -/
def State.triggerSide (s : State) : TriggerSide :=
  ⟨s.sequences, s.link.outbox, s.directiveDrops, s.triggerOverruns⟩

/-- Write what a trigger moves. -/
def State.setTriggers (s : State) (x : TriggerSide) : State :=
  { s with
    sequences := x.sequences
    link := { s.link with outbox := x.outbox }
    directiveDrops := x.directiveDrops
    triggerOverruns := x.triggerOverruns }

/-- Change what a trigger moves. -/
def State.modTriggers (s : State) (f : TriggerSide → TriggerSide) : State := s.setTriggers (f s.triggerSide)

/-- Write sequence i. -/
def TriggerSide.setSeq (x : TriggerSide) (i : Fin 4) (q : Sequence) : TriggerSide :=
  { x with sequences := x.sequences.set i q }

/-- Count `n` directives lost (R178). -/
def TriggerSide.countDrops (x : TriggerSide) (n : Nat) : TriggerSide :=
  { x with directiveDrops := satAdd x.directiveDrops n }

/-- Count `n` directives lost (R178). -/
def State.countDirectiveDrops (s : State) (n : Nat) : State := s.modTriggers (·.countDrops n)

/-! ### Placements -/

/-- The directive a step places: effective (e + lead):0, e the local epoch at the tick of placing (R181). -/
def stepDirective (s : State) (x : TriggerStep) : Directive where
  target := x.target
  code := x.code
  immediate := false
  mask := x.mask
  epoch := s.localTime.epoch + x.lead.setWidth 16
  offset := 0
  reserved := 0

/-- Offer a directive to the Directive Outbox, which a MUTE station keeps closed (R82, R183). -/
def TriggerSide.place (x : TriggerSide) (muted : Bool) (d : Directive) : TriggerSide :=
  if x.outbox.length < Config.outboxCapacity ∧ muted = false then { x with outbox := x.outbox ++ [d] }
  else x.countDrops 1

/-- Place steps of sequence i from here on until a pause of at least one boundary, or the run's end; `d` gives
each step's directive (R181). -/
def runSteps (i : Fin 4) (muted : Bool) (d : TriggerStep → Directive) :
    List TriggerStep → TriggerSide → TriggerSide
  | [], x => x.setSeq i { x.sequences.get i with st := .idle }
  | a :: rest, x =>
    if a.pause = 0 then runSteps i muted d rest (x.place muted (d a))
    else (x.place muted (d a)).setSeq i { x.sequences.get i with st := .running rest a.pause.toNat 0 }

/-- A trigger of sequence i (R181, R182). -/
def TriggerSide.fire (x : TriggerSide) (i : Fin 4) (muted : Bool) (d : TriggerStep → Directive) : TriggerSide :=
  match (x.sequences.get i).st, (x.sequences.get i).config with
  | .idle, some c => runSteps i muted d c.steps x
  | .running _ _ _, _ => { x with triggerOverruns := satAdd x.triggerOverruns 1 }
  | _, _ => x

/-- A boundary at sequence i: a pause counts it and may end (R181). -/
def TriggerSide.boundary (x : TriggerSide) (i : Fin 4) (muted : Bool) (d : TriggerStep → Directive) :
    TriggerSide :=
  match (x.sequences.get i).st with
  | .running rest pause counted =>
    if pause ≤ counted + 1 then runSteps i muted d rest x
    else x.setSeq i { x.sequences.get i with st := .running rest pause (counted + 1) }
  | _ => x

/-- The station is MUTE (R79). -/
def State.isMute (s : State) : Bool := s.eu.align == some .mute

/-- A trigger of sequence i (R181, R182). -/
def fireSequence (i : Fin 4) (s : State) : State := s.modTriggers (·.fire i s.isMute (stepDirective s))

/-- A boundary reaches sequence i (R181). -/
def boundarySequence (i : Fin 4) (s : State) : State := s.modTriggers (·.boundary i s.isMute (stepDirective s))

/-! ### Sources -/

/-- Sequence i's source is this formed stamp (R180). -/
def Sequence.onStamp (x : Sequence) (c : Fin 4) (p : Polarity) : Bool :=
  match x.config with
  | some ⟨.channel ch pol, _⟩ => ch == c && pol.takes p
  | _ => false

/-- Sequence i's source is this measure (R165, R180). -/
def Sequence.onMeasure (x : Sequence) (m : Fin 8) : Bool :=
  match x.config with
  | some ⟨.measure k, _⟩ => k == m
  | _ => false

/-- A formed stamp is handed to the sequences (R38, R180). -/
def fireStamp (c : Fin 4) (p : Polarity) (s : State) : State :=
  forEach s.sequenceOrder
    (fun s i => if (s.sequences.get i).onStamp c p then fireSequence i s else s) s

/-- An enqueue of a group is handed to the sequences (R165, R180). -/
def fireEnqueue (m : Fin 8) (s : State) : State :=
  forEach s.sequenceOrder
    (fun s i => if (s.sequences.get i).onMeasure m then fireSequence i s else s) s

/-- A boundary reaches the sequences (R19, R181). -/
def boundarySequences (s : State) : State :=
  forEach s.sequenceOrder (fun s i => boundarySequence i s) s

end Sys2Proof.Machine
end

