-- ==== Sys2Proof/Machine/Measures.lean ====
section
/-! DEFINITION. Measures: results and the Result Queue, conditions and faults, gates, finishing and
rearming (chapters Measures, Blocks and Results). -/

namespace Sys2Proof.Machine

/-! ### The Result Queue -/

/-- The Result Queue has room (R160). -/
def State.queueRoom (s : State) : Bool := decide (s.queue.length < Config.queueCapacity)

/-- Enqueue a group: it takes its sequence number and fires the triggers (R125, R160, R165). -/
def enqueueGroup (g : Group) (s : State) : State :=
  fireEnqueue g.measure
    { s.modMeas g.measure (fun m => { m with sequence := m.sequence + 1 }) with
      queue := s.queue ++ [{ g with sequence := (s.meas g.measure).sequence }] }

/-- The fault report of a measure: a head alone whose one flag is the reason (R158). -/
def faultReport (i : Fin 8) (kind : MeasureKind) (k : FaultKind) : Group where
  measure := i
  kind := kind
  isFault := true
  quals := setQual (.fault k) 0
  sequence := 0
  sampleCount := 0
  values := []

/-- The configured kind; a measure that takes events has one (R104). -/
def Measure.kind (m : Measure) : MeasureKind :=
  match m.config with
  | some c => c.kind
  | none => .totalize

/-- What a measure drops with its block when it becomes IDLE or enters FAULT (R119, R121, R122, R131). -/
def Measure.dropBlock (m : Measure) : Measure :=
  { m with
    openTime := none
    closeTime := none
    searchTime := none
    searchAfter := false
    carriedOpening := none
    closedByStamp := false
    rearmTick := none
    block := .empty
    pendingA := false
    pendingB := false
    lossMark := false
    lastStop := none
    finalA := .live
    finalB := .live
    finalG := .live
    heldGroup := none
    pendingFault := none
    heldReport := none }

/-- A measure as it enters FAULT (R119). -/
def Measure.faulted (m : Measure) : Measure := { m.dropBlock with st := .fault }

/-- A measure as it becomes IDLE (R121, R122). -/
def Measure.idled (m : Measure) : Measure := { m.dropBlock with st := .idle }

/-- Enter FAULT: the block is discarded, the entries released, and a report formed, which is offered at
once or waits for the arbiter (R119, R120, R162). -/
def enterFault (i : Fin 8) (k : FaultKind) (offer : Bool) (s : State) : State :=
  let report := faultReport i (s.meas i).kind k
  let s1 := (s.modMeas i Measure.faulted).releaseMeasure i
  if offer && s1.queueRoom then enqueueGroup report s1
  else s1.modMeas i fun m => { m with heldReport := some report }

/-! ### Conditions -/

/-- A condition reaches a measure (R118 to R120). -/
def takeCondition (i : Fin 8) (k : FaultKind) (offer : Bool) (s : State) : State :=
  let m := s.meas i
  if m.st.active then
    if m.masks k then s.modMeas i (·.qualify (.fault k)) else enterFault i k offer s
  else if m.st = .reporting ∧ m.masks k = false ∧ m.pendingFault = none then
    s.modMeas i fun m => { m with pendingFault := some k }
  else s

/-- Whether a role of the measure reads a source on station p. -/
def Measure.roleOn (m : Measure) (r : Role) (p : Fin 16) : Bool :=
  match m.roleSource r with
  | some x => x.station == p
  | none => false

/-- A source of the measure names station p (R99). -/
def Measure.namesStation (m : Measure) (p : Fin 16) : Bool :=
  m.roleOn .A p || m.roleOn .B p || m.roleOn .G p

/-- Keep a final horizon for a role on p, unless one is held already (R100, R151). -/
def holdFinal (on : Bool) (h : Option TimeStamp) (f : FinalHorizon) : FinalHorizon :=
  if on && f == .live then .held h else f

/-- The final horizons of every source on p (R120, R151). -/
def Measure.holdFinals (m : Measure) (p : Fin 16) (h : Option TimeStamp) : Measure :=
  { m with
    finalA := holdFinal (m.roleOn .A p) h m.finalA
    finalB := holdFinal (m.roleOn .B p) h m.finalB
    finalG := holdFinal (m.roleOn .G p) h m.finalG }

/-- SOURCE_ABSENT or SOURCE_FOREIGN of peer p reaches a measure, with p's horizon (R99, R100, R120). -/
def takePeerCondition (i : Fin 8) (k : FaultKind) (p : Fin 16) (offer : Bool) (s : State) : State :=
  let s1 := takeCondition i k offer s
  if (s.meas i).st.active && (s.meas i).masks k then
    s1.modMeas i (·.holdFinals p (s.peer p).horizon)
  else s1

/-- The measure is notified of a change of peer p (R99). -/
def State.notified (s : State) (p : Fin 16) (i : Fin 8) : Bool :=
  (s.meas i).st.reported && (s.meas i).namesStation p

/-- The Peer Table notifies the measures of a peer's change, each once (R99). -/
def notifyPeer (k : FaultKind) (p : Fin 16) (s : State) : State :=
  forEach s.measureOrder
    (fun u i => if s.notified p i then takePeerCondition i k p true u else u) s

/-- The condition a peer's state gives at an entry into ARMED (R101). -/
def PeerState.condition : PeerState → Option FaultKind
  | .absent => some .sourceAbsent
  | .foreign => some .sourceForeign
  | .silent | .present => none

/-- At an entry into ARMED the Peer Table is asked about the peer a role names (R101). -/
def askPeer (i : Fin 8) (offer : Bool) (s : State) (r : Role) : State :=
  match (s.meas i).roleSource r with
  | none => s
  | some x =>
    if x.station = s.loader.number then s
    else
      match (s.peer x.station).st.condition with
      | some k => takePeerCondition i k x.station offer s
      | none => s

/-- At an entry into ARMED every named peer is asked about (R101). -/
def askPeers (i : Fin 8) (offer : Bool) (s : State) : State := forEach s.roleOrder (askPeer i offer) s

/-! ### Count snapshots -/

/-- The number of qualified edges of channel c earlier than t: every edge counted but those of the last 8 ticks
at or after t (R36; log 10). -/
def State.snapshot (s : State) (c : Fin 4) (t : TimeStamp) : BitVec 48 :=
  (s.chan c).edgeCount
    - BitVec.ofNat 48 ((s.chan c).recentEdges.filter fun e =>
        decide (s.eu.elapsed ≤ e.tick + Config.captureLatency) && atOrAfter e.time t).length

/-! ### Gates -/

/-- The gate opens at t (R110 to R112). A TOTALIZE measure asks for the open snapshot, answered at once
when t is reached (R36, R149). -/
def openGate (i : Fin 8) (t : TimeStamp) (s : State) : State :=
  let m := s.meas i
  let opened := { m with
    st := .opened, openTime := some t, closeTime := none, carriedOpening := none
    closedByStamp := false }
  match m.config with
  | some c =>
    if c.kind = .totalize then
      if s.reached t then
        s.setMeas i { opened with block := { m.block with openSnapshot := s.snapshot c.a.channel t } }
      else s.setMeas i { opened with block := { m.block with openRequest := some t } }
    else s.setMeas i opened
  | none => s

/-- The close time of the gate: the one fixed, or a TIMED gate's fixed at opening (R110, R113). -/
def Measure.plannedClose (m : Measure) (E : Nat) : Option TimeStamp :=
  match m.closeTime, m.config, m.openTime with
  | some t, _, _ => some t
  | none, some c, some o => if c.gate = .timed then some (addTicks E o c.length.toNat) else none
  | none, _, _ => none

/-- The overrun time of an OPEN EDGE or DIRECTIVE gate (R115). -/
def Measure.overrunTime (m : Measure) : Option TimeStamp :=
  match m.st, m.config, m.openTime with
  | .opened, some c, some o =>
    if c.gate = .edge ∨ c.gate = .directive then some (addEpochs o c.spanLimit.toNat) else none
  | _, _, _ => none

/-! ### Rearming -/

/-- Become IDLE (R121, R122). -/
def becomeIdle (i : Fin 8) (s : State) : State :=
  (s.modMeas i Measure.idled).releaseMeasure i

/-- Rearms remaining after one more rearm; none when there is none left (R122). -/
def Rearms.next : Rearms → Option Rearms
  | .left 0 => none
  | .left (n + 1) => some (.left n)
  | .unlimited => some .unlimited

/-- The next gate's set-up (R124). -/
structure NextGate where
  search : Option TimeStamp
  after : Bool
  opening : Option TimeStamp
  shifted : Bool
deriving DecidableEq, Repr

/-- The set-up of the next gate at enqueue time `now`, after a block of measure `m` whose group rested in
REPORTING or not (R124). -/
def nextGate (c : MeasureConfig) (m : Measure) (E : Nat) (now : TimeStamp) (rested : Bool) : NextGate :=
  match c.gate with
  | .timed =>
    match c.gateAlign with
    | .unaligned =>
      let close := (m.plannedClose E).getD now
      if later now close then ⟨none, false, some now, true⟩ else ⟨none, false, some close, false⟩
    | .mark => ⟨none, false, none, false⟩
  | .edge =>
    if rested then ⟨some now, false, none, true⟩
    else if m.closedByStamp then ⟨none, false, m.closeTime, false⟩
    else ⟨m.openTime, true, none, false⟩
  | .directive => ⟨none, false, none, false⟩
  | .free => if rested then ⟨none, false, some now, true⟩ else ⟨none, false, m.openTime, false⟩

/-- The measure as it enters ARMED by a rearm (R122 to R124). -/
def Measure.rearmed (m : Measure) (g : NextGate) (r : Rearms) (now : TimeStamp) (tick : Nat) : Measure :=
  { m with
    st := .armed
    rearms := r
    armingTime := some now
    openTime := none
    closeTime := none
    searchTime := g.search
    searchAfter := g.after
    carriedOpening := g.opening
    closedByStamp := false
    rearmTick := some tick
    block := { Block.empty with quals := setQualIf g.shifted .shifted 0 }
    finalA := .live
    finalB := .live
    finalG := .live
    heldGroup := none
    pendingFault := none }

/-- Open the carried opening in the tick of the entry into ARMED, but for a TIMED gate whose opening still
lies ahead: that one waits for TIMED_GATE_REOPEN (R124). -/
def openCarried (i : Fin 8) (now : TimeStamp) (s : State) : State :=
  match (s.meas i).st, (s.meas i).carriedOpening with
  | .armed, some t =>
    if (s.meas i).config.map (·.gate) = some .timed ∧ later t now then s else openGate i t s
  | _, _ => s

/-- After its group is enqueued a measure takes its next state (R122 to R124). `offer` is false while the
arbiter gives places (R162). -/
def nextState (i : Fin 8) (rested offer : Bool) (s : State) : State :=
  let m := s.meas i
  match m.rearms.next, m.config with
  | some r, some c =>
    let g := nextGate c m s.epochLength s.localTime rested
    openCarried i s.localTime
      (askPeers i offer ((s.setMeas i (m.rearmed g r s.localTime s.eu.elapsed)).unhold i))
  | _, _ => becomeIdle i s

/-- A measure as it enters REPORTING with a held group (R117, R123, R131). -/
def Measure.holding (g : Group) (m : Measure) : Measure :=
  { m with
    st := .reporting
    heldGroup := some g
    block := .empty
    pendingA := false
    pendingB := false
    lossMark := false
    lastStop := none
    finalA := .live
    finalB := .live
    finalG := .live }

/-- Enter REPORTING with a held group: every entry is released (R117, R123, R131). -/
def enterReporting (i : Fin 8) (g : Group) (s : State) : State :=
  (s.modMeas i (Measure.holding g)).releaseMeasure i

/-- A finished block: its group is formed and offered (R117, R153, R154). -/
def finishBlock (i : Fin 8) (sampleCount : BitVec 16) (values : List (BitVec 48)) (s : State) : State :=
  let m := s.meas i
  let g : Group :=
    { measure := i, kind := m.kind, isFault := false, quals := m.block.quals, sequence := 0
      sampleCount := sampleCount, values := values }
  if s.queueRoom then nextState i false true (enqueueGroup g s) else enterReporting i g s

/-! ### TOTALIZE completion -/

/-- The close snapshot is answered: the block is judged and finished (R150, R157). -/
def completeTotalize (i : Fin 8) (close : BitVec 48) (s : State) : State :=
  let m := s.meas i
  let count := close - m.block.openSnapshot
  let finish := fun (s : State) =>
    finishBlock i 0 [count] (s.modMeas i fun m =>
      { m with block := { m.block with quals := setQualIf (count == 0) .noEvents m.block.quals } })
  match m.openTime, m.closeTime with
  | some o, some c =>
    if s.crosses o c [] then
      if m.masks .discontinuity then finish (s.modMeas i (·.qualify (.fault .discontinuity)))
      else enterFault i .discontinuity true s
    else finish s
  | _, _ => finish s

/-- The gate closes at t: the measure enters CLOSING (R113). A TOTALIZE measure asks for the close
snapshot, answered at once when t is reached, and then completes (R36, R149, R150). -/
def closeGate (i : Fin 8) (t : TimeStamp) (s : State) : State :=
  let m := s.meas i
  let s1 := s.setMeas i { m with st := .closing, closeTime := some t }
  match m.config with
  | some c =>
    if c.kind = .totalize then
      if s.reached t && m.block.openRequest.isNone then completeTotalize i (s.snapshot c.a.channel t) s1
      else s1.modMeas i fun m => { m with block := { m.block with closeRequest := some t } }
    else s1
  | none => s1

/-- Local time reaches a TIMED gate's close time: the measure enters CLOSING, and a TOTALIZE measure's close
snapshot is answered by SNAPSHOT_ANSWER in this tick (R113, R149). -/
def closeTimed (i : Fin 8) (t : TimeStamp) (s : State) : State :=
  s.modMeas i fun m =>
    { m with
      st := .closing
      closeTime := some t
      block := if m.kind = .totalize then { m.block with closeRequest := some t } else m.block }

/-- The gate closes by overrun: the block carries OVERRANGE (R115). -/
def overrunGate (i : Fin 8) (t : TimeStamp) (s : State) : State :=
  closeGate i t (s.modMeas i (·.qualify .overrange))

/-! ### The G role -/

/-- The measure has examined an entry's drop count (R131). -/
def State.hasExamined (s : State) (i : Fin 8) (e : Entry) : Bool :=
  s.store.any fun f => f.same e && f.examined.getLsbD i.val

/-- Mark an entry's drop count as examined by the measure (R131). -/
def State.markExamined (s : State) (i : Fin 8) (e : Entry) : State :=
  s.setStore (s.store.map fun f =>
    if f.same e then { f with examined := withBit f.examined i.val } else f)

/-- What an examined drop count of a G stamp does (R131). -/
def examineG (i : Fin 8) (e : Entry) (s : State) : State :=
  if s.hasExamined i e then s
  else
    let s1 := s.markExamined i e
    if e.drops = 0 then s1
    else if e.drops = 255 then takeCondition i .gap true s1
    else s1.modMeas i (·.qualify .drops)

/-- The G stamp is at or after (or, after a rearm, later than) the search time (R111, R124). -/
def Measure.opensAt (m : Measure) (t : TimeStamp) : Bool :=
  match m.searchTime with
  | some x => if m.searchAfter then later t x else atOrAfter t x
  | none => true

/-- The G stamp is later than the open time, and so closes the gate (R113). -/
def Measure.closesAt (m : Measure) (t : TimeStamp) : Bool :=
  match m.openTime with
  | some o => later t o
  | none => true

/-- The G stamp is earlier than the close time, and so passed (R113). -/
def Measure.beforeClose (m : Measure) (t : TimeStamp) : Bool :=
  match m.closeTime with
  | some c => earlier t c
  | none => false

/-- An OPEN EDGE gate whose overrun time is already reached (R115). -/
def State.edgeOverrun (s : State) (i : Fin 8) : Option TimeStamp :=
  match (s.meas i).overrunTime, (s.meas i).config with
  | some t, some c => if c.gate = .edge ∧ s.reached t then some t else none
  | _, _ => none

/-- The G role over its view (R111, R113, R115, R130, R151). `fresh` is true when the gate may just have opened,
so that an overrun time already past closes it in the tick of its opening; before a closing G stamp that already
stands in the view, the model's choice of the two orders R126 allows (log 50). -/
def scanGate : Nat → Bool → Fin 8 → State → State
  | 0, _, _, s => s
  | fuel + 1, fresh, i, s =>
    match (if fresh then s.edgeOverrun i else none) with
    | some t => scanGate fuel true i (overrunGate i t s)
    | none =>
      match s.view i .G with
      | [] => s
      | e :: _ =>
        let m := s.meas i
        if m.st.active && e.heldFor i .G then scanGate fuel fresh i (s.passEntry i .G e)
        else
          match m.st with
          | .armed =>
            if m.opensAt e.time then
              let s1 := examineG i e s
              if (s1.meas i).st = .armed then
                scanGate fuel true i (openGate i e.time (s1.passEntry i .G e))
              else s1
            else scanGate fuel fresh i (s.passEntry i .G e)
          | .opened =>
            if m.closesAt e.time then
              let s1 := examineG i e s
              if (s1.meas i).st = .opened then
                scanGate fuel true i
                  (closeGate i e.time ((s1.passEntry i .G e).modMeas i fun m =>
                    { m with closedByStamp := true }))
              else s1
            else scanGate fuel fresh i (s.passEntry i .G e)
          | .closing =>
            if m.beforeClose e.time then
              scanGate fuel fresh i (s.passEntry i .G e)
            else s
          | _ => s

/-- Steps enough for the G role over its whole view: each passes an entry or closes an overrun gate. -/
def State.scanFuel (s : State) : Nat := 2 * s.store.length + 2

/-- The G role judges its view after a rearm (R124). -/
def rescanGate (i : Fin 8) (s : State) : State := scanGate s.scanFuel true i s

/-- The G roles judge their views after a stamp entered them (R111, R113). -/
def scanArrival (e : Entry) (s : State) : State :=
  forEach s.measureOrder
    (fun s i => if e.wantG.getLsbD i.val then scanGate s.scanFuel false i s else s) s

/-! ### Arming -/

/-- The configured rearm count; 255 is unlimited (R104, R108). -/
def rearmsOf (c : MeasureConfig) : Rearms :=
  if c.rearm = 255 then .unlimited else .left c.rearm.toNat

/-- The measure as an ARM or auto-arm puts it into ARMED (R108). -/
def Measure.armedAt (m : Measure) (c : MeasureConfig) (t : TimeStamp) : Measure :=
  { m.dropBlock with
    st := .armed
    rearms := rearmsOf c
    armingTime := some t
    searchTime := some t }

/-- The gate that opens at the arming: FREE and TIMED NONE at the arming time, TIMED MARK in the tick of a
boundary at local time (R110). -/
def openAtArming (i : Fin 8) (c : MeasureConfig) (t : TimeStamp) (s : State) : State :=
  if (s.meas i).st = .armed then
    match c.gate, c.gateAlign with
    | .free, _ => openGate i t s
    | .timed, .unaligned => openGate i t s
    | .timed, .mark => if s.marks.boundary then openGate i s.localTime s else s
    | _, _ => s
  else s

/-- Arm measure i with arming time t, if it is IDLE (R108 to R110). -/
def armMeasure (i : Fin 8) (t : TimeStamp) (s : State) : State :=
  match (s.meas i).st, (s.meas i).config with
  | .idle, some c => openAtArming i c t (askPeers i true (s.setMeas i ((s.meas i).armedAt c t)))
  | _, _ => s

/-- An ARMED TIMED gate aligned to MARK opens at this boundary, unless its rearm fell in this tick
(R110, R124). -/
def openAligned (i : Fin 8) (s : State) : State :=
  let m := s.meas i
  match m.st, m.config with
  | .armed, some c =>
    if c.gate = .timed ∧ c.gateAlign = .mark ∧ m.rearmTick ≠ some s.eu.elapsed then
      openGate i s.localTime s
    else s
  | _, _ => s

/-- Auto-arm of measure i at local time (R109), but of one that DISARM or CLEAR_FAULT made IDLE (R121). -/
def autoArm (i : Fin 8) (s : State) : State :=
  match (s.meas i).config with
  | some c => if c.autoArm && !(s.meas i).noAutoArm then armMeasure i s.localTime s else s
  | none => s

/-- A boundary reaches the Measure Table: aligned gates open, and at the first boundary after becoming
LOCKED the auto-arms act (R19, R109, R110). -/
def boundaryMeasures (s : State) : State :=
  let s1 := forEach s.measureOrder (fun s i => openAligned i s) s
  if s1.eu.autoArmed then s1
  else forEach s.measureOrder (fun s i => autoArm i s) { s1 with eu := { s1.eu with autoArmed := true } }

/-! ### The arbiter -/

/-- The measure waits for a place (R162). -/
def Measure.waits (m : Measure) : Bool :=
  (m.st == .reporting && m.heldGroup.isSome) || (m.st == .fault && m.heldReport.isSome)

/-- The waiting measure with the lowest index (R162). -/
def State.lowestWaiting (s : State) : Option (Fin 8) := (List.finRange 8).find? fun i => (s.meas i).waits

/-- A REPORTING measure whose held group has been enqueued: FAULT on a pending fault, whose report waits
for the arbiter, else its next state (R120, R122, R162). -/
def afterHeldGroup (i : Fin 8) (pending : Option FaultKind) (s : State) : State :=
  match pending with
  | some k => enterFault i k false s
  | none => nextState i true false s

/-- Give one place to a waiting measure (R162). -/
def givePlace (i : Fin 8) (s : State) : State :=
  let m := s.meas i
  match m.st, m.heldGroup, m.heldReport with
  | .reporting, some g, _ => afterHeldGroup i m.pendingFault (enqueueGroup g s)
  | .fault, _, some g =>
    enqueueGroup g (s.modMeas i fun m => { m with heldReport := none })
  | _, _, _ => s

/-- Give the free places out, one at a time, each to the waiting measure with the lowest index (R162). -/
def givePlaces : Nat → State → State
  | 0, s => s
  | n + 1, s =>
    if s.queueRoom then
      match s.lowestWaiting with
      | some i => givePlaces n (givePlace i s)
      | none => s
    else s

/-! ### Directives at the measures -/

/-- DISARM and CLEAR_FAULT's way to IDLE, from which only ARM arms again (R121). -/
def putIdle (i : Fin 8) (s : State) : State :=
  (becomeIdle i s).modMeas i fun m => { m with noAutoArm := true }

/-- DISARM (R121). An IDLE measure stays IDLE, and auto-arm may still arm it (log 40). -/
def disarmMeasure (i : Fin 8) (s : State) : State :=
  match (s.meas i).st with
  | .disabled | .unloaded => s
  | .idle => becomeIdle i s
  | _ => putIdle i s

/-- CLEAR_FAULT (R121). -/
def clearFaultMeasure (i : Fin 8) (s : State) : State :=
  match (s.meas i).st with
  | .fault => putIdle i s
  | _ => s

/-- LATE_GATE of a late GATE_OPEN or GATE_CLOSE that finds the measure in its state (R112, R174). -/
def lateGate (i : Fin 8) (late : Bool) (s : State) : State :=
  if late then takeCondition i .lateGate true s else s

/-- GATE_OPEN (R112, R174). -/
def gateOpenMeasure (i : Fin 8) (t : TimeStamp) (late : Bool) (s : State) : State :=
  match (s.meas i).st, (s.meas i).config.map (·.gate) with
  | .armed, some GateKind.directive =>
    if ((lateGate i late s).meas i).st = .armed then openGate i t (lateGate i late s)
    else lateGate i late s
  | _, _ => s

/-- GATE_CLOSE (R112, R174). -/
def gateCloseMeasure (i : Fin 8) (t : TimeStamp) (late : Bool) (s : State) : State :=
  match (s.meas i).st, (s.meas i).config.map (·.gate) with
  | .opened, some GateKind.directive =>
    if ((lateGate i late s).meas i).st = .opened then closeGate i t (lateGate i late s)
    else lateGate i late s
  | _, _ => s

/-! ### INTERVAL completion -/

/-- An INTERVAL block's four values (R155). -/
def Block.intervalValues (b : Block) : List (BitVec 48) :=
  [BitVec.ofNat 48 (b.sum.toNat / b.n.toNat), b.minimum, b.maximum,
   BitVec.ofNat 48 (b.rejected.toNat * 2 ^ 24 + b.overrange.toNat)]

/-- Finish an INTERVAL block, with NO_EVENTS when n is 0 (R144, R155, R159). -/
def finishInterval (i : Fin 8) (s : State) : State :=
  let b := (s.meas i).block
  finishBlock i b.n b.intervalValues (s.modMeas i fun m =>
    { m with block := { m.block with quals := setQualIf (b.n == 0) .noEvents m.block.quals } })

/-- FLUSH (R114). -/
def flushMeasure (i : Fin 8) (t : TimeStamp) (s : State) : State :=
  let m := s.meas i
  let flushed := s.modMeas i (·.qualify .partialBlock)
  match m.kind, m.st with
  | .interval, .opened =>
    if m.block.n = 0 then s
    else rescanGate i (finishInterval i (flushed.modMeas i fun m => { m with closeTime := some t }))
  | .interval, .closing =>
    if m.block.n = 0 then s else rescanGate i (finishInterval i flushed)
  | .reciprocal, .opened | .totalize, .opened => rescanGate i (closeGate i t flushed)
  | _, _ => s

end Sys2Proof.Machine
end

