-- ==== Sys2Proof/Machine/Samples.lean ====
section
/-! DEFINITION. Sample formation: what a measure takes and passes at a judgement, the tests of a settled
INTERVAL sample, counting, and the completion of blocks (chapter Sample Formation); with the commands
SNAPSHOT_ANSWER, TIMED_GATE_CLOSE, TIMED_GATE_REOPEN, GATE_OVERRUN, SAMPLE_SETTLE, INTERVAL_BLOCK_COMPLETE
and RECIPROCAL_BLOCK_COMPLETE. -/

namespace Sys2Proof.Machine

/-- What one move of a judgement left, and whether the judgement goes on (R129). -/
structure Move where
  state : State
  goesOn : Bool
deriving DecidableEq, Repr

/-! ### Gate facts -/

/-- The gate is known open through t, a time at or after the open time (R116). -/
def State.knownOpen (s : State) (i : Fin 8) (t : TimeStamp) : Bool :=
  let m := s.meas i
  match m.st, m.config with
  | .closing, _ => (match m.closeTime with | some c => earlier t c | none => false)
  | .opened, some c =>
    match c.gate with
    | .free => true
    | .timed => (match m.plannedClose s.epochLength with | some x => earlier t x | none => false)
    | .directive => later s.localTime t
    | .edge => m.finalG != .live || horizonLater (s.roleHorizon i .G) t
  | _, _ => false

/-- The stamp's time is at or after the gate's close time, so that this block leaves it in the view
(R113, R130; log 25). -/
def State.beyondGate (s : State) (i : Fin 8) (t : TimeStamp) : Bool :=
  match (s.meas i).plannedClose s.epochLength with
  | some c => atOrAfter t c
  | none => false

/-! ### Examining and passing -/

/-- What an examined drop count of an A or B stamp does: 1-254 sets DROPS, 255 the loss mark of an INTERVAL
measure (R131). -/
def examineAB (i : Fin 8) (e : Entry) (s : State) : State :=
  if s.hasExamined i e then s
  else
    let s1 := s.markExamined i e
    if e.drops = 0 then s1
    else if e.drops = 255 then
      (if (s.meas i).kind = .interval then s1.modMeas i fun m => { m with lossMark := true } else s1)
    else s1.modMeas i (·.qualify .drops)

/-- A role takes an entry, or passes it with its drop count examined (R64, R131). -/
def passExamined (i : Fin 8) (r : Role) (s : State) (e : Entry) : State :=
  (examineAB i e s).passEntry i r e

/-- The floor of an ARMED measure (R130). -/
def Measure.floor (m : Measure) : Option TimeStamp :=
  if m.config.map (·.gate) = some .edge then m.searchTime else m.armingTime

/-- Below this time the A and B roles pass what they meet: the floor in ARMED, the open time in OPEN and
CLOSING (R130). -/
def Measure.bottom (m : Measure) : Option TimeStamp :=
  match m.st with
  | .armed => m.floor
  | .opened | .closing => m.openTime
  | _ => none

/-- A time below an active measure's bottom (R130). -/
def Measure.isBelow (m : Measure) (t : TimeStamp) : Bool :=
  match m.bottom with
  | some x => earlier t x
  | none => false

/-- The A or B stamp at the cursor that the role passes without examining it: one that cannot fall in the gate
(R130), or one offered while the role held its source (R151). -/
def State.passable (s : State) (i : Fin 8) (r : Role) : Option Entry :=
  match s.view i r with
  | e :: _ => if e.heldFor i r || (s.meas i).isBelow e.time then some e else none
  | [] => none

/-! ### Tests of a settled sample -/

/-- Stations of a measure's A and B sources (R140). -/
def MeasureConfig.sampleStations (c : MeasureConfig) : List (Fin 16) := [c.a.station, c.b.station]

/-- A sample's value, held in 48 bits (R5, R132; log 17). -/
def State.sampleValue (s : State) (start stop : TimeStamp) : BitVec 48 :=
  BitVec.ofInt 48 (interval s.epochLength start stop)

/-- Count an overrange sample or an abandoned start (R138, R139). -/
def Measure.countOverrange (m : Measure) : Measure :=
  { m with
    block := { m.block with
      overrange := satAdd m.block.overrange 1
      quals := setQual .overrange m.block.quals } }

/-- Count a sample rejected by the window test (R143). -/
def Measure.countRejected (m : Measure) : Measure :=
  { m with block := { m.block with rejected := satAdd m.block.rejected 1 } }

/-- The window test's flag in the accept mask: 0 BELOW, 1 INSIDE, 2 ABOVE (R143, Formats). -/
def MeasureConfig.windowFlag (c : MeasureConfig) (v : BitVec 48) : Nat :=
  if v.toNat < c.windowLow.toNat then 0 else if v.toNat ≤ c.windowHigh.toNat then 1 else 2

/-- An accumulated sample (R144). -/
def Block.accumulate (b : Block) (v : BitVec 48) : Block :=
  { b with
    n := b.n + 1
    sum := b.sum + v.setWidth 64
    minimum := if b.n = 0 ∨ v.toNat < b.minimum.toNat then v else b.minimum
    maximum := if b.n = 0 ∨ b.maximum.toNat < v.toNat then v else b.maximum }

/-- Accumulate, and finish the block when n reaches N (R144). -/
def accumulateSample (i : Fin 8) (c : MeasureConfig) (v : BitVec 48) (s : State) : Move :=
  let s1 := s.modMeas i fun m => { m with block := m.block.accumulate v }
  if (s1.meas i).block.n = c.blockSize then ⟨rescanGate i (finishInterval i s1), false⟩ else ⟨s1, true⟩

/-- Test 5, the window (R143). -/
def testWindow (i : Fin 8) (c : MeasureConfig) (v : BitVec 48) (s : State) : Move :=
  if c.accept.getLsbD (c.windowFlag v) then accumulateSample i c v s
  else ⟨s.modMeas i Measure.countRejected, true⟩

/-- A test that finds its condition: FAULT when unmasked, else the qualifier, and the sample is rejected
(R140 to R142). -/
def rejectBy (i : Fin 8) (k : FaultKind) (s : State) : Move :=
  if (s.meas i).masks k then ⟨s.modMeas i (·.qualify (.fault k)), true⟩
  else ⟨enterFault i k true s, false⟩

/-- Test 4, STORE_FULL (R142). -/
def testStoreFull (i : Fin 8) (c : MeasureConfig) (v : BitVec 48) (s : State) : Move :=
  let s1 := s.modMeas i fun m => { m with pendingA := false, pendingB := false }
  if (s.meas i).pendingA || (s.meas i).pendingB then rejectBy i .storeFull s1 else testWindow i c v s1

/-- Test 3, GAP (R141). -/
def testGap (i : Fin 8) (c : MeasureConfig) (v : BitVec 48) (s : State) : Move :=
  let s1 := s.modMeas i fun m => { m with lossMark := false }
  if (s.meas i).lossMark then rejectBy i .gap s1 else testStoreFull i c v s1

/-- Test 2, DISCONTINUITY (R140). -/
def testDiscontinuity (i : Fin 8) (c : MeasureConfig) (start stop : TimeStamp) (s : State) : Move :=
  if s.crosses start stop c.sampleStations then rejectBy i .discontinuity s
  else testGap i c (s.sampleValue start stop) s

/-- The tests of a settled sample, span first (R139). -/
def testSample (i : Fin 8) (c : MeasureConfig) (start stop : TimeStamp) (s : State) : Move :=
  if c.spanLimit.toNat < (stop.epoch - start.epoch).toNat then
    ⟨s.modMeas i Measure.countOverrange, true⟩
  else testDiscontinuity i c start stop s

/-! ### INTERVAL -/

/-- The A stamp at the cursor that arrived after a sample was taken and is earlier than that sample's stop: no
start (R133, R134; log 41). -/
def State.staleStart (s : State) (i : Fin 8) : Option Entry :=
  match s.stamps i .A, (s.meas i).lastStop with
  | a :: _, some b => if earlier a.time b && !s.beyondGate i a.time then some a else none
  | _, _ => none

/-- No A stamp earlier than the last sample's stop can still arrive (R97, R98). -/
def State.stopPassed (s : State) (i : Fin 8) : Bool :=
  match (s.meas i).lastStop with
  | some b => horizonAtOrAfter (s.roleHorizon i .A) b
  | none => false

/-- The B stamp at the cursor that no start can precede (R133, R135). -/
def State.barrenStop (s : State) (i : Fin 8) : Option Entry :=
  match s.stamps i .B, s.stamps i .A with
  | b :: _, a :: _ => if !later b.time a.time && !s.beyondGate i b.time then some b else none
  | b :: _, [] =>
    if horizonLater (s.roleHorizon i .A) b.time && !s.beyondGate i b.time then some b else none
  | [], _ => none

/-- The stop of an oldest start: the oldest B stamp later than it (R133, R135). -/
def State.stopOf (s : State) (i : Fin 8) (start : Entry) : Option Entry :=
  (s.stamps i .B).find? fun b => later b.time start.time

/-- The start and stop of the sample that settles now, if any (R134, R136). -/
def State.settled (s : State) (i : Fin 8) (c : MeasureConfig) : Option (Entry × Entry) :=
  match s.stamps i .A with
  | [] => none
  | oldest :: _ =>
    match s.stopOf i oldest with
    | none => none
    | some stop =>
      if !s.knownOpen i stop.time then none
      else
        match c.policy with
        | .first => some (oldest, stop)
        | .latest =>
          if horizonLater (s.roleHorizon i .A) stop.time then
            some ((((s.stamps i .A).filter fun a => earlier a.time stop.time).getLast?).getD oldest, stop)
          else none

/-- Take a settled sample: A takes the start and passes every other A stamp earlier than the stop, B takes
the stop, and the sample is tested (R134, R136, R139). -/
def takeSample (i : Fin 8) (c : MeasureConfig) (start stop : Entry) (s : State) : Move :=
  let s1 := ((s.stamps i .A).filter fun a => earlier a.time stop.time).foldl (passExamined i .A) s
  testSample i c start.time stop.time
    ((passExamined i .B s1 stop).modMeas i fun m => { m with lastStop := some stop.time })

/-- a1 is superseded, given the A stamps newer than it (R137). -/
def State.supersededBy (s : State) (i : Fin 8) (a1 : Entry) (newer : List Entry) : Bool :=
  newer.any fun a2 =>
    horizonLater (s.roleHorizon i .B) a2.time &&
      !(s.stamps i .B).any fun b => later b.time a1.time && atOrBefore b.time a2.time

/-- The first superseded A stamp of a list in view order (R137). -/
def State.firstSuperseded (s : State) (i : Fin 8) : List Entry → Option Entry
  | [] => none
  | a :: rest =>
    if s.supersededBy i a rest && !s.beyondGate i a.time then some a else s.firstSuperseded i rest

/-- The start to abandon: no B stamp later than it, and B's horizon at or after (e + span limit + 1):0
(R138). -/
def State.abandoned (s : State) (i : Fin 8) (c : MeasureConfig) : Option Entry :=
  match s.stamps i .A with
  | [] => none
  | a :: _ =>
    let limit : TimeStamp := ⟨a.time.epoch + c.spanLimit + 1, 0, 0⟩
    if (s.stopOf i a).isNone && horizonAtOrAfter (s.roleHorizon i .B) limit && !s.beyondGate i a.time
    then some a else none

/-- Under LATEST, the superseded A stamp to pass (R137). -/
def State.superseded (s : State) (i : Fin 8) (c : MeasureConfig) : Option Entry :=
  if c.policy = .latest then s.firstSuperseded i (s.stamps i .A) else none

/-- The A role passes an abandoned start, which counts as overrange (R138). -/
def abandonStart (i : Fin 8) (s : State) (a : Entry) : Move :=
  ⟨(passExamined i .A s a).modMeas i Measure.countOverrange, true⟩

/-- The role passes a stamp, and the judgement goes on. -/
def passMove (i : Fin 8) (r : Role) (s : State) (e : Entry) : Move := ⟨passExamined i r s e, true⟩

/-- The last sample's stop is forgotten once no earlier A stamp can arrive (log 41). -/
def forgetStop (i : Fin 8) (s : State) : Move := ⟨s.modMeas i fun m => { m with lastStop := none }, true⟩

/-- The moves of an OPEN or CLOSING INTERVAL measure's judgement, each when it is possible, in the order in which
they are looked for (R133 to R138). Which of abandoning the oldest start and passing a superseded one comes first
is left open (log 7). A superseded stamp, also one later than a settling sample's stop, and a B stamp that no start can
precede (R133, R135) are passed before a sample that settles in the same judgement is taken, so that their drop counts
are examined before that sample is tested: the model's choice (R137; log 45). -/
def intervalMoves (i : Fin 8) (c : MeasureConfig) (s : State) : List (Option Move) :=
  [(s.staleStart i).map (passMove i .A s),
   (s.barrenStop i).map (passMove i .B s),
   if s.order.abandonFirst then (s.abandoned i c).map (abandonStart i s) else none,
   (s.superseded i c).map (passMove i .A s),
   (s.settled i c).map fun x => takeSample i c x.1 x.2 s,
   (s.abandoned i c).map (abandonStart i s),
   if s.stopPassed i then some (forgetStop i s) else none]

/-- One move of an OPEN or CLOSING INTERVAL measure's judgement (R133 to R138). -/
def intervalMove (i : Fin 8) (c : MeasureConfig) (s : State) : Option Move :=
  (intervalMoves i c s).findSome? id

/-! ### RECIPROCAL -/

/-- The GAP part of counting a stamp whose drop count is 255 (R147). -/
def reciprocalGap (i : Fin 8) (e : Entry) (s : State) : Move :=
  if e.drops = 255 then rejectBy i .gap s else ⟨s, true⟩

/-- The STORE_FULL part of counting a stamp, also made at completion (R147). -/
def reciprocalStoreFull (i : Fin 8) (s : State) : Move :=
  if (s.meas i).pendingA then rejectBy i .storeFull (s.modMeas i fun m => { m with pendingA := false })
  else ⟨s, true⟩

/-- Two parts of one point, in the order the manual leaves open (log 7). -/
def bothParts (storeFullFirst : Bool) (p q : State → Move) (s : State) : Move :=
  if storeFullFirst then
    let x := q s
    if x.goesOn then p x.state else x
  else
    let x := p s
    if x.goesOn then q x.state else x

/-- A RECIPROCAL measure takes the A stamp at its cursor (R146, R147). The stamp that sets first tests no STORE_FULL
mark, also none set while ARMED (log 46). -/
def countStamp (i : Fin 8) (e : Entry) (s : State) : Move :=
  let m := s.meas i
  match m.block.first with
  | none =>
    ⟨(s.modMeas i fun m => { m with block := { m.block with first := some e.time } }).passEntry i .A e, true⟩
  | some _ =>
    let s1 := (passExamined i .A s e).modMeas i fun m =>
      { m with block := { m.block with
          events := m.block.events + 1 + e.drops.setWidth 48
          last := some e.time } }
    bothParts s.order.storeFullFirst (reciprocalGap i e) (reciprocalStoreFull i) s1

/-- One move of an OPEN or CLOSING RECIPROCAL measure's judgement (R146). -/
def reciprocalMove (i : Fin 8) (s : State) : Option Move :=
  match s.stamps i .A with
  | [] => none
  | e :: _ =>
    if s.knownOpen i e.time && !s.beyondGate i e.time then some (countStamp i e s) else none

/-! ### A judgement -/

/-- One move of measure i's judgement, if one is possible (R129, R130, R151). -/
def judgeMove (i : Fin 8) (s : State) : Option Move :=
  match (s.meas i).config with
  | none => none
  | some c =>
    if (s.meas i).st.active then
      match s.passable i .A with
      | some e => some ⟨s.passEntry i .A e, true⟩
      | none =>
        match s.passable i .B with
        | some e => some ⟨s.passEntry i .B e, true⟩
        | none =>
          if (s.meas i).st = .armed then none
          else
            match c.kind with
            | .interval => intervalMove i c s
            | .reciprocal => reciprocalMove i s
            | .totalize => none
    else none

/-- Moves one after another until none is possible or the judgement ends (R129). -/
def judgeLoop : Nat → Fin 8 → State → Move
  | 0, _, s => ⟨s, true⟩
  | fuel + 1, i, s =>
    match judgeMove i s with
    | none => ⟨s, true⟩
    | some x => if x.goesOn then judgeLoop fuel i x.state else x

/-- Moves enough for a judgement: each takes an entry out of one view, or forgets a sample's stop. -/
def State.judgeFuel (s : State) : Nat := 4 * s.store.length + 2

/-- A measure judges its views (R129). -/
def judge (i : Fin 8) (s : State) : Move := judgeLoop s.judgeFuel i s

/-! ### Completion -/

/-- A source's horizon is at or after the close time, or the source is held (R145, R148, R151). -/
def State.pastClose (s : State) (i : Fin 8) (r : Role) (close : TimeStamp) : Bool :=
  (s.meas i).final r != .live || horizonAtOrAfter (s.roleHorizon i r) close

/-- A CLOSING INTERVAL block can complete at its close (R145). -/
def State.intervalComplete (s : State) (i : Fin 8) : Bool :=
  let m := s.meas i
  match m.st, m.closeTime, m.config with
  | .closing, some t, some c => c.kind == .interval && s.pastClose i .A t && s.pastClose i .B t
  | _, _, _ => false

/-- A CLOSING RECIPROCAL block can complete (R148). -/
def State.reciprocalComplete (s : State) (i : Fin 8) : Bool :=
  let m := s.meas i
  match m.st, m.closeTime, m.config with
  | .closing, some t, some c => c.kind == .reciprocal && s.pastClose i .A t
  | _, _, _ => false

/-- Complete an INTERVAL block at its close: every sample that settles is taken first (R145). Every other move of that
judgement is made first too, so a start it abandons counts in this block (R138), and a stamp it passes sets DROPS here
(R131, R133, R135, R137): the model's choice, as R145 orders the samples alone (log 52). -/
def completeInterval (i : Fin 8) (s : State) : State :=
  let x := judge i s
  if x.goesOn then rescanGate i (finishInterval i (x.state.modMeas i (·.qualify .gateEnd))) else x.state

/-- The span of a RECIPROCAL block (R148). -/
def Block.span (b : Block) (E : Nat) : Int :=
  match b.first, b.last with
  | some x, some y => interval E x y
  | _, _ => 0

/-- A RECIPROCAL span the block cannot report (R156). -/
def Block.spanOutOfRange (b : Block) (E : Nat) : Bool :=
  b.events != 0 && (decide (b.span E < 0) || decide ((2 : Int) ^ 47 ≤ b.span E))

/-- The qualifiers a RECIPROCAL block takes at forming (R148, R156, R159). -/
def Block.reciprocalQuals (b : Block) (E : Nat) : BitVec 12 :=
  setQualIf (b.spanOutOfRange E) .overrange (setQualIf (b.events == 0) .noEvents b.quals)

/-- A RECIPROCAL block's three values: event count, span, mean period (R148, R156). -/
def Block.reciprocalValues (b : Block) (E : Nat) : List (BitVec 48) :=
  if b.events = 0 ∨ hasQual .overrange b.quals ∨ b.spanOutOfRange E then [b.events, 0, 0]
  else [b.events, BitVec.ofInt 48 (b.span E), BitVec.ofNat 48 ((b.span E).toNat / b.events.toNat)]

/-- The DISCONTINUITY part of a RECIPROCAL completion (R148). A span whose last is earlier than first (R156) is tested
by the formula of R27 like any other, the model's choice: R27 defines it for an end at or after the start (log 51). -/
def reciprocalDiscontinuity (i : Fin 8) (c : MeasureConfig) (s : State) : Move :=
  let b := (s.meas i).block
  match b.first, b.last with
  | some x, some y =>
    if b.events ≠ 0 ∧ s.crosses x y [c.a.station] then rejectBy i .discontinuity s else ⟨s, true⟩
  | _, _ => ⟨s, true⟩

/-- Finish a RECIPROCAL block (R148, R156). -/
def finishReciprocal (i : Fin 8) (s : State) : State :=
  let b := (s.meas i).block
  finishBlock i 0 (b.reciprocalValues s.epochLength)
    (s.modMeas i fun m => { m with block := { m.block with quals := b.reciprocalQuals s.epochLength } })

/-- Complete a RECIPROCAL block: every stamp that qualifies is taken first (R148). -/
def completeReciprocal (i : Fin 8) (s : State) : State :=
  let x := judge i s
  if x.goesOn then
    match (x.state.meas i).config with
    | none => x.state
    | some c =>
      let y := bothParts s.order.storeFullFirst (reciprocalDiscontinuity i c) (reciprocalStoreFull i) x.state
      if y.goesOn then rescanGate i (finishReciprocal i y.state) else y.state
  else x.state

/-! ### Commands -/

/-- Answer the requests whose times are reached; a close answer completes the block (R36, R150). -/
def answerSnapshots (i : Fin 8) (s : State) : State :=
  match (s.meas i).config with
  | none => s
  | some c =>
    let s1 :=
      match (s.meas i).block.openRequest with
      | some t =>
        if s.reached t then
          s.modMeas i fun m =>
            { m with block := { m.block with
                openRequest := none, openSnapshot := s.snapshot c.a.channel t } }
        else s
      | none => s
    match (s1.meas i).st, (s1.meas i).block.closeRequest, (s1.meas i).block.openRequest with
    | .closing, some t, none =>
      if s.reached t then rescanGate i (completeTotalize i (s.snapshot c.a.channel t) s1) else s1
    | _, _, _ => s1

/-- A request of the measure is reached (R36). -/
def State.snapshotReached (s : State) (i : Fin 8) : Bool :=
  let due := fun (x : Option TimeStamp) => match x with | some t => s.reached t | none => false
  (s.meas i).config.isSome &&
    (due (s.meas i).block.openRequest ||
      ((s.meas i).st == .closing && (s.meas i).block.openRequest.isNone
        && due (s.meas i).block.closeRequest))

/-- The close time a TIMED gate has reached (R113). -/
def State.timedCloseReached (s : State) (i : Fin 8) : Option TimeStamp :=
  let m := s.meas i
  match m.st, m.config, m.plannedClose s.epochLength with
  | .opened, some c, some t => if c.gate = .timed ∧ s.reached t then some t else none
  | _, _, _ => none

/-- The carried opening a rearmed TIMED NONE measure has reached (R124). -/
def State.reopenReached (s : State) (i : Fin 8) : Option TimeStamp :=
  let m := s.meas i
  match m.st, m.config, m.carriedOpening with
  | .armed, some c, some t => if c.gate = .timed ∧ s.reached t then some t else none
  | _, _, _ => none

/-- The overrun time an EDGE or DIRECTIVE gate has reached (R115). -/
def State.overrunReached (s : State) (i : Fin 8) : Option TimeStamp :=
  match (s.meas i).overrunTime with
  | some t => if s.reached t then some t else none
  | none => none

/-- The effect of SNAPSHOT_ANSWER (R36, R149, R150). -/
def effectSnapshotAnswer (i : Fin 8) (s : State) : State :=
  if s.snapshotReached i then answerSnapshots i s else s

/-- SNAPSHOT_ANSWER. -/
def execSnapshotAnswer (i : Fin 8) (s : State) : Host.Outcome State Fault Refusal :=
  .next (s.inBoth (effectSnapshotAnswer i))

/-- The effect of TIMED_GATE_CLOSE (R113). -/
def effectTimedGateClose (i : Fin 8) (s : State) : State :=
  match s.timedCloseReached i with | some t => closeTimed i t s | none => s

/-- TIMED_GATE_CLOSE. -/
def execTimedGateClose (i : Fin 8) (s : State) : Host.Outcome State Fault Refusal :=
  .next (s.inBoth (effectTimedGateClose i))

/-- The effect of TIMED_GATE_REOPEN (R124). -/
def effectTimedGateReopen (i : Fin 8) (s : State) : State :=
  match s.reopenReached i with | some t => openGate i t s | none => s

/-- TIMED_GATE_REOPEN. -/
def execTimedGateReopen (i : Fin 8) (s : State) : Host.Outcome State Fault Refusal :=
  .next (s.inBoth (effectTimedGateReopen i))

/-- The effect of GATE_OVERRUN (R115). -/
def effectGateOverrun (i : Fin 8) (s : State) : State :=
  match s.overrunReached i with | some t => rescanGate i (overrunGate i t s) | none => s

/-- GATE_OVERRUN. -/
def execGateOverrun (i : Fin 8) (s : State) : Host.Outcome State Fault Refusal :=
  .next (s.inBoth (effectGateOverrun i))

/-- The effect of SAMPLE_SETTLE (R129). -/
def effectSampleSettle (i : Fin 8) (s : State) : State :=
  (judge i s).state

/-- SAMPLE_SETTLE. -/
def execSampleSettle (i : Fin 8) (s : State) : Host.Outcome State Fault Refusal :=
  .next (s.inBoth (effectSampleSettle i))

/-- The effect of INTERVAL_BLOCK_COMPLETE (R145). -/
def effectIntervalBlockComplete (i : Fin 8) (s : State) : State :=
  if s.intervalComplete i then completeInterval i s else s

/-- INTERVAL_BLOCK_COMPLETE. -/
def execIntervalBlockComplete (i : Fin 8) (s : State) : Host.Outcome State Fault Refusal :=
  .next (s.inBoth (effectIntervalBlockComplete i))

/-- The effect of RECIPROCAL_BLOCK_COMPLETE (R148). -/
def effectReciprocalBlockComplete (i : Fin 8) (s : State) : State :=
  if s.reciprocalComplete i then completeReciprocal i s else s

/-- RECIPROCAL_BLOCK_COMPLETE. -/
def execReciprocalBlockComplete (i : Fin 8) (s : State) : Host.Outcome State Fault Refusal :=
  .next (s.inBoth (effectReciprocalBlockComplete i))

end Sys2Proof.Machine
end

