-- ==== Sys2Proof/Machine/Channels.lean ====
section
/-! DEFINITION. Channel Units and the Test Source: capture, qualification, counting, stamps, the rate
monitor, and the offer to the Stamp Store (chapter Input Channels and the Test Source; R55); with the
commands PIN_EDGE, TEST_SOURCE_EVENT and STAMP_RESOLUTION. -/

namespace Sys2Proof.Machine

/-- Edge select passes an edge of this polarity (R32). -/
def EdgeSelect.passes : EdgeSelect → Polarity → Bool
  | .off, _ => false
  | .rise, p => p == .rise
  | .fall, p => p == .fall
  | .both, _ => true

/-- The time of an edge sampled in this tick (R33). -/
def State.edgeTime (s : State) (fine : BitVec 8) : TimeStamp := { s.localTime with fine := fine }

/-- The position of an edge on the elapsed scale, in fine steps (R35). -/
def State.edgePosition (s : State) (fine : BitVec 8) : Nat := s.eu.elapsed * 256 + fine.toNat

/-- The edge is qualified: at least max(H, 1) ticks after the previous qualified edge (R35). -/
def Channel.qualifies (x : Channel) (holdoff position : Nat) : Bool :=
  match x.lastEdge with
  | none => true
  | some p => decide (p + 256 * max holdoff 1 ≤ position)

/-- A qualified edge is counted and remembered for the capture latency (R35, R36). -/
def Channel.count (x : Channel) (p : Polarity) (position tick : Nat) (t : TimeStamp) : Channel :=
  { x with
    lastEdge := some position
    edgeCount := x.edgeCount + 1
    recentEdges := (x.recentEdges.filter fun e => decide (tick ≤ e.tick + Config.captureLatency))
      ++ [⟨tick, t, p, x.lastEdge, x.prescale, x.rateCount, x.st⟩] }

/-- The rate monitor counts a formed stamp, and throttles a NORMAL channel at R + 1 (R39, R40). -/
def Channel.monitor (x : Channel) (rate : Nat) : Channel :=
  let n := min (x.rateCount + 1) 65536
  { x with
    rateCount := n
    st := if rate ≠ 0 ∧ x.st = .normal ∧ n = rate + 1 then .throttled else x.st }

/-- A selected edge forms a stamp, which is then in flight (R37, R40, R42). -/
def Channel.form (x : Channel) (rate : Nat) (p : Polarity) (t : TimeStamp) (tick : Nat) : Channel :=
  let y := x.monitor rate
  { y with inFlight := y.inFlight ++ [⟨p, t, y.st == .throttled, tick⟩] }

/-- The prescale count after a qualified edge, and whether the edge is selected (R37). -/
def Channel.select (x : Channel) (P : Nat) : Nat × Bool :=
  if x.prescale + 1 = P then (0, true) else (x.prescale + 1, false)

/-- What an edge of its signal makes of a channel, and whether it forms a stamp (R32 to R40). An edge that
edge select or holdoff does not pass leaves the channel as it was. -/
def State.edgeAt (s : State) (x : Channel) (p : Polarity) (fine : BitVec 8) : Channel × Bool :=
  match x.config with
  | none => (x, false)
  | some g =>
    if s.hasTime && g.edges.passes p && x.qualifies g.holdoff (s.edgePosition fine) then
      let y := x.count p (s.edgePosition fine) s.eu.elapsed (s.edgeTime fine)
      let q := y.select g.prescale
      let z := { y with prescale := q.1 }
      (if q.2 then z.form g.rate p (s.edgeTime fine) s.eu.elapsed else z, q.2)
    else (x, false)

/-- An edge of the channel's signal; a formed stamp fires the trigger sequences (R38). -/
def takeEdge (c : Fin 4) (p : Polarity) (fine : BitVec 8) (s : State) : State :=
  let r := s.edgeAt (s.chan c) p fine
  if r.2 then fireStamp c p (s.setChan c r.1) else s.setChan c r.1

/-- The channel's signal is its pin, or the Test Source (R32). -/
def Channel.reads (x : Channel) (i : InputSelect) : Bool := x.config.map (·.input) == some i

/-! ### A change of local time in an edge's own tick -/

/-- The edge the channel has qualified in this tick; there is at most one (R35). -/
def Channel.edgeOf (x : Channel) (tick : Nat) : Option RecentEdge :=
  match x.recentEdges.getLast? with
  | some r => if r.tick = tick then some r else none
  | none => none

/-- The channel as if this edge had not come. -/
def Channel.withoutEdge (x : Channel) (r : RecentEdge) : Channel :=
  { x with
    lastEdge := r.lastEdge
    edgeCount := x.edgeCount - 1
    recentEdges := x.recentEdges.dropLast
    prescale := r.prescale
    rateCount := r.rateCount
    st := r.st
    inFlight := x.inFlight.filter fun f => f.formedAt != r.tick }

/-- A channel at a change of local time: what the change does to it comes before the edge it has qualified in this
tick, which is taken on the new scale (R33, R39; log 26). What its trigger has placed stays (log 43). -/
def State.retake (s : State) (f : Channel → Channel) (x : Channel) : Channel :=
  match x.edgeOf s.eu.elapsed with
  | some r => (s.edgeAt (f (x.withoutEdge r)) r.polarity r.time.fine).1
  | none => f x

/-- Every channel at a change of local time. -/
def retakeEdges (f : Channel → Channel) (s : State) : State :=
  { s with channels := s.channels.map (s.retake f) }

/-! ### The Test Source -/

/-- The trailing zero bits of a cycle position, at most `fuel` (R47). -/
def trailingZeros : Nat → Nat → Nat
  | 0, _ => 0
  | fuel + 1, t => if t % 2 = 1 then 0 else 1 + trailingZeros fuel (t / 2)

/-- A cycle position is selected by a density word: bit 15 - z is 1, z its trailing zeros; position 0
belongs to no bit (R47). -/
def selectedPosition (density : BitVec 16) (t : Nat) : Bool :=
  t != 0 && density.getLsbD (15 - trailingZeros 16 t)

/-- The tick holds a Test Source event (R47). -/
def State.testEventDue (s : State) : Bool :=
  s.hasTime && s.untested.isNone
    && selectedPosition s.params.density (s.eu.offset % Config.testCycle)

/-- The two edges of an event at one TEST channel (R48). -/
def testEdges (s : State) (c : Fin 4) : State :=
  if (s.chan c).reads .test then takeEdge c .fall 128 (takeEdge c .rise 0 s) else s

/-- The edges of an event at every TEST channel (R47, R48). -/
def testChannels (s : State) : State := forEach s.channelOrder testEdges s

/-- An event, with the station kept as it stands without it, for a slip of the same tick (R47; log 39). -/
def testEvent (s : State) : State := { testChannels s with untested := some s.toStation }

/-! ### Boundaries -/

/-- A boundary reaches a channel: the epoch's count closes, and a THROTTLED channel whose count is at most
3R/4 returns to NORMAL (R39, R41). -/
def Channel.boundary (x : Channel) : Channel :=
  match x.config with
  | none => x
  | some g =>
    { x with
      rateCount := 0
      st := if x.st = .throttled ∧ x.rateCount ≤ 3 * g.rate / 4 then .normal else x.st }

/-- A boundary reaches the Channel Units; the stamps of its tick land in the new count (R19, R39). -/
def boundaryChannels (s : State) : State := retakeEdges Channel.boundary s

/-! ### Resolution -/

/-- The channel's oldest stamp in flight, if it has been in flight for 8 ticks (R42). -/
def State.resolvable (s : State) (c : Fin 4) : Option FlyingStamp :=
  match (s.chan c).inFlight with
  | x :: _ => if s.hasTime && decide (x.formedAt + Config.captureLatency ≤ s.eu.elapsed) then some x else none
  | [] => none

/-- The publish member of a local stamp's consumer set (R43). -/
def State.publishes (s : State) (c : Fin 4) : Bool :=
  (s.chan c).config.any (·.publish) && s.eu.align == some .locked

/-- The entry a local stamp would make (R43, R51). -/
def State.localEntry (s : State) (c : Fin 4) (x : FlyingStamp) : Entry :=
  s.offeredEntry s.loader.number c x.polarity x.time (s.chan c).storeDrops (s.publishes c)

/-- One loss more in the store-side drop count (R44). -/
def Channel.countStoreDrop (x : Channel) : Channel := { x with storeDrops := satAdd x.storeDrops 1 }

/-- A local offer: declined, dropped or stored (R44, R55). -/
def offerLocal (c : Fin 4) (x : FlyingStamp) (s : State) : State :=
  let e := s.localEntry c x
  if !e.wanted then s
  else if s.storeRoom then
    scanArrival e ((s.store1 e).modChan c fun y => { y with storeDrops := 0 })
  else s.modChan c Channel.countStoreDrop

/-- A stamp is resolved: suppressed, declined, dropped or stored (R42 to R44). -/
def resolveStamp (c : Fin 4) (x : FlyingStamp) (s : State) : State :=
  let s1 := s.modChan c fun y => { y with inFlight := y.inFlight.tail }
  if x.suppressed then s1.modChan c Channel.countStoreDrop else offerLocal c x s1

/-! ### Commands -/

/-- A pin edge of a tick in which the station may still become LOCKED waits for that (R34; log 42). -/
def holdEdge (c : Fin 4) (p : Polarity) (fine : BitVec 8) (s : State) : State :=
  if s.eu.align = some .seeking ∨ s.eu.align = some .aligning then
    { s with marks := { s.marks with edges := s.marks.edges ++ [⟨c, p, fine⟩] } }
  else s

/-- The station has become LOCKED: the pin edges of this tick are captured (R34). -/
def takeHeldEdges (s : State) : State :=
  s.marks.edges.foldl (fun s e => takeEdge e.channel e.polarity e.fine s)
    { s with marks := { s.marks with edges := [] } }

/-- The effect of PIN_EDGE (R32 to R34). -/
def effectPinEdge (c : Fin 4) (p : Polarity) (fine : BitVec 8) (s : State) : State :=
  if (s.chan c).reads .pin then
    (if s.hasTime then takeEdge c p fine s else holdEdge c p fine s)
  else s

/-- PIN_EDGE. -/
def execPinEdge (c : Fin 4) (p : Polarity) (fine : BitVec 8) (s : State) : Host.Outcome State Fault Refusal :=
  .next (s.inBoth (effectPinEdge c p fine))

/-- TEST_SOURCE_EVENT (R47, R48). -/
def execTestSourceEvent (s : State) : Host.Outcome State Fault Refusal :=
  .next (if s.testEventDue then testEvent s else s)

/-- The effect of STAMP_RESOLUTION (R42). -/
def effectStampResolution (c : Fin 4) (s : State) : State :=
  match s.resolvable c with | some x => resolveStamp c x s | none => s

/-- STAMP_RESOLUTION. -/
def execStampResolution (c : Fin 4) (s : State) : Host.Outcome State Fault Refusal :=
  .next (s.inBoth (effectStampResolution c))

end Sys2Proof.Machine
end

