-- ==== Sys2Proof/Machine/Loader.lean ====
section
/-! DEFINITION. The Configuration Loader: reset, start, the image checks and the load (chapter
Configuration, Start-Up and Station Status); with the commands RESET_ASSERT, RESET_RELEASE and
IMAGE_READ_COMPLETE. -/

namespace Sys2Proof.Machine

/-- Every block at its reset value (R28, R49, R66, R89, R102, R127, R166, R184, R186, R197). What is not
the station's stays: the waiting commands, the strap levels, and the free orders. -/
def State.allReset (s : State) : State :=
  { State.reset with pending := s.pending, strapPins := s.strapPins, order := s.order }

/-- A start: the straps are latched, the cause recorded, and the image read begins (R186, R187). -/
def State.start (s : State) (straps : BitVec 4) (cause : StartCause) : State :=
  { s.allReset with
    resetHeld := false
    strapPins := straps
    loader := { Loader.reset with number := straps.toFin, cause := cause }
    eu := { EpochUnit.reset with align := some .loading } }

/-- A RESTART takes effect: as at the release of RESETn, with its own start cause (R176, R186). -/
def restartStation (straps : BitVec 4) (s : State) : State := s.start straps .restart

/-- The image read has reached its end (R187). -/
def State.readDone (s : State) : Bool :=
  s.eu.align == some .loading && decide (Config.readTicks ≤ s.loader.readTicks)

/-- A failed check: CONFIG_FAULT, every block staying in its reset value (R191). -/
def failLoad (s : State) : State := { s with eu := { s.eu with align := some .configFault } }

/-- A Channel Unit as the load leaves it (R30, R31). -/
def loadedChannel (image : List Byte) (c : Fin 4) : Channel :=
  { Channel.reset with
    config := some (channelConfig image c)
    st := if (channelConfig image c).edges = .off then .off else .normal }

/-- A measure as the load leaves it: IDLE, or DISABLED without a configuration (R105, R106). -/
def loadedMeasure (image : List Byte) (number : Fin 16) (i : Fin 8) : Measure :=
  match measureConfig image number i with
  | some c => { Measure.reset with config := some c, st := .idle }
  | none => { Measure.reset with st := .disabled }

/-- A sequence as the load leaves it (R179). -/
def loadedSequence (image : List Byte) (i : Fin 4) : Sequence :=
  match triggerConfig image i with
  | some c => ⟨some c, .idle⟩
  | none => ⟨none, .disabled⟩

/-- A successful load (R192), into SEEKING (R12). -/
def passLoad (image : List Byte) (s : State) : State :=
  { s with
    loader := { s.loader with
      signature := groupSignature image
      measDisabled := maskOf 8 fun i => (measureConfig image s.loader.number i).isNone
      trigDisabled := maskOf 4 fun i => (triggerConfig image i).isNone }
    params := imageParams image
    channels := .build 4 (loadedChannel image)
    measures := .build 8 (loadedMeasure image s.loader.number)
    sequences := .build 4 (loadedSequence image)
    eu := { EpochUnit.reset with align := some .seeking } }

/-- The image is judged (R188). -/
def judgeImage (image : List Byte) (s : State) : State :=
  if imageOk image s.loader.number then passLoad image s else failLoad s

/-- The effect of RESET_ASSERT (R186, R28). -/
def effectResetAssert (s : State) : State :=
  s.allReset

/-- RESET_ASSERT. -/
def execResetAssert (s : State) : Host.Outcome State Fault Refusal :=
  .next (s.inBoth effectResetAssert)

/-- The effect of RESET_RELEASE (R186). A rising edge needs RESETn held low before it. -/
def effectResetRelease (straps : BitVec 4) (s : State) : State :=
  if s.resetHeld then s.start straps .powerOn else s

/-- RESET_RELEASE. -/
def execResetRelease (straps : BitVec 4) (s : State) : Host.Outcome State Fault Refusal :=
  .next (s.inBoth (effectResetRelease straps))

/-- The effect of IMAGE_READ_COMPLETE (R187, R188). -/
def effectImageReadComplete (image : List Byte) (s : State) : State :=
  if s.readDone then judgeImage image s else s

/-- IMAGE_READ_COMPLETE. -/
def execImageReadComplete (image : List Byte) (s : State) : Host.Outcome State Fault Refusal :=
  .next (s.inBoth (effectImageReadComplete image))

end Sys2Proof.Machine
end

