-- ==== Sys2Proof/Machine/Directives.lean ====
section
/-! DEFINITION. Directives: validity, the Pending Directive List, arrival and application (chapter
Directives and Trigger Sequences); with the commands ARM, DISARM, GATE_OPEN, GATE_CLOSE, FLUSH,
CLEAR_FAULT and RESTART, each the application of the due directive at the front of the list. -/

namespace Sys2Proof.Machine

/-- Directive codes (R168). -/
inductive Code where
  | arm
  | disarm
  | gateOpen
  | gateClose
  | flush
  | clearFault
  | restart
deriving DecidableEq, Repr

/-- The code a field gives; 0 and 8-15 are invalid (R168, Formats). -/
def codeOf (c : BitVec 4) : Option Code :=
  match c.toNat with
  | 1 => some .arm
  | 2 => some .disarm
  | 3 => some .gateOpen
  | 4 => some .gateClose
  | 5 => some .flush
  | 6 => some .clearFault
  | 7 => some .restart
  | _ => none

/-- The effective time, with fine 0 (R168). -/
def Directive.time (d : Directive) : TimeStamp := ⟨d.epoch, d.offset, 0⟩

/-- The target is this station, or ALL (R168). -/
def Directive.isFor (d : Directive) (number : Fin 16) : Bool :=
  d.target.toNat == number.val || d.target.toNat == 16

/-- The directive is valid (R169). -/
def State.validDirective (s : State) (d : Directive) : Bool :=
  decide (d.target.toNat ≤ 16) && (codeOf d.code).isSome && d.reserved == 0
    && decide (d.offset.toNat < s.epochLength)

/-- Hand a directive to every measure its mask selects (R175). -/
def forSelected (mask : BitVec 8) (f : Fin 8 → State → State) (s : State) : State :=
  forEach s.measureOrder (fun s i => if mask.getLsbD i.val then f i s else s) s

/-- ARM at the measures (R108). -/
def applyArm (mask : BitVec 8) (t : TimeStamp) (s : State) : State :=
  forSelected mask (fun i => armMeasure i t) s

/-- DISARM at the measures (R121). -/
def applyDisarm (mask : BitVec 8) (s : State) : State := forSelected mask disarmMeasure s

/-- GATE_OPEN at the measures (R112, R174). -/
def applyGateOpen (mask : BitVec 8) (t : TimeStamp) (late : Bool) (s : State) : State :=
  forSelected mask (fun i => gateOpenMeasure i t late) s

/-- GATE_CLOSE at the measures (R112, R174). -/
def applyGateClose (mask : BitVec 8) (t : TimeStamp) (late : Bool) (s : State) : State :=
  forSelected mask (fun i => gateCloseMeasure i t late) s

/-- FLUSH at the measures (R114). -/
def applyFlush (mask : BitVec 8) (t : TimeStamp) (s : State) : State :=
  forSelected mask (fun i => flushMeasure i t) s

/-- CLEAR_FAULT at the measures (R121). -/
def applyClearFault (mask : BitVec 8) (s : State) : State := forSelected mask clearFaultMeasure s

/-- Apply a directive with its time of effect (R175, R176). -/
def applyDirective (c : Code) (mask : BitVec 8) (t : TimeStamp) (late : Bool) (straps : BitVec 4)
    (s : State) : State :=
  match c with
  | .arm => applyArm mask t s
  | .disarm => applyDisarm mask s
  | .gateOpen => applyGateOpen mask t late s
  | .gateClose => applyGateClose mask t late s
  | .flush => applyFlush mask t s
  | .clearFault => applyClearFault mask s
  | .restart => restartStation straps s

/-- Insert behind every directive whose effective time is at or before its own (R170, R171). -/
def insertDirective (d : Directive) : List Directive → List Directive
  | [] => [d]
  | x :: rest => if earlier d.time x.time then d :: x :: rest else x :: insertDirective d rest

/-- A directive arrives at the list (R169, R171, R172). -/
def arriveDirective (straps : BitVec 4) (d : Directive) (s : State) : State :=
  if !s.validDirective d then s.countDirectiveDrops 1
  else if Config.listCapacity ≤ s.directives.length then s.countDirectiveDrops 1
  else
    match codeOf d.code with
    | none => s
    | some c =>
      if d.immediate then applyDirective c d.mask s.localTime false straps s
      else if !later d.time s.localTime then applyDirective c d.mask s.localTime true straps s
      else { s with directives := insertDirective d s.directives }

/-- Adoption removes every waiting directive and counts each (R177). -/
def emptyDirectives (s : State) : State :=
  { s.countDirectiveDrops s.directives.length with directives := [] }

/-- The directive of this code at the front of the list whose effective time local time has reached
(R173). -/
def State.dueDirective (s : State) (c : Code) : Option Directive :=
  match s.directives with
  | d :: _ => if codeOf d.code = some c ∧ s.reached d.time then some d else none
  | [] => none

/-- The list without its front (R173). -/
def State.popDirective (s : State) : State := { s with directives := s.directives.tail }

/-- The effect of ARM (R173, R108). -/
def effectArm (s : State) : State :=
  match s.dueDirective .arm with | some d => applyArm d.mask d.time s.popDirective | none => s

/-- ARM. -/
def execArm (s : State) : Host.Outcome State Fault Refusal :=
  .next (s.inBoth effectArm)

/-- The effect of DISARM (R173, R121). -/
def effectDisarm (s : State) : State :=
  match s.dueDirective .disarm with | some d => applyDisarm d.mask s.popDirective | none => s

/-- DISARM. -/
def execDisarm (s : State) : Host.Outcome State Fault Refusal :=
  .next (s.inBoth effectDisarm)

/-- The effect of GATE_OPEN (R173, R112). -/
def effectGateOpen (s : State) : State :=
  match s.dueDirective .gateOpen with
  | some d => applyGateOpen d.mask d.time false s.popDirective
  | none => s

/-- GATE_OPEN. -/
def execGateOpen (s : State) : Host.Outcome State Fault Refusal :=
  .next (s.inBoth effectGateOpen)

/-- The effect of GATE_CLOSE (R173, R112). -/
def effectGateClose (s : State) : State :=
  match s.dueDirective .gateClose with
  | some d => applyGateClose d.mask d.time false s.popDirective
  | none => s

/-- GATE_CLOSE. -/
def execGateClose (s : State) : Host.Outcome State Fault Refusal :=
  .next (s.inBoth effectGateClose)

/-- The effect of FLUSH (R173, R114). -/
def effectFlush (s : State) : State :=
  match s.dueDirective .flush with
  | some d => applyFlush d.mask d.time s.popDirective
  | none => s

/-- FLUSH. -/
def execFlush (s : State) : Host.Outcome State Fault Refusal :=
  .next (s.inBoth effectFlush)

/-- The effect of CLEAR_FAULT (R173, R121). -/
def effectClearFault (s : State) : State :=
  match s.dueDirective .clearFault with
  | some d => applyClearFault d.mask s.popDirective
  | none => s

/-- CLEAR_FAULT. -/
def execClearFault (s : State) : Host.Outcome State Fault Refusal :=
  .next (s.inBoth effectClearFault)

/-- The effect of RESTART (R173, R176). -/
def effectRestart (straps : BitVec 4) (s : State) : State :=
  match s.dueDirective .restart with | some _ => restartStation straps s | none => s

/-- RESTART. -/
def execRestart (straps : BitVec 4) (s : State) : Host.Outcome State Fault Refusal :=
  .next (s.inBoth (effectRestart straps))

end Sys2Proof.Machine
end

