-- ==== Sys2Proof/Machine/Peers.lean ====
section
/-! DEFINITION. The Peer Table: presences, foreign presences, missed windows and window ends (chapter Peers
and Horizons, R69); with the command WINDOW_END. -/

namespace Sys2Proof.Machine

/-- A peer after a presence (R93). -/
def Peer.presence (x : Peer) : Peer :=
  match x.st with
  | .silent | .present => { x with st := .present, missed := 0 }
  | .absent | .foreign => { x with st := .present, missed := 0, horizon := none }

/-- A presence of peer p (R93). -/
def presence (p : Fin 16) (s : State) : State := s.setPeer p (s.peer p).presence

/-- A foreign presence of peer p: FOREIGN, and the measures are notified on the change (R94, R99). -/
def foreignPresence (p : Fin 16) (s : State) : State :=
  let s1 := s.setPeer p { s.peer p with st := .foreign, missed := 0 }
  if (s.peer p).st = .foreign then s1 else notifyPeer .sourceForeign p s1

/-- A peer after a window end without a presence (R95). -/
def Peer.miss (x : Peer) (limit : Nat) : Peer :=
  match x.st with
  | .silent | .present =>
    let n := satAdd x.missed 1
    { x with missed := n, st := if n.toNat = limit then .absent else x.st }
  | .absent | .foreign => x

/-- A window of peer p ends without a presence (R95, R99). -/
def missWindow (p : Fin 16) (s : State) : State :=
  let x := (s.peer p).miss s.params.missLimit.toNat
  let s1 := s.setPeer p x
  if x.st = .absent ∧ (s.peer p).st ≠ .absent then notifyPeer .sourceAbsent p s1 else s1

/-- The owner of a window as a peer: none for the own station's windows (R69). -/
def State.peerOfWindow (s : State) (w : Nat) : Option (Fin 16) :=
  let p := finOfNat 15 (s.windowOwner w)
  if p = s.loader.number then none else some p

/-- A window end is delivered, with what it states about a presence (R69, R95). -/
def deliverWindowEnd (p : Fin 16) (s : State) : State :=
  let s1 := { s with link := { s.link with windowPresence := false } }
  if s.link.windowPresence then s1 else missWindow p s1

/-- Window ends are delivered in LOCKED and MUTE, from the tick after becoming LOCKED (R69, R95; log 14). -/
def State.deliversWindows (s : State) : Bool := s.hasTime && s.eu.elapsed != 0

/-- The peer whose window ends in this tick, if it has not been delivered yet (R69). -/
def State.endingWindow (s : State) : Option (Fin 16) :=
  if s.deliversWindows && !s.marks.windowEnd then (s.windowEndingAt s.eu.offset).bind s.peerOfWindow else none

/-- Deliver the window end of this tick (R69). -/
def takeWindowEnd (p : Fin 16) (s : State) : State :=
  deliverWindowEnd p { s with marks := { s.marks with windowEnd := true } }

/-- The effect of WINDOW_END (R69, R95). -/
def effectWindowEnd (s : State) : State :=
  match s.endingWindow with | some p => takeWindowEnd p s | none => s

/-- WINDOW_END. -/
def execWindowEnd (s : State) : Host.Outcome State Fault Refusal :=
  .next (s.inBoth effectWindowEnd)

end Sys2Proof.Machine
end

