-- ==== Sys2Proof/Machine/Epoch.lean ====
section
/-! DEFINITION. The Epoch Unit: founding, aligning, boundaries, marks, slips, adoption and the local horizon
hold (chapter Time, Epochs and Group Alignment); with the commands SEEK_TIMEOUT, ALIGNING_TIMEOUT,
ALIGNING_OFFSET_WRAP, MARK_LEADING_EDGE, EPOCH_BOUNDARY, MARK_PULSE_END and HORIZON_HOLD_END. -/

namespace Sys2Proof.Machine

/-- The status-due flag at a new epoch number (R195). -/
def State.refreshStatusDue (s : State) : State :=
  { s with link := { s.link with
      statusDue := s.eu.epoch.toNat % s.params.statusInterval.toNat == 0 } }

/-- The Epoch Unit becomes LOCKED: capture begins, and the first local horizon is local time minus 8 ticks
(R8, R14, R16, R17, R34). -/
def setLocked (epoch : BitVec 16) (offset : Nat) (origin : AlignOrigin) (s : State) : State :=
  let here := timeAt s.epochLength epoch offset 0
  State.refreshStatusDue
    { s with
      eu := { s.eu with
        align := some .locked
        epoch := epoch
        offset := offset
        seekTimer := 0
        alignTimer := 0
        disc := epoch
        origin := origin
        hold := none
        prevHorizon := subTicks s.epochLength here Config.captureLatency
        elapsed := 0
        autoArmed := false }
      link := { s.link with windowPresence := false } }

/-- The station becomes LOCKED, and the pin edges of this tick are captured (R34). -/
def becomeLocked (epoch : BitVec 16) (offset : Nat) (origin : AlignOrigin) (s : State) : State :=
  takeHeldEdges (setLocked epoch offset origin s)

/-- One discard more (R88). -/
def State.countDiscard (s : State) : State :=
  { s with link := { s.link with discards := satAdd s.link.discards 1 } }

/-- The window of the schedule that holds this tick is the station's own (R68). -/
def State.inOwnWindow (s : State) : Bool :=
  match s.windowAt s.eu.offset with
  | some w => s.windowOwner w == s.loader.number.val
  | none => false

/-- A reception still in progress in an own window of a LOCKED station is ended and counted as a discard
(R83, R88). -/
def endReception (s : State) : State :=
  if s.eu.align = some .locked ∧ s.link.receiver.isSome then
    State.countDiscard { s with link := { s.link with receiver := none } }
  else s

/-- The seek timer has reached its limit (R10, R14). -/
def State.seekExpired (s : State) : Bool :=
  s.eu.align == some .seeking && decide (2 * s.epochLength ≤ s.eu.seekTimer)

/-- The aligning timer has reached its limit (R10, R17). -/
def State.alignExpired (s : State) : Bool :=
  s.eu.align == some .aligning && decide (4 * s.epochLength ≤ s.eu.alignTimer)

/-- The offset counter has reached E in ALIGNING (R10). -/
def State.wrapDue (s : State) : Bool :=
  s.eu.align == some .aligning && decide (s.epochLength ≤ s.eu.offset)

/-- The effect of SEEK_TIMEOUT: the station founds (R14). -/
def effectSeekTimeout (s : State) : State :=
  if s.seekExpired then becomeLocked 0 0 .founder s else s

/-- SEEK_TIMEOUT. -/
def execSeekTimeout (s : State) : Host.Outcome State Fault Refusal :=
  .next (s.inBoth effectSeekTimeout)

/-- LOCKED with epoch 0 and the offset as counted (R17; log 15). In an own window of a LOCKED station the receiver
does not work, so a reception in progress is ended (R83; log 27). -/
def lockByTimeout (s : State) : State :=
  let t := becomeLocked 0 (s.eu.offset % s.epochLength) .founderTimeout s
  if t.inOwnWindow then endReception t else t

/-- The effect of ALIGNING_TIMEOUT (R17). -/
def effectAligningTimeout (s : State) : State :=
  if s.alignExpired then lockByTimeout s else s

/-- ALIGNING_TIMEOUT. -/
def execAligningTimeout (s : State) : Host.Outcome State Fault Refusal :=
  .next (s.inBoth effectAligningTimeout)

/-- The effect of ALIGNING_OFFSET_WRAP (R10). -/
def effectAligningOffsetWrap (s : State) : State :=
  if s.wrapDue then { s with eu := { s.eu with offset := 0 } } else s

/-- ALIGNING_OFFSET_WRAP. -/
def execAligningOffsetWrap (s : State) : Host.Outcome State Fault Refusal :=
  .next (s.inBoth effectAligningOffsetWrap)

/-! ### Own frame lost -/

/-- A lost STAMP record is accounted to its channel (R45). -/
def loseRecord (s : State) : Record → State
  | .stamp c _ drops _ =>
    s.modChan c fun x => { x with publishDrops := satAdd x.publishDrops (1 + drops.toNat) }
  | .directive _ | .head _ | .data _ _ _ | .status _ => s

/-- The frame in flight is abandoned: DATA is released, its records are lost (R77, R78). A frame already
sent to its end only releases the line (log 18). -/
def abandonFrame (s : State) : State :=
  match s.link.sending with
  | none => s
  | some x =>
    let s1 := { s with link := { s.link with sending := none } }
    if x.ended then s1 else x.frame.records.foldl loseRecord s1

/-! ### Boundaries -/

/-- A boundary reaches the measures and the trigger sequences, in an order the manual leaves open
(R19, R181; log 7). -/
def boundaryTable (s : State) : State :=
  if s.order.triggersFirst then boundaryMeasures (boundarySequences s)
  else boundarySequences (boundaryMeasures s)

/-- A boundary, regular or slip, is delivered to the blocks (R19). `ended` are the peers whose windows end
with it (R69). -/
def deliverBoundary (ended : List (Fin 16)) (s : State) : State :=
  let s1 := boundaryChannels { s with marks := { s.marks with boundary := true } }
  let s2 := forEach ended (fun s p => deliverWindowEnd p s) s1
  boundaryTable
    ({ s2 with link := { s2.link with windowPresence := false } }).refreshStatusDue

/-- A regular boundary: the epoch advances and the station fires MARK (R18). A window end of this tick that
has not been delivered is delivered with it (R19, R69; log 13). -/
def crossBoundary (s : State) : State :=
  deliverBoundary s.endingWindow.toList
    { s with
      eu := { s.eu with epoch := s.eu.epoch + 1, offset := 0, markDrive := true }
      marks := { s.marks with windowEnd := true } }

/-- The boundary that is due in this tick, taken first (R11, R20; log 9). -/
def takeDueBoundary (s : State) : State := if s.boundaryDue then crossBoundary s else s

/-- The effect of EPOCH_BOUNDARY (R18). -/
def effectEpochBoundary (s : State) : State :=
  if s.boundaryDue then crossBoundary s else s

/-- EPOCH_BOUNDARY. -/
def execEpochBoundary (s : State) : Host.Outcome State Fault Refusal :=
  .next (s.inBoth effectEpochBoundary)

/-- The station releases its MARK drive at offset 16 (R18). -/
def State.pulseOver (s : State) : Bool :=
  s.hasTime && s.eu.markDrive && decide (Config.markPulse ≤ s.eu.offset)

/-- The effect of MARK_PULSE_END (R18). -/
def effectMarkPulseEnd (s : State) : State :=
  if s.pulseOver then { s with eu := { s.eu with markDrive := false } } else s

/-- MARK_PULSE_END. -/
def execMarkPulseEnd (s : State) : Host.Outcome State Fault Refusal :=
  .next (s.inBoth effectMarkPulseEnd)

/-! ### The local horizon hold -/

/-- A slip or adoption changes local time: the local horizon keeps the value of the tick before (R8, R25). -/
def EpochUnit.beginHold (x : EpochUnit) : EpochUnit :=
  { x with
    hold := some ⟨match x.hold with | some h => h.value | none => x.prevHorizon, x.elapsed⟩ }

/-- The hold has lasted through the tick of the change and the 7 that follow (R8). -/
def State.holdOver (s : State) : Bool :=
  match s.eu.hold with
  | some h => s.hasTime && decide (h.since + Config.captureLatency ≤ s.eu.elapsed)
  | none => false

/-- The effect of HORIZON_HOLD_END (R8). -/
def effectHorizonHoldEnd (s : State) : State :=
  if s.holdOver then { s with eu := { s.eu with hold := none } } else s

/-- HORIZON_HOLD_END. -/
def execHorizonHoldEnd (s : State) : Host.Outcome State Fault Refusal :=
  .next (s.inBoth effectHorizonHoldEnd)

/-! ### Marks -/

/-- The peer whose window the slip cuts short: the window that holds the offset (R68, R69). A window whose first
tick is the slip's counts as begun and cut: the model's choice, which R21 and R68 leave open (log 34). -/
def State.cutWindow (s : State) : Option (Fin 16) :=
  if s.deliversWindows then (s.windowAt s.eu.offset).bind s.peerOfWindow else none

/-- The receiver's noted window has been cut, or its schedule moved (R69, R83). -/
def cutReception (s : State) : State :=
  { s with link := { s.link with receiver := s.link.receiver.map fun x => { x with cut := true } } }

/-- A slip: a boundary at the tick of the leading edge (R21), which also abandons an own frame in flight (R77). -/
def slip (s : State) : State :=
  let ended := s.endingWindow.toList ++ s.cutWindow.toList
  let s1 := cutReception (abandonFrame s)
  deliverBoundary ended
    { s1 with
      eu := { s1.eu.beginHold with
        epoch := s1.eu.epoch + 1
        offset := s1.params.delay.toNat
        disc := s1.eu.epoch + 1 }
      marks := { s1.marks with windowEnd := true } }

/-- The edge is the station's own, or a neighbour's within tolerance (R20). -/
def State.markWithin (s : State) : Bool :=
  let E := s.epochLength
  let W := s.params.tolerance.toNat
  let u := (s.eu.offset + (E - s.params.delay.toNat % E)) % E
  s.eu.markDrive || decide (u ≤ W) || decide (E - W ≤ u)

/-- A leading edge in LOCKED or MUTE (R20, R21). -/
def judgeMark (s : State) : State := if s.markWithin then s else slip s

/-- A leading edge in SEEKING: the station enters ALIGNING with offset D at this tick (R13). -/
def beginAligning (s : State) : State :=
  { s with
    eu := { s.eu with
      align := some .aligning
      offset := s.params.delay.toNat
      seekTimer := 0
      alignTimer := 0 } }

/-- A leading edge in ALIGNING: this tick counts as offset D (R15). -/
def realign (s : State) : State :=
  cutReception { s with eu := { s.eu with offset := s.params.delay.toNat } }

/-- The effect of MARK_LEADING_EDGE, judged by the alignment state (R9, R11, R13, R15, R20). In the tick of the own
boundary the edge is the own pulse's, so a due boundary is taken first (R11, R20; log 9). -/
def effectMarkLeadingEdge (s : State) : State :=
  match s.eu.align with
  | some .seeking => beginAligning s
  | some .aligning => realign s
  | some .locked | some .mute => judgeMark (takeDueBoundary s)
  | some .loading | some .configFault | none => s

/-- A leading edge now is a slip (R20, R21). -/
def State.slips (s : State) : Bool := s.hasTime && !s.boundaryDue && !s.markWithin

/-- The station as it stands without a Test Source event of this tick. -/
def State.withoutTestEvent (s : State) : State :=
  match s.untested with
  | some w => s.alone w
  | none => s

/-- MARK_LEADING_EDGE (R11). A slip skips this tick's old offset, so an event that has been taken at it did not happen:
the slip goes on from the station without it (R47; log 39). -/
def execMarkLeadingEdge (s : State) : Host.Outcome State Fault Refusal :=
  .next ((if s.slips then s.withoutTestEvent else s).inBoth effectMarkLeadingEdge)

/-! ### Adoption -/

/-- Adopt a serially greater epoch number (R23, R177). An edge of this tick has the new local time (R33). -/
def adopt (f : BitVec 16) (s : State) : State :=
  emptyDirectives (State.refreshStatusDue
    (retakeEdges id { s with eu := { s.eu.beginHold with epoch := f, disc := f } }))

end Sys2Proof.Machine
end

