-- ==== Sys2Proof/Machine/Link.lean ====
section
/-! DEFINITION. The Link Controller: Transmit Assembly, collisions, the end of the own frame, and reception
(chapter The Timing Link; R54 to R58 for the records of a frame); with the commands TRANSMIT_ASSEMBLY,
COLLISION, FRAME_SEND_END, FRAME_START_TICK and FRAME_RECEIVED. -/

namespace Sys2Proof.Machine

/-! ### Transmit Assembly -/

/-- A frame being filled: the station as the placements leave it, and the records placed (R72). -/
structure Draft where
  state : State
  records : List Record
deriving DecidableEq, Repr

/-- Record positions not yet filled (R72). -/
def Draft.free (x : Draft) : Nat := Config.framePositions - x.records.length

/-- The STATUS record, when due; its placement clears the four counts it reports and the flag (R73, R88,
R178, R182, R195, R196). -/
def placeStatus (x : Draft) : Draft :=
  if x.state.link.statusDue then
    { state := State.modTriggers
        { x.state with link := { x.state.link with collisions := 0, discards := 0, statusDue := false } }
        fun y => { y with directiveDrops := 0, triggerOverruns := 0 }
      records := x.records ++ [.status x.state.status] }
  else x

/-- Directives from the Directive Outbox, oldest first (R73, R82). -/
def placeDirectives (x : Draft) : Draft :=
  { state := x.state.modTriggers fun y => { y with outbox := y.outbox.drop x.free }
    records := x.records ++ (x.state.link.outbox.take x.free).map Record.directive }

/-- The RESULT_DATA records of values, from an index on (R74, R154). -/
def dataRecords (m : Fin 8) : Nat → List (BitVec 48) → List Record
  | _, [] => []
  | j, v :: rest => .data m (BitVec.ofNat 3 j) v :: dataRecords m (j + 1) rest

/-- A group's records: its head, then its data records in order (R74). -/
def groupRecords (g : Group) : List Record := .head g :: dataRecords g.measure 0 g.values

/-- How many groups from the front go whole into so many positions; the first that does not fit ends the
taking (R74). -/
def groupsTaken : Nat → List Group → Nat
  | _, [] => 0
  | free, g :: rest =>
    if 1 + g.values.length ≤ free then 1 + groupsTaken (free - (1 + g.values.length)) rest else 0

/-- At least one Store entry holds publish (R74). -/
def State.publishWaits (s : State) : Bool := s.store.any (·.publish)

/-- The positions that end the taking of result groups (R74). -/
def State.groupLimit (s : State) : Nat :=
  if s.publishWaits then Config.groupLimitWithStamps else Config.framePositions

/-- Result groups from the head of the Result Queue (R74, R161). -/
def placeGroups (x : Draft) : Draft :=
  let n := groupsTaken (x.state.groupLimit - x.records.length) x.state.queue
  { state := { x.state with queue := x.state.queue.drop n }
    records := x.records ++ ((x.state.queue.take n).map groupRecords).flatten }

/-- Published entry f goes before e: earlier by R4, or equal in time and of a lower channel (R75). -/
def Entry.goesBefore (f e : Entry) : Bool :=
  earlier f.time e.time || (compareTime e.time f.time == .eq && decide (f.channel < e.channel))

/-- The oldest entry that holds publish (R75). Times that compare in a cycle by R4 have no oldest one: the model keeps
the winner of a scan from the Store's end (log 44). -/
def oldestPublished : List Entry → Option Entry
  | [] => none
  | e :: rest =>
    match oldestPublished rest with
    | none => if e.publish then some e else none
    | some f => if e.publish && !f.goesBefore e then some e else some f

/-- The drop count a STAMP record carries (R46). -/
def State.carriedDrops (s : State) (e : Entry) : BitVec 8 :=
  satAdd e.drops (s.chan e.channel).publishDrops.toNat

/-- Publish leaves an entry's consumer set, and the publish-side count of its channel returns to 0
(R46, R60). -/
def takePublished (e : Entry) (s : State) : State :=
  (s.setStore (s.store.map fun f => if f.same e then { f with publish := false } else f)).modChan
    e.channel fun c => { c with publishDrops := 0 }

/-- Published stamps into so many positions, oldest first (R75). -/
def placeStamps : Nat → Draft → Draft
  | 0, x => x
  | n + 1, x =>
    match oldestPublished x.state.store with
    | none => x
    | some e =>
      placeStamps n
        { state := takePublished e x.state
          records := x.records
            ++ [.stamp e.channel e.polarity (x.state.carriedDrops e) e.time] }

/-- The positions filled from the four sources in their priority (R72 to R75). -/
def fillFrame (s : State) : Draft :=
  let x := placeGroups (placeDirectives (placeStatus ⟨s, []⟩))
  placeStamps x.free x

/-- The header's horizon after the records are chosen (R76). -/
def State.frameHorizon (s : State) : TimeStamp :=
  match oldestPublished s.store with
  | some e => if earlier e.time s.localHorizon then e.time else s.localHorizon
  | none => s.localHorizon

/-- The frame of a filled draft (R76). -/
def Draft.frame (x : Draft) : Frame where
  sender := x.state.loader.number
  epoch := x.state.eu.epoch
  horizon := x.state.frameHorizon
  disc := x.state.eu.disc
  signature := x.state.loader.signature
  records := x.records

/-- Assemble the frame; a LOCKED station begins to send it, a MUTE station discards it (R72, R77, R80). -/
def assemble (s : State) : State :=
  let x := fillFrame { s with marks := { s.marks with assembly := true } }
  if x.state.eu.align = some .locked then
    { x.state with link := { x.state.link with sending := some ⟨x.frame, 0, false⟩ } }
  else x.state

/-- An own window starts: assembly, the end of a reception in progress, and the places given out (R72, R83,
R162). The manual leaves open whether the discard is counted before the status is placed (log 7). -/
def startOwnWindow (s : State) : State :=
  givePlaces Config.queueCapacity
    (if s.order.assemblyFirst then endReception (assemble s) else assemble (endReception s))

/-- The window that starts at this tick is the station's own (R68, R72). Once a slip of this tick has been taken the
offset is D, where no window starts: no frame is then assembled in the tick (the model's choice, log 54). -/
def State.assemblyDue (s : State) : Bool :=
  s.hasTime && !s.marks.assembly &&
    (match s.windowAt s.eu.offset with
     | some w => s.windowStart w == s.eu.offset && s.windowOwner w == s.loader.number.val
     | none => false)

/-- The effect of TRANSMIT_ASSEMBLY (R72). -/
def effectTransmitAssembly (s : State) : State :=
  if s.assemblyDue then startOwnWindow s else s

/-- TRANSMIT_ASSEMBLY. -/
def execTransmitAssembly (s : State) : Host.Outcome State Fault Refusal :=
  .next (s.inBoth effectTransmitAssembly)

/-! ### Collisions and the end of the own frame -/

/-- The tick at which bit i of a frame is sampled, counted from its start (R77, R83). -/
def State.sampleTick (s : State) (i : Nat) : Nat := i * s.bitPeriod + s.bitPeriod / 2

/-- The readback point of a bit the station sends as 0 (R77, R78). -/
def State.collisionPoint (s : State) : Bool :=
  match s.link.sending with
  | some x =>
    !x.ended && s.eu.align == some .locked && x.ticks == s.sampleTick (x.ticks / s.bitPeriod)
      && (frameBits x.frame)[x.ticks / s.bitPeriod]? == some false
  | none => false

/-- The third own window in a row with a collision: MUTE, and publish leaves every entry (R61, R79). -/
def enterMute (s : State) : State := State.stripPublish { s with eu := { s.eu with align := some .mute } }

/-- A collision abandons the frame and moves the two counts (R78, R79). -/
def collide (s : State) : State :=
  let s1 := abandonFrame s
  let s2 := { s1 with link := { s1.link with collisions := satAdd s1.link.collisions 1 } }
  if s2.link.consecutive + 1 = Config.muteCollisions then enterMute s2
  else { s2 with link := { s2.link with consecutive := s2.link.consecutive + 1 } }

/-- The effect of COLLISION (R78, R79). -/
def effectCollision (s : State) : State :=
  if s.collisionPoint then collide s else s

/-- COLLISION. -/
def execCollision (s : State) : Host.Outcome State Fault Refusal :=
  .next (s.inBoth effectCollision)

/-- The frame whose last CRC bit is read back at this tick (R81). -/
def State.endingFrame (s : State) : Option Sending :=
  match s.link.sending with
  | some x =>
    if !x.ended && x.ticks == s.sampleTick ((frameBits x.frame).length - 1) then some x else none
  | none => none

/-- Self-delivery of one record (R81). -/
def selfDeliver (straps : BitVec 4) (s : State) : Record → State
  | .directive d => if s.hasTime && d.isFor s.loader.number then arriveDirective straps d s else s
  | .stamp _ _ _ _ | .head _ | .data _ _ _ | .status _ => s

/-- The own frame has been sent to its end: the consecutive count returns to 0 and its directives are
self-delivered; after a RESTART among them nothing is left to deliver (R79, R81). -/
def endFrame (straps : BitVec 4) (x : Sending) (s : State) : State :=
  x.frame.records.foldl (selfDeliver straps)
    { s with link := { s.link with sending := some { x with ended := true }, consecutive := 0 } }

/-- The effect of FRAME_SEND_END (R81). -/
def effectFrameSendEnd (straps : BitVec 4) (s : State) : State :=
  match s.endingFrame with | some x => endFrame straps x s | none => s

/-- FRAME_SEND_END. -/
def execFrameSendEnd (straps : BitVec 4) (s : State) : Host.Outcome State Fault Refusal :=
  .next (s.inBoth (effectFrameSendEnd straps))

/-! ### Reception -/

/-- The receiver does not work in the own windows of a LOCKED station (R83). -/
def State.deaf (s : State) : Bool := s.eu.align == some .locked && s.inOwnWindow

/-- The receiver is IDLE and works at this tick (R83). -/
def State.listening (s : State) : Bool :=
  s.link.receiver.isNone && s.hasSchedule && !s.deaf

/-- A start tick: the window that holds it, and how far into it (R83). -/
def beginReception (s : State) : State :=
  { s with link := { s.link with
      receiver := some
        { ticks := 0
          window := s.windowAt s.eu.offset
          distance :=
            match s.windowAt s.eu.offset with
            | some w => s.eu.offset - s.windowStart w
            | none => 0
          cut := false } } }

/-- The effect of FRAME_START_TICK (R83). In the tick of a boundary the start falls in the new epoch's guard,
whichever is taken first (R68; log 9). In the tick of a slip, or of a mark in ALIGNING, the start has the offset of
the moment at which it is taken: taken first it notes the window of the old offset, taken after it lies at offset D and
notes none (the model's choice, log 53). -/
def effectFrameStartTick (s : State) : State :=
  if s.listening then beginReception s else s

/-- FRAME_START_TICK. -/
def execFrameStartTick (s : State) : Host.Outcome State Fault Refusal :=
  .next (s.inBoth effectFrameStartTick)

/-! ### Remote stamps -/

/-- Whether a role of the measure reads this station's channel (R57, R118). -/
def Measure.roleReads (m : Measure) (r : Role) (station : Fin 16) (channel : Fin 4) : Bool :=
  match m.roleSource r with
  | some x => x.station == station && x.channel == channel
  | none => false

/-- STORE_FULL for a source reaches a measure: pending on A and B, applied at once for G (R118). -/
def takeStoreFull (station : Fin 16) (channel : Fin 4) (i : Fin 8) (s : State) : State :=
  let m := s.meas i
  let s1 := s.setMeas i
    { m with
      pendingA := m.pendingA || m.roleReads .A station channel
      pendingB := m.pendingB || m.roleReads .B station channel }
  if m.roleReads .G station channel then takeCondition i .storeFull true s1 else s1

/-- A remote record is dropped: every measure of its consumer set receives STORE_FULL (R57, R58). -/
def dropRemote (e : Entry) (s : State) : State :=
  forEach s.measureOrder
    (fun s i => if e.consumers.getLsbD i.val then takeStoreFull e.station e.channel i s else s) s

/-- A remote offer: declined, dropped out of order or for a full Store, or stored (R56 to R58). -/
def offerRemote (station : Fin 16) (channel : Fin 4) (p : Polarity) (drops : BitVec 8) (t : TimeStamp)
    (s : State) : State :=
  let e := s.offeredEntry station channel p t drops false
  if !e.wanted then s
  else if s.outOfOrder station channel t || !s.storeRoom then dropRemote e s
  else scanArrival e (s.store1 e)

/-! ### Judging and dispatching a frame -/

/-- Checks 1 to 5 (R84). -/
def State.formOk (s : State) (x : Reception) (f : ReadFrame) : Bool :=
  f.startOk && decide (x.distance < Config.startBits * s.bitPeriod)
    && f.crcOk
    && decide (f.count ≤ Config.framePositions) && f.records.all (· != .unknown)
    && decide (f.sender < s.params.stations.toNat) && f.sender != s.loader.number.val
    && (match x.window with
        | some w => s.windowOwner w == f.sender
        | none => false)

/-- A record of an accepted frame (R87). After a RESTART of the same frame nothing is taken (R176). -/
def dispatchRecord (sender : Fin 16) (straps : BitVec 4) (s : State) (r : ReadRecord) : State :=
  if s.hasTime then
    match r with
    | .stamp channel p drops t => offerRemote sender channel p drops t s
    | .directive d =>
      if d.isFor s.loader.number || decide (17 ≤ d.target.toNat) then arriveDirective straps d s else s
    | .ignored | .unknown => s
  else s

/-- The horizon and discontinuity epoch of an accepted frame are written (R87, R97). -/
def writeHorizon (sender : Fin 16) (f : ReadFrame) (s : State) : State :=
  if s.hasTime then
    s.setPeer sender { s.peer sender with horizon := some f.horizon, disc := some f.disc }
  else s

/-- An accepted frame is dispatched (R87). The measures judge once FRAME_RECEIVED is over, not between its records
(R129; log 47). -/
def dispatch (sender : Fin 16) (straps : BitVec 4) (f : ReadFrame) (s : State) : State :=
  writeHorizon sender f (f.records.foldl (dispatchRecord sender straps) s)

/-- Check 8 on the entry as it stood before the presence (R86). -/
def horizonOk (before : Peer) (h : TimeStamp) : Bool :=
  match before.st, before.horizon with
  | .present, some old => compareTime old h != .lt
  | _, _ => true

/-- Check 7 passes a frame of an equal or a serially greater epoch (R23, R24, R86). -/
def State.epochOk (s : State) (f : ReadFrame) : Bool := compareEpoch s.eu.epoch f.epoch != .lt

/-- The station adopts a serially greater epoch of a frame that passes the checks (R23). -/
def adoptFrom (f : ReadFrame) (s : State) : State :=
  if compareEpoch s.eu.epoch f.epoch = .gt then adopt f.epoch s else s

/-- Checks 7 and 8 of a LOCKED or MUTE station, and dispatch (R23, R24, R86, R87). A frame of a greater epoch that
fails check 8 is discarded without adoption, as R23 asks a frame to pass every other check; the order of R86 could
be read otherwise (log 37). -/
def judgeEpoch (sender : Fin 16) (straps : BitVec 4) (before : Peer) (f : ReadFrame) (s : State) :
    State :=
  if s.epochOk f && horizonOk before f.horizon then dispatch sender straps f (adoptFrom f s)
  else s.countDiscard

/-- In ALIGNING the frame supplies the epoch number (R16). -/
def joinBy (f : ReadFrame) (s : State) : State :=
  if s.eu.align = some .aligning then
    becomeLocked f.epoch (s.eu.offset % s.epochLength) .joined s
  else s

/-- The window noted at the start tick has seen a presence of its owner, unless a slip has cut it (R69). -/
def notePresence (x : Reception) (s : State) : State :=
  if x.cut then s else { s with link := { s.link with windowPresence := true } }

/-- A frame that passed checks 1 to 6: presence, then checks 7 and 8 (R85, R86, R93). -/
def takeFrame (x : Reception) (straps : BitVec 4) (f : ReadFrame) (s : State) : State :=
  let sender := finOfNat 15 f.sender
  let s1 := joinBy f s
  judgeEpoch sender straps (s1.peer sender) f (presence sender (notePresence x s1))

/-- A signature that differs: a foreign presence, which counts for its window and which ALIGNING does not apply
(R85, R92, R94, R95). -/
def takeForeign (x : Reception) (f : ReadFrame) (s : State) : State :=
  if s.hasTime then foreignPresence (finOfNat 15 f.sender) (notePresence x s) else s

/-- A received frame is judged and, if accepted, dispatched (R83 to R87). -/
def receiveFrame (x : Reception) (straps : BitVec 4) (f : ReadFrame) (s : State) : State :=
  let s1 := { s with link := { s.link with receiver := none } }
  if s.formOk x f then
    if f.signature = s.loader.signature then takeFrame x straps f s1 else takeForeign x f s1
  else s1.countDiscard

/-- The reception that ends at this tick, its last bit being the last of these (R83). -/
def State.endingReception (s : State) (bits : List Bool) : Option Reception :=
  match s.link.receiver with
  | some x =>
    if s.hasSchedule && x.ticks == s.sampleTick (receptionBits bits - 1) then some x else none
  | none => none

/-- The effect of FRAME_RECEIVED (R83). In an own window of a LOCKED station the reception is ended instead. -/
def effectFrameReceived (bits : List Bool) (straps : BitVec 4) (s : State) : State :=
  match s.endingReception bits with
  | some x => if s.deaf then endReception s else receiveFrame x straps (readFrame bits) s
  | none => s

/-- FRAME_RECEIVED. -/
def execFrameReceived (bits : List Bool) (straps : BitVec 4) (s : State) : Host.Outcome State Fault Refusal :=
  .next (s.inBoth (effectFrameReceived bits straps))

end Sys2Proof.Machine
end

