-- ==== Sys2Proof/Machine/Tick.lean ====
section
/-! DEFINITION. What the station does by itself: the event that is due in this tick, and one tick of REFCLK
(R1; log 4). What only the outside world knows (edges, marks, bits on DATA, image bytes, reset) never comes
from here. -/

namespace Sys2Proof.Machine

/-- A command when its condition holds. -/
def dueIf (p : Bool) (c : Instr) : Option Instr := if p then some c else none

/-- The first unit for which an event is due. -/
def dueAt {n : Nat} (p : Fin n → Bool) (c : Fin n → Instr) : Option Instr :=
  ((List.finRange n).find? p).map c

/-- The Epoch Unit's and the schedule's own events (R10, R14, R17, R18, R8, R69). -/
def State.dueTime (s : State) : List (Option Instr) :=
  [dueIf s.wrapDue .aligningOffsetWrap,
   dueIf s.endingWindow.isSome .windowEnd,
   dueIf s.boundaryDue .epochBoundary,
   dueIf s.seekExpired .seekTimeout,
   dueIf s.alignExpired .aligningTimeout,
   dueIf s.pulseOver .markPulseEnd,
   dueIf s.holdOver .horizonHoldEnd]

/-- The channels' own events (R42, R47). -/
def State.dueChannel (s : State) : List (Option Instr) :=
  [dueIf s.testEventDue .testSourceEvent,
   dueAt (fun c => (s.resolvable c).isSome) .stampResolution]

/-- The due directive at the front of the list (R173). The straps are those the station shows (log 8). -/
def State.dueFront (s : State) : List (Option Instr) :=
  [dueIf (s.dueDirective .arm).isSome .arm,
   dueIf (s.dueDirective .disarm).isSome .disarm,
   dueIf (s.dueDirective .gateOpen).isSome .gateOpen,
   dueIf (s.dueDirective .gateClose).isSome .gateClose,
   dueIf (s.dueDirective .flush).isSome .flush,
   dueIf (s.dueDirective .clearFault).isSome .clearFault,
   dueIf (s.dueDirective .restart).isSome (.restart s.strapPins)]

/-- The gates' own events (R36, R113, R115, R124). -/
def State.dueGate (s : State) : List (Option Instr) :=
  [dueAt (fun i => (s.timedCloseReached i).isSome) .timedGateClose,
   dueAt (fun i => (s.overrunReached i).isSome) .gateOverrun,
   dueAt (fun i => (s.reopenReached i).isSome) .timedGateReopen,
   dueAt s.snapshotReached .snapshotAnswer]

/-- The link's own events (R72, R81). -/
def State.dueLink (s : State) : List (Option Instr) :=
  [dueIf s.assemblyDue .transmitAssembly,
   dueIf s.endingFrame.isSome (.frameSendEnd s.strapPins)]

/-- The judgements and completions that are ready (R129, R145, R148). -/
def State.dueSample (s : State) : List (Option Instr) :=
  [dueAt (fun i => (judgeMove i s).isSome) .sampleSettle,
   dueAt s.intervalComplete .intervalBlockComplete,
   dueAt s.reciprocalComplete .reciprocalBlockComplete]

/-- The next of the station's own events in this tick, in the model's order (log 6). -/
def State.dueCommand (s : State) : Option Instr :=
  (s.dueTime ++ s.dueChannel ++ s.dueFront ++ s.dueGate ++ s.dueLink ++ s.dueSample).findSome? id

/-- The Epoch Unit over one tick (R10, R35). -/
def advanceEpochUnit (s : State) : EpochUnit :=
  match s.eu.align with
  | some .seeking => { s.eu with seekTimer := s.eu.seekTimer + 1 }
  | some .aligning => { s.eu with offset := s.eu.offset + 1, alignTimer := s.eu.alignTimer + 1 }
  | some .locked | some .mute =>
    { s.eu with
      prevHorizon := s.localHorizon
      offset := s.eu.offset + 1
      elapsed := s.eu.elapsed + 1 }
  | some .loading | some .configFault | none => s.eu

/-- The image read over one tick (R187; log 20). -/
def advanceLoader (s : State) : Loader :=
  if s.eu.align = some .loading then
    { s.loader with readTicks := min (s.loader.readTicks + 1) Config.readTicks }
  else s.loader

/-- The frame in flight over one tick; DATA is released at the end of the last CRC bit (R77). -/
def advanceSending (s : State) : Option Sending :=
  match s.link.sending with
  | some x =>
    if x.ended ∧ (frameBits x.frame).length * s.bitPeriod ≤ x.ticks + 1 then none
    else some { x with ticks := x.ticks + 1 }
  | none => none

/-- A reception over one tick (R83). -/
def advanceReceiver (s : State) : Option Reception :=
  s.link.receiver.map fun x => { x with ticks := x.ticks + 1 }

/-- One tick of REFCLK (R1). -/
def advance (s : State) : State :=
  { s with
    eu := advanceEpochUnit s
    loader := advanceLoader s
    link := { s.link with sending := advanceSending s, receiver := advanceReceiver s }
    untested := none
    marks := .clear }

end Sys2Proof.Machine
end

