-- ==== Sys2Proof/Machine/Dispatch.lean ====
section
/-! DEFINITION. One arm for each command. -/

namespace Sys2Proof.Machine

/-- The effect of a command on everything but the queue. -/
def exec (i : Instr) (s : State) : Host.Outcome State Fault Refusal :=
  match i with
  | .resetAssert => Sys2Proof.Machine.execResetAssert s
  | .resetRelease straps => Sys2Proof.Machine.execResetRelease straps s
  | .imageReadComplete image => Sys2Proof.Machine.execImageReadComplete image s
  | .seekTimeout => Sys2Proof.Machine.execSeekTimeout s
  | .aligningTimeout => Sys2Proof.Machine.execAligningTimeout s
  | .aligningOffsetWrap => Sys2Proof.Machine.execAligningOffsetWrap s
  | .markLeadingEdge => Sys2Proof.Machine.execMarkLeadingEdge s
  | .epochBoundary => Sys2Proof.Machine.execEpochBoundary s
  | .markPulseEnd => Sys2Proof.Machine.execMarkPulseEnd s
  | .horizonHoldEnd => Sys2Proof.Machine.execHorizonHoldEnd s
  | .pinEdge channel polarity fine => Sys2Proof.Machine.execPinEdge channel polarity fine s
  | .testSourceEvent => Sys2Proof.Machine.execTestSourceEvent s
  | .stampResolution channel => Sys2Proof.Machine.execStampResolution channel s
  | .snapshotAnswer measure => Sys2Proof.Machine.execSnapshotAnswer measure s
  | .timedGateClose measure => Sys2Proof.Machine.execTimedGateClose measure s
  | .timedGateReopen measure => Sys2Proof.Machine.execTimedGateReopen measure s
  | .gateOverrun measure => Sys2Proof.Machine.execGateOverrun measure s
  | .sampleSettle measure => Sys2Proof.Machine.execSampleSettle measure s
  | .intervalBlockComplete measure => Sys2Proof.Machine.execIntervalBlockComplete measure s
  | .reciprocalBlockComplete measure => Sys2Proof.Machine.execReciprocalBlockComplete measure s
  | .transmitAssembly => Sys2Proof.Machine.execTransmitAssembly s
  | .collision => Sys2Proof.Machine.execCollision s
  | .frameSendEnd straps => Sys2Proof.Machine.execFrameSendEnd straps s
  | .frameReceived bits straps => Sys2Proof.Machine.execFrameReceived bits straps s
  | .windowEnd => Sys2Proof.Machine.execWindowEnd s
  | .arm => Sys2Proof.Machine.execArm s
  | .disarm => Sys2Proof.Machine.execDisarm s
  | .gateOpen => Sys2Proof.Machine.execGateOpen s
  | .gateClose => Sys2Proof.Machine.execGateClose s
  | .flush => Sys2Proof.Machine.execFlush s
  | .clearFault => Sys2Proof.Machine.execClearFault s
  | .restart straps => Sys2Proof.Machine.execRestart straps s
  | .frameStartTick => Sys2Proof.Machine.execFrameStartTick s

end Sys2Proof.Machine
end

