-- ==== Sys2Proof/Safety.lean ====
section
/-! DEFINITION. What the statements say in common: what commands leave unchanged, and the invariant that
every step keeps. -/

namespace Sys2Proof.Machine

/-- What command `c` makes of the station as it stands without this tick's Test Source event (R47; log 39). -/
def State.untestedAfter (s : State) (c : Instr) : Option Station :=
  s.untested.bind fun w =>
    match exec c (s.alone w) with
    | .next u => u.kept
    | _ => none

/-- Command `c` at `s` answers a next state: the station `t`, and beside it what the same command makes of the
station without this tick's Test Source event. -/
def Gives (c : Instr) (s t : State) : Prop := exec c s = .next { t with untested := s.untestedAfter c }

/-- The state after these commands. -/
def State.after (s : State) (l : List Instr) : State :=
  l.foldl (fun s c => match exec c s with | .next t => t | _ => s) s

/-- What a command that acts on measures leaves unchanged: all but the measures, the Store, the Result Queue,
and what a trigger moves (the sequences, the Directive Outbox and the two counts). -/
structure MeasureFrame (s t : State) : Prop where
  pending : t.pending = s.pending
  resetHeld : t.resetHeld = s.resetHeld
  strapPins : t.strapPins = s.strapPins
  loader : t.loader = s.loader
  params : t.params = s.params
  eu : t.eu = s.eu
  channels : t.channels = s.channels
  link : { t.link with outbox := s.link.outbox } = s.link
  peers : t.peers = s.peers
  directives : t.directives = s.directives
  marks : t.marks = s.marks
  order : t.order = s.order
  untested : t.untested = s.untested

/-- What a command that places directives by a trigger leaves unchanged: all but the sequences, the Directive
Outbox and the two counts. -/
structure TriggerFrame (s t : State) : Prop extends MeasureFrame s t where
  store : t.store = s.store
  measures : t.measures = s.measures
  queue : t.queue = s.queue

/-- What an event of the Epoch Unit alone leaves unchanged: all but the Epoch Unit, the marks of the tick, and
the link's status-due flag and window presence. -/
structure EpochFrame (s t : State) : Prop where
  pending : t.pending = s.pending
  resetHeld : t.resetHeld = s.resetHeld
  strapPins : t.strapPins = s.strapPins
  loader : t.loader = s.loader
  params : t.params = s.params
  channels : t.channels = s.channels
  store : t.store = s.store
  link : { t.link with statusDue := s.link.statusDue, windowPresence := s.link.windowPresence } = s.link
  peers : t.peers = s.peers
  measures : t.measures = s.measures
  queue : t.queue = s.queue
  directives : t.directives = s.directives
  directiveDrops : t.directiveDrops = s.directiveDrops
  sequences : t.sequences = s.sequences
  triggerOverruns : t.triggerOverruns = s.triggerOverruns
  untested : t.untested = s.untested
  order : t.order = s.order

/-- Every block but the loader and the Epoch Unit is in its reset value, as its own chapter gives (R49, R66,
R89, R102, R127, R166, R184). -/
structure BlocksReset (s : State) : Prop where
  params : s.params = .reset
  channels : ∀ c, s.chan c = .reset
  store : s.store = []
  link : s.link = .reset
  peers : ∀ p, s.peer p = .reset
  measures : ∀ i, s.meas i = .reset
  queue : s.queue = []
  directives : s.directives = []
  directiveDrops : s.directiveDrops = 0
  sequences : ∀ i, s.sequences.get i = .reset
  triggerOverruns : s.triggerOverruns = 0
  untested : s.untested = none

/-- What a receiver takes of a record as sent (R87, R199). -/
def Record.asRead : Record → ReadRecord
  | .stamp c p d t => .stamp c p d t
  | .directive d => .directive d
  | .head _ | .data _ _ _ | .status _ => .ignored

/-- The losses of one channel that an abandoned frame accounts: each STAMP record of it counts 1 and the drop
count it carried (R45). -/
def lossOf (c : Fin 4) : List Record → Nat
  | [] => 0
  | .stamp d _ drops _ :: rest => (if d = c then 1 + drops.toNat else 0) + lossOf c rest
  | _ :: rest => lossOf c rest

/-- The records of the frame in flight, but for one that has been sent to its end (R77, R81). -/
def State.unsentRecords (s : State) : List Record :=
  match s.link.sending with
  | some x => if x.ended then [] else x.frame.records
  | none => []

/-- The STAMP records of entries sent in this order: the first of a channel carries the losses its channel holds,
the next ones their own drop count alone (R46). -/
def stampRecords (lost : Fin 4 → BitVec 8) : List Entry → List Record
  | [] => []
  | e :: rest =>
    .stamp e.channel e.polarity (satAdd e.drops (lost e.channel).toNat) e.time
      :: stampRecords (fun c => if c = e.channel then 0 else lost c) rest

/-- A measure as its gate opens at t: a TOTALIZE measure takes its open snapshot, or asks for it while t is not
reached (R36, R110 to R112, R149). -/
def State.gateOpened (s : State) (m : Measure) (t : TimeStamp) : Measure :=
  { m with
    st := .opened
    openTime := some t
    closeTime := none
    carriedOpening := none
    closedByStamp := false
    block :=
      if m.config.map (·.kind) = some .totalize then
        if s.reached t then
          { m.block with openSnapshot :=
              match m.config with
              | some c => s.snapshot c.a.channel t
              | none => 0 }
        else { m.block with openRequest := some t }
      else m.block }

/-- The group g of measure i, its sequence number still to come, has gone to the Result Queue behind all that stood
there, numbered as the measure counts (R125, R160), or the measure holds it in REPORTING (R117). -/
def Reports (s t : State) (i : Fin 8) (g : Group) : Prop :=
  (∃ front back, t.queue = front ++ { g with sequence := (s.meas i).sequence } :: back ∧ s.queue <+: front) ∨
    ((t.meas i).st = .reporting ∧ (t.meas i).heldGroup = some g)

/-- Measure i is in FAULT, and its report of the fault has gone to the Result Queue or waits for a place (R119,
R158, R162). -/
def Faults (s t : State) (i : Fin 8) (k : FaultKind) : Prop :=
  (t.meas i).st = .fault ∧
    ((∃ front back, s.queue <+: front ∧
        t.queue = front ++ { faultReport i (s.meas i).kind k with sequence := (s.meas i).sequence } :: back) ∨
      (t.meas i).heldReport = some (faultReport i (s.meas i).kind k))

/-- The gate of the OPEN TOTALIZE measure i closes at z, a time local time has reached, with these qualifiers on its
block. With its open snapshot taken, the close snapshot is answered at once, and the difference is reported, or the
measure enters FAULT over an unmasked discontinuity; else it enters CLOSING and asks for the close snapshot (R36, R113,
R149, R150, R157). -/
structure ClosesTotalize (s t : State) (i : Fin 8) (c : MeasureConfig) (z : TimeStamp) (quals : BitVec 12) : Prop where
  reports : (s.meas i).block.openRequest = none →
    (∀ o, (s.meas i).openTime = some o → s.crosses o z [] = false) ∨ (s.meas i).masks .discontinuity = true →
    ∃ g, Reports s t i g ∧ g.measure = i ∧ g.kind = .totalize ∧ g.isFault = false ∧
      g.values = [s.snapshot c.a.channel z - (s.meas i).block.openSnapshot] ∧
      ∀ q, hasQual q quals = true → hasQual q g.quals = true
  faults : (s.meas i).block.openRequest = none → (s.meas i).masks .discontinuity = false →
    ∀ o, (s.meas i).openTime = some o → s.crosses o z [] = true → Faults s t i .discontinuity
  asks : (s.meas i).block.openRequest ≠ none → t.meas i = { s.meas i with
    st := .closing
    closeTime := some z
    block := { (s.meas i).block with closeRequest := some z, quals := quals } }

/-- An OPEN or CLOSING INTERVAL measure that meets no stamp below its gate: what it judges next is a matter of
R133 to R138. -/
structure Judges (s : State) (i : Fin 8) (c : MeasureConfig) : Prop where
  inGate : (s.meas i).st = .opened ∨ (s.meas i).st = .closing
  config : (s.meas i).config = some c
  interval : c.kind = .interval
  nothingA : s.passable i .A = none
  nothingB : s.passable i .B = none

/-- How many of n directives the Directive Outbox takes now: a MUTE station places none (R82, R183). -/
def State.placesFor (s : State) (n : Nat) : Nat :=
  if s.eu.align = some .mute then 0 else min n (Config.outboxCapacity - s.link.outbox.length)

/-- A run of sequence i over the steps l, from one placement to the next pause or to the end: the placed steps'
directives join the outbox as it has room, the others are counted as dropped, and the sequence pauses with the
steps that remain, or is IDLE (R178, R181 to R183). -/
structure Runs (i : Fin 4) (l : List TriggerStep) (s t : State) : Prop where
  frame : TriggerFrame s t
  others : ∀ j, j ≠ i → t.sequences.get j = s.sequences.get j
  triggerOverruns : t.triggerOverruns = s.triggerOverruns
  run : ∃ placed rest, l = placed ++ rest ∧
    t.link.outbox = s.link.outbox ++ (placed.take (s.placesFor placed.length)).map (stepDirective s) ∧
    t.directiveDrops = satAdd s.directiveDrops (placed.length - s.placesFor placed.length) ∧
    (((∀ x ∈ placed, x.pause = 0) ∧ rest = [] ∧
        t.sequences.get i = { s.sequences.get i with st := .idle }) ∨
      ∃ front x, placed = front ++ [x] ∧ (∀ y ∈ front, y.pause = 0) ∧ x.pause ≠ 0 ∧
        t.sequences.get i = { s.sequences.get i with st := .running rest x.pause.toNat 0 })

/-- No source of the measure lies on a peer that is ABSENT or FOREIGN (R101). -/
def State.peersGive (s : State) (i : Fin 8) : Prop :=
  ∀ r x, (s.meas i).roleSource r = some x →
    x.station = s.loader.number ∨ (s.peer x.station).st.condition = none

/-- What stands outside the station and what the model itself holds: every command leaves it unchanged but a
start, which latches the straps. -/
structure OutsideFrame (s t : State) : Prop where
  pending : t.pending = s.pending
  order : t.order = s.order

/-- Some measure waits for a place in the Result Queue (R162). -/
def State.someWaits (s : State) : Prop := ∃ i, (s.meas i).waits = true

/-- What the arbiter leaves: it gives places one at a time, each to the waiting measure with the lowest index at that
moment, until no place is left or no measure waits (R162). -/
inductive Arbitrates : State → State → Prop where
  | ends (s : State) (h : s.queueRoom = false ∨ ¬ s.someWaits) : Arbitrates s s
  | gives (s t : State) (i : Fin 8) (room : s.queueRoom = true) (waits : (s.meas i).waits = true)
      (lowest : ∀ j, j < i → (s.meas j).waits = false) (rest : Arbitrates (givePlace i s) t) : Arbitrates s t

/-- At an entry into ARMED a peer that a source of measure i names gives this condition (R101). -/
def State.peerGives (s : State) (i : Fin 8) (k : FaultKind) : Prop :=
  ∃ r x, (s.meas i).roleSource r = some x ∧ x.station ≠ s.loader.number ∧
    (s.peer x.station).st.condition = some k

/-- Measure i, as it enters ARMED in the form `base`, has taken the conditions its named peers give, all of them
masked, and stands as `a`: their qualifiers are set, and every source on such a peer keeps that peer's horizon as its
final horizon (R101, R120, R151). -/
structure Asked (s : State) (i : Fin 8) (base a : Measure) : Prop where
  same : a = { base with
    block := { base.block with quals := a.block.quals }
    finalA := a.finalA
    finalB := a.finalB
    finalG := a.finalG }
  quals : ∀ q, hasQual q a.block.quals = true ↔
    hasQual q base.block.quals = true ∨ ∃ k, q = .fault k ∧ s.peerGives i k
  finals : ∀ r, a.final r = match (s.meas i).roleSource r with
    | some x => if x.station ≠ s.loader.number ∧ (s.peer x.station).st.condition ≠ none then
        .held (s.peer x.station).horizon else base.final r
    | none => base.final r

/-- The close time of a TIMED gate: the one fixed, or the one it would have had (R110, R124). -/
def Measure.timedClose (m : Measure) (E : Nat) (c : MeasureConfig) (z : TimeStamp) : Prop :=
  m.closeTime = some z ∨ (m.closeTime = none ∧ ∃ o, m.openTime = some o ∧ z = addTicks E o c.length.toNat)

/-- A measure wants a stamp in a role: it is ARMED, OPEN or CLOSING, it fills the role, and the role's source names
the stamp's station, channel and polarity, or any polarity (R43, R56, R63). -/
def Measure.wants (m : Measure) (r : Role) (station : Fin 16) (channel : Fin 4) (p : Polarity) : Prop :=
  (m.st = .armed ∨ m.st = .opened ∨ m.st = .closing) ∧
    ∃ c x, m.config = some c ∧
      ((r = .A ∧ c.kind ≠ .totalize ∧ x = c.a) ∨ (r = .B ∧ c.kind = .interval ∧ x = c.b) ∨
        (r = .G ∧ c.gate = .edge ∧ x = c.g)) ∧
      x.station = station ∧ x.channel = channel ∧
      (x.polarity = .any ∨ (x.polarity = .rise ∧ p = .rise) ∨ (x.polarity = .fall ∧ p = .fall))

/-- What an entry holds of its stamp (R51). -/
def Entry.stamp (e : Entry) : Fin 16 × Fin 4 × Polarity × TimeStamp × BitVec 8 :=
  (e.station, e.channel, e.polarity, e.time, e.drops)

/-- Role r of measure i has passed entry e: its view has lost it, every other view and what waits to be published
stand as they stood, and an entry nobody wants any more has left the Store (R59, R64). -/
structure Passes (i : Fin 8) (r : Role) (e : Entry) (s t : State) : Prop where
  role : (t.view i r).map Entry.stamp = ((s.view i r).filter fun f => !f.same e).map Entry.stamp
  others : ∀ j q, j ≠ i ∨ q ≠ r → (t.view j q).map Entry.stamp = (s.view j q).map Entry.stamp
  publish : (t.store.filter (·.publish)).map Entry.stamp = (s.store.filter (·.publish)).map Entry.stamp
  wanted : ∀ f ∈ t.store, f.publish = true ∨ ∃ j q, f.inView j q = true

/-- The G role of measure i has judged its view from the first stamp on; `fresh` when its gate may just have opened, so
that an overrun time already past closes it, as in rescanGate (R111, R113, R115). -/
def State.scanned (s : State) (fresh : Bool) (i : Fin 8) : State := scanGate s.scanFuel fresh i s

/-- A source's horizon has reached the close time, or the source is held (R145, R148, R151). -/
def State.covers (s : State) (i : Fin 8) (r : Role) (close : TimeStamp) : Prop :=
  (s.meas i).final r ≠ .live ∨ ∃ h, s.roleHorizon i r = some h ∧ atOrAfter h close = true

/-- The span of a RECIPROCAL block with events crosses a discontinuity (R27, R148). -/
def Block.crossing (b : Block) (s : State) (c : MeasureConfig) : Prop :=
  b.events ≠ 0 ∧ ∃ x y, b.first = some x ∧ b.last = some y ∧ s.crosses x y [c.a.station] = true

/-- A measure takes no part: not active, not REPORTING and not in FAULT (R107). -/
def Measure.quiet (m : Measure) : Bool := !m.st.reported && m.st != .fault

/-- Measure i is active, or in no entry's consumer set (R62). -/
def State.released (s : State) (i : Fin 8) : Prop :=
  (s.meas i).st.active = true ∨ ∀ e ∈ s.store, e.consumers.getLsbD i.val = false

/-- The bounds every state of the station keeps, also between the taking of groups and the giving of their
places. -/
structure Bounded (s : State) : Prop where
  /-- The Store holds at most 128 entries (R52). -/
  store_le : s.store.length ≤ Config.storeCapacity
  /-- Every entry has a consumer (R52, R59). -/
  store_wanted : ∀ e ∈ s.store, e.wanted = true
  /-- Only a LOCKED station holds entries to publish (R43, R61). -/
  store_publish : s.eu.align ≠ some .locked → ∀ e ∈ s.store, e.publish = false
  /-- The Result Queue holds at most 12 groups (R160). -/
  queue_le : s.queue.length ≤ Config.queueCapacity
  /-- The Pending Directive List holds at most 8 directives (R170). -/
  directives_le : s.directives.length ≤ Config.listCapacity
  /-- The Directive Outbox holds at most 6 directives (R82). -/
  outbox_le : s.link.outbox.length ≤ Config.outboxCapacity
  /-- A measure that is not ARMED, OPEN or CLOSING is in no consumer set (R62). -/
  released : ∀ i, s.released i
  /-- The consecutive collision count is 0 to 2 (R79). -/
  consecutive_lt : s.link.consecutive < Config.muteCollisions
  /-- Only a LOCKED station has a frame in flight (R77). -/
  sending_locked : s.link.sending.isSome = true → s.eu.align = some .locked
  /-- A frame in flight has at most 8 records (R72). -/
  sending_le : ∀ x, s.link.sending = some x → x.frame.records.length ≤ Config.framePositions
  /-- Without local time the station holds nothing and no measure takes part (R66, R89, R127, R166, R184). -/
  timeless : s.hasTime = false → s.store = [] ∧ s.queue = [] ∧ s.directives = [] ∧ s.link.outbox = []
    ∧ ∀ i, (s.meas i).quiet = true

/-- The invariant of the station by itself: its bounds, and a measure waits only while the Result Queue is full
(R162). -/
structure Sound (s : State) : Prop extends Bounded s where
  waiting_full : s.someWaits → s.queue.length = Config.queueCapacity

/-- The invariant: the station is sound, and so it is as it stands without this tick's Test Source event. -/
structure Inv (s : State) : Prop extends Sound s where
  alone : ∀ w, s.untested = some w → Sound (s.alone w)

end Sys2Proof.Machine
end

