-- ==== Sys2Proof/Certificates/Slice0/Obligations.lean ====
section
/-! DEFINITION. The statements for the provers. `Gives c s t` (Safety.lean) says that exec of command `c` at `s` answers
a next state: the station `t`, and beside it the station without this tick's Test Source event, if there is such an
event, as the same command leaves that one (R47; log 39). -/

open Sys2Proof Sys2Proof.Machine

/-! ### Steps -/

/-- A step takes the command at the front of the queue and runs it on the queue's rest. -/
def Obligations.StepRunsFrontCommand : Prop :=
  ∀ (c : Instr) (rest : List Instr) (s : State),
    step { s with pending := c :: rest } = exec c { s with pending := rest }

/-- On an empty queue the station's own due event happens, else one tick of REFCLK passes (the model's choice,
log 4). In a tick the counters of the alignment state move, the local horizon is kept for a hold, the frame in
flight counts the tick and leaves DATA at the end of its last CRC bit, the image read counts its ticks up to the
32,960 of its 4120 bits, a reception counts the tick, and nothing else changes but the marks of the tick (R1, R8,
R10, R77, R83, R187; logs 4, 6, 20, 39). -/
def Obligations.EmptyQueueRunsEventOrTick : Prop :=
  ∀ s : State,
    (s.pending = [] → (∀ c, s.dueCommand = some c → step s = exec c s) ∧
      (s.dueCommand = none → step s = .next (advance s))) ∧
    (s.hasTime = true → (advance s).eu = { s.eu with
      offset := s.eu.offset + 1, elapsed := s.eu.elapsed + 1, prevHorizon := s.localHorizon }) ∧
    (s.eu.align = some .seeking → (advance s).eu = { s.eu with seekTimer := s.eu.seekTimer + 1 }) ∧
    (s.eu.align = some .aligning → (advance s).eu = { s.eu with
      offset := s.eu.offset + 1, alignTimer := s.eu.alignTimer + 1 }) ∧
    (s.hasSchedule = false → s.eu.align ≠ some .seeking → (advance s).eu = s.eu) ∧
    (s.link.sending = none → (advance s).link.sending = none) ∧
    (∀ x, s.link.sending = some x →
      (x.ended = true → (frameBits x.frame).length * s.bitPeriod ≤ x.ticks + 1 →
        (advance s).link.sending = none) ∧
      (x.ended = false ∨ x.ticks + 1 < (frameBits x.frame).length * s.bitPeriod →
        (advance s).link.sending = some { x with ticks := x.ticks + 1 })) ∧
    (s.eu.align = some .loading →
      (advance s).loader.readTicks = min (s.loader.readTicks + 1) 32960) ∧
    (s.eu.align ≠ some .loading → (advance s).loader = s.loader) ∧
    advance s = { s with
      eu := (advance s).eu
      loader := { s.loader with readTicks := (advance s).loader.readTicks }
      link := { s.link with
        sending := (advance s).link.sending
        receiver := s.link.receiver.map fun x => { x with ticks := x.ticks + 1 } }
      untested := none
      marks := .clear }

/-- Every command, in every state, answers a next state, and leaves the queue and the free orders alone. That no
command stops, not even one out of its condition or with too few bits, is the model's choice (logs 5, 7, 11, 21). -/
def Obligations.EveryCommandAnswers : Prop :=
  ∀ (c : Instr) (s : State), ∃ t, exec c s = .next t ∧ t.pending = s.pending ∧ t.order = s.order

/-- A command whose condition does not hold has no effect (the model's choice, log 5). -/
def Obligations.CommandsOutOfConditionDoNothing : Prop :=
  ∀ s : State,
    (s.resetHeld = false → ∀ straps, Gives (.resetRelease straps) s s) ∧
    (s.readDone = false → ∀ image, Gives (.imageReadComplete image) s s) ∧
    (s.seekExpired = false → Gives .seekTimeout s s) ∧
    (s.alignExpired = false → Gives .aligningTimeout s s) ∧
    (s.wrapDue = false → Gives .aligningOffsetWrap s s) ∧
    (s.eu.align = none ∨ s.eu.align = some .loading ∨ s.eu.align = some .configFault →
      Gives .markLeadingEdge s s) ∧
    (s.boundaryDue = false → Gives .epochBoundary s s) ∧
    (s.pulseOver = false → Gives .markPulseEnd s s) ∧
    (s.holdOver = false → Gives .horizonHoldEnd s s) ∧
    (s.testEventDue = false → exec .testSourceEvent s = .next s) ∧
    (∀ c, s.resolvable c = none → Gives (.stampResolution c) s s) ∧
    (∀ i, s.snapshotReached i = false → Gives (.snapshotAnswer i) s s) ∧
    (∀ i, s.timedCloseReached i = none → Gives (.timedGateClose i) s s) ∧
    (∀ i, s.reopenReached i = none → Gives (.timedGateReopen i) s s) ∧
    (∀ i, s.overrunReached i = none → Gives (.gateOverrun i) s s) ∧
    (∀ i, s.intervalComplete i = false → Gives (.intervalBlockComplete i) s s) ∧
    (∀ i, s.reciprocalComplete i = false → Gives (.reciprocalBlockComplete i) s s) ∧
    (s.assemblyDue = false → Gives .transmitAssembly s s) ∧
    (s.collisionPoint = false → Gives .collision s s) ∧
    (s.endingFrame = none → ∀ straps, Gives (.frameSendEnd straps) s s) ∧
    (∀ bits, s.endingReception bits = none → ∀ straps, Gives (.frameReceived bits straps) s s) ∧
    (s.listening = false → Gives .frameStartTick s s) ∧
    (s.endingWindow = none → Gives .windowEnd s s) ∧
    (s.dueDirective .arm = none → Gives .arm s s) ∧
    (s.dueDirective .disarm = none → Gives .disarm s s) ∧
    (s.dueDirective .gateOpen = none → Gives .gateOpen s s) ∧
    (s.dueDirective .gateClose = none → Gives .gateClose s s) ∧
    (s.dueDirective .flush = none → Gives .flush s s) ∧
    (s.dueDirective .clearFault = none → Gives .clearFault s s) ∧
    (s.dueDirective .restart = none → ∀ straps, Gives (.restart straps) s s)

/-! ### Time -/

/-- Epoch numbers compare serially, and the serial difference is d read as a signed number (R3). -/
def Obligations.EpochsCompareSerially : Prop :=
  ∀ a b : BitVec 16, ∃ d : Nat, d = (b.toNat + 65536 - a.toNat) % 65536 ∧
    (d = 0 → compareEpoch a b = .eq) ∧
    (1 ≤ d ∧ d ≤ 32767 → compareEpoch a b = .gt) ∧
    (32768 ≤ d → compareEpoch a b = .lt) ∧
    (d ≤ 32767 → serialDiff a b = d) ∧
    (32768 ≤ d → serialDiff a b = (d : Int) - 65536) ∧
    (d = 32768 → compareEpoch b a = .lt)

/-- The interval of R5: its formula, its sign against the comparison of R4, and its magnitude. Adding L ticks and
subtracting them again gives the time back, and the sum is later while it crosses fewer than 32768 epochs (R6). -/
def Obligations.IntervalsAndSumsOfTicks : Prop :=
  (∀ (E : Nat) (a b : TimeStamp), a.offset.toNat < E → b.offset.toNat < E →
      interval E a b = serialDiff a.epoch b.epoch * E * 256
        + ((b.offset.toNat * 256 + b.fine.toNat : Nat) : Int) - ((a.offset.toNat * 256 + a.fine.toNat : Nat) : Int) ∧
      (0 < interval E a b ↔ compareTime a b = .gt) ∧
      (interval E a b = 0 ↔ compareTime a b = .eq) ∧
      (interval E a b < 0 ↔ compareTime a b = .lt) ∧
      (interval E a b).natAbs < 32769 * E * 256) ∧
  (∀ (k : Nat) (t : TimeStamp) (L : Nat), 16 ≤ k → k ≤ 24 → t.offset.toNat < 2 ^ k → L < 2 ^ 32 →
      subTicks (2 ^ k) (addTicks (2 ^ k) t L) L = t ∧
      (addTicks (2 ^ k) t L).fine = t.fine ∧
      (addTicks (2 ^ k) t L).offset.toNat < 2 ^ k ∧
      (0 < L → t.offset.toNat + L < 32768 * 2 ^ k → later (addTicks (2 ^ k) t L) t = true))

/-- The window schedule: window w of an epoch with room for it is found from its first tick to its last, its
end is found at its end, and no tick of the guard lies in a window (R68). -/
def Obligations.WindowScheduleCoversWindows : Prop :=
  ∀ (s : State) (w : Nat), w < s.windowCount →
    (∀ o, s.windowStart w ≤ o → o < s.windowStart (w + 1) → s.windowAt o = some w) ∧
    s.windowEndingAt (s.windowStart (w + 1)) = some w ∧
    s.windowStart (w + 1) ≤ s.epochLength ∧
    (∀ o, o < Config.guardTicks → s.windowAt o = none)

/-! ### Reset, start and load -/

/-- RESET_ASSERT: every block takes its reset value, every line is released or low (R28, R186, R193, R194).
RESET_RELEASE with RESETn held, and RESTART at its due time: the station number is latched from the straps, the
cause is POWER_ON or RESTART, the station is LOADING at the start of the image read, and every other block is in
its reset value (R176, R186). The values R28 leaves undefined (epoch, offset, discontinuity epoch, origin, kept
horizon), the loader's before a start and the parameters' before a load are the model's choices (logs 2, 3). -/
def Obligations.ResetAndStartsResetEveryBlock : Prop :=
  (∀ s : State, ∃ t, exec .resetAssert s = .next t ∧ BlocksReset t ∧ t.eu = .reset ∧ t.loader = .reset ∧
      t.resetHeld = true ∧ t.strapPins = s.strapPins ∧ t.pending = s.pending ∧
      t.ready = false ∧ t.faultLine = false ∧ t.markLine = false ∧ t.dataLine = false ∧
      t.chipSelectLow = false) ∧
  (∀ (s : State) (straps : BitVec 4), s.resetHeld = true →
      ∃ t, Gives (.resetRelease straps) s t ∧ BlocksReset t ∧
        t.eu = { EpochUnit.reset with align := some .loading } ∧
        t.loader = ⟨straps.toFin, .powerOn, 0, 0, 0, 0⟩ ∧
        t.resetHeld = false ∧ t.strapPins = straps ∧ t.pending = s.pending ∧
        t.ready = false ∧ t.faultLine = false) ∧
  (∀ (s : State) (d : Directive) (straps : BitVec 4), s.dueDirective .restart = some d →
      ∃ t, Gives (.restart straps) s t ∧ BlocksReset t ∧
        t.eu = { EpochUnit.reset with align := some .loading } ∧
        t.loader = ⟨straps.toFin, .restart, 0, 0, 0, 0⟩ ∧ t.pending = s.pending ∧
        t.ready = false ∧ t.faultLine = false ∧ t.markLine = false ∧ t.dataLine = false)

/-- IMAGE_READ_COMPLETE with an image that passes the five checks: signature, masks, parts, measures and
sequences are loaded, and the station enters SEEKING (R105, R179, R188, R192); the Epoch Unit's registers that
R12 and R28 leave undefined hold 0 (the model's choice, log 2). With an image that fails a check: CONFIG_FAULT,
READY low and FAULT high, nothing else changed (R191). The five checks ask for the marker, the revision, the CRC-24,
every field of header, group, station and channel parts in its range with the reserved bytes 0, and a schedule with
room for the group and a station number within it (R30, R68, R188, R190). A measure is loaded from its record exactly
when its kind is not DISABLED and the checks of R105 pass, in the table's order: the codes, used or not; the ranges;
window; timed length; stations and local channels of the used sources; TOTALIZE source and gate; free gate; reserved
bytes and bits; it then has the record's fields (R104, R105, R200). A sequence is loaded from its record exactly when
its source is not NONE, the codes are listed, the reserved bits and byte are 0, there are 1 to 3 steps, a CHANNEL
source's edge select is not OFF, and each used step has a target below S or ALL, a code of 1-7 and a lead; it then has
the record's source and steps (R179, R200). Parameters and channels have the bytes of their parts (R30, Formats), and a
field of several bytes is big-endian. -/
def Obligations.ImageLoadsOrFaults : Prop :=
  (∀ (s : State) (image : List Byte), s.readDone = true → imageOk image s.loader.number = true →
      ∃ t, Gives (.imageReadComplete image) s t ∧
        t.eu = { EpochUnit.reset with align := some .seeking } ∧
        t.params = imageParams image ∧
        t.loader.signature = crc24 ((image.drop 4).take 12) ∧
        t.loader.number = s.loader.number ∧ t.loader.cause = s.loader.cause ∧
        (∀ i : Fin 8, t.loader.measDisabled.getLsbD i.val
          = (measureConfig image s.loader.number i).isNone) ∧
        (∀ i : Fin 4, t.loader.trigDisabled.getLsbD i.val = (triggerConfig image i).isNone) ∧
        (∀ c : Fin 4, (t.chan c).config = some (channelConfig image c) ∧
          (t.chan c).st = if (channelConfig image c).edges = .off then .off else .normal) ∧
        (∀ i : Fin 8, (t.meas i).config = measureConfig image s.loader.number i ∧
          (t.meas i).st = if (measureConfig image s.loader.number i).isSome then .idle else .disabled) ∧
        (∀ i : Fin 4, t.sequences.get i
          = ⟨triggerConfig image i, if (triggerConfig image i).isSome then .idle else .disabled⟩) ∧
        t.store = s.store ∧ t.queue = s.queue ∧ t.link = s.link ∧ t.peers = s.peers ∧
        t.directives = s.directives ∧ t.pending = s.pending) ∧
  (∀ (s : State) (image : List Byte), s.readDone = true → imageOk image s.loader.number = false →
      Gives (.imageReadComplete image) s { s with eu := { s.eu with align := some .configFault } } ∧
      ({ s with eu := { s.eu with align := some .configFault } } : State).ready = false ∧
      ({ s with eu := { s.eu with align := some .configFault } } : State).faultLine = true) ∧
  (∀ (image : List Byte) (number : Fin 16), imageOk image number = true ↔
      byteAt image 0 = 0xC5 ∧ byteAt image 1 = 0x3A ∧ byteAt image 2 = 0x02 ∧
      (crc24 (image.take 509)).toNat = fieldAt image 509 3 ∧
      (2 ≤ byteAt image 4 ∧ byteAt image 4 ≤ 16 ∧ 16 ≤ byteAt image 5 ∧ byteAt image 5 ≤ 24 ∧
        byteAt image 6 ≤ 3 ∧ 2 ≤ byteAt image 7 ∧ byteAt image 7 ≤ 15 ∧
        1 ≤ byteAt image 8 ∧ byteAt image 8 ≤ 15 ∧ 1 ≤ byteAt image 17 ∧
        (∀ k, k = 3 ∨ (9 ≤ k ∧ k ≤ 15) ∨ (20 ≤ k ∧ k ≤ 23) ∨ (472 ≤ k ∧ k ≤ 508) → byteAt image k = 0) ∧
        ∀ c : Fin 4, byteAt image (24 + 12 * c.val) ≤ 1 ∧ byteAt image (25 + 12 * c.val) ≤ 3 ∧
          byteAt image (26 + 12 * c.val) ≤ 1 ∧ byteAt image (27 + 12 * c.val) = 0 ∧
          1 ≤ fieldAt image (30 + 12 * c.val) 3 ∧ fieldAt image (30 + 12 * c.val) 3 ≤ 65536 ∧
          byteAt image (35 + 12 * c.val) = 0) ∧
      byteAt image 4 ≤ (2 ^ byteAt image 5 - 256) / (672 * (4 * 2 ^ byteAt image 6)) ∧
      number.val < byteAt image 4) ∧
  (∀ (image : List Byte) (number : Fin 16) (i : Fin 8) (r : Nat), r = 72 + 40 * i.val →
      ((measureConfig image number i).isSome = true ↔
        (1 ≤ byteAt image r ∧ byteAt image r ≤ 3 ∧ byteAt image (r + 1) ≤ 3 ∧ byteAt image (r + 2) ≤ 1 ∧
          byteAt image (r + 3) ≤ 1 ∧ byteAt image (r + 16) ≤ 1 ∧
          (byteAt image (r + 2) = 1 → byteAt image (r + 1) = 1) ∧
          ∀ k, k = 4 ∨ k = 7 ∨ k = 10 →
            byteAt image (r + k) ≤ 15 ∧ byteAt image (r + k + 1) ≤ 3 ∧ byteAt image (r + k + 2) ≤ 2) ∧
        (1 ≤ fieldAt image (r + 24) 2 ∧ fieldAt image (r + 24) 2 ≤ 32767 ∧
          (byteAt image r = 3 → 1 ≤ fieldAt image (r + 22) 2) ∧
          (byteAt image (r + 1) = 1 → 1 ≤ fieldAt image (r + 18) 4)) ∧
        (byteAt image r = 3 → fieldAt image (r + 26) 6 ≤ fieldAt image (r + 32) 6) ∧
        (byteAt image (r + 1) = 1 →
          fieldAt image (r + 18) 4 ≤ fieldAt image (r + 24) 2 * 2 ^ byteAt image 5) ∧
        (∀ k, k = 4 ∨ (k = 7 ∧ byteAt image r = 3) ∨ (k = 10 ∧ byteAt image (r + 1) = 2) →
          byteAt image (r + k) < byteAt image 4 ∧
          (byteAt image (r + k) = number.val → 1 ≤ byteAt image (25 + 12 * byteAt image (r + k + 1)) ∧
            byteAt image (25 + 12 * byteAt image (r + k + 1)) ≤ 3)) ∧
        (byteAt image r = 1 → byteAt image (r + 4) = number.val ∧ byteAt image (r + 6) = 0 ∧
          (byteAt image (r + 1) = 2 → byteAt image (r + 10) = number.val)) ∧
        (byteAt image r ≠ 3 → byteAt image (r + 1) ≠ 0) ∧
        (byteAt image (r + 13) < 8 ∧ byteAt image (r + 14) < 64 ∧
          ∀ k, k = 17 ∨ k = 38 ∨ k = 39 → byteAt image (r + k) = 0)) ∧
      ∀ c, measureConfig image number i = some c →
        c.kind = (if byteAt image r = 1 then .totalize else if byteAt image r = 2 then .reciprocal else .interval) ∧
        c.gate = (if byteAt image (r + 1) = 0 then .free else if byteAt image (r + 1) = 1 then .timed
          else if byteAt image (r + 1) = 2 then .edge else .directive) ∧
        (c.gateAlign = .mark ↔ byteAt image (r + 2) = 1) ∧ (c.policy = .latest ↔ byteAt image (r + 3) = 1) ∧
        (∀ k x, (k = 4 ∧ x = c.a) ∨ (k = 7 ∧ x = c.b) ∨ (k = 10 ∧ x = c.g) →
          x.station.val = byteAt image (r + k) ∧ x.channel.val = byteAt image (r + k + 1) ∧
          x.polarity = (if byteAt image (r + k + 2) = 0 then .any
            else if byteAt image (r + k + 2) = 1 then .rise else .fall)) ∧
        c.accept.toNat = byteAt image (r + 13) ∧ c.faultMask.toNat = byteAt image (r + 14) ∧
        c.rearm.toNat = byteAt image (r + 15) ∧ (c.autoArm = true ↔ byteAt image (r + 16) = 1) ∧
        c.length.toNat = fieldAt image (r + 18) 4 ∧ c.blockSize.toNat = fieldAt image (r + 22) 2 ∧
        c.spanLimit.toNat = fieldAt image (r + 24) 2 ∧ c.windowLow.toNat = fieldAt image (r + 26) 6 ∧
        c.windowHigh.toNat = fieldAt image (r + 32) 6) ∧
  (∀ (image : List Byte) (i : Fin 4) (r : Nat), r = 392 + 20 * i.val →
      ((triggerConfig image i).isSome = true ↔
        (1 ≤ byteAt image r ∧ byteAt image r ≤ 2) ∧
        (byteAt image (r + 1) < 64 ∧ byteAt image (r + 1) / 4 % 4 = 0 ∧ byteAt image (r + 1) / 16 ≤ 2) ∧
        byteAt image (r + 2) ≤ 7 ∧ 1 ≤ byteAt image (r + 3) ∧ byteAt image (r + 3) ≤ 3 ∧
        byteAt image (r + 4) = 0 ∧
        (byteAt image r = 1 → 1 ≤ byteAt image (25 + 12 * (byteAt image (r + 1) % 4)) ∧
          byteAt image (25 + 12 * (byteAt image (r + 1) % 4)) ≤ 3) ∧
        ∀ j, j < byteAt image (r + 3) →
          (byteAt image (r + 5 + 5 * j) = 16 ∨ byteAt image (r + 5 + 5 * j) < byteAt image 4) ∧
          1 ≤ byteAt image (r + 6 + 5 * j) ∧ byteAt image (r + 6 + 5 * j) ≤ 7 ∧
          1 ≤ byteAt image (r + 8 + 5 * j)) ∧
      ∀ c, triggerConfig image i = some c →
        (byteAt image r = 1 → ∃ ch p, c.source = .channel ch p ∧ ch.val = byteAt image (r + 1) % 4 ∧
          p = if byteAt image (r + 1) / 16 = 0 then .any
            else if byteAt image (r + 1) / 16 = 1 then .rise else .fall) ∧
        (byteAt image r = 2 → ∃ m, c.source = .measure m ∧ m.val = byteAt image (r + 2)) ∧
        c.steps.length = byteAt image (r + 3) ∧
        ∀ (j : Nat) (h : j < c.steps.length),
          c.steps[j].target = BitVec.ofNat 5 (byteAt image (r + 5 + 5 * j)) ∧
          c.steps[j].code.toNat = byteAt image (r + 6 + 5 * j) ∧
          c.steps[j].mask.toNat = byteAt image (r + 7 + 5 * j) ∧
          c.steps[j].lead.toNat = byteAt image (r + 8 + 5 * j) ∧
          c.steps[j].pause.toNat = byteAt image (r + 9 + 5 * j)) ∧
  (∀ (image : List Byte) (p : Params), p = imageParams image →
      p.stations.toNat = byteAt image 4 ∧ p.exponent.toNat = byteAt image 5 ∧ p.bitCode.toNat = byteAt image 6 ∧
      p.missLimit.toNat = byteAt image 7 ∧ p.tolerance.toNat = byteAt image 8 ∧ p.delay.toNat = byteAt image 16 ∧
      p.statusInterval.toNat = byteAt image 17 ∧ p.density.toNat = fieldAt image 18 2) ∧
  (∀ (image : List Byte) (c : Fin 4) (r : Nat) (g : ChannelConfig), r = 24 + 12 * c.val →
      g = channelConfig image c →
      (g.input = .test ↔ byteAt image r = 1) ∧
      g.edges = (if byteAt image (r + 1) = 1 then .rise else if byteAt image (r + 1) = 2 then .fall
        else if byteAt image (r + 1) = 3 then .both else .off) ∧
      (g.publish = true ↔ byteAt image (r + 2) = 1) ∧ g.holdoff = fieldAt image (r + 4) 2 ∧
      g.prescale = fieldAt image (r + 6) 3 ∧ g.rate = fieldAt image (r + 9) 2) ∧
  ∀ (image : List Byte) (a n : Nat), fieldAt image a 0 = 0 ∧
    fieldAt image a (n + 1) = 256 * fieldAt image a n + byteAt image (a + n)

/-! ### The Epoch Unit -/

/-- SEEK_TIMEOUT founds at 0:0 with origin FOUNDER; ALIGNING_TIMEOUT keeps the offset (modulo E, log 15) with
origin FOUNDER_TIMEOUT; both set the discontinuity epoch to 0, do not assert MARK, raise READY and begin capture
(R14, R17, R34, R193); no horizon hold lasts, and the auto-arm of the first boundary is to come (R8, R109). Pin edges
of that tick that came first are captured after it, as PIN_EDGE captures them (R34, log 42). A reception in progress
that ALIGNING_TIMEOUT finds in an own window ends as a discard (R83, log 27). -/
def Obligations.TimeoutsLock : Prop :=
  (∀ s : State, s.seekExpired = true → ∃ u, Gives .seekTimeout s (takeHeldEdges u) ∧ EpochFrame s u ∧
      u.eu.align = some .locked ∧ u.eu.epoch = 0 ∧ u.eu.offset = 0 ∧ u.eu.disc = 0 ∧
      u.eu.origin = .founder ∧ u.eu.elapsed = 0 ∧ u.eu.markDrive = s.eu.markDrive ∧
      u.eu.hold = none ∧ u.localHorizon = subTicks u.epochLength u.localTime 8 ∧ u.eu.autoArmed = false ∧
      u.link.statusDue = true ∧ u.marks = s.marks ∧ (takeHeldEdges u).eu = u.eu ∧
      (takeHeldEdges u).ready = true ∧ (s.marks.edges = [] → takeHeldEdges u = u)) ∧
  (∀ s : State, s.alignExpired = true → ∃ u v, v = takeHeldEdges u ∧ EpochFrame s u ∧
      u.eu.align = some .locked ∧ u.eu.epoch = 0 ∧ u.eu.offset = s.eu.offset % s.epochLength ∧
      u.eu.disc = 0 ∧ u.eu.origin = .founderTimeout ∧ u.eu.elapsed = 0 ∧
      u.eu.hold = none ∧ u.localHorizon = subTicks u.epochLength u.localTime 8 ∧ u.eu.autoArmed = false ∧
      u.eu.markDrive = s.eu.markDrive ∧ u.link.statusDue = true ∧ u.marks = s.marks ∧ v.eu = u.eu ∧
      v.ready = true ∧ (s.marks.edges = [] → v = u) ∧
      (u.inOwnWindow = false ∨ s.link.receiver = none → Gives .aligningTimeout s v) ∧
      (u.inOwnWindow = true → s.link.receiver ≠ none → Gives .aligningTimeout s
        { v with link := { v.link with receiver := none, discards := satAdd v.link.discards 1 } })) ∧
  (∀ (u : State) (c : Fin 4) (p : Polarity) (fine : BitVec 8) (rest : List HeldEdge), u.hasTime = true →
      (u.chan c).reads .pin = true → u.marks.edges = ⟨c, p, fine⟩ :: rest →
      ∃ v, Gives (.pinEdge c p fine) { u with marks := { u.marks with edges := [] } } v ∧
        takeHeldEdges u = takeHeldEdges { v with marks := { v.marks with edges := rest } }) ∧
  (∀ u : State, u.marks.edges = [] → takeHeldEdges u = u)

/-- A leading edge of MARK in SEEKING starts ALIGNING with offset D; in ALIGNING it sets the offset to D; the
offset counter returns to 0 at E in ALIGNING (R10, R13, R15). In LOCKED and MUTE a leading edge within tolerance
of the own boundary, or while the station drives its own pulse, has no effect (R20); in the tick of the own
boundary it is that boundary's pulse, so it does what EPOCH_BOUNDARY does (R11, R20; log 9). -/
def Obligations.MarksAlignOrAreIgnored : Prop :=
  ∀ s : State,
    (s.eu.align = some .seeking → Gives .markLeadingEdge s { s with eu := { s.eu with
        align := some .aligning, offset := s.params.delay.toNat, seekTimer := 0, alignTimer := 0 } }) ∧
    (s.eu.align = some .aligning → ∃ t, Gives .markLeadingEdge s t ∧
      t.eu = { s.eu with offset := s.params.delay.toNat } ∧
      t = { s with eu := t.eu, link := { s.link with receiver := t.link.receiver } }) ∧
    (s.wrapDue = true → Gives .aligningOffsetWrap s { s with eu := { s.eu with offset := 0 } }) ∧
    (s.hasTime = true → s.boundaryDue = false →
      (s.eu.markDrive = true ∨
        (s.eu.offset + (s.epochLength - s.params.delay.toNat % s.epochLength)) % s.epochLength
          ≤ s.params.tolerance.toNat ∨
        s.epochLength - s.params.tolerance.toNat
          ≤ (s.eu.offset + (s.epochLength - s.params.delay.toNat % s.epochLength)) % s.epochLength) →
      Gives .markLeadingEdge s s) ∧
    (s.boundaryDue = true → ∀ t, Gives .epochBoundary s t → Gives .markLeadingEdge s t)

/-- A slip: the epoch advances, the offset is D, the discontinuity epoch is the new epoch, the horizon hold
begins, the own frame is abandoned, its STAMP records and their drop counts accounted to their channels unless it
was sent to its end (log 18), and a reception's window is cut (R8, R19, R21, R45, R69, R77), and the boundary reaches
the measures and the sequences. A channel's count of the epoch closes; an edge of this tick is taken on the new
scale, after that (R33, R39; log 26); what an edge's trigger placed stays (log 43). A peer's window that ends at
this tick (log 13), or that the slip cuts, also one whose first tick this is (log 34), ends (R69, R95): the orders
and readings of the logs named are the model's choices. With a Test Source event taken at the skipped offset, the slip
is that of the station as it stands without the event (R47; log 39). -/
def Obligations.MarkOutOfToleranceSlips : Prop :=
  (∀ (s : State) (w : Station), s.untested = some w → s.hasTime = true → s.boundaryDue = false →
    s.markWithin = false → exec .markLeadingEdge s = exec .markLeadingEdge (s.alone w)) ∧
  ∀ s : State, s.untested = none → s.hasTime = true → s.boundaryDue = false → s.markWithin = false →
    ∃ u, Gives .markLeadingEdge s (boundaryTable u) ∧
      u.eu = { s.eu with
        epoch := s.eu.epoch + 1
        offset := s.params.delay.toNat
        disc := s.eu.epoch + 1
        hold := some ⟨match s.eu.hold with | some h => h.value | none => s.eu.prevHorizon, s.eu.elapsed⟩ } ∧
      u.link.sending = none ∧ u.link.consecutive = s.link.consecutive ∧
      u.link.collisions = s.link.collisions ∧ u.link.discards = s.link.discards ∧
      u.link.receiver = s.link.receiver.map (fun x => { x with cut := true }) ∧
      u.link.windowPresence = false ∧
      u.link.statusDue = ((s.eu.epoch + 1).toNat % s.params.statusInterval.toNat == 0) ∧
      u.marks = { s.marks with boundary := true, windowEnd := true } ∧
      (∀ c, (u.chan c).publishDrops.toNat
        = min 255 ((s.chan c).publishDrops.toNat + lossOf c s.unsentRecords)) ∧
      (∀ c g, (s.chan c).config = some g → (s.chan c).edgeOf s.eu.elapsed = none →
        u.chan c = { s.chan c with
          publishDrops := (u.chan c).publishDrops
          rateCount := 0
          st := if (s.chan c).st = .throttled ∧ (s.chan c).rateCount ≤ 3 * g.rate / 4 then .normal
            else (s.chan c).st }) ∧
      (∀ c r, (s.chan c).edgeOf s.eu.elapsed = some r →
        u.chan c = (u.edgeAt (Channel.boundary
          { (s.chan c).withoutEdge r with publishDrops := (u.chan c).publishDrops }) r.polarity r.time.fine).1) ∧
      (s.endingWindow = none → s.cutWindow = none → u.peers = s.peers ∧ u.measures = s.measures ∧
        u.store = s.store ∧ u.queue = s.queue ∧ u.triggerSide = s.triggerSide) ∧
      (∀ p, s.endingWindow.toList ++ s.cutWindow.toList = [p] →
        u.peer p = if s.link.windowPresence then s.peer p else (s.peer p).miss s.params.missLimit.toNat) ∧
      u.directives = s.directives ∧ u.loader = s.loader ∧ u.params = s.params ∧ u.pending = s.pending

/-- EPOCH_BOUNDARY: the epoch advances, the offset is 0, MARK is driven, the discontinuity epoch stays, the link
takes its new epoch, a window end of this tick is delivered with it (log 13), and the boundary reaches the
measures and the sequences (R18, R19, R195). A channel's count of the epoch closes and a THROTTLED channel may
return to NORMAL (R39, R41); an edge of this tick stands in the new count (R39; log 26). -/
def Obligations.BoundaryAdvancesEpoch : Prop :=
  ∀ s : State, s.boundaryDue = true →
    ∃ u t, Gives .epochBoundary s t ∧ t = boundaryTable u ∧
      u.eu = { s.eu with epoch := s.eu.epoch + 1, offset := 0, markDrive := true } ∧
      u.marks = { s.marks with boundary := true, windowEnd := true } ∧
      t.eu = { u.eu with autoArmed := true } ∧ t.markLine = true ∧ t.ready = true ∧
      u.link.statusDue = ((s.eu.epoch + 1).toNat % s.params.statusInterval.toNat == 0) ∧
      u.link.windowPresence = false ∧ u.link.sending = s.link.sending ∧ u.link.receiver = s.link.receiver ∧
      (∀ c g, (s.chan c).config = some g → (s.chan c).edgeOf s.eu.elapsed = none →
        u.chan c = { s.chan c with
          rateCount := 0
          st := if (s.chan c).st = .throttled ∧ (s.chan c).rateCount ≤ 3 * g.rate / 4 then .normal
            else (s.chan c).st }) ∧
      (∀ c r, (s.chan c).edgeOf s.eu.elapsed = some r →
        u.chan c = (u.edgeAt ((s.chan c).withoutEdge r).boundary r.polarity r.time.fine).1) ∧
      (∀ q, s.endingWindow ≠ some q → u.peer q = s.peer q) ∧
      (∀ p, s.endingWindow = some p →
        u.peer p = if s.link.windowPresence then s.peer p else (s.peer p).miss s.params.missLimit.toNat) ∧
      (s.endingWindow = none ∨ s.link.windowPresence = true → u.measures = s.measures ∧ u.store = s.store ∧
        u.queue = s.queue ∧ u.triggerSide = s.triggerSide) ∧
      u.directives = s.directives ∧ u.loader = s.loader ∧ u.params = s.params ∧ u.pending = s.pending

/-- A boundary at the Measure Table and the Trigger Sequence Unit: an ARMED TIMED measure aligned to MARK opens
at the boundary's local time, unless it was rearmed in this tick (R110, R124); at the first boundary after
becoming LOCKED every IDLE measure with auto-arm takes its rearm count and is armed at local time (R108, R109),
but one that DISARM or CLEAR_FAULT made IDLE (R121), and takes the conditions of its peers as ARM has it
(ArmArmsIdleMeasures; R101); every other measure stays. A pause counts the boundary, and
at its end the sequence runs on (R181); but for a sequence whose source is a measure that an unmasked condition of the
auto-arm may fault in this tick, with its report as a trigger (R119, R165). The order of the units is left open (log
7). -/
def Obligations.BoundaryServesMeasuresAndSequences : Prop :=
  ∀ s : State, s.hasTime = true →
    MeasureFrame { s with eu := { s.eu with autoArmed := true } } (boundaryTable s) ∧
    (∀ i c, (s.meas i).st = .armed → (s.meas i).config = some c → c.gate = .timed → c.gateAlign = .mark →
      (s.meas i).rearmTick ≠ some s.eu.elapsed →
      (boundaryTable s).meas i = s.gateOpened (s.meas i) s.localTime) ∧
    (∀ i c, (s.meas i).st = .idle → (s.meas i).config = some c → c.autoArm = true →
      (s.meas i).noAutoArm = false → s.eu.autoArmed = false →
      ((∃ k, s.peerGives i k ∧ (s.meas i).masks k = false) →
        ∃ k, s.peerGives i k ∧ (s.meas i).masks k = false ∧ Faults s (boundaryTable s) i k) ∧
      ((∀ k, s.peerGives i k → (s.meas i).masks k = true) → ∃ a, Asked s i { (s.meas i).dropBlock with
          st := .armed
          rearms := if c.rearm = 255 then .unlimited else .left c.rearm.toNat
          armingTime := some s.localTime
          searchTime := some s.localTime } a ∧
        (c.gate = .edge ∨ c.gate = .directive ∨
            (c.gate = .timed ∧ c.gateAlign = .mark ∧ s.marks.boundary = false) →
          (boundaryTable s).meas i = a) ∧
        (c.gate = .free ∨ (c.gate = .timed ∧ (c.gateAlign = .unaligned ∨ s.marks.boundary = true)) →
          (boundaryTable s).meas i = s.gateOpened a s.localTime))) ∧
    (∀ i, ((s.meas i).st ≠ .armed ∨ (s.meas i).rearmTick = some s.eu.elapsed ∨
        ∀ c, (s.meas i).config = some c → c.gate ≠ .timed ∨ c.gateAlign ≠ .mark) →
      ((s.meas i).st ≠ .idle ∨ s.eu.autoArmed = true ∨ (s.meas i).noAutoArm = true ∨
        ∀ c, (s.meas i).config = some c → c.autoArm = false) →
      (boundaryTable s).meas i = s.meas i) ∧
    (∀ i, s.eu.autoArmed = true ∨ (∀ j k, s.peerGives j k → (s.meas j).masks k = true) ∨
        (∀ j, (s.sequences.get i).onMeasure j = false) →
      (∀ rest pause counted, (s.sequences.get i).st = .running rest pause counted → counted + 1 < pause →
        (boundaryTable s).sequences.get i
          = { s.sequences.get i with st := .running rest pause (counted + 1) }) ∧
      (∀ rest pause counted, (s.sequences.get i).st = .running rest pause counted → pause ≤ counted + 1 →
        (boundaryTable s).sequences.get i
          = (runSteps i s.isMute (stepDirective s) rest s.triggerSide).sequences.get i) ∧
      ((s.sequences.get i).st.isRunning = false →
        (boundaryTable s).sequences.get i = s.sequences.get i))

/-- The MARK pulse ends at offset 16, the horizon hold at its eighth tick, and nothing else changes; after the
hold the local horizon is local time minus 8 ticks (R8, R18). Until HORIZON_HOLD_END is taken in that tick the kept
value stands (the model's choice of the order, log 38). -/
def Obligations.PulseAndHoldEnd : Prop :=
  ∀ s : State,
    (s.hasTime = true → s.eu.markDrive = true → 16 ≤ s.eu.offset →
      Gives .markPulseEnd s { s with eu := { s.eu with markDrive := false } }) ∧
    (∀ h, s.hasTime = true → s.eu.hold = some h → h.since + 8 ≤ s.eu.elapsed →
      s.localHorizon = h.value ∧
      Gives .horizonHoldEnd s { s with eu := { s.eu with hold := none } } ∧
      ({ s with eu := { s.eu with hold := none } } : State).localHorizon
        = subTicks s.epochLength s.localTime 8)

/-- READY is high exactly in LOCKED and MUTE; FAULT is high exactly in CONFIG_FAULT, in MUTE, and while a measure of a
released station is in FAULT (R193, R194). MARK is pulled while the own pulse lasts (R18); DATA carries bit k of the
frame in flight for its b ticks and is released else, which is always so without a frame in flight (R70, R77); CSn is
low for the 32,960 ticks of the image read, and MOSI then carries command 0x03 with its two ones, the address and a low
level (R187). The phase of SCLK (log 19) and the low level of MOSI while CSn is high (log 48) are the model's
choices. -/
def Obligations.LinesShowState : Prop :=
  ∀ s : State,
    (s.ready = true ↔ s.eu.align = some .locked ∨ s.eu.align = some .mute) ∧
    (s.faultLine = true ↔ s.eu.align = some .configFault ∨ s.eu.align = some .mute ∨
      (s.eu.align ≠ none ∧ ∃ i, (s.meas i).st = .fault)) ∧
    (s.markLine = true ↔ s.eu.markDrive = true) ∧
    (s.link.sending = none → s.dataLine = false) ∧
    (∀ x, s.link.sending = some x →
      (∀ (k : Nat) (hk : k < (frameBits x.frame).length), k * s.bitPeriod ≤ x.ticks →
        x.ticks < (k + 1) * s.bitPeriod → s.dataLine = (frameBits x.frame)[k]) ∧
      ((frameBits x.frame).length * s.bitPeriod ≤ x.ticks → s.dataLine = false)) ∧
    (s.chipSelectLow = true ↔ s.eu.align = some .loading ∧ s.loader.readTicks < 32960) ∧
    (s.sclk = true ↔ s.chipSelectLow = true ∧ 4 ≤ s.loader.readTicks % 8) ∧
    (s.mosi = true ↔ s.chipSelectLow = true ∧ (s.loader.readTicks / 8 = 6 ∨ s.loader.readTicks / 8 = 7))

/-! ### Channels and the Test Source -/

/-- PIN_EDGE of an edge that edge select and holdoff pass: the edge counter adds 1, the edge is the new previous
qualified edge, the prescale count moves, and at P a stamp is formed, counted by the rate monitor, in flight,
and handed to the sequences whose source it is (R33, R35 to R40, R180). An edge that edge select or holdoff does
not pass, of a TEST or unloaded channel, or while capture does not work, is ignored entirely (R32, R34, R35); in
SEEKING and ALIGNING the model keeps it to the end of the tick, in which the station may still become LOCKED
(R34; log 42). -/
def Obligations.PinEdgeCountsOrIsIgnored : Prop :=
  (∀ (s : State) (c : Fin 4) (p : Polarity) (fine : BitVec 8) (g : ChannelConfig),
    (s.chan c).reads .pin = true → (s.chan c).config = some g →
    s.hasTime = true → g.edges.passes p = true →
    (∀ q, (s.chan c).lastEdge = some q → q + 256 * max g.holdoff 1 ≤ s.eu.elapsed * 256 + fine.toNat) →
    ∃ t, Gives (.pinEdge c p fine) s t ∧ TriggerFrame { s with channels := t.channels } t ∧
      (∀ d, d ≠ c → t.chan d = s.chan d) ∧
      (t.chan c).edgeCount = (s.chan c).edgeCount + 1 ∧
      (t.chan c).lastEdge = some (s.eu.elapsed * 256 + fine.toNat) ∧
      (t.chan c).storeDrops = (s.chan c).storeDrops ∧
      (t.chan c).publishDrops = (s.chan c).publishDrops ∧
      ((s.chan c).prescale + 1 ≠ g.prescale →
        (t.chan c).prescale = (s.chan c).prescale + 1 ∧ (t.chan c).inFlight = (s.chan c).inFlight ∧
        (t.chan c).rateCount = (s.chan c).rateCount ∧ (t.chan c).st = (s.chan c).st ∧
        t.triggerSide = s.triggerSide) ∧
      ((s.chan c).prescale + 1 = g.prescale →
        (t.chan c).prescale = 0 ∧
        (t.chan c).rateCount = min ((s.chan c).rateCount + 1) 65536 ∧
        (t.chan c).st = (if g.rate ≠ 0 ∧ (s.chan c).st = .normal ∧
          min ((s.chan c).rateCount + 1) 65536 = g.rate + 1 then .throttled else (s.chan c).st) ∧
        (t.chan c).inFlight = (s.chan c).inFlight ++
          [⟨p, { s.localTime with fine := fine }, (t.chan c).st == .throttled, s.eu.elapsed⟩] ∧
        ∀ i, t.sequences.get i = if (s.sequences.get i).onStamp c p then
          (fireSequence i s).sequences.get i else s.sequences.get i)) ∧
  (∀ (s : State) (c : Fin 4) (p : Polarity) (fine : BitVec 8),
    ((s.chan c).reads .pin = false → Gives (.pinEdge c p fine) s s) ∧
    (s.hasTime = false → s.eu.align ≠ some .seeking → s.eu.align ≠ some .aligning →
      Gives (.pinEdge c p fine) s s) ∧
    (s.eu.align = some .seeking ∨ s.eu.align = some .aligning → (s.chan c).reads .pin = true →
      Gives (.pinEdge c p fine) s { s with marks := { s.marks with edges := s.marks.edges ++ [⟨c, p, fine⟩] } }) ∧
    (∀ g, s.hasTime = true → (s.chan c).config = some g →
      (g.edges.passes p = false ∨ ∃ q, (s.chan c).lastEdge = some q ∧
        s.eu.elapsed * 256 + fine.toNat < q + 256 * max g.holdoff 1) →
      Gives (.pinEdge c p fine) s s))

/-- TEST_SOURCE_EVENT: every TEST channel sees a RISE edge at fine 0 and then a FALL edge at fine 128; no
other channel sees an edge; with BOTH, a qualified RISE edge leaves the FALL edge ignored (R32, R48). A sequence whose
source is a stamp that one of these edges forms is fired once, and any other stays (R38, R180); an edge forms a stamp
when it is qualified and prescale selects it (R35, R37). The station as it stands without the event is kept to the end
of the tick, for a slip of the same tick (log 39). -/
def Obligations.TestEventReachesTestChannels : Prop :=
  ∀ s : State, s.testEventDue = true →
    ∃ t, exec .testSourceEvent s = .next t ∧
      TriggerFrame { s with channels := t.channels, untested := t.untested } t ∧
      t.untested = some s.toStation ∧
      (∀ c, (s.chan c).reads .test = false → t.chan c = s.chan c) ∧
      (∀ c, (s.chan c).reads .test = true →
        t.chan c = (s.edgeAt (s.edgeAt (s.chan c) .rise 0).1 .fall 128).1) ∧
      (∀ c g, (s.chan c).config = some g → g.input = .test → g.edges = .both →
        (s.chan c).qualifies g.holdoff (s.eu.elapsed * 256) = true →
        t.chan c = (s.edgeAt (s.chan c) .rise 0).1) ∧
      (∀ i, t.sequences.get i =
        if ∃ c, (s.chan c).reads .test = true ∧
            (((s.edgeAt (s.chan c) .rise 0).2 = true ∧ (s.sequences.get i).onStamp c .rise = true) ∨
              ((s.edgeAt (s.edgeAt (s.chan c) .rise 0).1 .fall 128).2 = true ∧
                (s.sequences.get i).onStamp c .fall = true)) then
          (fireSequence i s).sequences.get i else s.sequences.get i) ∧
      ∀ (x : Channel) (p : Polarity) (fine : BitVec 8), (s.edgeAt x p fine).2 = true ↔
        ∃ g, x.config = some g ∧ g.edges.passes p = true ∧ x.prescale + 1 = g.prescale ∧
          ∀ q, x.lastEdge = some q → q + 256 * max g.holdoff 1 ≤ s.eu.elapsed * 256 + fine.toNat

/-- Every cycle of the Test Source holds exactly Dw events, and position t belongs to bit j exactly when it
has 15 - j trailing zero bits (R47). -/
def Obligations.TestCycleHoldsDensityEvents : Prop :=
  ∀ density : BitVec 16,
    ((List.range 65536).countP fun t => selectedPosition density t) = density.toNat ∧
    ∀ t, 1 ≤ t → t < 65536 → (selectedPosition density t = true ↔
      ∃ j, j < 16 ∧ density.getLsbD j = true ∧ 2 ^ (15 - j) ∣ t ∧ ¬ 2 ^ (16 - j) ∣ t)

/-- STAMP_RESOLUTION of the stamp 8 ticks in flight: suppressed, declined, dropped or stored, with the moves of the
store-side drop count of R44 (R42, R44, R55). Its consumer set holds measure i in a role exactly when that measure wants
it so, and publish exactly when the channel's flag is set and the station is LOCKED (R43). A stored stamp joins the
Store's end, past the roles that hold its source and meet it there (R151; log 12), and the G roles that want it judge
it, as EdgeGateFollowsStamps has it (R111, R113); with no such role nothing else changes. -/
def Obligations.ResolutionHasFourOutcomes : Prop :=
  ∀ (s : State) (c : Fin 4) (x : FlyingStamp) (rest : List FlyingStamp) (e : Entry),
    s.hasTime = true → (s.chan c).inFlight = x :: rest → x.formedAt + 8 ≤ s.eu.elapsed →
    e = s.localEntry c x →
    (∀ i r, e.inView i r = true ↔ (s.meas i).wants r s.loader.number c x.polarity) ∧
    (e.publish = true ↔ (s.chan c).config.map (·.publish) = some true ∧ s.eu.align = some .locked) ∧
    (e.wanted = true ↔ e.publish = true ∨ ∃ i r, e.inView i r = true) ∧
    e.stamp = (s.loader.number, c, x.polarity, x.time, (s.chan c).storeDrops) ∧
    (x.suppressed = true → Gives (.stampResolution c) s (s.setChan c { s.chan c with
      inFlight := rest, storeDrops := satAdd (s.chan c).storeDrops 1 })) ∧
    (x.suppressed = false → e.wanted = false → Gives (.stampResolution c) s (s.setChan c
      { s.chan c with inFlight := rest })) ∧
    (x.suppressed = false → e.wanted = true → 128 ≤ s.store.length →
      Gives (.stampResolution c) s (s.setChan c { s.chan c with
        inFlight := rest, storeDrops := satAdd (s.chan c).storeDrops 1 })) ∧
    (x.suppressed = false → e.wanted = true → s.store.length < 128 →
      ∃ t, Gives (.stampResolution c) s t ∧
        t.chan c = { s.chan c with inFlight := rest, storeDrops := 0 } ∧
        (∀ d, d ≠ c → t.chan d = s.chan d) ∧ t.eu = s.eu ∧ t.peers = s.peers ∧
        t.directives = s.directives ∧
        t = scanArrival e { s with
          channels := t.channels, store := (s.store ++ [s.passHeld e]).filter Entry.wanted } ∧
        (e.wantG = 0 → t = { s with
          channels := t.channels, store := (s.store ++ [s.passHeld e]).filter Entry.wanted }))

/-! ### Peers -/

/-- WINDOW_END with a presence noted leaves the peer; without one a SILENT or PRESENT peer's count adds 1 and
at A_miss it becomes ABSENT, horizon and discontinuity epoch kept; ABSENT and FOREIGN stay (R69, R95). The measures
are notified of SOURCE_ABSENT when the peer becomes ABSENT and only then: else nothing but the peer's entry, the
noted presence and the mark of the tick changes (R99). No window end is delivered in the tick of becoming LOCKED
(log 14). -/
def Obligations.WindowEndCountsMisses : Prop :=
  (∀ s : State, s.eu.elapsed = 0 → Gives .windowEnd s s) ∧
  ∀ (s : State) (p : Fin 16), s.endingWindow = some p →
    ∃ t u, Gives .windowEnd s t ∧
      u = { s.setPeer p (u.peer p) with
        link := { s.link with windowPresence := false }
        marks := { s.marks with windowEnd := true } } ∧
      (s.link.windowPresence = true ∨ (s.peer p).st = .absent ∨ (s.peer p).st = .foreign →
        u.peer p = s.peer p ∧ t = u) ∧
      (s.link.windowPresence = false → (s.peer p).st = .silent ∨ (s.peer p).st = .present →
        u.peer p = { s.peer p with
          missed := satAdd (s.peer p).missed 1
          st := if (satAdd (s.peer p).missed 1).toNat = s.params.missLimit.toNat then .absent
            else (s.peer p).st } ∧
        ((satAdd (s.peer p).missed 1).toNat ≠ s.params.missLimit.toNat → t = u) ∧
        ((satAdd (s.peer p).missed 1).toNat = s.params.missLimit.toNat →
          t = notifyPeer .sourceAbsent p u)) ∧
      MeasureFrame u t

/-- A presence makes the peer PRESENT with count 0; from ABSENT and FOREIGN it sets the horizon to none; the
discontinuity epoch is kept. A foreign presence makes it FOREIGN with count 0 and keeps both (R93, R94); the
measures are notified of SOURCE_FOREIGN when the peer becomes FOREIGN and only then (R99). -/
def Obligations.PresenceTables : Prop :=
  ∀ (s : State) (p : Fin 16),
    ((s.peer p).st = .silent ∨ (s.peer p).st = .present →
      presence p s = s.setPeer p { s.peer p with st := .present, missed := 0 }) ∧
    ((s.peer p).st = .absent ∨ (s.peer p).st = .foreign →
      presence p s = s.setPeer p { s.peer p with st := .present, missed := 0, horizon := none }) ∧
    (foreignPresence p s).peer p = { s.peer p with st := .foreign, missed := 0 } ∧
    (∀ q, q ≠ p → (foreignPresence p s).peer q = s.peer q) ∧
    ((s.peer p).st = .foreign →
      foreignPresence p s = s.setPeer p { s.peer p with st := .foreign, missed := 0 }) ∧
    ((s.peer p).st ≠ .foreign → foreignPresence p s
      = notifyPeer .sourceForeign p (s.setPeer p { s.peer p with st := .foreign, missed := 0 }))

/-- A peer's change is delivered to each active measure that names it: unmasked, the measure enters FAULT with its
report; masked, it stays in its state, carries the qualifier, and keeps the peer's horizon as the final horizon of
every source on that peer, unless it keeps one already: the first notification's value stands, and is the horizon
that source has from then on. A REPORTING measure keeps its first unmasked fault, and no masked one; other measures
are untouched (R99, R100, R119, R120, R151). -/
def Obligations.PeerChangeReachesMeasures : Prop :=
  ∀ (s : State) (k : FaultKind) (p : Fin 16) (i : Fin 8),
    (s.notified p i = false → (notifyPeer k p s).meas i = s.meas i) ∧
    ((s.meas i).st.active = true → (s.meas i).namesStation p = true → (s.meas i).masks k = false →
      Faults s (notifyPeer k p s) i k) ∧
    ((s.meas i).st.active = true → (s.meas i).namesStation p = true → (s.meas i).masks k = true →
      (notifyPeer k p s).meas i = { (s.meas i).qualify (.fault k) with
        finalA := ((notifyPeer k p s).meas i).finalA
        finalB := ((notifyPeer k p s).meas i).finalB
        finalG := ((notifyPeer k p s).meas i).finalG } ∧
      ∀ r, (∀ x, (s.meas i).roleSource r = some x → x.station = p → (s.meas i).final r = .live →
          ((notifyPeer k p s).meas i).final r = .held (s.peer p).horizon ∧
          (notifyPeer k p s).roleHorizon i r = (s.peer p).horizon) ∧
        ((s.meas i).final r ≠ .live ∨ (∀ x, (s.meas i).roleSource r = some x → x.station ≠ p) →
          ((notifyPeer k p s).meas i).final r = (s.meas i).final r)) ∧
    ((s.meas i).st = .reporting → (s.meas i).namesStation p = true →
      ((s.meas i).masks k = true → (notifyPeer k p s).meas i = s.meas i) ∧
      ((s.meas i).masks k = false → (notifyPeer k p s).meas i = { s.meas i with
        pendingFault := some ((s.meas i).pendingFault.getD k) }))

/-! ### Gates and blocks -/

/-- TIMED_GATE_CLOSE: the OPEN TIMED measure enters CLOSING with the close time fixed at opening; nothing
else changes but a TOTALIZE measure's close request. TIMED_GATE_REOPEN: the rearmed measure enters OPEN with its
carried opening as open time; a TOTALIZE measure takes its open snapshot; nothing else changes (R36, R113, R124,
R149). -/
def Obligations.TimedGateClosesAndReopens : Prop :=
  (∀ (s : State) (i : Fin 8) (c : MeasureConfig) (o : TimeStamp),
      (s.meas i).st = .opened → (s.meas i).config = some c → c.gate = .timed →
      (s.meas i).openTime = some o → (s.meas i).closeTime = none →
      s.reached (addTicks s.epochLength o c.length.toNat) = true →
      Gives (.timedGateClose i) s (s.setMeas i { s.meas i with
        st := .closing
        closeTime := some (addTicks s.epochLength o c.length.toNat)
        block := if c.kind = .totalize then { (s.meas i).block with
            closeRequest := some (addTicks s.epochLength o c.length.toNat) } else (s.meas i).block })) ∧
  (∀ (s : State) (i : Fin 8) (c : MeasureConfig) (x : TimeStamp),
      (s.meas i).st = .armed → (s.meas i).config = some c → c.gate = .timed →
      (s.meas i).carriedOpening = some x → s.reached x = true →
      Gives (.timedGateReopen i) s (s.setMeas i { s.meas i with
        st := .opened, openTime := some x, closeTime := none, carriedOpening := none
        closedByStamp := false
        block := if c.kind = .totalize then { (s.meas i).block with
            openSnapshot := s.snapshot c.a.channel x } else (s.meas i).block }))

/-- A local stamp that an EDGE gate reads arrives by STAMP_RESOLUTION, with nothing before it in the G view: an ARMED
measure opens at a stamp at or after its search time (later than it after a rearm), and closes at its overrun time in
the same tick when that has passed; an OPEN one closes at a stamp later than its open time, a TOTALIZE one finishing at
once with its open snapshot taken; a CLOSING one leaves it in the view from its close time on. A taken stamp's losses
set DROPS, and a count of 255 is a GAP: with FAULT, or masked with its qualifier. Earlier stamps are passed unexamined;
that an OPEN measure passes one not later than its open time is the model's reading, log 24. A stamp of either origin
that joins the Store is judged by each measure that wants it as G, on its own view, after other measures may have judged
theirs (ResolutionHasFourOutcomes, RemoteOfferOutcomes). Over any G view, as it is judged again after a rearm, the role
makes one move after another: a stamp offered while the role held its source is passed (R151), and the others do as said
above; an overrun already past at the opening comes first (the model's choice of two orders, log 50) (R36, R111, R113,
R115, R119, R120, R124, R130, R131, R149, R150). -/
def Obligations.EdgeGateFollowsStamps : Prop :=
  (∀ (s : State) (c : Fin 4) (x : FlyingStamp) (rest : List FlyingStamp) (e : Entry) (i : Fin 8)
    (g : MeasureConfig) (m : Measure),
    s.hasTime = true → (s.chan c).inFlight = x :: rest → x.formedAt + 8 ≤ s.eu.elapsed →
    x.suppressed = false → s.store.length < 128 → e = s.localEntry c x → e.wantG.getLsbD i.val = true →
    (s.meas i).config = some g → (s.meas i).finalG = .live → s.view i .G = [] →
    s.hasExamined i e = false →
    m = { s.meas i with block := { (s.meas i).block with
      quals := if e.drops = 255 then setQual (.fault .gap) (s.meas i).block.quals
        else setQualIf (e.drops != 0) .drops (s.meas i).block.quals } } →
    ∃ t, Gives (.stampResolution c) s t ∧
      ((s.meas i).st = .armed → (s.meas i).opensAt e.time = false → t.meas i = s.meas i ∧ t.view i .G = []) ∧
      ((s.meas i).st = .armed → (s.meas i).opensAt e.time = true →
        e.drops ≠ 255 ∨ (s.meas i).masks .gap = true →
        (s.reached (addEpochs e.time g.spanLimit.toNat) = false →
          t.meas i = s.gateOpened m e.time ∧ t.view i .G = []) ∧
        (s.reached (addEpochs e.time g.spanLimit.toNat) = true → g.kind ≠ .totalize →
          t.meas i = { s.gateOpened m e.time with
            st := .closing
            closeTime := some (addEpochs e.time g.spanLimit.toNat)
            block := { m.block with quals := setQual .overrange m.block.quals } } ∧ t.view i .G = [])) ∧
      (∀ o, (s.meas i).st = .opened → (s.meas i).openTime = some o → later e.time o = false →
        t.meas i = s.meas i ∧ t.view i .G = []) ∧
      (∀ o, (s.meas i).st = .opened → (s.meas i).openTime = some o → later e.time o = true →
        e.drops ≠ 255 ∨ (s.meas i).masks .gap = true →
        (g.kind ≠ .totalize →
          t.meas i = { m with st := .closing, closeTime := some e.time, closedByStamp := true } ∧
          t.view i .G = []) ∧
        (g.kind = .totalize → s.reached e.time = false ∨ (s.meas i).block.openRequest ≠ none →
          t.meas i = { m with
            st := .closing, closeTime := some e.time, closedByStamp := true
            block := { m.block with closeRequest := some e.time } } ∧ t.view i .G = []) ∧
        (g.kind = .totalize → s.reached e.time = true → (s.meas i).block.openRequest = none →
          s.crosses o e.time [] = false ∨ (s.meas i).masks .discontinuity = true →
          ∃ q, Reports s t i q ∧ q.measure = i ∧ q.kind = .totalize ∧ q.isFault = false ∧
            q.values = [s.snapshot g.a.channel e.time - (s.meas i).block.openSnapshot] ∧
            ∀ k, hasQual k m.block.quals = true → hasQual k q.quals = true)) ∧
      (e.drops = 255 → (s.meas i).masks .gap = false →
        ((s.meas i).st = .armed ∧ (s.meas i).opensAt e.time = true) ∨
          ((s.meas i).st = .opened ∧ (s.meas i).closesAt e.time = true) → Faults s t i .gap) ∧
      (∀ z, (s.meas i).st = .closing → (s.meas i).closeTime = some z →
        t.meas i = s.meas i ∧
        (earlier e.time z = true → t.view i .G = []) ∧
        (earlier e.time z = false → (t.view i .G).map (·.time) = [e.time]))) ∧
  (∀ (s : State) (e : Entry) (i : Fin 8),
    (e.wantG.getLsbD i.val = false → (scanArrival e s).meas i = s.meas i) ∧
    (e.wantG.getLsbD i.val = true → ∃ u, MeasureFrame s u ∧ s.queue <+: u.queue ∧ u.meas i = s.meas i ∧
      (∀ r, (u.view i r).map (fun f => (f.stamp, f.heldFor i r))
        = (s.view i r).map fun f => (f.stamp, f.heldFor i r)) ∧
      (∀ f, s.hasExamined i f = false → u.hasExamined i f = false) ∧
      (scanArrival e s).meas i = (u.scanned false i).meas i ∧
      (∀ r, ((scanArrival e s).view i r).map Entry.stamp = ((u.scanned false i).view i r).map Entry.stamp) ∧
      (u.scanned false i).queue <+: (scanArrival e s).queue)) ∧
  (∀ (s : State) (i : Fin 8) (fresh : Bool) (g : MeasureConfig) (m : Measure), (s.meas i).config = some g →
    (fresh = true → ∀ o, (s.meas i).st = .opened → g.gate = .edge → (s.meas i).openTime = some o →
      s.reached (addEpochs o g.spanLimit.toNat) = false) →
    (s.view i .G = [] → s.scanned fresh i = s) ∧
    ∀ e back, s.view i .G = e :: back →
      m = { s.meas i with block := { (s.meas i).block with
        quals := if s.hasExamined i e then (s.meas i).block.quals
          else if e.drops = 255 then setQual (.fault .gap) (s.meas i).block.quals
          else setQualIf (e.drops != 0) .drops (s.meas i).block.quals } } →
      ((s.meas i).st.active = false → s.scanned fresh i = s) ∧
      (∃ u, Passes i .G e s u ∧ u = { s with store := u.store } ∧
        (((s.meas i).st.active = true ∧ e.heldFor i .G = true) ∨
          ((s.meas i).st = .armed ∧ (s.meas i).opensAt e.time = false) ∨
          ((s.meas i).st = .opened ∧ (s.meas i).closesAt e.time = false) ∨
          ((s.meas i).st = .closing ∧ (s.meas i).beforeClose e.time = true) →
          s.scanned fresh i = u.scanned fresh i)) ∧
      (e.heldFor i .G = false →
        ((s.meas i).st = .closing → (s.meas i).beforeClose e.time = false → s.scanned fresh i = s) ∧
        (s.hasExamined i e = false → e.drops = 255 → (s.meas i).masks .gap = false →
          ((s.meas i).st = .armed ∧ (s.meas i).opensAt e.time = true) ∨
            ((s.meas i).st = .opened ∧ (s.meas i).closesAt e.time = true) → Faults s (s.scanned fresh i) i .gap) ∧
        (s.hasExamined i e = true ∨ e.drops ≠ 255 ∨ (s.meas i).masks .gap = true →
          ∃ u, Passes i .G e s u ∧ u = { s with store := u.store } ∧
            ((s.meas i).st = .armed → (s.meas i).opensAt e.time = true →
              s.scanned fresh i = rescanGate i (u.setMeas i (s.gateOpened m e.time))) ∧
            ((s.meas i).st = .opened → (s.meas i).closesAt e.time = true →
              (g.kind ≠ .totalize → s.scanned fresh i = rescanGate i (u.setMeas i { m with
                st := .closing, closeTime := some e.time, closedByStamp := true })) ∧
              (g.kind = .totalize → s.reached e.time = false ∨ (s.meas i).block.openRequest ≠ none →
                s.scanned fresh i = rescanGate i (u.setMeas i { m with
                  st := .closing, closeTime := some e.time, closedByStamp := true
                  block := { m.block with closeRequest := some e.time } })) ∧
              (g.kind = .totalize → s.reached e.time = true → (s.meas i).block.openRequest = none →
                s.scanned fresh i = rescanGate i (completeTotalize i (s.snapshot g.a.channel e.time)
                  (u.setMeas i { m with
                    st := .closing, closeTime := some e.time, closedByStamp := true }))))))) ∧
  (∀ (s : State) (i : Fin 8) (g : MeasureConfig) (o z : TimeStamp) (m : Measure),
    (s.meas i).st = .opened → (s.meas i).config = some g → g.gate = .edge → (s.meas i).openTime = some o →
    (s.meas i).closedByStamp = false → z = addEpochs o g.spanLimit.toNat → s.reached z = true →
    m = { s.meas i with
      st := .closing, closeTime := some z
      block := { (s.meas i).block with quals := setQual .overrange (s.meas i).block.quals } } →
    (g.kind ≠ .totalize → rescanGate i s = rescanGate i (s.setMeas i m)) ∧
    (g.kind = .totalize → (s.meas i).block.openRequest ≠ none →
      rescanGate i s = rescanGate i (s.setMeas i { m with block := { m.block with closeRequest := some z } })) ∧
    (g.kind = .totalize → (s.meas i).block.openRequest = none →
      rescanGate i s = rescanGate i (completeTotalize i (s.snapshot g.a.channel z) (s.setMeas i m)))) ∧
  ∀ (m : Measure) (x : TimeStamp),
    (m.opensAt x = true ↔
      ∀ y, m.searchTime = some y → if m.searchAfter then later x y = true else atOrAfter x y = true) ∧
    (m.closesAt x = true ↔ ∀ o, m.openTime = some o → later x o = true) ∧
    (m.beforeClose x = true ↔ ∃ z, m.closeTime = some z ∧ earlier x z = true)

/-- GATE_OVERRUN of an INTERVAL or RECIPROCAL measure: CLOSING with close time open time plus span limit epochs,
and OVERRANGE; nothing else changes but the G role, which passes the stamps earlier than the close time (R113,
R115). Of any measure: nothing outside the measure's side changes. -/
def Obligations.GateOverrunCloses : Prop :=
  ∀ (s : State) (i : Fin 8) (c : MeasureConfig) (o : TimeStamp),
    (s.meas i).st = .opened → (s.meas i).config = some c → c.gate = .edge ∨ c.gate = .directive →
    (s.meas i).openTime = some o → s.reached (addEpochs o c.spanLimit.toNat) = true →
    ∃ t, Gives (.gateOverrun i) s t ∧ MeasureFrame s t ∧ (∀ j, j ≠ i → t.meas j = s.meas j) ∧
      (c.kind ≠ .totalize →
        t.queue = s.queue ∧
        t.meas i = { s.meas i with
          st := .closing
          closeTime := some (addEpochs o c.spanLimit.toNat)
          block := { (s.meas i).block with quals := setQual .overrange (s.meas i).block.quals } } ∧
        (∀ e back, t.view i .G = e :: back → e.heldFor i .G = false ∧
          earlier e.time (addEpochs o c.spanLimit.toNat) = false)) ∧
      (c.kind ≠ .totalize → s.view i .G = [] → t = s.setMeas i (t.meas i))

/-- SNAPSHOT_ANSWER of an open request: the count of earlier edges becomes the open snapshot. Of a close
request: the block finishes, its group goes to the queue or is held, and with no rearm left the measure is IDLE;
a gate over an unmasked discontinuity puts the measure into FAULT instead (R36, R117, R119, R122, R125, R149,
R150). The snapshot of a channel for t is the number of its qualified edges earlier than t (R36): without a qualified
edge of the last 8 ticks it is the edge counter; a qualified edge adds 1 to it exactly when its time is earlier than
t; and a tick that passes leaves it while the edges it makes more than 8 ticks old are earlier than t (the model's
form, log 10). -/
def Obligations.SnapshotsAreAnswered : Prop :=
  (∀ (s : State) (i : Fin 8) (c : MeasureConfig) (x : TimeStamp),
      (s.meas i).config = some c → (s.meas i).block.openRequest = some x → s.reached x = true →
      (s.meas i).st ≠ .closing ∨ (s.meas i).block.closeRequest = none →
      Gives (.snapshotAnswer i) s (s.setMeas i { s.meas i with
        block := { (s.meas i).block with
          openRequest := none, openSnapshot := s.snapshot c.a.channel x } })) ∧
  (∀ (s : State) (i : Fin 8) (c : MeasureConfig) (x o z : TimeStamp),
      (s.meas i).st = .closing → (s.meas i).config = some c → c.kind = .totalize →
      (s.meas i).block.closeRequest = some x → (s.meas i).block.openRequest = none →
      s.reached x = true → (s.meas i).openTime = some o → (s.meas i).closeTime = some z →
      ∃ t, Gives (.snapshotAnswer i) s t ∧ MeasureFrame s t ∧ (∀ j, j ≠ i → t.meas j = s.meas j) ∧
        (s.crosses o z [] = true → (s.meas i).masks .discontinuity = false → Faults s t i .discontinuity) ∧
        (s.crosses o z [] = false ∨ (s.meas i).masks .discontinuity = true →
          ((s.meas i).rearms = .left 0 → s.queueRoom = true → (t.meas i).st = .idle) ∧
          ∃ g, Reports s t i g ∧ g.measure = i ∧ g.kind = .totalize ∧ g.isFault = false ∧
            g.values = [s.snapshot c.a.channel x - (s.meas i).block.openSnapshot])) ∧
  ∀ (s : State) (c : Fin 4) (x : TimeStamp),
    ((s.chan c).recentEdges = [] → s.snapshot c x = (s.chan c).edgeCount) ∧
    (∀ d p fine g, (s.chan d).reads .pin = true → (s.chan d).config = some g → s.hasTime = true →
      g.edges.passes p = true →
      (∀ q, (s.chan d).lastEdge = some q → q + 256 * max g.holdoff 1 ≤ s.eu.elapsed * 256 + fine.toNat) →
      ∃ t, Gives (.pinEdge d p fine) s t ∧
        t.snapshot c x = s.snapshot c x
          + (if c = d ∧ earlier { s.localTime with fine := fine } x = true then 1 else 0)) ∧
    ((∀ e ∈ (s.chan c).recentEdges, e.tick + 8 ≤ s.eu.elapsed → earlier e.time x = true) →
      (advance s).snapshot c x = s.snapshot c x)

/-- A TOTALIZE block reports one data record, index 0, with the close snapshot minus the open snapshot modulo
2^48, sample count 0, and NO_EVENTS when the count is 0; the count stands as it is whatever the block carries,
PARTIAL, OVERRANGE and a masked DISCONTINUITY among it (R157). The group joins the queue, or is held while the
queue has no room. -/
def Obligations.TotalizeReportsCount : Prop :=
  ∀ (s : State) (i : Fin 8) (close : BitVec 48),
    (s.meas i).openTime = none ∨ (s.meas i).closeTime = none ∨
      (∀ o c, (s.meas i).openTime = some o → (s.meas i).closeTime = some c → s.crosses o c [] = false) ∨
      (s.meas i).masks .discontinuity = true →
    ∃ g, (s.queueRoom = true → (s.queue ++ [g]) <+: (completeTotalize i close s).queue) ∧
      (s.queueRoom = false → ((completeTotalize i close s).meas i).heldGroup = some g) ∧
      g.measure = i ∧ g.isFault = false ∧ g.sampleCount = 0 ∧
      g.values = [close - (s.meas i).block.openSnapshot] ∧
      groupRecords g = [.head g, .data i 0 (close - (s.meas i).block.openSnapshot)] ∧
      (close = (s.meas i).block.openSnapshot → hasQual .noEvents g.quals = true) ∧
      (∀ q, hasQual q (s.meas i).block.quals = true → hasQual q g.quals = true) ∧
      (∀ o c, (s.meas i).openTime = some o → (s.meas i).closeTime = some c → s.crosses o c [] = true →
        hasQual (.fault .discontinuity) g.quals = true)

/-- The gate of an OPEN TOTALIZE measure closes by GATE_OVERRUN, by GATE_CLOSE or by FLUSH at a time local time
has reached: with its open snapshot taken, the close snapshot is answered at once, and the group with the
difference goes to the queue or is held, with OVERRANGE or PARTIAL, or over an unmasked discontinuity the measure
enters FAULT; else it enters CLOSING and asks for the close snapshot (R36, R112, R114, R115, R119, R149, R150). -/
def Obligations.TotalizeGateCloses : Prop :=
  (∀ (s : State) (i : Fin 8) (c : MeasureConfig) (o : TimeStamp),
      (s.meas i).st = .opened → (s.meas i).config = some c → c.kind = .totalize →
      c.gate = .edge ∨ c.gate = .directive → (s.meas i).openTime = some o →
      s.reached (addEpochs o c.spanLimit.toNat) = true →
      ∃ t, Gives (.gateOverrun i) s t ∧ ClosesTotalize s t i c (addEpochs o c.spanLimit.toNat)
        (setQual .overrange (s.meas i).block.quals)) ∧
  (∀ (s : State) (d : Directive), s.dueDirective .gateClose = some d →
      ∃ t, Gives .gateClose s t ∧ ∀ i c, d.mask.getLsbD i.val = true → (s.meas i).st = .opened →
        (s.meas i).config = some c → c.kind = .totalize → c.gate = .directive →
        ClosesTotalize s t i c d.time (s.meas i).block.quals) ∧
  (∀ (s : State) (d : Directive), s.dueDirective .flush = some d →
      ∃ t, Gives .flush s t ∧ ∀ i c, d.mask.getLsbD i.val = true → (s.meas i).st = .opened →
        (s.meas i).config = some c → c.kind = .totalize →
        ClosesTotalize s t i c d.time (setQual .partialBlock (s.meas i).block.quals))

/-- A block completes in CLOSING once each source's horizon has reached the close time or the source is held (R145,
R148, R151). INTERVAL_BLOCK_COMPLETE takes every sample that settles first, and makes every other move of that judgement
first too, so that a start abandoned, or a stamp passed, at it falls on this block (the model's choice, log 52); with no
move left, whatever stamps the views still hold (a start without a stop, stamps from the close time on), the group of
R155 with GATE_END goes to the queue, and the measure takes its next state with those stamps in its views, or the
measure holds it (R117, R123, R145, R155, R159). RECIPROCAL_BLOCK_COMPLETE with no stamp left to count: a pending
STORE_FULL and a span over a discontinuity put the measure into FAULT when not masked, of two such parts the one taken
first, an order left open (log 7); else the block carries them and reports event count, span and mean period, or 0 and 0
with OVERRANGE, with NO_EVENTS, and for a span R156 cannot report (R119, R147, R148, R156, R159). That the test of R27
is made by its formula on a span whose last is earlier than first too is the model's choice (log 51). -/
def Obligations.BlocksComplete : Prop :=
  (∀ (s : State) (i : Fin 8),
    (s.intervalComplete i = true ↔ (s.meas i).st = .closing ∧ ∃ c z, (s.meas i).config = some c ∧
      c.kind = .interval ∧ (s.meas i).closeTime = some z ∧ s.covers i .A z ∧ s.covers i .B z) ∧
    (s.reciprocalComplete i = true ↔ (s.meas i).st = .closing ∧ ∃ c z, (s.meas i).config = some c ∧
      c.kind = .reciprocal ∧ (s.meas i).closeTime = some z ∧ s.covers i .A z)) ∧
  (∀ (s u : State) (i : Fin 8), s.intervalComplete i = true → Gives (.sampleSettle i) s u →
    u.untested = s.untested → u.queue = s.queue → (u.meas i).st = .closing → judgeMove i u = none →
    exec (.intervalBlockComplete i) s = exec (.intervalBlockComplete i) u) ∧
  (∀ (s : State) (i : Fin 8), s.view i .A = [] → s.view i .B = [] → (s.meas i).lastStop = none →
    judgeMove i s = none) ∧
  (∀ (s : State) (i : Fin 8), s.intervalComplete i = true → judgeMove i s = none →
    ∃ t g, Gives (.intervalBlockComplete i) s t ∧ MeasureFrame s t ∧
      (∀ j, j ≠ i → t.meas j = s.meas j) ∧ Reports s t i g ∧
      g.measure = i ∧ g.kind = .interval ∧ g.isFault = false ∧
      g.sampleCount = (s.meas i).block.n ∧ g.values = (s.meas i).block.intervalValues ∧
      hasQual .gateEnd g.quals = true ∧
      ((s.meas i).block.n = 0 → hasQual .noEvents g.quals = true) ∧
      (s.queueRoom = true → (s.meas i).rearms = .left 0 → (t.meas i).st = .idle) ∧
      (s.queueRoom = true → ∃ u, t = rescanGate i (nextState i false true u) ∧
        u.queue = s.queue ++ [{ g with sequence := (s.meas i).sequence }] ∧ MeasureFrame s u ∧
        u.store = s.store ∧ (∀ j, j ≠ i → u.meas j = s.meas j) ∧
        u.meas i = { s.meas i with
          sequence := (s.meas i).sequence + 1, block := (u.meas i).block })) ∧
  (∀ (s : State) (i : Fin 8) (c : MeasureConfig) (b : Block), s.reciprocalComplete i = true →
    (s.meas i).config = some c → judgeMove i s = none → b = (s.meas i).block →
    ∃ t, Gives (.reciprocalBlockComplete i) s t ∧ MeasureFrame s t ∧
      (∀ j, j ≠ i → t.meas j = s.meas j) ∧
      (b.crossing s c → (s.meas i).masks .discontinuity = false →
        (t.meas i).st = .fault ∧
        ((s.meas i).pendingA = false ∨ (s.meas i).masks .storeFull = true → Faults s t i .discontinuity)) ∧
      ((s.meas i).pendingA = true → (s.meas i).masks .storeFull = false →
        (t.meas i).st = .fault ∧
        (¬ b.crossing s c ∨ (s.meas i).masks .discontinuity = true → Faults s t i .storeFull)) ∧
      (¬ b.crossing s c ∨ (s.meas i).masks .discontinuity = true →
        (s.meas i).pendingA = false ∨ (s.meas i).masks .storeFull = true →
        ∃ g, Reports s t i g ∧
          g.measure = i ∧ g.kind = .reciprocal ∧ g.isFault = false ∧ g.sampleCount = 0 ∧
          (b.crossing s c → hasQual (.fault .discontinuity) g.quals = true) ∧
          ((s.meas i).pendingA = true → hasQual (.fault .storeFull) g.quals = true) ∧
          (s.queueRoom = true → (s.meas i).rearms = .left 0 → (t.meas i).st = .idle) ∧
          (b.events = 0 → g.values = [0, 0, 0] ∧ hasQual .noEvents g.quals = true) ∧
          (hasQual .overrange b.quals = true →
            g.values = [b.events, 0, 0] ∧ hasQual .overrange g.quals = true) ∧
          ∀ x y, b.events ≠ 0 → b.first = some x → b.last = some y →
            (interval s.epochLength x y < 0 ∨ 2 ^ 47 ≤ interval s.epochLength x y →
              g.values = [b.events, 0, 0] ∧ hasQual .overrange g.quals = true) ∧
            (hasQual .overrange b.quals = false →
              0 ≤ interval s.epochLength x y → interval s.epochLength x y < 2 ^ 47 →
              g.values = [b.events, BitVec.ofInt 48 (interval s.epochLength x y),
                BitVec.ofNat 48 ((interval s.epochLength x y).toNat / b.events.toNat)])))

/-- A measure with a rearm left whose group has been enqueued enters ARMED at local time with an empty block and one
rearm less, takes the condition of each ABSENT or FOREIGN peer that a source of it names, as ARM has it
(ArmArmsIdleMeasures; R101, R119, R120, R122), and its next gate is set up: TIMED from its close time, also one that a
full block came before, now with SHIFTED when that has passed; EDGE and FREE from the group's rest in REPORTING with
SHIFTED, else EDGE at the closing stamp, which also opens, or searching after the open time, and FREE at its open
time; DIRECTIVE and TIMED MARK wait (R122 to R124). The arbiter gives a place to a held group, after which a pending
fault is taken or the measure rearms as one that rested, or to a fault report not yet enqueued (R120, R162). -/
def Obligations.RearmSetsNextGate : Prop :=
  (∀ (s : State) (i : Fin 8) (c : MeasureConfig) (r : Rearms) (rested offer shifted : Bool) (base : Measure)
    (t : State), (s.meas i).rearms.next = some r → (s.meas i).config = some c →
    (shifted = true ↔ (c.gate = .timed ∧ c.gateAlign = .unaligned ∧
        ∃ z, (s.meas i).timedClose s.epochLength c z ∧ later s.localTime z = true) ∨
      (rested = true ∧ (c.gate = .edge ∨ c.gate = .free))) →
    base = { s.meas i with
      st := .armed, rearms := r, armingTime := some s.localTime, openTime := none, closeTime := none
      searchTime := none, searchAfter := false, carriedOpening := none, closedByStamp := false
      rearmTick := some s.eu.elapsed, finalA := .live, finalB := .live, finalG := .live
      block := { Block.empty with quals := setQualIf shifted .shifted 0 }
      heldGroup := none, pendingFault := none } →
    t = nextState i rested offer s →
    MeasureFrame s t ∧ (∀ j, j ≠ i → t.meas j = s.meas j) ∧
    ((∃ k, s.peerGives i k ∧ (s.meas i).masks k = false) →
      (∃ k, s.peerGives i k ∧ (s.meas i).masks k = false ∧ Faults s t i k) ∧
      (offer = false → t.queue = s.queue)) ∧
    ((∀ k, s.peerGives i k → (s.meas i).masks k = true) → t.queue = s.queue ∧ ∃ a, Asked s i base a ∧
      (c.gate = .directive ∨ (c.gate = .timed ∧ c.gateAlign = .mark) → t.meas i = a) ∧
      (∀ z, c.gate = .timed → c.gateAlign = .unaligned → (s.meas i).timedClose s.epochLength c z →
        (later s.localTime z = true → t.meas i = s.gateOpened a s.localTime) ∧
        (later s.localTime z = false → later z s.localTime = true →
          t.meas i = { a with carriedOpening := some z }) ∧
        (later s.localTime z = false → later z s.localTime = false → t.meas i = s.gateOpened a z)) ∧
      (c.gate = .edge →
        (rested = true → t.meas i = { a with searchTime := some s.localTime }) ∧
        (∀ z, rested = false → (s.meas i).closedByStamp = true → (s.meas i).closeTime = some z →
          t.meas i = s.gateOpened a z) ∧
        (rested = false → (s.meas i).closedByStamp = false →
          t.meas i = { a with searchTime := (s.meas i).openTime, searchAfter := true })) ∧
      (c.gate = .free →
        (rested = true → t.meas i = s.gateOpened a s.localTime) ∧
        (∀ o, rested = false → (s.meas i).openTime = some o → t.meas i = s.gateOpened a o)))) ∧
  (∀ (s : State) (i : Fin 8) (g : Group), (s.meas i).st = .reporting → (s.meas i).heldGroup = some g →
    g.measure = i →
    ((s.meas i).pendingFault = none → givePlace i s = nextState i true false (enqueueGroup g s)) ∧
    (∀ k, (s.meas i).pendingFault = some k → ((givePlace i s).meas i).st = .fault ∧
      ((givePlace i s).meas i).heldReport = some (faultReport i (s.meas i).kind k))) ∧
  (∀ (s : State) (i : Fin 8) (g : Group), (s.meas i).st = .fault → (s.meas i).heldReport = some g →
    givePlace i s = enqueueGroup g (s.setMeas i { s.meas i with heldReport := none }))

/-- SAMPLE_SETTLE makes one move after another until none is possible: with no move it changes nothing, after a move
that lets the judgement go on it does what it does in the state the move left, and a move that ends the judgement (a
block finished, a fault entered) is the last (R129). -/
def Obligations.JudgementMakesEveryMove : Prop :=
  ∀ (s : State) (i : Fin 8),
    (judgeMove i s = none → Gives (.sampleSettle i) s s) ∧
    (∀ x, judgeMove i s = some x →
      (x.goesOn = true → exec (.sampleSettle i) s = exec (.sampleSettle i) x.state) ∧
      (x.goesOn = false → Gives (.sampleSettle i) s x.state))

/-- The moves of an INTERVAL judgement: a stamp below the floor in ARMED and below the open time in OPEN and CLOSING is
passed unexamined (R130), one offered while the role held its source too (R151), and passing moves nothing else of the
Store (R59, R64); a B stamp not later than the oldest start is barren (R135), and with no start one that A's horizon
has passed, in either case before a sample is taken (the model's choice, log 45); under FIRST the oldest start and the
first stop later than it settle once the stop is known to lie in the gate, as the table of R116 has it (R134); under
LATEST once A's horizon has passed the stop, with the newest start before it (R136), a superseded start being passed
(R137) before a sample is taken, also one later than that sample's stop (the model's choice, log 45); a start that
B's horizon has left behind by more than the span limit is abandoned and counted (R138). A start earlier than the last
stop is none (R133; log 41). Which of R137 and R138 comes first is left open (log 7). -/
def Obligations.IntervalMovesFollowRules : Prop :=
  (∀ (s : State) (i : Fin 8) (r : Role) (e : Entry),
    (s.passable i r = some e ↔ (s.view i r).head? = some e ∧ (e.heldFor i r = true ∨
      ∃ x, earlier e.time x = true ∧
        (((s.meas i).st = .armed ∧ (s.meas i).config.map (·.gate) = some .edge ∧ (s.meas i).searchTime = some x) ∨
          ((s.meas i).st = .armed ∧ (s.meas i).config.map (·.gate) ≠ some .edge ∧
            (s.meas i).armingTime = some x) ∨
          (((s.meas i).st = .opened ∨ (s.meas i).st = .closing) ∧ (s.meas i).openTime = some x)))) ∧
    Passes i r e s (s.passEntry i r e)) ∧
  (∀ (s : State) (i : Fin 8) (c : MeasureConfig) (t : TimeStamp), (s.meas i).config = some c →
    (s.knownOpen i t = true ↔
      ((s.meas i).st = .closing ∧ ∃ z, (s.meas i).closeTime = some z ∧ earlier t z = true) ∨
      ((s.meas i).st = .opened ∧
        (c.gate = .free ∨
          (c.gate = .timed ∧ ∃ z, (s.meas i).timedClose s.epochLength c z ∧ earlier t z = true) ∨
          (c.gate = .directive ∧ later s.localTime t = true) ∨
          (c.gate = .edge ∧ ((s.meas i).finalG ≠ .live ∨
            ∃ h, s.roleHorizon i .G = some h ∧ later h t = true)))))) ∧
  (∀ (s : State) (i : Fin 8) (e : Entry), (s.meas i).st.active = true → (s.meas i).config ≠ none →
    (s.passable i .A = some e →
      exec (.sampleSettle i) s = exec (.sampleSettle i) (s.passEntry i .A e)) ∧
    (s.passable i .A = none → s.passable i .B = some e →
      exec (.sampleSettle i) s = exec (.sampleSettle i) (s.passEntry i .B e))) ∧
  ∀ (s : State) (i : Fin 8) (c : MeasureConfig), Judges s i c →
    (∀ a rest z, s.stamps i .A = a :: rest → (s.meas i).lastStop = some z → earlier a.time z = true →
      s.beyondGate i a.time = false →
      exec (.sampleSettle i) s = exec (.sampleSettle i) (passExamined i .A s a)) ∧
    (∀ a arest b brest, s.staleStart i = none → s.stamps i .A = a :: arest → s.stamps i .B = b :: brest →
      later b.time a.time = false → s.beyondGate i b.time = false →
      exec (.sampleSettle i) s = exec (.sampleSettle i) (passExamined i .B s b)) ∧
    (∀ b brest, s.stamps i .A = [] → s.stamps i .B = b :: brest →
      horizonLater (s.roleHorizon i .A) b.time = true → s.beyondGate i b.time = false →
      exec (.sampleSettle i) s = exec (.sampleSettle i) (passExamined i .B s b)) ∧
    (∀ a arest front b back x, s.staleStart i = none → s.barrenStop i = none →
      s.stamps i .A = a :: arest → s.stamps i .B = front ++ b :: back →
      (∀ f ∈ front, later f.time a.time = false) → later b.time a.time = true →
      s.knownOpen i b.time = true →
      (c.policy = .first → x = takeSample i c a b s →
        (x.goesOn = true → exec (.sampleSettle i) s = exec (.sampleSettle i) x.state) ∧
        (x.goesOn = false → Gives (.sampleSettle i) s x.state)) ∧
      (∀ older start, c.policy = .latest → s.superseded i c = none →
        horizonLater (s.roleHorizon i .A) b.time = true →
        (s.stamps i .A).filter (fun y => earlier y.time b.time) = older ++ [start] →
        x = takeSample i c start b s →
        (x.goesOn = true → exec (.sampleSettle i) s = exec (.sampleSettle i) x.state) ∧
        (x.goesOn = false → Gives (.sampleSettle i) s x.state))) ∧
    (∀ front a newer, s.staleStart i = none → s.barrenStop i = none → c.policy = .latest →
      (s.order.abandonFirst = false ∨ s.abandoned i c = none) →
      s.stamps i .A = front ++ a :: newer →
      (∀ f1 y f2, front = f1 ++ y :: f2 →
        s.beyondGate i y.time = true ∨ s.supersededBy i y (f2 ++ a :: newer) = false) →
      (∃ a2 ∈ newer, horizonLater (s.roleHorizon i .B) a2.time = true ∧
        ∀ b ∈ s.stamps i .B, later b.time a.time = false ∨ atOrBefore b.time a2.time = false) →
      s.beyondGate i a.time = false →
      exec (.sampleSettle i) s = exec (.sampleSettle i) (passExamined i .A s a)) ∧
    (∀ a arest, s.staleStart i = none → s.barrenStop i = none →
      (s.order.abandonFirst = true ∨ s.superseded i c = none) → s.stamps i .A = a :: arest →
      (∀ b ∈ s.stamps i .B, later b.time a.time = false) →
      horizonAtOrAfter (s.roleHorizon i .B) ⟨a.time.epoch + c.spanLimit + 1, 0, 0⟩ = true →
      s.beyondGate i a.time = false →
      exec (.sampleSettle i) s = exec (.sampleSettle i)
        ((passExamined i .A s a).modMeas i fun m => { m with block := { m.block with
          overrange := satAdd m.block.overrange 1, quals := setQual .overrange m.block.quals } }))

/-- A sample taken: A takes the start and passes every A stamp earlier than the stop, B takes the stop, and the A stamps
at or after the stop, every other view and what waits to be published stand as they stood (R134, R136). A role that
passes an entry alone loses it, and the measure leaves its consumer set when its last role has passed it (R59, R64). A
drop count is examined once: 1 to 254 sets DROPS, 255 marks a loss (R131). The sample is tested in
order: a span over the limit counts as overrange; a discontinuity, a loss and a full Store reject it, with their
qualifier when masked and with FAULT when not; a value outside the accepted windows counts as rejected; else it
is accumulated, and the N-th sample finishes the block (R139 to R144, R155). A span crosses a discontinuity when the
last discontinuity epoch of the own station or of a peer named lies after its start's epoch and not after its end's;
a peer of which no frame has been accepted gives none (R27). -/
def Obligations.SampleIsTakenAndTested : Prop :=
  (∀ (s : State) (i : Fin 8) (c : MeasureConfig) (a b : Entry), ∃ u,
    takeSample i c a b s = testSample i c a.time b.time u ∧
    (u.stamps i .A).map Entry.stamp
      = ((s.stamps i .A).filter fun e => !earlier e.time b.time).map Entry.stamp ∧
    (u.view i .B).map Entry.stamp = ((s.view i .B).filter fun e => !e.same b).map Entry.stamp ∧
    (∀ j q, j ≠ i ∨ q = .G → (u.view j q).map Entry.stamp = (s.view j q).map Entry.stamp) ∧
    (u.store.filter (·.publish)).map Entry.stamp = (s.store.filter (·.publish)).map Entry.stamp ∧
    MeasureFrame s u ∧ (∀ j, j ≠ i → u.meas j = s.meas j) ∧ u.queue = s.queue ∧
    u.meas i = { s.meas i with
      lastStop := some b.time
      lossMark := (u.meas i).lossMark
      block := { (s.meas i).block with quals := (u.meas i).block.quals } }) ∧
  (∀ (s t : State) (i : Fin 8) (r : Role) (e : Entry), t = passExamined i r s e →
    Passes i r e s t ∧ MeasureFrame s t ∧ t.queue = s.queue ∧
    (∀ j, j ≠ i → t.meas j = s.meas j) ∧
    (s.hasExamined i e = true ∨ e.drops = 0 → t.meas i = s.meas i) ∧
    (s.hasExamined i e = false → e.drops ≠ 0 → e.drops ≠ 255 → t.meas i = (s.meas i).qualify .drops) ∧
    (s.hasExamined i e = false → e.drops = 255 → (s.meas i).kind = .interval →
      t.meas i = { s.meas i with lossMark := true })) ∧
  (∀ (f : Entry) (i : Fin 8), f.consumers.getLsbD i.val = true ↔ ∃ r, f.inView i r = true) ∧
  (∀ (s : State) (i : Fin 8) (c : MeasureConfig) (a b : TimeStamp) (v : BitVec 48) (x : Move),
    (s.meas i).config = some c → c.kind = .interval → v = BitVec.ofInt 48 (interval s.epochLength a b) →
    x = testSample i c a b s →
    (c.spanLimit.toNat < (b.epoch - a.epoch).toNat → x = ⟨s.setMeas i { s.meas i with
      block := { (s.meas i).block with
        overrange := satAdd (s.meas i).block.overrange 1
        quals := setQual .overrange (s.meas i).block.quals } }, true⟩) ∧
    ((b.epoch - a.epoch).toNat ≤ c.spanLimit.toNat → s.crosses a b [c.a.station, c.b.station] = true →
      ((s.meas i).masks .discontinuity = true →
        x = ⟨s.setMeas i ((s.meas i).qualify (.fault .discontinuity)), true⟩) ∧
      ((s.meas i).masks .discontinuity = false → x.goesOn = false ∧ Faults s x.state i .discontinuity)) ∧
    ((b.epoch - a.epoch).toNat ≤ c.spanLimit.toNat → s.crosses a b [c.a.station, c.b.station] = false →
      ((s.meas i).lossMark = true →
        ((s.meas i).masks .gap = true →
          x = ⟨s.setMeas i (Measure.qualify (.fault .gap) { s.meas i with lossMark := false }), true⟩) ∧
        ((s.meas i).masks .gap = false → x.goesOn = false ∧ Faults s x.state i .gap)) ∧
      ((s.meas i).lossMark = false → (s.meas i).pendingA = true ∨ (s.meas i).pendingB = true →
        ((s.meas i).masks .storeFull = true → x = ⟨s.setMeas i (Measure.qualify (.fault .storeFull)
          { s.meas i with pendingA := false, pendingB := false }), true⟩) ∧
        ((s.meas i).masks .storeFull = false → x.goesOn = false ∧ Faults s x.state i .storeFull)) ∧
      ((s.meas i).lossMark = false → (s.meas i).pendingA = false → (s.meas i).pendingB = false →
        (c.accept.getLsbD (c.windowFlag v) = false → x = ⟨s.setMeas i { s.meas i with
          block := { (s.meas i).block with rejected := satAdd (s.meas i).block.rejected 1 } }, true⟩) ∧
        (c.accept.getLsbD (c.windowFlag v) = true → (s.meas i).block.n + 1 ≠ c.blockSize →
          x = ⟨s.setMeas i { s.meas i with block := (s.meas i).block.accumulate v }, true⟩) ∧
        (c.accept.getLsbD (c.windowFlag v) = true → (s.meas i).block.n + 1 = c.blockSize →
          x.goesOn = false ∧
          ((s.meas i).rearms = .left 0 → s.queueRoom = true → (x.state.meas i).st = .idle) ∧
          ∃ g, Reports s x.state i g ∧ g.measure = i ∧ g.kind = .interval ∧ g.isFault = false ∧
            g.sampleCount = c.blockSize ∧ g.values = ((s.meas i).block.accumulate v).intervalValues)))) ∧
  (∀ (s : State) (a b : TimeStamp) (stations : List (Fin 16)), s.crosses a b stations = true ↔
    ∃ d : BitVec 16,
      (d = s.eu.disc ∨ ∃ p ∈ stations, p ≠ s.loader.number ∧ (s.peer p).disc = some d) ∧
      1 ≤ (d - a.epoch).toNat ∧ (d - a.epoch).toNat ≤ (b.epoch - a.epoch).toNat)

/-- SAMPLE_SETTLE of a RECIPROCAL measure takes the stamp at its A cursor, known to lie in the gate, which leaves the
view, and then does what it does in the state that leaves, stamp by stamp in view order (R146;
JudgementMakesEveryMove); with no further stamp in the view it ends there. The first stamp of a block sets first, its
drop count not examined; a later one is counted with the losses it carries, 1 to 254 of them setting DROPS unless the
G role has examined them before (R131). A count of 255, and a STORE_FULL pending on A, put the measure into FAULT
when not masked, of two such parts the one taken first, an order left open (log 7), and set their qualifiers when
masked (R119, R131, R146, R147). A mark set while ARMED is tested with the stamp after the one that sets first: the
model's reading of the first counted stamp, log 46. A stamp not known to lie in the gate, or at or after its close
time, holds back every later one (R146). -/
def Obligations.SettleCountsReciprocalStamp : Prop :=
  ∀ (s : State) (i : Fin 8) (c : MeasureConfig) (e : Entry) (back : List Entry),
    (s.meas i).st = .opened ∨ (s.meas i).st = .closing → (s.meas i).config = some c →
    c.kind = .reciprocal → s.view i .A = e :: back → s.passable i .B = none → e.heldFor i .A = false →
    (∀ o, (s.meas i).openTime = some o → earlier e.time o = false) →
    (s.knownOpen i e.time = false ∨ s.beyondGate i e.time = true → Gives (.sampleSettle i) s s) ∧
    (s.knownOpen i e.time = true → s.beyondGate i e.time = false →
      ∃ t, MeasureFrame s t ∧ (∀ j, j ≠ i → t.meas j = s.meas j) ∧
        (∀ m : Measure,
          ((s.meas i).block.first = none ∧ m = { s.meas i with
            block := { (s.meas i).block with first := some e.time } }) ∨
          ((s.meas i).block.first ≠ none ∧
            (e.drops ≠ 255 ∨ (s.meas i).masks .gap = true) ∧
            ((s.meas i).pendingA = false ∨ (s.meas i).masks .storeFull = true) ∧
            m = { s.meas i with
              pendingA := false
              block := { (s.meas i).block with
                events := (s.meas i).block.events + 1 + e.drops.setWidth 48
                last := some e.time
                quals := setQualIf (s.meas i).pendingA (.fault .storeFull)
                  (setQualIf (e.drops == 255) (.fault .gap)
                    (setQualIf (e.drops != 0 && e.drops != 255 && !s.hasExamined i e) .drops
                      (s.meas i).block.quals)) } }) →
          t.meas i = m ∧ t.queue = s.queue ∧ Passes i .A e s t ∧
          exec (.sampleSettle i) s = exec (.sampleSettle i) t ∧
          (back = [] → s.view i .B = [] → Gives (.sampleSettle i) s t)) ∧
        ((s.meas i).block.first ≠ none → e.drops = 255 → (s.meas i).masks .gap = false →
          Gives (.sampleSettle i) s t ∧ (t.meas i).st = .fault ∧
          ((s.meas i).pendingA = false ∨ (s.meas i).masks .storeFull = true → Faults s t i .gap)) ∧
        ((s.meas i).block.first ≠ none → (s.meas i).pendingA = true → (s.meas i).masks .storeFull = false →
          Gives (.sampleSettle i) s t ∧ (t.meas i).st = .fault ∧
          (e.drops ≠ 255 ∨ (s.meas i).masks .gap = true → Faults s t i .storeFull)))

/-- SAMPLE_SETTLE of an INTERVAL measure under FIRST with one start and one stop known to lie in the gate: the
sample is taken, tested, and, inside every limit, accumulated; both stamps leave the views, and the stop is kept
until no A stamp earlier than it can arrive (R133, R134, R139 to R144; log 41). -/
def Obligations.SettleAccumulatesSample : Prop :=
  ∀ (s : State) (i : Fin 8) (c : MeasureConfig) (a b : Entry),
    (s.meas i).st = .opened ∨ (s.meas i).st = .closing → (s.meas i).config = some c →
    c.kind = .interval → c.policy = .first → s.view i .A = [a] → s.view i .B = [b] →
    a.heldFor i .A = false → b.heldFor i .B = false →
    (∀ z, (s.meas i).lastStop = some z → earlier a.time z = false) →
    later b.time a.time = true →
    (∀ o, (s.meas i).openTime = some o → earlier a.time o = false ∧ earlier b.time o = false) →
    s.knownOpen i b.time = true → a.drops = 0 → b.drops = 0 →
    (b.time.epoch - a.time.epoch).toNat ≤ c.spanLimit.toNat →
    s.crosses a.time b.time [c.a.station, c.b.station] = false →
    (s.meas i).lossMark = false → (s.meas i).pendingA = false → (s.meas i).pendingB = false →
    c.accept.getLsbD (c.windowFlag (s.sampleValue a.time b.time)) = true →
    (s.meas i).block.n + 1 ≠ c.blockSize →
    ∃ t, Gives (.sampleSettle i) s t ∧ MeasureFrame s t ∧ (∀ j, j ≠ i → t.meas j = s.meas j) ∧
      t.view i .A = [] ∧ t.view i .B = [] ∧ t.queue = s.queue ∧
      t.meas i = { s.meas i with
        lastStop := if horizonAtOrAfter (s.roleHorizon i .A) b.time then none else some b.time
        block := (s.meas i).block.accumulate (BitVec.ofInt 48 (interval s.epochLength a.time b.time)) }

/-- An INTERVAL block whose accumulators hold the samples `vs` reports their mean, minimum and maximum, and the
two counts; a block without a sample reports 0, 0 and 0 (R144, R155). -/
def Obligations.IntervalBlockReportsItsSamples : Prop :=
  ∀ (vs : List (BitVec 48)) (a b : Block), vs.length < 65536 → a = vs.foldl Block.accumulate .empty →
    b.n = a.n → b.sum = a.sum → b.minimum = a.minimum → b.maximum = a.maximum →
    b.n.toNat = vs.length ∧ b.sum.toNat = (vs.map BitVec.toNat).sum ∧
    ∃ mean counts, b.intervalValues = [mean, b.minimum, b.maximum, counts] ∧
      counts.toNat = b.rejected.toNat * 2 ^ 24 + b.overrange.toNat ∧
      (vs = [] → mean = 0 ∧ b.minimum = 0 ∧ b.maximum = 0) ∧
      (vs ≠ [] → mean.toNat = (vs.map BitVec.toNat).sum / vs.length ∧ b.minimum ∈ vs ∧ b.maximum ∈ vs ∧
        (∀ v ∈ vs, b.minimum.toNat ≤ v.toNat ∧ v.toNat ≤ b.maximum.toNat) ∧
        b.minimum.toNat ≤ mean.toNat ∧ mean.toNat ≤ b.maximum.toNat)

/-! ### The Timing Link -/

/-- A frame as sent reads back field by field: start symbol, header, each record by its kind, and the CRC
(R70, R71, R83, R198, R199). -/
def Obligations.FrameReadsBack : Prop :=
  ∀ f : Frame, f.records.length ≤ 8 →
    readFrame (frameBits f) =
      { startOk := true
        sender := f.sender.val
        count := f.records.length
        epoch := f.epoch
        horizon := f.horizon
        disc := f.disc
        signature := f.signature
        records := f.records.map Record.asRead
        crcOk := true } ∧
    (frameBits f).length = 128 + 64 * f.records.length ∧
    receptionBits (frameBits f) = (frameBits f).length

/-- The CRC-8 of a frame: computed over header and record bits, from 0x00, a bit at a time; a receiver passes
the frame when the register equals the CRC field (R71). -/
def Obligations.FrameCrcIsCrc8 : Prop :=
  (∀ f : Frame, frameBits f = startSymbol ++ frameBody f ++ fieldBits (crc8 (frameBody f))) ∧
  (∀ f : Frame, frameBody f = headerBits f ++ (f.records.map recordBits).flatten) ∧
  crc8 [] = 0x00#8 ∧
  (∀ (l : List Bool) (b : Bool), crc8 (l ++ [b]) =
    (if (b ^^ (crc8 l).msb) then (crc8 l <<< 1) ^^^ 0x4D#8 else crc8 l <<< 1)) ∧
  (∀ bits : List Bool, (readFrame bits).crcOk = true ↔
    crc8 (padBits (frameLengthOf bits - 16) (bits.drop 8))
      = (takeField 8 (bits.drop (frameLengthOf bits - 8))).1)

/-- TRANSMIT_ASSEMBLY of a LOCKED station: the frame in flight from this tick carries sender, epoch, discontinuity epoch
and signature of the station and at most 8 records: the STATUS record first when due, the directives of the outbox, then
result groups whole and in order from the queue's head, up to 6 positions while an entry holds publish and up to 8 else,
until one does not fit, then STAMP records (R72, R73, R74, R76, R77, R88, R161, R195). A placed STATUS record clears the
four counts it reports (R88, R178, R182, R196). The placed directives leave the outbox, and then the arbiter gives the
places (R73, R162). The horizon and the stamps are StampsArePublished. Assembly is due once in a LOCKED or MUTE station,
at the offset, as it stands when the command is taken, at which an own window starts (R68, R72; in the tick of a slip
the model's choice, log 54). The STATUS record holds start cause, alignment origin, the measures in FAULT, DISABLED by
the load and active with REPORTING counted, the throttled channels, the triggers disabled by the load and RUNNING, and
the four counts (R196). -/
def Obligations.AssemblySendsFrame : Prop :=
  (∀ s : State, s.assemblyDue = true → s.eu.align = some .locked → s.link.receiver = none →
    s.link.outbox.length ≤ 6 →
    ∃ t f front taken left stamps limit, Gives .transmitAssembly s t ∧
      t.link.sending = some ⟨f, 0, false⟩ ∧
      f.sender = s.loader.number ∧ f.epoch = s.eu.epoch ∧ f.disc = s.eu.disc ∧
      f.signature = s.loader.signature ∧ f.records.length ≤ 8 ∧
      f.records = front ++ (taken.map groupRecords).flatten ++ stamps ∧
      front = (if s.link.statusDue then [.status s.status] else []) ++ s.link.outbox.map Record.directive ∧
      limit = (if s.store.any (·.publish) then 6 else 8) ∧
      s.queue = taken ++ left ∧ left <+: t.queue ∧ (¬ s.someWaits → t.queue = left) ∧
      (taken ≠ [] → front.length + ((taken.map groupRecords).flatten).length ≤ limit) ∧
      (∀ g rest, left = g :: rest →
        limit < front.length + ((taken.map groupRecords).flatten).length + (groupRecords g).length) ∧
      (∀ r ∈ stamps, ∃ c p d x, r = .stamp c p d x) ∧
      (∃ u, u.queue = left ∧ u.link.outbox = [] ∧ u.measures = s.measures ∧
        u.directiveDrops = (if s.link.statusDue then 0 else s.directiveDrops) ∧
        u.triggerOverruns = (if s.link.statusDue then 0 else s.triggerOverruns) ∧ Arbitrates u t) ∧
      t.link.statusDue = false ∧
      (s.link.statusDue = true → t.link.collisions = 0 ∧ t.link.discards = 0) ∧
      (s.link.statusDue = false → t.link.collisions = s.link.collisions ∧
        t.link.discards = s.link.discards) ∧
      t.marks.assembly = true ∧ t.eu = s.eu ∧ t.peers = s.peers ∧ t.directives = s.directives ∧
      t.pending = s.pending) ∧
  ∀ s : State,
    (s.assemblyDue = true ↔ (s.eu.align = some .locked ∨ s.eu.align = some .mute) ∧ s.marks.assembly = false ∧
      ∃ w, s.windowAt s.eu.offset = some w ∧ s.windowStart w = s.eu.offset ∧
        s.windowOwner w = s.loader.number.val) ∧
    s.status.cause = s.loader.cause ∧ s.status.origin = s.eu.origin ∧
    (∀ i : Fin 8, (s.status.faultMask.getLsbD i.val = true ↔ (s.meas i).st = .fault) ∧
      (s.status.activeMask.getLsbD i.val = true ↔ (s.meas i).st = .armed ∨ (s.meas i).st = .opened ∨
        (s.meas i).st = .closing ∨ (s.meas i).st = .reporting)) ∧
    s.status.disabledMask = s.loader.measDisabled ∧ s.status.disabledTriggers = s.loader.trigDisabled ∧
    (∀ i : Fin 4, (s.status.throttled.getLsbD i.val = true ↔ (s.chan i).st = .throttled) ∧
      (s.status.runningTriggers.getLsbD i.val = true ↔
        ∃ rest pause counted, (s.sequences.get i).st = .running rest pause counted)) ∧
    s.status.collisions = s.link.collisions ∧ s.status.discards = s.link.discards ∧
    s.status.directiveDrops = s.directiveDrops ∧ s.status.triggerOverruns = s.triggerOverruns

/-- TRANSMIT_ASSEMBLY: the positions left take the published stamps oldest first, of one time the lower channel
first, each with its drop count and, the first of a channel, the channel's publish-side losses; publish leaves
the entries sent and those losses return to 0 (R46, R60, R75). The frame's horizon is the local horizon, or the
oldest published stamp not sent when that is earlier (R76). For published stamps of distinct times a channel,
and times within half the epoch numbers; of others log 44 says which goes first. -/
def Obligations.StampsArePublished : Prop :=
  ∀ (s : State) (base : BitVec 16), s.assemblyDue = true → s.eu.align = some .locked →
    s.link.receiver = none →
    (∀ e ∈ s.store, e.publish = true → (e.time.epoch - base).toNat ≤ 32767) →
    (s.localHorizon.epoch - base).toNat ≤ 32767 →
    s.store.Pairwise (fun e f => e.publish = true → f.publish = true → e.same f = false) →
    (∀ e ∈ s.store, e.publish = true → e.station = s.loader.number) →
    ∃ t f front sent, Gives .transmitAssembly s t ∧ t.link.sending = some ⟨f, 0, false⟩ ∧
      f.records = front ++ stampRecords (fun c => (s.chan c).publishDrops) sent ∧
      (∀ r ∈ front, ∀ c p d x, r ≠ .stamp c p d x) ∧
      sent.length = min (8 - front.length) (s.store.countP (·.publish)) ∧ sent.Nodup ∧
      (∀ e ∈ sent, e ∈ s.store ∧ e.publish = true) ∧
      sent.Pairwise (fun e f => f.goesBefore e = false) ∧
      (∀ e ∈ sent, ∀ x ∈ s.store, x.publish = true → x ∉ sent → x.goesBefore e = false) ∧
      (∀ c, (t.chan c).publishDrops
        = if sent.any (fun e => e.channel == c) then 0 else (s.chan c).publishDrops) ∧
      (t.store.filter (·.publish)).map (fun e => (e.channel, e.time))
        = (s.store.filter fun e => e.publish && decide (e ∉ sent)).map (fun e => (e.channel, e.time)) ∧
      atOrBefore f.horizon s.localHorizon = true ∧
      (∀ e ∈ s.store, e.publish = true → e ∉ sent → atOrBefore f.horizon e.time = true) ∧
      (f.horizon = s.localHorizon ∨
        ∃ e ∈ s.store, e.publish = true ∧ e ∉ sent ∧ f.horizon = e.time)

/-- TRANSMIT_ASSEMBLY of a MUTE station: the frame is discarded, DATA is not driven, and the outbox's
directives, the STATUS record's four counts and the result groups placed, whole and in order from the queue's head as
they fit, are gone; then the arbiter gives the places (R73, R74, R80, R88, R161, R162, R178, R182, R196). -/
def Obligations.MuteAssemblyDiscards : Prop :=
  ∀ s : State, s.assemblyDue = true → s.eu.align = some .mute → s.link.sending = none →
    s.link.outbox.length ≤ 6 → (∀ e ∈ s.store, e.publish = false) →
    ∃ t front taken left limit, Gives .transmitAssembly s t ∧ t.link.sending = none ∧
      t.dataLine = false ∧ t.link.receiver = s.link.receiver ∧ t.link.statusDue = false ∧
      t.link.outbox = [] ∧
      (s.link.statusDue = true → t.link.collisions = 0 ∧ t.link.discards = 0) ∧
      (s.link.statusDue = false → t.link.collisions = s.link.collisions ∧
        t.link.discards = s.link.discards) ∧
      front = (if s.link.statusDue then [.status s.status] else []) ++ s.link.outbox.map Record.directive ∧
      limit = 8 ∧
      s.queue = taken ++ left ∧ left <+: t.queue ∧ (¬ s.someWaits → t.queue = left) ∧
      (taken ≠ [] → front.length + ((taken.map groupRecords).flatten).length ≤ limit) ∧
      (∀ g rest, left = g :: rest →
        limit < front.length + ((taken.map groupRecords).flatten).length + (groupRecords g).length) ∧
      (∃ u, u.queue = left ∧ u.link.outbox = [] ∧ u.measures = s.measures ∧
        u.directiveDrops = (if s.link.statusDue then 0 else s.directiveDrops) ∧
        u.triggerOverruns = (if s.link.statusDue then 0 else s.triggerOverruns) ∧ Arbitrates u t) ∧
      (∀ c, (t.chan c).publishDrops = (s.chan c).publishDrops) ∧ t.eu = s.eu ∧ t.peers = s.peers

/-- A reception in progress when an own window of a LOCKED station starts is ended and counted (R83, R88);
whether this window's STATUS record counts it is left open (log 7). The receiver does not work in the own
windows of a LOCKED station: a reception that would end in one is ended and counted instead, and no start tick
begins one (R83; log 27). -/
def Obligations.OwnWindowEndsReception : Prop :=
  (∀ (s : State) (x : Reception), s.assemblyDue = true → s.eu.align = some .locked →
    s.link.receiver = some x → s.link.statusDue = false →
    ∃ t, Gives .transmitAssembly s t ∧ t.link.receiver = none ∧
      t.link.discards = satAdd s.link.discards 1) ∧
  (∀ (s : State) (bits : List Bool) (straps : BitVec 4) (x : Reception),
    s.endingReception bits = some x → s.eu.align = some .locked → s.inOwnWindow = true →
    Gives (.frameReceived bits straps) s { s with link := { s.link with
      receiver := none, discards := satAdd s.link.discards 1 } }) ∧
  (∀ s : State, s.eu.align = some .locked → s.inOwnWindow = true → Gives .frameStartTick s s)

/-- COLLISION at a readback point of a 0: DATA is released, the collision count adds 1 and the consecutive count
adds 1, or at the third in a row the station enters MUTE and publish leaves every entry. Each STAMP record of
the abandoned frame is accounted to its channel: 1 for itself and the drop count it carried, saturating at 255;
the other fields of the channels stay, and nothing else changes (R45, R61, R78, R79, R88). -/
def Obligations.CollisionAbandonsFrame : Prop :=
  ∀ (s : State) (x : Sending), s.collisionPoint = true → s.link.sending = some x →
    ∃ t, Gives .collision s t ∧ t.dataLine = false ∧
      (s.link.consecutive ≠ 2 → t = { s with
        channels := t.channels
        link := { s.link with
          sending := none
          consecutive := s.link.consecutive + 1
          collisions := satAdd s.link.collisions 1 } }) ∧
      (s.link.consecutive = 2 → t.faultLine = true ∧ t = { s with
        eu := { s.eu with align := some .mute }
        channels := t.channels
        store := (s.store.map fun e => { e with publish := false }).filter Entry.wanted
        link := { s.link with sending := none, collisions := satAdd s.link.collisions 1 } }) ∧
      ∀ c, (t.chan c).publishDrops.toNat
          = min 255 ((s.chan c).publishDrops.toNat + lossOf c x.frame.records) ∧
        t.chan c = { s.chan c with publishDrops := (t.chan c).publishDrops }

/-- FRAME_SEND_END: the frame has been sent to its end, the consecutive count is 0, and its records are gone
through in order: each DIRECTIVE record for this station or ALL is delivered to the own list, no other record, and
after a RESTART among them nothing (R79, R81, R176). -/
def Obligations.FrameEndSelfDelivers : Prop :=
  (∀ (s u : State) (x : Sending) (straps : BitVec 4), s.endingFrame = some x →
    u = { s with link := { s.link with sending := some { x with ended := true }, consecutive := 0 } } →
    Gives (.frameSendEnd straps) s (x.frame.records.foldl (selfDeliver straps) u) ∧
    ((∀ d, Record.directive d ∈ x.frame.records → d.isFor s.loader.number = false) →
      Gives (.frameSendEnd straps) s u) ∧
    (∀ d, s.hasTime = true → x.frame.records = [.directive d] → d.isFor s.loader.number = true →
      Gives (.frameSendEnd straps) s (arriveDirective straps d u))) ∧
  (∀ (u : State) (straps : BitVec 4) (d : Directive),
    (u.hasTime = true → d.target.toNat = u.loader.number.val ∨ d.target.toNat = 16 →
      selfDeliver straps u (.directive d) = arriveDirective straps d u) ∧
    (u.hasTime = false ∨ (d.target.toNat ≠ u.loader.number.val ∧ d.target.toNat ≠ 16) →
      selfDeliver straps u (.directive d) = u) ∧
    ∀ r, (∀ d, r ≠ .directive d) → selfDeliver straps u r = u)

/-- FRAME_START_TICK of a listening receiver: RECEIVING, with the window that holds the tick and how far into
it the tick lies (R83). The tick's offset is the one it has when the command is taken, before or after a slip or a mark
of the same tick (the model's choice, log 53). -/
def Obligations.StartTickNotesWindow : Prop :=
  ∀ s : State, s.listening = true → ∃ x, Gives .frameStartTick s { s with link := { s.link with
      receiver := some x } } ∧
    x.ticks = 0 ∧ x.cut = false ∧ x.window = s.windowAt s.eu.offset ∧
    ∀ w, s.windowAt s.eu.offset = some w → s.windowStart w + x.distance = s.eu.offset

/-- FRAME_RECEIVED, by a receiver that works, of a frame that fails a check of form and place: discarded and
counted, nothing else changed (R84, R88). The five checks ask for a start symbol within the first 16 bit periods of a
window, the CRC, at most 8 records of kinds 1 to 5, a sender of the group that is another station, and a window of
the sender (R84). Of a frame with a foreign signature: in LOCKED and MUTE its window has seen a presence and the
sender has a foreign presence (PresenceTables), with its measures notified (R99), and nothing else changes; in
ALIGNING nothing is applied; no discard is counted (R85, R92, R94, R95). Of a serially smaller epoch, or of a horizon
that regresses, also with a greater epoch, which is then not adopted (R23; the model's reading of R86, log 37): a
presence and a discard, and nothing else is used (R24, R86, R88). -/
def Obligations.UnusedFramesAreNotApplied : Prop :=
  (∀ (s : State) (bits : List Bool) (straps : BitVec 4) (x : Reception),
      s.endingReception bits = some x → s.deaf = false → s.formOk x (readFrame bits) = false →
      Gives (.frameReceived bits straps) s { s with link := { s.link with
        receiver := none, discards := satAdd s.link.discards 1 } }) ∧
  (∀ (s : State) (bits : List Bool) (straps : BitVec 4) (x : Reception),
      s.endingReception bits = some x → s.deaf = false → s.formOk x (readFrame bits) = true →
      (readFrame bits).signature ≠ s.loader.signature →
      (s.hasTime = false → Gives (.frameReceived bits straps) s { s with link := { s.link with receiver := none } }) ∧
      (∀ p : Fin 16, s.hasTime = true → p.val = (readFrame bits).sender →
        Gives (.frameReceived bits straps) s (foreignPresence p { s with link := { s.link with
          receiver := none
          windowPresence := if x.cut then s.link.windowPresence else true } }))) ∧
  (∀ (s : State) (bits : List Bool) (straps : BitVec 4) (x : Reception) (p : Fin 16),
      s.endingReception bits = some x → s.hasTime = true → s.deaf = false →
      s.formOk x (readFrame bits) = true →
      (readFrame bits).signature = s.loader.signature → p.val = (readFrame bits).sender →
      compareEpoch s.eu.epoch (readFrame bits).epoch = .lt ∨
        ((s.peer p).st = .present ∧
          ∃ h, (s.peer p).horizon = some h ∧ compareTime h (readFrame bits).horizon = .lt) →
      Gives (.frameReceived bits straps) s
        { s.setPeer p (s.peer p).presence with
          link := { s.link with
            receiver := none
            windowPresence := if x.cut then s.link.windowPresence else true
            discards := satAdd s.link.discards 1 } }) ∧
  (∀ (s : State) (x : Reception) (f : ReadFrame), s.formOk x f = true ↔
      (f.startOk = true ∧ x.distance < 16 * s.bitPeriod) ∧ f.crcOk = true ∧
      (f.count ≤ 8 ∧ ∀ r ∈ f.records, r ≠ .unknown) ∧
      (f.sender < s.params.stations.toNat ∧ f.sender ≠ s.loader.number.val) ∧
      ∃ w, x.window = some w ∧ w % s.params.stations.toNat = f.sender)

/-- FRAME_RECEIVED of a frame that a LOCKED or MUTE station accepts at its own epoch: its sender has a presence,
its records are dispatched in order (a STAMP to the Stamp Store; a DIRECTIVE for this station, for ALL or of an
invalid target to the directive list; any other record is not used), and then the sender's horizon and
discontinuity epoch are the frame's; after a RESTART among the directives nothing more is taken (R69, R85 to
R87, R93, R97, R176). Without records nothing else changes. No measure judges between the records (the model's
choice, log 47). -/
def Obligations.AcceptedFrameIsDispatched : Prop :=
  (∀ (s u : State) (bits : List Bool) (straps : BitVec 4) (x : Reception) (p : Fin 16),
    s.endingReception bits = some x → s.hasTime = true → s.deaf = false →
    s.formOk x (readFrame bits) = true →
    (readFrame bits).signature = s.loader.signature → (readFrame bits).epoch = s.eu.epoch →
    p.val = (readFrame bits).sender → horizonOk (s.peer p) (readFrame bits).horizon = true →
    u = { s.setPeer p (s.peer p).presence with
      link := { s.link with
        receiver := none
        windowPresence := if x.cut then s.link.windowPresence else true } } →
    Gives (.frameReceived bits straps) s (writeHorizon p (readFrame bits)
      ((readFrame bits).records.foldl (dispatchRecord p straps) u)) ∧
    ((readFrame bits).records = [] → Gives (.frameReceived bits straps) s
      (u.setPeer p ⟨.present, some (readFrame bits).horizon, some (readFrame bits).disc, 0⟩))) ∧
  (∀ (u : State) (p : Fin 16) (straps : BitVec 4), u.hasTime = true →
    (∀ c q drops x, dispatchRecord p straps u (.stamp c q drops x) = offerRemote p c q drops x u) ∧
    (∀ d, d.target.toNat = u.loader.number.val ∨ 16 ≤ d.target.toNat →
      dispatchRecord p straps u (.directive d) = arriveDirective straps d u) ∧
    (∀ d, d.target.toNat ≠ u.loader.number.val → d.target.toNat < 16 →
      dispatchRecord p straps u (.directive d) = u) ∧
    dispatchRecord p straps u .ignored = u ∧
    (∀ f, writeHorizon p f u
      = u.setPeer p { u.peer p with horizon := some f.horizon, disc := some f.disc })) ∧
  (∀ (u : State) (p : Fin 16) (straps : BitVec 4) (r : ReadRecord) (f : ReadFrame), u.hasTime = false →
    dispatchRecord p straps u r = u ∧ writeHorizon p f u = u)

/-- FRAME_RECEIVED of a serially greater epoch that passes the other checks, in LOCKED and MUTE: it is adopted, the
offset is kept, the horizon hold begins, every waiting directive is dropped and counted, and an edge of this tick is
taken on the new scale (R23, R33, R177; log 26), while what its trigger has placed stays (the model's choice, log 43);
in ALIGNING the frame supplies the epoch at the offset as counted (modulo E, log 15), with origin JOINED, no horizon
hold and the auto-arm of the first boundary to come (R8, R16, R109), STATUS is due by that epoch (R195), and the pin
edges of that tick that came first are captured after it, as TimeoutsLock has them (R34, log 42). Either way the frame's
records are then dispatched in order, and its horizon and discontinuity epoch written (R23, R87, R93, R97). -/
def Obligations.FrameIsAdoptedOrJoined : Prop :=
  ∀ (s : State) (bits : List Bool) (straps : BitVec 4) (x : Reception) (p : Fin 16),
    s.endingReception bits = some x → s.deaf = false → s.formOk x (readFrame bits) = true →
    (readFrame bits).signature = s.loader.signature →
    p.val = (readFrame bits).sender → horizonOk (s.peer p) (readFrame bits).horizon = true →
    (s.hasTime = true → compareEpoch s.eu.epoch (readFrame bits).epoch = .gt →
      ∃ v, Gives (.frameReceived bits straps) s (writeHorizon p (readFrame bits)
          ((readFrame bits).records.foldl (dispatchRecord p straps) v)) ∧
        v.eu = { s.eu with
          epoch := (readFrame bits).epoch
          disc := (readFrame bits).epoch
          hold := some ⟨match s.eu.hold with | some h => h.value | none => s.eu.prevHorizon,
            s.eu.elapsed⟩ } ∧
        v.directives = [] ∧ v.directiveDrops = satAdd s.directiveDrops s.directives.length ∧
        v.peer p = (s.peer p).presence ∧ (∀ q, q ≠ p → v.peer q = s.peer q) ∧
        v.link.receiver = none ∧ v.link.windowPresence = (if x.cut then s.link.windowPresence else true) ∧
        v.link.statusDue = ((readFrame bits).epoch.toNat % s.params.statusInterval.toNat == 0) ∧
        (∀ c, (s.chan c).edgeOf s.eu.elapsed = none → v.chan c = s.chan c) ∧
        (∀ c r, (s.chan c).edgeOf s.eu.elapsed = some r →
          v.chan c = (v.edgeAt ((s.chan c).withoutEdge r) r.polarity r.time.fine).1) ∧
        v.store = s.store ∧ v.measures = s.measures ∧ v.queue = s.queue ∧
        v.triggerSide = { s.triggerSide with directiveDrops := v.directiveDrops } ∧
        ((readFrame bits).records = [] → Gives (.frameReceived bits straps) s
          (v.setPeer p ⟨.present, some (readFrame bits).horizon, some (readFrame bits).disc, 0⟩))) ∧
    (s.eu.align = some .aligning →
      ∃ v, Gives (.frameReceived bits straps) s (writeHorizon p (readFrame bits)
          ((readFrame bits).records.foldl (dispatchRecord p straps) v)) ∧
        v.eu.align = some .locked ∧ v.eu.epoch = (readFrame bits).epoch ∧
        v.eu.offset = s.eu.offset % s.epochLength ∧
        v.eu.disc = (readFrame bits).epoch ∧ v.eu.origin = .joined ∧ v.ready = true ∧
        v.eu.elapsed = 0 ∧ v.eu.hold = none ∧ v.localHorizon = subTicks v.epochLength v.localTime 8 ∧
        v.eu.autoArmed = false ∧
        v.link.statusDue = ((readFrame bits).epoch.toNat % s.params.statusInterval.toNat == 0) ∧
        v.peer p = (s.peer p).presence ∧ (∀ q, q ≠ p → v.peer q = s.peer q) ∧
        v.store = s.store ∧ v.measures = s.measures ∧ v.queue = s.queue ∧ v.directives = s.directives ∧
        v.link.receiver = none ∧ v.link.windowPresence = !x.cut ∧ v.marks = { s.marks with edges := [] } ∧
        (∃ u, EpochFrame { s with link := { s.link with receiver := none } } u ∧ u.eu = v.eu ∧ u.marks = s.marks ∧
          v.channels = (takeHeldEdges u).channels ∧ v.triggerSide = (takeHeldEdges u).triggerSide) ∧
        (s.marks.edges = [] → v.channels = s.channels ∧ v.triggerSide = s.triggerSide) ∧
        ((readFrame bits).records = [] → Gives (.frameReceived bits straps) s
          (v.setPeer p ⟨.present, some (readFrame bits).horizon, some (readFrame bits).disc, 0⟩)))

/-- A remote STAMP record: its consumer set holds measure i in a role exactly when that measure wants it so, and
never publish (R56); declined when no measure wants it; dropped when it is out of order, that is when its source's list
in the Store has a newest entry and the record is not later than it, equal times included (R58), or when the Store is
full, with STORE_FULL pending at every measure that wanted it as A or B and taken at once by one that wanted it
as G, masked or with FAULT (R56 to R58, R118); which roles wanted it is asked by station and channel (log 31).
Else it is stored, past the roles that hold its source and meet it there (R151; log 12), and the G roles that want it
judge it: what scanArrival does of an entry of either origin is said by EdgeGateFollowsStamps (R111, R113). -/
def Obligations.RemoteOfferOutcomes : Prop :=
  ∀ (s : State) (p : Fin 16) (c : Fin 4) (q : Polarity) (drops : BitVec 8) (x : TimeStamp) (e : Entry),
    e = s.offeredEntry p c q x drops false →
    (∀ i r, e.inView i r = true ↔ (s.meas i).wants r p c q) ∧
    (e.wanted = true ↔ ∃ i r, e.inView i r = true) ∧
    e.stamp = (p, c, q, x, drops) ∧ e.publish = false ∧
    (s.outOfOrder p c x = true ↔ ∃ front newest back, s.store = front ++ newest :: back ∧
      (newest.station = p ∧ newest.channel = c) ∧ (∀ y ∈ back, ¬ (y.station = p ∧ y.channel = c)) ∧
      later x newest.time = false) ∧
    (e.wanted = false → offerRemote p c q drops x s = s) ∧
    (e.wanted = true → s.outOfOrder p c x = true ∨ 128 ≤ s.store.length →
      (offerRemote p c q drops x s).store.length ≤ s.store.length ∧
      ∀ i, (e.consumers.getLsbD i.val = true → (s.meas i).roleReads .G p c = false →
          (offerRemote p c q drops x s).meas i = { s.meas i with
            pendingA := (s.meas i).pendingA || (s.meas i).roleReads .A p c
            pendingB := (s.meas i).pendingB || (s.meas i).roleReads .B p c }) ∧
        (e.consumers.getLsbD i.val = true → (s.meas i).roleReads .G p c = true →
          ((s.meas i).masks .storeFull = true →
            (offerRemote p c q drops x s).meas i = Measure.qualify (.fault .storeFull) { s.meas i with
              pendingA := (s.meas i).pendingA || (s.meas i).roleReads .A p c
              pendingB := (s.meas i).pendingB || (s.meas i).roleReads .B p c }) ∧
          ((s.meas i).masks .storeFull = false → Faults s (offerRemote p c q drops x s) i .storeFull)) ∧
        (e.consumers.getLsbD i.val = false → (offerRemote p c q drops x s).meas i = s.meas i)) ∧
    (e.wanted = true → s.outOfOrder p c x = false → s.store.length < 128 →
      offerRemote p c q drops x s
        = scanArrival e { s with store := (s.store ++ [s.passHeld e]).filter Entry.wanted }) ∧
    (e.wanted = true → s.outOfOrder p c x = false → s.store.length < 128 → e.wantG = 0 →
      offerRemote p c q drops x s
        = { s with store := (s.store ++ [s.passHeld e]).filter Entry.wanted })

/-! ### Directives -/

/-- ARM at its due time: each selected IDLE measure takes its rearm count, arming time and search time with a
cleared block and enters ARMED; a FREE or TIMED NONE gate opens at the arming time, a TIMED MARK one in the tick of a
boundary at local time; every other measure, and everything but the measures' side, is unchanged (R108, R110, R173).
At its entry into ARMED the measure takes the condition of each ABSENT or FOREIGN peer that a source of it names: not
masked, it enters FAULT with its report (of two such conditions, the one asked first, an order left open, log 7);
masked, the block carries the qualifier and the source keeps the peer's horizon as its final horizon (R101, R119,
R120). -/
def Obligations.ArmArmsIdleMeasures : Prop :=
  ∀ (s : State) (d : Directive), s.dueDirective .arm = some d →
    ∃ t, Gives .arm s t ∧ MeasureFrame { s with directives := s.directives.tail } t ∧
      (∀ i, d.mask.getLsbD i.val = false ∨ (s.meas i).st ≠ .idle → t.meas i = s.meas i) ∧
      ∀ i c, d.mask.getLsbD i.val = true → (s.meas i).st = .idle → (s.meas i).config = some c →
        ((∃ k, s.peerGives i k ∧ (s.meas i).masks k = false) →
          ∃ k, s.peerGives i k ∧ (s.meas i).masks k = false ∧ Faults s t i k) ∧
        ((∀ k, s.peerGives i k → (s.meas i).masks k = true) →
          ∃ a, Asked s i { (s.meas i).dropBlock with
              st := .armed
              rearms := if c.rearm = 255 then .unlimited else .left c.rearm.toNat
              armingTime := some d.time
              searchTime := some d.time } a ∧
            (c.gate = .edge ∨ c.gate = .directive ∨
                (c.gate = .timed ∧ c.gateAlign = .mark ∧ s.marks.boundary = false) → t.meas i = a) ∧
            (c.gate = .free ∨ (c.gate = .timed ∧ c.gateAlign = .unaligned) →
              t.meas i = s.gateOpened a d.time) ∧
            (c.gate = .timed → c.gateAlign = .mark → s.marks.boundary = true →
              t.meas i = s.gateOpened a s.localTime)) ∧
        (s.peersGive i →
          (c.gate = .edge ∨ c.gate = .directive ∨
              (c.gate = .timed ∧ c.gateAlign = .mark ∧ s.marks.boundary = false) →
            t.meas i = { (s.meas i).dropBlock with
              st := .armed
              rearms := if c.rearm = 255 then .unlimited else .left c.rearm.toNat
              armingTime := some d.time
              searchTime := some d.time }) ∧
          (c.gate = .free ∨ (c.gate = .timed ∧ c.gateAlign = .unaligned) →
            (t.meas i).st = .opened ∧ (t.meas i).openTime = some d.time ∧
            (t.meas i).armingTime = some d.time ∧ (t.meas i).closeTime = none))

/-- DISARM and CLEAR_FAULT at their due time: DISARM makes every selected measure but a DISABLED or unloaded one
IDLE, CLEAR_FAULT every selected measure in FAULT, with block, held group and held report discarded, and only
ARM arms it again (R121); a measure that was IDLE already keeps its auto-arm (the model's choice, log 40). Other
measures and the groups in the queue stay (R106, R121). -/
def Obligations.DisarmAndClearFaultMakeIdle : Prop :=
  ∀ (s : State) (d : Directive),
    (s.dueDirective .disarm = some d →
      ∃ t, Gives .disarm s t ∧ MeasureFrame { s with directives := s.directives.tail } t ∧
        t.queue = s.queue ∧
        ∀ i, t.meas i = if d.mask.getLsbD i.val ∧ (s.meas i).st ≠ .disabled ∧ (s.meas i).st ≠ .unloaded
          then { (s.meas i).dropBlock with
            st := .idle, noAutoArm := (s.meas i).noAutoArm || (s.meas i).st != .idle } else s.meas i) ∧
    (s.dueDirective .clearFault = some d →
      ∃ t, Gives .clearFault s t ∧ MeasureFrame { s with directives := s.directives.tail } t ∧
        t.queue = s.queue ∧
        ∀ i, t.meas i = if d.mask.getLsbD i.val ∧ (s.meas i).st = .fault
          then { (s.meas i).dropBlock with st := .idle, noAutoArm := true } else s.meas i)

/-- GATE_OPEN and GATE_CLOSE at their due time: a selected ARMED measure with a DIRECTIVE gate opens at the
effective time; a selected OPEN one that is not TOTALIZE enters CLOSING with the effective time as close time
(TotalizeGateCloses says the rest); measures not selected, in another state or with another gate ignore it
(R112). A TOTALIZE measure takes its open snapshot as its gate opens (R149). -/
def Obligations.DirectiveGatesOpenAndClose : Prop :=
  ∀ (s : State) (d : Directive),
    (s.dueDirective .gateOpen = some d →
      ∃ t, Gives .gateOpen s t ∧ MeasureFrame { s with directives := s.directives.tail } t ∧
        t.queue = s.queue ∧ t.store = s.store ∧
        ∀ i, (d.mask.getLsbD i.val = true → (s.meas i).st = .armed →
            (s.meas i).config.map (·.gate) = some .directive →
            t.meas i = s.gateOpened (s.meas i) d.time) ∧
          (d.mask.getLsbD i.val = false ∨ (s.meas i).st ≠ .armed ∨
            (s.meas i).config.map (·.gate) ≠ some .directive → t.meas i = s.meas i)) ∧
    (s.dueDirective .gateClose = some d →
      ∃ t, Gives .gateClose s t ∧ MeasureFrame { s with directives := s.directives.tail } t ∧
        ∀ i, (∀ c, d.mask.getLsbD i.val = true → (s.meas i).st = .opened → (s.meas i).config = some c →
            c.gate = .directive → c.kind ≠ .totalize →
            t.meas i = { s.meas i with st := .closing, closeTime := some d.time }) ∧
          (d.mask.getLsbD i.val = false ∨ (s.meas i).st ≠ .opened ∨
            (s.meas i).config.map (·.gate) ≠ some .directive → t.meas i = s.meas i))

/-- A late GATE_OPEN or GATE_CLOSE is applied on arrival with local time as its time of effect: a selected
measure with a DIRECTIVE gate that it finds ARMED, or OPEN, takes LATE_GATE, so unmasked it enters FAULT, and
masked its gate opens or closes now with the qualifier; other measures ignore it. A late FLUSH takes effect now
and is no fault (R112, R114, R172, R174). A TOTALIZE measure whose gate closes so, with its open snapshot taken, takes
its close snapshot at once and reports the difference, or enters FAULT over an unmasked discontinuity; else it enters
CLOSING and asks for it (R36, R149, R150). -/
def Obligations.LateDirectivesTakeEffectNow : Prop :=
  ∀ (s t : State) (d : Directive) (straps : BitVec 4), s.validDirective d = true → s.directives.length < 8 →
    d.immediate = false → later d.time s.localTime = false → t = arriveDirective straps d s →
    (codeOf d.code = some .gateOpen → MeasureFrame s t ∧ ∀ i,
      (d.mask.getLsbD i.val = true → (s.meas i).st = .armed →
        (s.meas i).config.map (·.gate) = some .directive →
        ((s.meas i).masks .lateGate = true →
          t.meas i = s.gateOpened ((s.meas i).qualify (.fault .lateGate)) s.localTime) ∧
        ((s.meas i).masks .lateGate = false → Faults s t i .lateGate)) ∧
      (d.mask.getLsbD i.val = false ∨ (s.meas i).st ≠ .armed ∨
        (s.meas i).config.map (·.gate) ≠ some .directive → t.meas i = s.meas i)) ∧
    (codeOf d.code = some .gateClose → MeasureFrame s t ∧ ∀ i,
      (d.mask.getLsbD i.val = true → (s.meas i).st = .opened →
        (s.meas i).config.map (·.gate) = some .directive →
        ((s.meas i).masks .lateGate = true → (s.meas i).kind ≠ .totalize →
          t.meas i = { (s.meas i).qualify (.fault .lateGate) with
            st := .closing, closeTime := some s.localTime }) ∧
        (∀ c, (s.meas i).masks .lateGate = true → s.hasTime = true → (s.meas i).config = some c →
          c.kind = .totalize →
          ClosesTotalize s t i c s.localTime (setQual (.fault .lateGate) (s.meas i).block.quals)) ∧
        ((s.meas i).masks .lateGate = false → Faults s t i .lateGate)) ∧
      (d.mask.getLsbD i.val = false ∨ (s.meas i).st ≠ .opened ∨
        (s.meas i).config.map (·.gate) ≠ some .directive → t.meas i = s.meas i)) ∧
    (codeOf d.code = some .flush → MeasureFrame s t ∧ ∀ i,
      (d.mask.getLsbD i.val = false ∨ ((s.meas i).st ≠ .opened ∧ (s.meas i).st ≠ .closing) ∨
        ((s.meas i).kind = .interval ∧ (s.meas i).block.n = 0) ∨
        ((s.meas i).kind ≠ .interval ∧ (s.meas i).st ≠ .opened) → t.meas i = s.meas i) ∧
      (d.mask.getLsbD i.val = true → (s.meas i).st = .opened → (s.meas i).kind = .reciprocal →
        t.meas i = { (s.meas i).qualify .partialBlock with
          st := .closing, closeTime := some s.localTime }) ∧
      (∀ c, d.mask.getLsbD i.val = true → (s.meas i).st = .opened → s.hasTime = true →
        (s.meas i).config = some c → c.kind = .totalize →
        ClosesTotalize s t i c s.localTime (setQual .partialBlock (s.meas i).block.quals)) ∧
      (d.mask.getLsbD i.val = true → (s.meas i).st = .opened ∨ (s.meas i).st = .closing →
        (s.meas i).kind = .interval → (s.meas i).block.n ≠ 0 →
        ∃ g, Reports s t i g ∧ g.measure = i ∧ g.sampleCount = (s.meas i).block.n ∧
          g.values = (s.meas i).block.intervalValues ∧ hasQual .partialBlock g.quals = true))

/-- FLUSH at its due time: an INTERVAL measure with n at least 1 finishes its block with PARTIAL, into the queue
or held; an OPEN RECIPROCAL measure enters CLOSING with PARTIAL (TotalizeGateCloses says what a TOTALIZE measure
does); a measure not selected or in any other case is unchanged (R114, R155). -/
def Obligations.FlushFinishesOrCloses : Prop :=
  ∀ (s : State) (d : Directive), s.dueDirective .flush = some d →
    ∃ t, Gives .flush s t ∧ MeasureFrame { s with directives := s.directives.tail } t ∧
      ∀ i, (d.mask.getLsbD i.val = false ∨ ((s.meas i).st ≠ .opened ∧ (s.meas i).st ≠ .closing) ∨
            ((s.meas i).kind = .interval ∧ (s.meas i).block.n = 0) ∨
            ((s.meas i).kind ≠ .interval ∧ (s.meas i).st ≠ .opened) → t.meas i = s.meas i) ∧
        (d.mask.getLsbD i.val = true → (s.meas i).st = .opened → (s.meas i).kind = .reciprocal →
          t.meas i = { s.meas i with
            st := .closing, closeTime := some d.time
            block := { (s.meas i).block with quals := setQual .partialBlock (s.meas i).block.quals } }) ∧
        (d.mask.getLsbD i.val = true → (s.meas i).st = .opened ∨ (s.meas i).st = .closing →
          (s.meas i).kind = .interval → (s.meas i).block.n ≠ 0 →
          ∃ g, Reports s t i g ∧ g.measure = i ∧
            g.sampleCount = (s.meas i).block.n ∧ g.values = (s.meas i).block.intervalValues ∧
            hasQual .partialBlock g.quals = true)

/-- A directive is valid exactly when its target is 0-16, its code one of the seven, its reserved bits 0 and its
effective offset less than E (R168, R169). Of the directives that arrive at the list an invalid one and one that finds 8
waiting are counted as dropped; an immediate or late one is applied at once with local time as its time of effect; any
other waits behind all that are not later (R169 to R172, R178). -/
def Obligations.DirectiveArrivalClasses : Prop :=
  ∀ (s : State) (d : Directive) (straps : BitVec 4),
    (s.validDirective d = true ↔ d.target.toNat ≤ 16 ∧ (1 ≤ d.code.toNat ∧ d.code.toNat ≤ 7) ∧ d.reserved = 0 ∧
      d.offset.toNat < 2 ^ s.params.exponent.toNat) ∧
    ((codeOf d.code = some .arm ↔ d.code.toNat = 1) ∧ (codeOf d.code = some .disarm ↔ d.code.toNat = 2) ∧
      (codeOf d.code = some .gateOpen ↔ d.code.toNat = 3) ∧ (codeOf d.code = some .gateClose ↔ d.code.toNat = 4) ∧
      (codeOf d.code = some .flush ↔ d.code.toNat = 5) ∧ (codeOf d.code = some .clearFault ↔ d.code.toNat = 6) ∧
      (codeOf d.code = some .restart ↔ d.code.toNat = 7)) ∧
    (s.validDirective d = false ∨ 8 ≤ s.directives.length →
      arriveDirective straps d s = { s with directiveDrops := satAdd s.directiveDrops 1 }) ∧
    (∀ c, s.validDirective d = true → s.directives.length < 8 → codeOf d.code = some c →
      (d.immediate = true →
        arriveDirective straps d s = applyDirective c d.mask s.localTime false straps s) ∧
      (d.immediate = false → later d.time s.localTime = false →
        arriveDirective straps d s = applyDirective c d.mask s.localTime true straps s) ∧
      (d.immediate = false → later d.time s.localTime = true →
        ∃ front back, s.directives = front ++ back ∧
          arriveDirective straps d s = { s with directives := front ++ d :: back } ∧
          (∀ x ∈ front, earlier d.time x.time = false) ∧
          (∀ x rest, back = x :: rest → earlier d.time x.time = true)))

/-! ### Trigger sequences -/

/-- A trigger: a RUNNING sequence counts an overrun and goes on; an IDLE one runs its steps up to the first
pause or the end; each step places its directive for the local epoch plus its lead into the outbox, or counts it
as dropped when the outbox holds 6 or the station is MUTE. A boundary is counted by a pause, and at the pause's
end the sequence runs on (R82, R178, R181 to R183). A formed stamp and an enqueue trigger the sequences whose
source they are (R165, R180). -/
def Obligations.TriggerRunsOrOverruns : Prop :=
  ∀ (s : State) (i : Fin 4),
    TriggerFrame s (fireSequence i s) ∧ TriggerFrame s (boundarySequence i s) ∧
    (∀ rest pause counted, (s.sequences.get i).st = .running rest pause counted →
      (fireSequence i s).triggerSide
        = { s.triggerSide with triggerOverruns := satAdd s.triggerOverruns 1 } ∧
      (counted + 1 < pause → (boundarySequence i s).triggerSide = { s.triggerSide with
        sequences := s.sequences.set i { s.sequences.get i with st := .running rest pause (counted + 1) } }) ∧
      (pause ≤ counted + 1 → Runs i rest s (boundarySequence i s))) ∧
    (∀ c, (s.sequences.get i).st = .idle → (s.sequences.get i).config = some c →
      Runs i c.steps s (fireSequence i s)) ∧
    ((s.sequences.get i).st.isRunning = false → (boundarySequence i s).triggerSide = s.triggerSide) ∧
    (∀ x : TriggerStep, stepDirective s x
      = ⟨x.target, x.code, false, x.mask, s.localTime.epoch + x.lead.setWidth 16, 0, 0⟩) ∧
    (∀ c p, (fireStamp c p s).sequences.get i = if (s.sequences.get i).onStamp c p then
      (fireSequence i s).sequences.get i else s.sequences.get i) ∧
    (∀ m, (fireEnqueue m s).sequences.get i = if (s.sequences.get i).onMeasure m then
      (fireSequence i s).sequences.get i else s.sequences.get i)

/-! ### A Test Source event undone -/

/-- A slip skips the tick's old offset, so a Test Source event taken at it did not happen: whatever commands come
between the event and the slip, the slip leaves what it leaves without the event (R47; log 39). The commands between
are all but a second event and a second mark, and the station keeps local time. -/
def Obligations.SlipUndoesTestEvent : Prop :=
  ∀ (s t : State) (l : List Instr), exec .testSourceEvent s = .next t → s.testEventDue = true →
    (∀ c ∈ l, c ≠ .testSourceEvent ∧ c ≠ .markLeadingEdge) → (∀ k, (s.after (l.take k)).hasTime = true) →
    (t.after l).slips = true → (s.after l).slips = true →
    exec .markLeadingEdge (t.after l) = exec .markLeadingEdge (s.after l)

/-! ### The invariant -/

/-- The station right after reset has the invariant. -/
def Obligations.ResetHasInvariant : Prop := Sys2Proof.Machine.Inv State.reset

/-- Every step keeps the invariant: the Store, the Result Queue, the Pending Directive List and the Directive
Outbox within their capacities, every Store entry wanted, no measure that is not ARMED, OPEN or CLOSING in a consumer
set, publish and a frame in flight only in LOCKED, a waiting measure only on a full queue, and nothing held without
local time (R52, R61, R62, R66, R72, R77, R79, R82, R89, R127, R160, R162, R166, R170, R184). -/
def Obligations.StepKeepsInvariant : Prop :=
  ∀ s t : State, Sys2Proof.Machine.Inv s → step s = .next t → Sys2Proof.Machine.Inv t
end

