-- ==== Sys2Proof/Laws/State.lean ====
section
/-! SUPPORT. Each named update leaves each other field as it was, and what a write of a table reads back. -/

namespace Sys2Proof.Machine.State

variable (s : State)

@[simp] theorem setMeas_pending (i : Fin 8) (m : Measure) : (s.setMeas i m).pending = s.pending := rfl
@[simp] theorem setMeas_resetHeld (i : Fin 8) (m : Measure) : (s.setMeas i m).resetHeld = s.resetHeld := rfl
@[simp] theorem setMeas_strapPins (i : Fin 8) (m : Measure) : (s.setMeas i m).strapPins = s.strapPins := rfl
@[simp] theorem setMeas_loader (i : Fin 8) (m : Measure) : (s.setMeas i m).loader = s.loader := rfl
@[simp] theorem setMeas_params (i : Fin 8) (m : Measure) : (s.setMeas i m).params = s.params := rfl
@[simp] theorem setMeas_eu (i : Fin 8) (m : Measure) : (s.setMeas i m).eu = s.eu := rfl
@[simp] theorem setMeas_channels (i : Fin 8) (m : Measure) : (s.setMeas i m).channels = s.channels := rfl
@[simp] theorem setMeas_store (i : Fin 8) (m : Measure) : (s.setMeas i m).store = s.store := rfl
@[simp] theorem setMeas_link (i : Fin 8) (m : Measure) : (s.setMeas i m).link = s.link := rfl
@[simp] theorem setMeas_peers (i : Fin 8) (m : Measure) : (s.setMeas i m).peers = s.peers := rfl
@[simp] theorem setMeas_queue (i : Fin 8) (m : Measure) : (s.setMeas i m).queue = s.queue := rfl
@[simp] theorem setMeas_directives (i : Fin 8) (m : Measure) : (s.setMeas i m).directives = s.directives := rfl
@[simp] theorem setMeas_directiveDrops (i : Fin 8) (m : Measure) : (s.setMeas i m).directiveDrops = s.directiveDrops := rfl
@[simp] theorem setMeas_sequences (i : Fin 8) (m : Measure) : (s.setMeas i m).sequences = s.sequences := rfl
@[simp] theorem setMeas_triggerOverruns (i : Fin 8) (m : Measure) : (s.setMeas i m).triggerOverruns = s.triggerOverruns := rfl
@[simp] theorem setMeas_marks (i : Fin 8) (m : Measure) : (s.setMeas i m).marks = s.marks := rfl
@[simp] theorem setMeas_untested (i : Fin 8) (m : Measure) : (s.setMeas i m).untested = s.untested := rfl
@[simp] theorem setMeas_order (i : Fin 8) (m : Measure) : (s.setMeas i m).order = s.order := rfl

@[simp] theorem modMeas_pending (i : Fin 8) (f : Measure → Measure) : (s.modMeas i f).pending = s.pending := rfl
@[simp] theorem modMeas_resetHeld (i : Fin 8) (f : Measure → Measure) : (s.modMeas i f).resetHeld = s.resetHeld := rfl
@[simp] theorem modMeas_strapPins (i : Fin 8) (f : Measure → Measure) : (s.modMeas i f).strapPins = s.strapPins := rfl
@[simp] theorem modMeas_loader (i : Fin 8) (f : Measure → Measure) : (s.modMeas i f).loader = s.loader := rfl
@[simp] theorem modMeas_params (i : Fin 8) (f : Measure → Measure) : (s.modMeas i f).params = s.params := rfl
@[simp] theorem modMeas_eu (i : Fin 8) (f : Measure → Measure) : (s.modMeas i f).eu = s.eu := rfl
@[simp] theorem modMeas_channels (i : Fin 8) (f : Measure → Measure) : (s.modMeas i f).channels = s.channels := rfl
@[simp] theorem modMeas_store (i : Fin 8) (f : Measure → Measure) : (s.modMeas i f).store = s.store := rfl
@[simp] theorem modMeas_link (i : Fin 8) (f : Measure → Measure) : (s.modMeas i f).link = s.link := rfl
@[simp] theorem modMeas_peers (i : Fin 8) (f : Measure → Measure) : (s.modMeas i f).peers = s.peers := rfl
@[simp] theorem modMeas_queue (i : Fin 8) (f : Measure → Measure) : (s.modMeas i f).queue = s.queue := rfl
@[simp] theorem modMeas_directives (i : Fin 8) (f : Measure → Measure) : (s.modMeas i f).directives = s.directives := rfl
@[simp] theorem modMeas_directiveDrops (i : Fin 8) (f : Measure → Measure) : (s.modMeas i f).directiveDrops = s.directiveDrops := rfl
@[simp] theorem modMeas_sequences (i : Fin 8) (f : Measure → Measure) : (s.modMeas i f).sequences = s.sequences := rfl
@[simp] theorem modMeas_triggerOverruns (i : Fin 8) (f : Measure → Measure) : (s.modMeas i f).triggerOverruns = s.triggerOverruns := rfl
@[simp] theorem modMeas_marks (i : Fin 8) (f : Measure → Measure) : (s.modMeas i f).marks = s.marks := rfl
@[simp] theorem modMeas_untested (i : Fin 8) (f : Measure → Measure) : (s.modMeas i f).untested = s.untested := rfl
@[simp] theorem modMeas_order (i : Fin 8) (f : Measure → Measure) : (s.modMeas i f).order = s.order := rfl

@[simp] theorem setChan_pending (c : Fin 4) (x : Channel) : (s.setChan c x).pending = s.pending := rfl
@[simp] theorem setChan_resetHeld (c : Fin 4) (x : Channel) : (s.setChan c x).resetHeld = s.resetHeld := rfl
@[simp] theorem setChan_strapPins (c : Fin 4) (x : Channel) : (s.setChan c x).strapPins = s.strapPins := rfl
@[simp] theorem setChan_loader (c : Fin 4) (x : Channel) : (s.setChan c x).loader = s.loader := rfl
@[simp] theorem setChan_params (c : Fin 4) (x : Channel) : (s.setChan c x).params = s.params := rfl
@[simp] theorem setChan_eu (c : Fin 4) (x : Channel) : (s.setChan c x).eu = s.eu := rfl
@[simp] theorem setChan_store (c : Fin 4) (x : Channel) : (s.setChan c x).store = s.store := rfl
@[simp] theorem setChan_link (c : Fin 4) (x : Channel) : (s.setChan c x).link = s.link := rfl
@[simp] theorem setChan_peers (c : Fin 4) (x : Channel) : (s.setChan c x).peers = s.peers := rfl
@[simp] theorem setChan_measures (c : Fin 4) (x : Channel) : (s.setChan c x).measures = s.measures := rfl
@[simp] theorem setChan_queue (c : Fin 4) (x : Channel) : (s.setChan c x).queue = s.queue := rfl
@[simp] theorem setChan_directives (c : Fin 4) (x : Channel) : (s.setChan c x).directives = s.directives := rfl
@[simp] theorem setChan_directiveDrops (c : Fin 4) (x : Channel) : (s.setChan c x).directiveDrops = s.directiveDrops := rfl
@[simp] theorem setChan_sequences (c : Fin 4) (x : Channel) : (s.setChan c x).sequences = s.sequences := rfl
@[simp] theorem setChan_triggerOverruns (c : Fin 4) (x : Channel) : (s.setChan c x).triggerOverruns = s.triggerOverruns := rfl
@[simp] theorem setChan_marks (c : Fin 4) (x : Channel) : (s.setChan c x).marks = s.marks := rfl
@[simp] theorem setChan_untested (c : Fin 4) (x : Channel) : (s.setChan c x).untested = s.untested := rfl
@[simp] theorem setChan_order (c : Fin 4) (x : Channel) : (s.setChan c x).order = s.order := rfl

@[simp] theorem modChan_pending (c : Fin 4) (f : Channel → Channel) : (s.modChan c f).pending = s.pending := rfl
@[simp] theorem modChan_resetHeld (c : Fin 4) (f : Channel → Channel) : (s.modChan c f).resetHeld = s.resetHeld := rfl
@[simp] theorem modChan_strapPins (c : Fin 4) (f : Channel → Channel) : (s.modChan c f).strapPins = s.strapPins := rfl
@[simp] theorem modChan_loader (c : Fin 4) (f : Channel → Channel) : (s.modChan c f).loader = s.loader := rfl
@[simp] theorem modChan_params (c : Fin 4) (f : Channel → Channel) : (s.modChan c f).params = s.params := rfl
@[simp] theorem modChan_eu (c : Fin 4) (f : Channel → Channel) : (s.modChan c f).eu = s.eu := rfl
@[simp] theorem modChan_store (c : Fin 4) (f : Channel → Channel) : (s.modChan c f).store = s.store := rfl
@[simp] theorem modChan_link (c : Fin 4) (f : Channel → Channel) : (s.modChan c f).link = s.link := rfl
@[simp] theorem modChan_peers (c : Fin 4) (f : Channel → Channel) : (s.modChan c f).peers = s.peers := rfl
@[simp] theorem modChan_measures (c : Fin 4) (f : Channel → Channel) : (s.modChan c f).measures = s.measures := rfl
@[simp] theorem modChan_queue (c : Fin 4) (f : Channel → Channel) : (s.modChan c f).queue = s.queue := rfl
@[simp] theorem modChan_directives (c : Fin 4) (f : Channel → Channel) : (s.modChan c f).directives = s.directives := rfl
@[simp] theorem modChan_directiveDrops (c : Fin 4) (f : Channel → Channel) : (s.modChan c f).directiveDrops = s.directiveDrops := rfl
@[simp] theorem modChan_sequences (c : Fin 4) (f : Channel → Channel) : (s.modChan c f).sequences = s.sequences := rfl
@[simp] theorem modChan_triggerOverruns (c : Fin 4) (f : Channel → Channel) : (s.modChan c f).triggerOverruns = s.triggerOverruns := rfl
@[simp] theorem modChan_marks (c : Fin 4) (f : Channel → Channel) : (s.modChan c f).marks = s.marks := rfl
@[simp] theorem modChan_untested (c : Fin 4) (f : Channel → Channel) : (s.modChan c f).untested = s.untested := rfl
@[simp] theorem modChan_order (c : Fin 4) (f : Channel → Channel) : (s.modChan c f).order = s.order := rfl

@[simp] theorem setPeer_pending (p : Fin 16) (x : Peer) : (s.setPeer p x).pending = s.pending := rfl
@[simp] theorem setPeer_resetHeld (p : Fin 16) (x : Peer) : (s.setPeer p x).resetHeld = s.resetHeld := rfl
@[simp] theorem setPeer_strapPins (p : Fin 16) (x : Peer) : (s.setPeer p x).strapPins = s.strapPins := rfl
@[simp] theorem setPeer_loader (p : Fin 16) (x : Peer) : (s.setPeer p x).loader = s.loader := rfl
@[simp] theorem setPeer_params (p : Fin 16) (x : Peer) : (s.setPeer p x).params = s.params := rfl
@[simp] theorem setPeer_eu (p : Fin 16) (x : Peer) : (s.setPeer p x).eu = s.eu := rfl
@[simp] theorem setPeer_channels (p : Fin 16) (x : Peer) : (s.setPeer p x).channels = s.channels := rfl
@[simp] theorem setPeer_store (p : Fin 16) (x : Peer) : (s.setPeer p x).store = s.store := rfl
@[simp] theorem setPeer_link (p : Fin 16) (x : Peer) : (s.setPeer p x).link = s.link := rfl
@[simp] theorem setPeer_measures (p : Fin 16) (x : Peer) : (s.setPeer p x).measures = s.measures := rfl
@[simp] theorem setPeer_queue (p : Fin 16) (x : Peer) : (s.setPeer p x).queue = s.queue := rfl
@[simp] theorem setPeer_directives (p : Fin 16) (x : Peer) : (s.setPeer p x).directives = s.directives := rfl
@[simp] theorem setPeer_directiveDrops (p : Fin 16) (x : Peer) : (s.setPeer p x).directiveDrops = s.directiveDrops := rfl
@[simp] theorem setPeer_sequences (p : Fin 16) (x : Peer) : (s.setPeer p x).sequences = s.sequences := rfl
@[simp] theorem setPeer_triggerOverruns (p : Fin 16) (x : Peer) : (s.setPeer p x).triggerOverruns = s.triggerOverruns := rfl
@[simp] theorem setPeer_marks (p : Fin 16) (x : Peer) : (s.setPeer p x).marks = s.marks := rfl
@[simp] theorem setPeer_untested (p : Fin 16) (x : Peer) : (s.setPeer p x).untested = s.untested := rfl
@[simp] theorem setPeer_order (p : Fin 16) (x : Peer) : (s.setPeer p x).order = s.order := rfl


@[simp] theorem setStore_pending (l : List Entry) : (s.setStore l).pending = s.pending := rfl
@[simp] theorem setStore_resetHeld (l : List Entry) : (s.setStore l).resetHeld = s.resetHeld := rfl
@[simp] theorem setStore_strapPins (l : List Entry) : (s.setStore l).strapPins = s.strapPins := rfl
@[simp] theorem setStore_loader (l : List Entry) : (s.setStore l).loader = s.loader := rfl
@[simp] theorem setStore_params (l : List Entry) : (s.setStore l).params = s.params := rfl
@[simp] theorem setStore_eu (l : List Entry) : (s.setStore l).eu = s.eu := rfl
@[simp] theorem setStore_channels (l : List Entry) : (s.setStore l).channels = s.channels := rfl
@[simp] theorem setStore_link (l : List Entry) : (s.setStore l).link = s.link := rfl
@[simp] theorem setStore_peers (l : List Entry) : (s.setStore l).peers = s.peers := rfl
@[simp] theorem setStore_measures (l : List Entry) : (s.setStore l).measures = s.measures := rfl
@[simp] theorem setStore_queue (l : List Entry) : (s.setStore l).queue = s.queue := rfl
@[simp] theorem setStore_directives (l : List Entry) : (s.setStore l).directives = s.directives := rfl
@[simp] theorem setStore_directiveDrops (l : List Entry) : (s.setStore l).directiveDrops = s.directiveDrops := rfl
@[simp] theorem setStore_sequences (l : List Entry) : (s.setStore l).sequences = s.sequences := rfl
@[simp] theorem setStore_triggerOverruns (l : List Entry) : (s.setStore l).triggerOverruns = s.triggerOverruns := rfl
@[simp] theorem setStore_marks (l : List Entry) : (s.setStore l).marks = s.marks := rfl
@[simp] theorem setStore_untested (l : List Entry) : (s.setStore l).untested = s.untested := rfl
@[simp] theorem setStore_order (l : List Entry) : (s.setStore l).order = s.order := rfl


@[simp] theorem popDirective_pending : (s.popDirective).pending = s.pending := rfl
@[simp] theorem popDirective_resetHeld : (s.popDirective).resetHeld = s.resetHeld := rfl
@[simp] theorem popDirective_strapPins : (s.popDirective).strapPins = s.strapPins := rfl
@[simp] theorem popDirective_loader : (s.popDirective).loader = s.loader := rfl
@[simp] theorem popDirective_params : (s.popDirective).params = s.params := rfl
@[simp] theorem popDirective_eu : (s.popDirective).eu = s.eu := rfl
@[simp] theorem popDirective_channels : (s.popDirective).channels = s.channels := rfl
@[simp] theorem popDirective_store : (s.popDirective).store = s.store := rfl
@[simp] theorem popDirective_link : (s.popDirective).link = s.link := rfl
@[simp] theorem popDirective_peers : (s.popDirective).peers = s.peers := rfl
@[simp] theorem popDirective_measures : (s.popDirective).measures = s.measures := rfl
@[simp] theorem popDirective_queue : (s.popDirective).queue = s.queue := rfl
@[simp] theorem popDirective_directiveDrops : (s.popDirective).directiveDrops = s.directiveDrops := rfl
@[simp] theorem popDirective_sequences : (s.popDirective).sequences = s.sequences := rfl
@[simp] theorem popDirective_triggerOverruns : (s.popDirective).triggerOverruns = s.triggerOverruns := rfl
@[simp] theorem popDirective_marks : (s.popDirective).marks = s.marks := rfl
@[simp] theorem popDirective_untested : (s.popDirective).untested = s.untested := rfl
@[simp] theorem popDirective_order : (s.popDirective).order = s.order := rfl

@[simp] theorem countDiscard_pending : (s.countDiscard).pending = s.pending := rfl
@[simp] theorem countDiscard_resetHeld : (s.countDiscard).resetHeld = s.resetHeld := rfl
@[simp] theorem countDiscard_strapPins : (s.countDiscard).strapPins = s.strapPins := rfl
@[simp] theorem countDiscard_loader : (s.countDiscard).loader = s.loader := rfl
@[simp] theorem countDiscard_params : (s.countDiscard).params = s.params := rfl
@[simp] theorem countDiscard_eu : (s.countDiscard).eu = s.eu := rfl
@[simp] theorem countDiscard_channels : (s.countDiscard).channels = s.channels := rfl
@[simp] theorem countDiscard_store : (s.countDiscard).store = s.store := rfl
@[simp] theorem countDiscard_peers : (s.countDiscard).peers = s.peers := rfl
@[simp] theorem countDiscard_measures : (s.countDiscard).measures = s.measures := rfl
@[simp] theorem countDiscard_queue : (s.countDiscard).queue = s.queue := rfl
@[simp] theorem countDiscard_directives : (s.countDiscard).directives = s.directives := rfl
@[simp] theorem countDiscard_directiveDrops : (s.countDiscard).directiveDrops = s.directiveDrops := rfl
@[simp] theorem countDiscard_sequences : (s.countDiscard).sequences = s.sequences := rfl
@[simp] theorem countDiscard_triggerOverruns : (s.countDiscard).triggerOverruns = s.triggerOverruns := rfl
@[simp] theorem countDiscard_marks : (s.countDiscard).marks = s.marks := rfl
@[simp] theorem countDiscard_untested : (s.countDiscard).untested = s.untested := rfl
@[simp] theorem countDiscard_order : (s.countDiscard).order = s.order := rfl

@[simp] theorem setMeas_measures (i : Fin 8) (m : Measure) :
    (s.setMeas i m).measures = s.measures.set i m := rfl
@[simp] theorem setChan_channels (c : Fin 4) (x : Channel) :
    (s.setChan c x).channels = s.channels.set c x := rfl
@[simp] theorem setPeer_peers (p : Fin 16) (x : Peer) : (s.setPeer p x).peers = s.peers.set p x := rfl
@[simp] theorem setStore_store (l : List Entry) : (s.setStore l).store = l.filter Entry.wanted := rfl
@[simp] theorem popDirective_directives : s.popDirective.directives = s.directives.tail := rfl

@[simp] theorem meas_setMeas (i j : Fin 8) (m : Measure) :
    (s.setMeas i m).meas j = if j = i then m else s.meas j := Table.get_set _ _ _ _
@[simp] theorem meas_modMeas (i j : Fin 8) (f : Measure → Measure) :
    (s.modMeas i f).meas j = if j = i then f (s.meas i) else s.meas j := Table.get_set _ _ _ _
@[simp] theorem chan_setChan (c d : Fin 4) (x : Channel) :
    (s.setChan c x).chan d = if d = c then x else s.chan d := Table.get_set _ _ _ _
@[simp] theorem chan_modChan (c d : Fin 4) (f : Channel → Channel) :
    (s.modChan c f).chan d = if d = c then f (s.chan c) else s.chan d := Table.get_set _ _ _ _
@[simp] theorem peer_setPeer (p q : Fin 16) (x : Peer) :
    (s.setPeer p x).peer q = if q = p then x else s.peer q := Table.get_set _ _ _ _

/-! A write of what a trigger moves, and a tick's edges taken again. -/

@[simp] theorem setTriggers_pending (x : TriggerSide) : (s.setTriggers x).pending = s.pending := rfl
@[simp] theorem setTriggers_resetHeld (x : TriggerSide) : (s.setTriggers x).resetHeld = s.resetHeld := rfl
@[simp] theorem setTriggers_strapPins (x : TriggerSide) : (s.setTriggers x).strapPins = s.strapPins := rfl
@[simp] theorem setTriggers_loader (x : TriggerSide) : (s.setTriggers x).loader = s.loader := rfl
@[simp] theorem setTriggers_params (x : TriggerSide) : (s.setTriggers x).params = s.params := rfl
@[simp] theorem setTriggers_eu (x : TriggerSide) : (s.setTriggers x).eu = s.eu := rfl
@[simp] theorem setTriggers_channels (x : TriggerSide) : (s.setTriggers x).channels = s.channels := rfl
@[simp] theorem setTriggers_store (x : TriggerSide) : (s.setTriggers x).store = s.store := rfl
@[simp] theorem setTriggers_peers (x : TriggerSide) : (s.setTriggers x).peers = s.peers := rfl
@[simp] theorem setTriggers_measures (x : TriggerSide) : (s.setTriggers x).measures = s.measures := rfl
@[simp] theorem setTriggers_queue (x : TriggerSide) : (s.setTriggers x).queue = s.queue := rfl
@[simp] theorem setTriggers_directives (x : TriggerSide) : (s.setTriggers x).directives = s.directives := rfl
@[simp] theorem setTriggers_marks (x : TriggerSide) : (s.setTriggers x).marks = s.marks := rfl
@[simp] theorem setTriggers_order (x : TriggerSide) : (s.setTriggers x).order = s.order := rfl
@[simp] theorem setTriggers_untested (x : TriggerSide) : (s.setTriggers x).untested = s.untested := rfl
@[simp] theorem setTriggers_triggerSide (x : TriggerSide) : (s.setTriggers x).triggerSide = x := rfl
@[simp] theorem modTriggers_pending (f : TriggerSide → TriggerSide) : (s.modTriggers f).pending = s.pending := rfl
@[simp] theorem modTriggers_resetHeld (f : TriggerSide → TriggerSide) : (s.modTriggers f).resetHeld = s.resetHeld := rfl
@[simp] theorem modTriggers_strapPins (f : TriggerSide → TriggerSide) : (s.modTriggers f).strapPins = s.strapPins := rfl
@[simp] theorem modTriggers_loader (f : TriggerSide → TriggerSide) : (s.modTriggers f).loader = s.loader := rfl
@[simp] theorem modTriggers_params (f : TriggerSide → TriggerSide) : (s.modTriggers f).params = s.params := rfl
@[simp] theorem modTriggers_eu (f : TriggerSide → TriggerSide) : (s.modTriggers f).eu = s.eu := rfl
@[simp] theorem modTriggers_channels (f : TriggerSide → TriggerSide) : (s.modTriggers f).channels = s.channels := rfl
@[simp] theorem modTriggers_store (f : TriggerSide → TriggerSide) : (s.modTriggers f).store = s.store := rfl
@[simp] theorem modTriggers_peers (f : TriggerSide → TriggerSide) : (s.modTriggers f).peers = s.peers := rfl
@[simp] theorem modTriggers_measures (f : TriggerSide → TriggerSide) : (s.modTriggers f).measures = s.measures := rfl
@[simp] theorem modTriggers_queue (f : TriggerSide → TriggerSide) : (s.modTriggers f).queue = s.queue := rfl
@[simp] theorem modTriggers_directives (f : TriggerSide → TriggerSide) : (s.modTriggers f).directives = s.directives := rfl
@[simp] theorem modTriggers_marks (f : TriggerSide → TriggerSide) : (s.modTriggers f).marks = s.marks := rfl
@[simp] theorem modTriggers_order (f : TriggerSide → TriggerSide) : (s.modTriggers f).order = s.order := rfl
@[simp] theorem modTriggers_untested (f : TriggerSide → TriggerSide) :
    (s.modTriggers f).untested = s.untested := rfl
@[simp] theorem modTriggers_triggerSide (f : TriggerSide → TriggerSide) :
    (s.modTriggers f).triggerSide = f s.triggerSide := rfl
@[simp] theorem retakeEdges_pending (f : Channel → Channel) : (retakeEdges f s).pending = s.pending := rfl
@[simp] theorem retakeEdges_resetHeld (f : Channel → Channel) : (retakeEdges f s).resetHeld = s.resetHeld := rfl
@[simp] theorem retakeEdges_strapPins (f : Channel → Channel) : (retakeEdges f s).strapPins = s.strapPins := rfl
@[simp] theorem retakeEdges_loader (f : Channel → Channel) : (retakeEdges f s).loader = s.loader := rfl
@[simp] theorem retakeEdges_params (f : Channel → Channel) : (retakeEdges f s).params = s.params := rfl
@[simp] theorem retakeEdges_eu (f : Channel → Channel) : (retakeEdges f s).eu = s.eu := rfl
@[simp] theorem retakeEdges_store (f : Channel → Channel) : (retakeEdges f s).store = s.store := rfl
@[simp] theorem retakeEdges_link (f : Channel → Channel) : (retakeEdges f s).link = s.link := rfl
@[simp] theorem retakeEdges_peers (f : Channel → Channel) : (retakeEdges f s).peers = s.peers := rfl
@[simp] theorem retakeEdges_measures (f : Channel → Channel) : (retakeEdges f s).measures = s.measures := rfl
@[simp] theorem retakeEdges_queue (f : Channel → Channel) : (retakeEdges f s).queue = s.queue := rfl
@[simp] theorem retakeEdges_directives (f : Channel → Channel) : (retakeEdges f s).directives = s.directives := rfl
@[simp] theorem retakeEdges_directiveDrops (f : Channel → Channel) : (retakeEdges f s).directiveDrops = s.directiveDrops := rfl
@[simp] theorem retakeEdges_sequences (f : Channel → Channel) : (retakeEdges f s).sequences = s.sequences := rfl
@[simp] theorem retakeEdges_triggerOverruns (f : Channel → Channel) : (retakeEdges f s).triggerOverruns = s.triggerOverruns := rfl
@[simp] theorem retakeEdges_marks (f : Channel → Channel) : (retakeEdges f s).marks = s.marks := rfl
@[simp] theorem retakeEdges_untested (f : Channel → Channel) : (retakeEdges f s).untested = s.untested := rfl
@[simp] theorem retakeEdges_order (f : Channel → Channel) : (retakeEdges f s).order = s.order := rfl

/-! The station by itself, and an effect on it and on the station without this tick's Test Source event. -/

@[simp] theorem alone_toStation (w : Station) : (s.alone w).toStation = w := rfl
@[simp] theorem alone_pending (w : Station) : (s.alone w).pending = s.pending := rfl
@[simp] theorem alone_order (w : Station) : (s.alone w).order = s.order := rfl
@[simp] theorem alone_untested (w : Station) : (s.alone w).untested = none := rfl
@[simp] theorem inBoth_toStation (f : State → State) : (s.inBoth f).toStation = (f s).toStation := rfl
@[simp] theorem inBoth_pending (f : State → State) : (s.inBoth f).pending = (f s).pending := rfl
@[simp] theorem inBoth_order (f : State → State) : (s.inBoth f).order = (f s).order := rfl
@[simp] theorem inBoth_untested (f : State → State) :
    (s.inBoth f).untested = s.untested.bind fun w => (f (s.alone w)).kept := rfl

theorem withoutTestEvent_none (h : s.untested = none) : s.withoutTestEvent = s := by
  simp [State.withoutTestEvent, h]

theorem withoutTestEvent_some {w : Station} (h : s.untested = some w) : s.withoutTestEvent = s.alone w := by
  simp [State.withoutTestEvent, h]

@[simp] theorem withoutTestEvent_pending : s.withoutTestEvent.pending = s.pending := by
  cases h : s.untested <;> simp [State.withoutTestEvent, h]

@[simp] theorem withoutTestEvent_order : s.withoutTestEvent.order = s.order := by
  cases h : s.untested <;> simp [State.withoutTestEvent, h]

@[simp] theorem withoutTestEvent_untested : s.withoutTestEvent.untested = none := by
  cases h : s.untested <;> simp [State.withoutTestEvent, h]

/-! Two writes of one place, and a write of what stands there. -/

theorem setMeas_setMeas (i : Fin 8) (a b : Measure) : (s.setMeas i a).setMeas i b = s.setMeas i b := by
  simp [State.setMeas, Table.set_set]

theorem setChan_setChan (c : Fin 4) (a b : Channel) : (s.setChan c a).setChan c b = s.setChan c b := by
  simp [State.setChan, Table.set_set]

theorem setPeer_setPeer (p : Fin 16) (a b : Peer) : (s.setPeer p a).setPeer p b = s.setPeer p b := by
  simp [State.setPeer, Table.set_set]

theorem setMeas_self (i : Fin 8) : s.setMeas i (s.meas i) = s := by
  simp [State.setMeas, State.meas]

theorem setChan_self (c : Fin 4) : s.setChan c (s.chan c) = s := by
  simp [State.setChan, State.chan]

theorem setPeer_self (p : Fin 16) : s.setPeer p (s.peer p) = s := by
  simp [State.setPeer, State.peer]

theorem modMeas_eq_self (i : Fin 8) (f : Measure → Measure) (h : f (s.meas i) = s.meas i) :
    s.modMeas i f = s := by
  unfold State.modMeas; rw [h, setMeas_self]

end Sys2Proof.Machine.State
end

