-- ==== Sys2Proof/Laws/Bits.lean ====
section
/-! SUPPORT. Bit fields read back as they were written; saturating counts; masks. -/

namespace Sys2Proof.Machine

@[simp] theorem natBits_length (w n : Nat) : (natBits w n).length = w := by
  induction w with
  | zero => rfl
  | succ w ih => simp [natBits, ih]

theorem takeNat_natBits (w n : Nat) (l : List Bool) : takeNat w (natBits w n ++ l) = (n % 2 ^ w, l) := by
  induction w generalizing l with
  | zero => simp [takeNat, natBits, Nat.mod_one]
  | succ w ih =>
    simp only [takeNat, natBits, List.cons_append, List.headD_cons, List.tail_cons, ih]
    rw [Nat.testBit_eq_decide_div_mod_eq, Nat.pow_succ, Nat.mod_mul]
    congr 1
    have : n / 2 ^ w % 2 = 0 ∨ n / 2 ^ w % 2 = 1 := by omega
    rcases this with h | h <;> simp [h]
    omega

theorem takeNat_natBits_of_lt {w n : Nat} (h : n < 2 ^ w) (l : List Bool) :
    takeNat w (natBits w n ++ l) = (n, l) := by
  rw [takeNat_natBits, Nat.mod_eq_of_lt h]

@[simp] theorem fieldBits_length {w : Nat} (x : BitVec w) : (fieldBits x).length = w := natBits_length _ _

theorem takeField_fieldBits {w : Nat} (x : BitVec w) (l : List Bool) :
    takeField w (fieldBits x ++ l) = (x, l) := by
  simp [takeField, fieldBits, takeNat_natBits_of_lt x.isLt]

theorem takeNat_one (b : Bool) (l : List Bool) : takeNat 1 (b :: l) = (b.toNat, l) := by
  simp [takeNat]

theorem padBits_append (l r : List Bool) : padBits l.length (l ++ r) = l := by
  induction l with
  | nil => rfl
  | cons b l ih => simp [padBits, ih]

theorem padBits_of_length {n : Nat} {l : List Bool} (h : l.length = n) : padBits n l = l := by
  subst h
  simpa using padBits_append l []

theorem satAdd_toNat {w : Nat} (x : BitVec w) (n : Nat) :
    (satAdd x n).toNat = min (x.toNat + n) (2 ^ w - 1) := by
  have : 0 < 2 ^ w := Nat.two_pow_pos w
  simp only [satAdd, BitVec.toNat_ofNat]
  exact Nat.mod_eq_of_lt (by omega)

/-! ### Masks -/

theorem withBit_getLsbD {w : Nat} (m : BitVec w) (i j : Nat) :
    (withBit m i).getLsbD j = (m.getLsbD j || (decide (j < w) && decide (i = j))) := by
  by_cases h : i = j
  · subst h; simp [withBit, BitVec.getLsbD_or, BitVec.getLsbD_twoPow]
  · simp [withBit, BitVec.getLsbD_or, BitVec.getLsbD_twoPow, h]

theorem withoutBit_getLsbD {w : Nat} (m : BitVec w) (i j : Nat) :
    (withoutBit m i).getLsbD j = (m.getLsbD j && !decide (i = j)) := by
  by_cases h : j < w
  · by_cases e : i = j
    · subst e; simp [withoutBit, h]
    · simp only [withoutBit, BitVec.getLsbD_and, BitVec.getLsbD_not, BitVec.getLsbD_twoPow, h, e]
      simp
  · rw [BitVec.getLsbD_of_ge _ j (by omega), BitVec.getLsbD_of_ge m j (by omega)]; simp

/-- Bit i of a mask says whether member i has the property (R198). -/
theorem maskOf_getLsbD {n : Nat} (f : Fin n → Bool) (i : Fin n) : (maskOf n f).getLsbD i.val = f i := by
  have key : ∀ (l : List (Fin n)) (m : BitVec n),
      (l.foldl (fun m i => if f i then withBit m i.val else m) m).getLsbD i.val
        = (m.getLsbD i.val || (decide (i ∈ l) && f i)) := by
    intro l
    induction l with
    | nil => simp
    | cons a l ih =>
      intro m
      rw [List.foldl_cons, ih]
      by_cases e : i = a
      · subst e
        by_cases h : f i = true
        · rw [if_pos h, withBit_getLsbD]; simp [h]
        · rw [if_neg h]; simp only [Bool.not_eq_true] at h; simp [h]
      · have e' : ¬ a.val = i.val := fun h => e (Fin.ext h.symm)
        by_cases h : f a = true
        · rw [if_pos h, withBit_getLsbD]; simp [e, e']
        · rw [if_neg h]; simp [e]
  rw [maskOf, key]
  simp

/-! ### Records and frames -/

theorem timeBits_length (t : TimeStamp) : (timeBits t).length = 48 := by simp [timeBits]

theorem takeTime_timeBits (t : TimeStamp) (l : List Bool) : takeTime (timeBits t ++ l) = (t, l) := by
  simp [takeTime, timeBits, takeField_fieldBits, List.append_assoc]

theorem recordBits_length (r : Record) : (recordBits r).length = 64 := by
  cases r <;> simp [recordBits, timeBits_length]

theorem flatten_records_length (l : List Record) :
    ((l.map recordBits).flatten).length = 64 * l.length := by
  induction l with
  | nil => rfl
  | cons r l ih =>
    rw [List.map_cons, List.flatten_cons, List.length_append, recordBits_length, ih, List.length_cons]
    omega

theorem headerBits_length (f : Frame) : (headerBits f).length = 112 := by
  simp [headerBits, timeBits_length]

theorem frameBody_length (f : Frame) : (frameBody f).length = 112 + 64 * f.records.length := by
  rw [frameBody, List.length_append, headerBits_length, flatten_records_length]

/-- A frame of r records is 128 + 64 x r bits long (R70). -/
theorem frameBits_length (f : Frame) : (frameBits f).length = 128 + 64 * f.records.length := by
  simp only [frameBits, List.length_append, frameBody_length, fieldBits_length]
  simp [startSymbol]; omega

/-- A record as sent reads back by its kind, whatever follows it (R198, R199). -/
theorem readRecord_recordBits (r : Record) (l : List Bool) :
    readRecord (recordBits r ++ l) = r.asRead := by
  cases r
  case stamp c p d t =>
    simp only [readRecord, recordBits, List.append_assoc, takeNat_natBits]
    simp only [readStamp, takeNat_natBits, List.cons_append, List.nil_append, takeNat_one,
      takeField_fieldBits, takeTime_timeBits]
    have := c.isLt
    cases p <;> simp [Record.asRead, finOfNat, polarityBit, polarityOfBit] <;> (apply Fin.ext; simp)
  case directive d =>
    simp only [readRecord, recordBits, List.append_assoc, takeNat_natBits]
    simp only [readDirective, List.cons_append, List.nil_append, takeNat_one, takeField_fieldBits]
    simp [Record.asRead]
  all_goals simp [readRecord, recordBits, takeNat_natBits, Record.asRead]

theorem readRecords_flatten (rs : List Record) (l : List Bool) :
    readRecords rs.length ((rs.map recordBits).flatten ++ l) = rs.map Record.asRead := by
  induction rs with
  | nil => rfl
  | cons r rs ih =>
    simp only [List.length_cons, List.map_cons, List.flatten_cons, readRecords, List.append_assoc,
      readRecord_recordBits]
    rw [List.drop_append_of_le_length (by simp [recordBits_length]),
      List.drop_of_length_le (by simp [recordBits_length]), List.nil_append, ih]

end Sys2Proof.Machine
end

