-- ==== Sys2Proof/Laws/Views.lean ====
section
/-! SUPPORT. Views of the roles under the Store's operations (R63 to R65). -/

namespace Sys2Proof.Machine

variable {s : State} {i : Fin 8}

theorem wanted_of_inView {e : Entry} {r : Role} (h : e.inView i r = true) : e.wanted = true := by
  have h0 : e.consumers.getLsbD i.val = true := by
    simp only [Entry.consumers, BitVec.getLsbD_or, Bool.or_eq_true]
    cases r
    · exact .inl (.inl h)
    · exact .inl (.inr h)
    · exact .inr h
  have hne : (e.consumers != 0) = true := by
    rw [bne_iff_ne]
    intro hz
    rw [hz] at h0
    simp at h0
  simp only [Entry.wanted, hne, Bool.or_true]

/-- What stands in a view after the Store was rewritten entry by entry. -/
theorem view_mapStore (f : Entry → Entry) (r : Role) :
    (s.setStore (s.store.map f)).view i r = (s.store.map f).filter fun e => e.inView i r := by
  unfold State.view State.setStore
  simp only [List.filter_filter]
  apply List.filter_congr
  intro e _
  cases h : e.inView i r
  · rfl
  · simp [wanted_of_inView h]

theorem drop_inView (e : Entry) (i j : Fin 8) (r q : Role) :
    (e.drop i r).inView j q = (e.inView j q && !(decide (r = q) && decide (i = j))) := by
  have hij : decide (i.val = j.val) = decide (i = j) := decide_eq_decide.mpr
    ⟨Fin.ext, fun h => congrArg Fin.val h⟩
  cases r <;> cases q <;> unfold Entry.inView <;>
    first
    | (show (withoutBit _ _).getLsbD _ = _; rw [withoutBit_getLsbD, hij]; rfl)
    | (simp only [Entry.drop, Entry.want, reduceCtorEq, decide_false, Bool.false_and, Bool.not_false,
        Bool.and_true])

theorem drop_same (e f : Entry) (i : Fin 8) (r : Role) : (e.drop i r).same f = e.same f := by
  cases r <;> rfl

/-- The role that passes an entry no longer has it in its view; its other entries stay (R64). -/
theorem view_passEntry (e : Entry) (r : Role) :
    (s.passEntry i r e).view i r = (s.view i r).filter fun f => !f.same e := by
  unfold State.passEntry
  rw [view_mapStore]
  unfold State.view
  induction s.store with
  | nil => rfl
  | cons f l ih =>
    rw [List.map_cons, List.filter_cons, List.filter_cons, ih]
    cases hs : f.same e
    · cases hw : f.inView i r
      · simp [hw]
      · simp [hw, hs]
    · rw [if_pos rfl, drop_inView]
      cases hw : f.inView i r
      · simp
      · simp [hs]

/-- A measure that leaves every consumer set has empty views (R62). -/
theorem view_releaseMeasure (r : Role) : (s.releaseMeasure i).view i r = [] := by
  unfold State.releaseMeasure
  rw [view_mapStore, List.filter_eq_nil_iff]
  intro e he
  obtain ⟨x, -, rfl⟩ := List.mem_map.mp he
  simp only [Entry.leave, drop_inView]
  cases r <;> simp

/-- A measure in no consumer set is one with empty views (R62, R63). -/
theorem noConsumer_iff : (∀ e ∈ s.store, e.consumers.getLsbD i.val = false) ↔ ∀ r, s.view i r = [] := by
  constructor
  · intro h r
    rw [State.view, List.filter_eq_nil_iff]
    intro e he hin
    have h := h e he
    simp only [Entry.consumers, BitVec.getLsbD_or, Bool.or_eq_false_iff] at h
    cases r
    · exact Bool.false_ne_true (h.1.1.symm.trans hin)
    · exact Bool.false_ne_true (h.1.2.symm.trans hin)
    · exact Bool.false_ne_true (h.2.symm.trans hin)
  · intro h e he
    have key (r : Role) : (e.want r).getLsbD i.val = false := by
      have h := List.filter_eq_nil_iff.mp (h r) e he
      exact Bool.eq_false_iff.mpr h
    simp only [Entry.consumers, BitVec.getLsbD_or, Bool.or_eq_false_iff]
    exact ⟨⟨key .A, key .B⟩, key .G⟩

/-! ### What one measure sees of an entry -/

/-- All that measure j can tell of an entry: the stamp, the views of j it stands in, and the marks of j. -/
structure Seen where
  station : Fin 16
  channel : Fin 4
  polarity : Polarity
  time : TimeStamp
  drops : BitVec 8
  inView : Role → Bool
  held : Role → Bool
  examined : Bool

/-- What measure j sees of an entry. -/
def Entry.seenBy (j : Fin 8) (e : Entry) : Seen where
  station := e.station
  channel := e.channel
  polarity := e.polarity
  time := e.time
  drops := e.drops
  inView := e.inView j
  held := e.heldFor j
  examined := e.examined.getLsbD j.val

/-- What measure j sees of the Store in a view of its own. -/
def State.seen (s : State) (j : Fin 8) (r : Role) : List Seen := (s.view j r).map (Entry.seenBy j)

theorem val_ne {i j : Fin 8} (h : j ≠ i) : decide (i.val = j.val) = false := by
  rw [decide_eq_false_iff_not]
  exact fun e => h (Fin.ext e.symm)

theorem seenBy_drop {i j : Fin 8} (h : j ≠ i) (e : Entry) (r : Role) :
    (e.drop i r).seenBy j = e.seenBy j := by
  have hv : (e.drop i r).inView j = e.inView j := by
    funext q
    rw [drop_inView]
    simp [Ne.symm h]
  unfold Entry.seenBy
  rw [hv]
  cases r <;> rfl

theorem seenBy_leave {i j : Fin 8} (h : j ≠ i) (e : Entry) : (e.leave i).seenBy j = e.seenBy j := by
  unfold Entry.leave
  rw [seenBy_drop h, seenBy_drop h, seenBy_drop h]

theorem seenBy_unhold {i j : Fin 8} (h : j ≠ i) (e : Entry) : (e.unhold i).seenBy j = e.seenBy j := by
  have hv : (e.unhold i).heldFor j = e.heldFor j := by
    funext q
    cases q <;> exact (withoutBit_getLsbD _ _ _).trans (by simp only [val_ne h, Bool.not_false, Bool.and_true]; rfl)
  unfold Entry.seenBy
  rw [hv]
  rfl

theorem seenBy_examined {i j : Fin 8} (h : j ≠ i) (e : Entry) :
    ({ e with examined := withBit e.examined i.val } : Entry).seenBy j = e.seenBy j := by
  have hv : (withBit e.examined i.val).getLsbD j.val = e.examined.getLsbD j.val := by
    rw [withBit_getLsbD, val_ne h]
    simp
  simp only [Entry.seenBy, hv]
  rfl

/-- A rewriting that changes nothing measure j can tell leaves its views as they look to it. -/
theorem seen_mapStore {j : Fin 8} (f : Entry → Entry) (h : ∀ e, (f e).seenBy j = e.seenBy j) (r : Role) :
    (s.setStore (s.store.map f)).seen j r = s.seen j r := by
  unfold State.seen
  rw [view_mapStore]
  unfold State.view
  induction s.store with
  | nil => rfl
  | cons e l ih =>
    have hv : (f e).inView j r = e.inView j r := congrFun (congrArg Seen.inView (h e)) r
    rw [List.map_cons, List.filter_cons, List.filter_cons, hv]
    split
    · rw [List.map_cons, List.map_cons, ih, h]
    · exact ih

end Sys2Proof.Machine
end

