-- ==== Sys2Proof/Laws/Acts.lean ====
section
/-! SUPPORT. What the operations of triggers, the Store and the measures can do, said once as a relation
that composes. -/

namespace Sys2Proof.Machine

/-- From `s` to `t` only measures in `P` changed, and the others see their views, and what they examined, as
before; the Store lost entries or members of consumer sets only, so no view grew; the queue and the outbox grew at
the end only and within their places; a measure that left the active states left every consumer set; and, if `w`,
a measure that newly waits waits on a full queue. -/
structure Acts (w : Bool) (P : Fin 8 → Prop) (s t : State) : Prop where
  frame : MeasureFrame s t
  others : ∀ j, ¬ P j → t.meas j = s.meas j
  store_len : t.store.length ≤ s.store.length
  wanted : (∀ e ∈ s.store, e.wanted = true) → ∀ e ∈ t.store, e.wanted = true
  publish : (∀ e ∈ s.store, e.publish = false) → ∀ e ∈ t.store, e.publish = false
  view_len : ∀ i r, (t.view i r).length ≤ (s.view i r).length
  seen : ∀ j, ¬ P j → ∀ r, t.seen j r = s.seen j r
  examined : ∀ j, ¬ P j → ∀ e, s.hasExamined j e = false → t.hasExamined j e = false
  queue : s.queue <+: t.queue
  queue_le : t.queue.length ≤ max s.queue.length Config.queueCapacity
  outbox : s.link.outbox <+: t.link.outbox
  outbox_le : t.link.outbox.length ≤ max s.link.outbox.length Config.outboxCapacity
  released : ∀ i, s.released i → t.released i
  waits : w = true → ∀ i, (t.meas i).waits = true → (s.meas i).waits = true ∨ t.queueRoom = false

/-- An empty view stays empty. -/
theorem Acts.views {w : Bool} {P : Fin 8 → Prop} {s t : State} (h : Acts w P s t) (i : Fin 8) (r : Role)
    (hv : s.view i r = []) : t.view i r = [] := by
  have := h.view_len i r
  rw [hv] at this
  exact List.eq_nil_of_length_eq_zero (Nat.le_zero.mp this)

theorem MeasureFrame.rfl' (s : State) : MeasureFrame s s := by constructor <;> rfl

theorem MeasureFrame.trans {s t u : State} (h : MeasureFrame s t) (k : MeasureFrame t u) :
    MeasureFrame s u := by
  obtain ⟨a1, a2, a3, a4, a5, a6, a7, a8, a9, a10, a11, a12, a13⟩ := h
  obtain ⟨b1, b2, b3, b4, b5, b6, b7, b8, b9, b10, b11, b12, b13⟩ := k
  exact ⟨b1.trans a1, b2.trans a2, b3.trans a3, b4.trans a4, b5.trans a5, b6.trans a6, b7.trans a7,
    Eq.trans (congrArg (fun l : Link => { l with outbox := s.link.outbox }) b8) a8,
    b9.trans a9, b10.trans a10, b11.trans a11, b12.trans a12, b13.trans a13⟩

variable {w : Bool} {P Q : Fin 8 → Prop} {s t u : State}

theorem Acts.refl (s : State) : Acts w P s s where
  frame := .rfl' s
  others := fun _ _ => rfl
  store_len := le_rfl
  wanted := id
  publish := id
  view_len := fun _ _ => le_rfl
  seen := fun _ _ _ => rfl
  examined := fun _ _ _ h => h
  queue := List.prefix_rfl
  queue_le := le_max_left _ _
  outbox := List.prefix_rfl
  outbox_le := le_max_left _ _
  released := fun _ => id
  waits := fun _ _ h => .inl h

theorem queueRoom_false_iff (s : State) :
    s.queueRoom = false ↔ Config.queueCapacity ≤ s.queue.length := by
  simp [State.queueRoom]

theorem Acts.room (h : Acts w P s t) (hs : s.queueRoom = false) : t.queueRoom = false := by
  rw [queueRoom_false_iff] at *
  exact hs.trans h.queue.length_le

theorem Acts.trans (h : Acts w P s t) (k : Acts w P t u) : Acts w P s u where
  frame := h.frame.trans k.frame
  others := fun j hj => (k.others j hj).trans (h.others j hj)
  store_len := k.store_len.trans h.store_len
  wanted := fun x => k.wanted (h.wanted x)
  publish := fun x => k.publish (h.publish x)
  view_len := fun i r => (k.view_len i r).trans (h.view_len i r)
  seen := fun j hj r => (k.seen j hj r).trans (h.seen j hj r)
  examined := fun j hj e x => k.examined j hj e (h.examined j hj e x)
  queue := h.queue.trans k.queue
  queue_le := by have := h.queue_le; have := k.queue_le; omega
  outbox := h.outbox.trans k.outbox
  outbox_le := by have := h.outbox_le; have := k.outbox_le; omega
  released := fun i x => k.released i (h.released i x)
  waits := fun hw i hi => by
    rcases k.waits hw i hi with h1 | h1
    · rcases h.waits hw i h1 with h2 | h2
      · exact .inl h2
      · exact .inr (k.room h2)
    · exact .inr h1

theorem Acts.mono (h : Acts true P s t) (hPQ : ∀ j, P j → Q j) : Acts w Q s t :=
  { h with
    others := fun j hj => h.others j fun hp => hj (hPQ j hp)
    seen := fun j hj => h.seen j fun hp => hj (hPQ j hp)
    examined := fun j hj => h.examined j fun hp => hj (hPQ j hp)
    waits := fun _ => h.waits rfl }

theorem Acts.weaken (h : Acts w P s t) (hPQ : ∀ j, P j → Q j) : Acts w Q s t :=
  { h with
    others := fun j hj => h.others j fun hp => hj (hPQ j hp)
    seen := fun j hj => h.seen j fun hp => hj (hPQ j hp)
    examined := fun j hj => h.examined j fun hp => hj (hPQ j hp) }

theorem Acts.forEach {α : Type} {f : State → α → State} (l : List α)
    (h : ∀ a s, Acts w P s (f s a)) (s : State) : Acts w P s (forEach l f s) := by
  induction l generalizing s with
  | nil => exact .refl s
  | cons a l ih => exact (h a s).trans (ih (f s a))

/-- A write of one measure, which does not begin to wait and stays active. -/
theorem Acts.setMeas {i : Fin 8} (hi : P i) (m : Measure)
    (h : w = true → m.waits = true → (s.meas i).waits = true)
    (ha : (s.meas i).st.active = true → m.st.active = true) : Acts w P s (s.setMeas i m) where
  frame := by constructor <;> rfl
  others := fun j hj => by
    have : j ≠ i := fun e => hj (e ▸ hi)
    simp [this]
  store_len := le_rfl
  wanted := id
  publish := id
  view_len := fun _ _ => le_rfl
  seen := fun _ _ _ => rfl
  examined := fun _ _ _ h => h
  queue := List.prefix_rfl
  queue_le := le_max_left _ _
  outbox := List.prefix_rfl
  outbox_le := le_max_left _ _
  released := fun j hj => by
    by_cases e : j = i
    · subst e
      rcases hj with h1 | h1
      · exact .inl (by simpa using ha h1)
      · exact .inr h1
    · simpa [State.released, e] using hj
  waits := fun hw j hj => by
    by_cases e : j = i
    · subst e; simp at hj; exact .inl (h hw hj)
    · simp [e] at hj; exact .inl hj

theorem Acts.modMeas {i : Fin 8} (hi : P i) (f : Measure → Measure)
    (h : w = true → (f (s.meas i)).waits = true → (s.meas i).waits = true)
    (ha : (s.meas i).st.active = true → (f (s.meas i)).st.active = true) :
    Acts w P s (s.modMeas i f) := Acts.setMeas hi _ h ha

/-! ### The Store -/

/-- A rewriting of the entries that keeps or drops members of their consumer sets. -/
theorem Acts.mapStore (f : Entry → Entry) (h : ∀ e, e.publish = false → (f e).publish = false)
    (hv : ∀ e i r, (f e).inView i r = true → e.inView i r = true)
    (hs : ∀ j, ¬ P j → ∀ e, (f e).seenBy j = e.seenBy j) :
    Acts w P s (s.setStore (s.store.map f)) where
  frame := by constructor <;> rfl
  others := fun _ _ => rfl
  store_len := by
    simp only [State.setStore_store]
    exact (List.length_filter_le _ _).trans (by simp)
  wanted := fun _ e he => by
    simp only [State.setStore_store, List.mem_filter] at he
    exact he.2
  publish := fun hp e he => by
    simp only [State.setStore_store, List.mem_filter, List.mem_map] at he
    obtain ⟨⟨x, hx, rfl⟩, -⟩ := he
    exact h x (hp x hx)
  view_len := fun i r => by
    rw [view_mapStore, List.filter_map, List.length_map]
    exact (List.monotone_filter_right s.store fun e => hv e i r).length_le
  seen := fun j hj r => seen_mapStore f (hs j hj) r
  examined := fun j hj e he => by
    unfold State.hasExamined at he ⊢
    rw [List.any_eq_false] at he ⊢
    intro x hx
    simp only [State.setStore_store, List.mem_filter, List.mem_map] at hx
    obtain ⟨⟨y, hy, rfl⟩, -⟩ := hx
    have h := hs j hj y
    have hsame : (f y).same e = y.same e := by
      unfold Entry.same
      rw [show (f y).station = y.station from congrArg Seen.station h,
        show (f y).channel = y.channel from congrArg Seen.channel h,
        show (f y).time = y.time from congrArg Seen.time h]
    have hexam : (f y).examined.getLsbD j.val = y.examined.getLsbD j.val := congrArg Seen.examined h
    rw [hsame, hexam]
    exact he y hy
  queue := List.prefix_rfl
  queue_le := le_max_left _ _
  outbox := List.prefix_rfl
  outbox_le := le_max_left _ _
  released := fun j hj => hj.imp id fun hj => noConsumer_iff.mpr fun r => by
    have hn := noConsumer_iff.mp hj r
    rw [view_mapStore, List.filter_eq_nil_iff]
    intro e he hin
    obtain ⟨x, hx, rfl⟩ := List.mem_map.mp he
    exact List.filter_eq_nil_iff.mp hn x hx (hv x j r hin)
  waits := fun _ _ h => .inl h

theorem Entry.drop_publish (e : Entry) (i : Fin 8) (r : Role) : (e.drop i r).publish = e.publish := by
  cases r <;> rfl

theorem Entry.leave_publish (e : Entry) (i : Fin 8) : (e.leave i).publish = e.publish := rfl

/-- A measure outside P is not one in P. -/
theorem ne_of_out {i j : Fin 8} (hj : ¬ P j) (hi : P i) : j ≠ i := fun k => hj (k ▸ hi)

theorem Acts.passEntry (i : Fin 8) (r : Role) (e : Entry) (hi : P i := by rfl) :
    Acts w P s (s.passEntry i r e) :=
  .mapStore _ (fun x hx => by split <;> simp [Entry.drop_publish, hx])
    (fun x j q h => by
      split at h
      · rw [drop_inView, Bool.and_eq_true] at h; exact h.1
      · exact h)
    fun j hj x => by
      split
      · exact seenBy_drop (ne_of_out hj hi) x r
      · rfl

theorem Acts.releaseMeasure (i : Fin 8) (hi : P i := by rfl) : Acts w P s (s.releaseMeasure i) :=
  .mapStore _ (fun x hx => by simp [Entry.leave_publish, hx])
    (fun x j q h => by simp only [Entry.leave, drop_inView, Bool.and_eq_true] at h; exact h.1.1.1)
    fun j hj x => seenBy_leave (ne_of_out hj hi) x

/-- A measure written so that it leaves the active states leaves every consumer set with it (R62). -/
theorem Acts.leave {i : Fin 8} (f : Measure → Measure)
    (h : w = true → (f (s.meas i)).waits = true → (s.meas i).waits = true ∨ s.queueRoom = false)
    (hi : P i := by rfl) : Acts w P s ((s.modMeas i f).releaseMeasure i) := by
  have k : Acts w P (s.modMeas i f) ((s.modMeas i f).releaseMeasure i) := .releaseMeasure i hi
  refine { k with
    frame := by constructor <;> rfl
    others := fun j hj => by
      have : j ≠ i := ne_of_out hj hi
      simp [State.releaseMeasure, State.setStore, State.meas, State.modMeas, State.setMeas, this]
    released := fun j hj => ?_
    waits := fun hw j hj => ?_ }
  · by_cases e : j = i
    · subst e; exact .inr (noConsumer_iff.mpr fun r => view_releaseMeasure r)
    · refine k.released j ?_
      simpa [State.released, e] using hj
  · by_cases e : j = i
    · subst e
      have hj : (f (s.meas j)).waits = true := by
        simpa [State.releaseMeasure, State.setStore, State.meas, State.modMeas, State.setMeas] using hj
      exact h hw hj
    · refine .inl ?_
      simpa [State.releaseMeasure, State.setStore, State.meas, State.modMeas, State.setMeas, e] using hj

theorem Acts.unhold (i : Fin 8) (hi : P i := by rfl) : Acts w P s (s.unhold i) :=
  .mapStore _ (fun _ hx => hx) (fun _ _ q h => by cases q <;> exact h)
    fun j hj x => seenBy_unhold (ne_of_out hj hi) x

theorem Acts.markExamined (i : Fin 8) (e : Entry) (hi : P i := by rfl) : Acts w P s (s.markExamined i e) :=
  .mapStore _ (fun x hx => by split <;> simp [hx])
    (fun x j q h => by
      split at h
      · cases q <;> exact h
      · exact h)
    fun j hj x => by
      split
      · exact seenBy_examined (ne_of_out hj hi) x
      · rfl

/-! ### Triggers -/

/-- What a trigger can do to what it moves: the outbox grew at its end within its places. -/
structure TriggerSide.Grows (x y : TriggerSide) : Prop where
  outbox : x.outbox <+: y.outbox
  outbox_le : y.outbox.length ≤ max x.outbox.length Config.outboxCapacity

theorem TriggerSide.Grows.kept {x y : TriggerSide} (h : y.outbox = x.outbox) : x.Grows y :=
  ⟨by rw [h], by rw [h]; exact le_max_left _ _⟩

theorem TriggerSide.Grows.trans {x y z : TriggerSide} (h : x.Grows y) (k : y.Grows z) : x.Grows z :=
  ⟨h.outbox.trans k.outbox, by have := h.outbox_le; have := k.outbox_le; omega⟩

theorem TriggerSide.Grows.place (x : TriggerSide) (muted : Bool) (d : Directive) : x.Grows (x.place muted d) := by
  unfold TriggerSide.place
  split
  · rename_i h
    refine ⟨List.prefix_append _ _, ?_⟩
    simp only [List.length_append, List.length_cons, List.length_nil]; omega
  · exact .kept rfl

theorem TriggerSide.Grows.runSteps (i : Fin 4) (muted : Bool) (d : TriggerStep → Directive)
    (l : List TriggerStep) (x : TriggerSide) : x.Grows (runSteps i muted d l x) := by
  induction l generalizing x with
  | nil => exact .kept rfl
  | cons a l ih =>
    unfold Machine.runSteps
    have h := TriggerSide.Grows.place x muted (d a)
    split
    · exact h.trans (ih _)
    · exact ⟨h.outbox, h.outbox_le⟩

theorem TriggerSide.Grows.fire (x : TriggerSide) (i : Fin 4) (muted : Bool) (d : TriggerStep → Directive) :
    x.Grows (x.fire i muted d) := by
  unfold TriggerSide.fire
  split
  · exact .runSteps _ _ _ _ x
  · exact .kept rfl
  · exact .kept rfl

theorem TriggerSide.Grows.boundary (x : TriggerSide) (i : Fin 4) (muted : Bool)
    (d : TriggerStep → Directive) : x.Grows (x.boundary i muted d) := by
  unfold TriggerSide.boundary
  split
  · split
    · exact .runSteps _ _ _ _ x
    · exact .kept rfl
  · exact .kept rfl

/-- What a trigger can do: the trigger frame, and outboxes that grew at their end within their places. -/
structure Fires (s t : State) : Prop where
  frame : TriggerFrame s t
  outbox : s.link.outbox <+: t.link.outbox
  outbox_le : t.link.outbox.length ≤ max s.link.outbox.length Config.outboxCapacity

theorem Fires.acts (h : Fires s t) : Acts w P s t where
  frame := h.frame.toMeasureFrame
  others := fun j _ => by simp only [State.meas, h.frame.measures]
  store_len := by rw [h.frame.store]
  wanted := by rw [h.frame.store]; exact id
  publish := by rw [h.frame.store]; exact id
  view_len := fun i r => by unfold State.view; rw [h.frame.store]
  seen := fun j _ r => by unfold State.seen State.view; rw [h.frame.store]
  examined := fun j _ e he => by unfold State.hasExamined at he ⊢; rw [h.frame.store]; exact he
  queue := by rw [h.frame.queue]
  queue_le := by rw [h.frame.queue]; exact le_max_left _ _
  outbox := h.outbox
  outbox_le := h.outbox_le
  released := fun i hi => by unfold State.released at hi ⊢; rwa [h.frame.store, State.meas, h.frame.measures]
  waits := fun _ i hi => by simp only [State.meas, h.frame.measures] at hi; exact .inl hi

theorem TriggerFrame.rfl' (s : State) : TriggerFrame s s := ⟨.rfl' s, rfl, rfl, rfl⟩

theorem Fires.refl (s : State) : Fires s s := ⟨.rfl' s, List.prefix_rfl, le_max_left _ _⟩

theorem Fires.trans (h : Fires s t) (k : Fires t u) : Fires s u where
  frame := ⟨h.frame.toMeasureFrame.trans k.frame.toMeasureFrame, k.frame.store.trans h.frame.store,
    k.frame.measures.trans h.frame.measures, k.frame.queue.trans h.frame.queue⟩
  outbox := h.outbox.trans k.outbox
  outbox_le := by have := h.outbox_le; have := k.outbox_le; omega

theorem Fires.forEach {α : Type} {f : State → α → State} (l : List α) (h : ∀ a s, Fires s (f s a))
    (s : State) : Fires s (forEach l f s) := by
  induction l generalizing s with
  | nil => exact .refl s
  | cons a l ih => exact (h a s).trans (ih (f s a))

/-- A change of what a trigger moves. -/
theorem modTriggers_frame (f : TriggerSide → TriggerSide) : TriggerFrame s (s.modTriggers f) := by
  refine ⟨?_, rfl, rfl, rfl⟩
  constructor <;> rfl

theorem Fires.modTriggers {f : TriggerSide → TriggerSide} (h : ∀ x : TriggerSide, x.Grows (f x)) :
    Fires s (s.modTriggers f) where
  frame := modTriggers_frame f
  outbox := (h s.triggerSide).outbox
  outbox_le := (h s.triggerSide).outbox_le

theorem Fires.countDirectiveDrops (n : Nat) (s : State) : Fires s (s.countDirectiveDrops n) :=
  .modTriggers fun _ => .kept rfl

theorem Fires.fireSequence (i : Fin 4) (s : State) : Fires s (fireSequence i s) :=
  .modTriggers fun x => .fire x i _ _

theorem Fires.boundarySequence (i : Fin 4) (s : State) : Fires s (boundarySequence i s) :=
  .modTriggers fun x => .boundary x i _ _

theorem Fires.fireStamp (c : Fin 4) (p : Polarity) (s : State) : Fires s (fireStamp c p s) :=
  .forEach _ (fun i s => by split; exacts [.fireSequence _ _, .refl s]) s

theorem Fires.fireEnqueue (m : Fin 8) (s : State) : Fires s (fireEnqueue m s) :=
  .forEach _ (fun i s => by split; exacts [.fireSequence _ _, .refl s]) s

theorem Fires.boundarySequences (s : State) : Fires s (boundarySequences s) :=
  .forEach _ (fun _ _ => .boundarySequence _ _) s

end Sys2Proof.Machine
end

