-- ==== Sys2Proof/Laws/Order.lean ====
section
/-! SUPPORT. The free orders are permutations, so every unit is served exactly once, and what a loop over
units that act on themselves alone leaves. -/

namespace Sys2Proof.Machine

theorem arrange_perm {α : Type} (l : List α) (n : Nat) : (arrange n l).Perm l := by
  induction l generalizing n with
  | nil => simp [arrange]
  | cons x xs ih =>
    unfold arrange
    have h := ih (n / (xs.length + 1))
    refine (List.perm_insertIdx x _ ?_).trans (h.cons x)
    have : n % (xs.length + 1) < xs.length + 1 := Nat.mod_lt n (Nat.succ_pos xs.length)
    rw [h.length_eq]; omega

theorem measureOrder_perm (s : State) : s.measureOrder.Perm (List.finRange 8) := arrange_perm _ _
theorem channelOrder_perm (s : State) : s.channelOrder.Perm (List.finRange 4) := arrange_perm _ _
theorem sequenceOrder_perm (s : State) : s.sequenceOrder.Perm (List.finRange 4) := arrange_perm _ _

theorem measureOrder_nodup (s : State) : s.measureOrder.Nodup :=
  (measureOrder_perm s).nodup_iff.mpr (List.nodup_finRange 8)

theorem mem_measureOrder (s : State) (i : Fin 8) : i ∈ s.measureOrder :=
  (measureOrder_perm s).mem_iff.mpr (List.mem_finRange i)

/-- The one measure an operation acts on. -/
abbrev Only (i : Fin 8) : Fin 8 → Prop := fun j => j = i

/-- A loop over measures, each acting on itself alone and only when it is selected: it acts on the selected
measures of the list, and each of these is served once, in a state in which it still stands as before. -/
theorem forEach_served {w : Bool} {p : Fin 8 → Bool} {f : Fin 8 → State → State}
    (h : ∀ i s, Acts w (Only i) s (f i s)) (l : List (Fin 8)) (hn : l.Nodup) (s : State) :
    Acts w (fun i => i ∈ l ∧ p i = true) s (forEach l (fun s i => if p i then f i s else s) s) ∧
    ∀ i ∈ l, p i = true → ∃ t, Acts w (fun j => j ≠ i ∧ j ∈ l ∧ p j = true) s t ∧
      Acts w (fun j => j ≠ i ∧ j ∈ l ∧ p j = true) (f i t)
        (forEach l (fun s i => if p i then f i s else s) s) := by
  induction l generalizing s with
  | nil => exact ⟨.refl s, by simp⟩
  | cons a l ih =>
    rw [List.nodup_cons] at hn
    obtain ⟨h1, h2⟩ := ih hn.2 (if p a then f a s else s)
    have ha : Acts w (fun j => j = a ∧ p a = true) s (if p a then f a s else s) := by
      split
      · rename_i hp
        exact (h a s).weaken fun j hj => ⟨hj, hp⟩
      · exact .refl s
    refine ⟨(ha.weaken ?_).trans (h1.weaken ?_), ?_⟩
    · rintro j ⟨rfl, hp⟩; exact ⟨by simp, hp⟩
    · rintro j ⟨hj, hp⟩; exact ⟨by simp [hj], hp⟩
    · intro i hi hp
      rcases List.mem_cons.mp hi with e | hi
      · subst e
        refine ⟨s, .refl s, ?_⟩
        have : (if p i then f i s else s) = f i s := by simp [hp]
        rw [this] at h1
        show Acts w _ (f i s) (forEach l _ (if p i then f i s else s))
        rw [this]
        exact h1.weaken fun j hj => ⟨fun e => hn.1 (e ▸ hj.1), by simp [hj.1], hj.2⟩
      · obtain ⟨t, k1, k2⟩ := h2 i hi hp
        have hne : a ≠ i := fun e => hn.1 (e ▸ hi)
        refine ⟨t, (ha.weaken ?_).trans (k1.weaken ?_), k2.weaken ?_⟩
        · rintro j ⟨rfl, hp⟩; exact ⟨hne, by simp, hp⟩
        · rintro j ⟨x, y, z⟩; exact ⟨x, by simp [y], z⟩
        · rintro j ⟨x, y, z⟩; exact ⟨x, by simp [y], z⟩

end Sys2Proof.Machine
end

