-- ==== Sys2Proof/Laws/Measures.lean ====
section
/-! SUPPORT. What each operation on measures can do (`Acts`), and that loops over measures act on the measures
they serve. -/

namespace Sys2Proof.Machine

variable {w : Bool} {s t : State} {i : Fin 8}

/-! ### Waiting -/

@[simp] theorem Measure.waits_armed (m : Measure) (h : m.st = .armed) : m.waits = false := by
  simp [Measure.waits, h]
@[simp] theorem Measure.waits_opened (m : Measure) (h : m.st = .opened) : m.waits = false := by
  simp [Measure.waits, h]
@[simp] theorem Measure.waits_closing (m : Measure) (h : m.st = .closing) : m.waits = false := by
  simp [Measure.waits, h]
@[simp] theorem Measure.waits_idle (m : Measure) (h : m.st = .idle) : m.waits = false := by
  simp [Measure.waits, h]
@[simp] theorem Measure.waits_faulted (m : Measure) : m.faulted.waits = false := rfl
@[simp] theorem Measure.waits_idled (m : Measure) : m.idled.waits = false := rfl
theorem Measure.waits_qualify (m : Measure) (q : Qualifier) : (m.qualify q).waits = m.waits := rfl
theorem Measure.waits_holdFinals (m : Measure) (p : Fin 16) (h : Option TimeStamp) :
    (m.holdFinals p h).waits = m.waits := rfl

/-- A write that leaves state, held group and held report as they were. -/
theorem Measure.waits_congr {m n : Measure} (h1 : n.st = m.st) (h2 : n.heldGroup = m.heldGroup)
    (h3 : n.heldReport = m.heldReport) : n.waits = m.waits := by
  simp [Measure.waits, h1, h2, h3]

/-- A write of one measure, into an active state. -/
theorem Acts.setActive (m : Measure) (h : m.st.active = true) : Acts w (Only i) s (s.setMeas i m) := by
  refine Acts.setMeas (P := Only i) rfl m (fun _ hw => ?_) fun _ => h
  cases hm : m.st <;> simp [Measure.waits, MeasureState.active, hm] at h hw

/-- A change of one measure that leaves state, held group and held report as they were. -/
theorem Acts.modKeep {f : Measure → Measure} (h1 : (f (s.meas i)).st = (s.meas i).st)
    (h2 : (f (s.meas i)).heldGroup = (s.meas i).heldGroup)
    (h3 : (f (s.meas i)).heldReport = (s.meas i).heldReport) : Acts w (Only i) s (s.modMeas i f) :=
  .modMeas (P := Only i) rfl f (fun _ hw => by rwa [Measure.waits_congr h1 h2 h3] at hw) fun h => by rwa [h1]

theorem Acts.qualify (q : Qualifier) : Acts w (Only i) s (s.modMeas i (·.qualify q)) :=
  .modKeep rfl rfl rfl

/-! ### The Result Queue -/

theorem Acts.enqueueGroup (g : Group) (h : s.queueRoom = true) :
    Acts w (Only g.measure) s (enqueueGroup g s) := by
  unfold Machine.enqueueGroup
  refine Acts.trans (t := { s.modMeas g.measure (fun m => { m with sequence := m.sequence + 1 }) with
      queue := s.queue ++ [{ g with sequence := (s.meas g.measure).sequence }] }) ?_
    (Fires.fireEnqueue _ _).acts
  have hr : s.queue.length < Config.queueCapacity := by simpa [State.queueRoom] using h
  refine ⟨by constructor <;> rfl, ?_, le_rfl, id, id, fun _ _ => le_rfl, fun _ _ _ => rfl, fun _ _ _ h => h,
    List.prefix_append _ _, ?_, List.prefix_rfl, le_max_left _ _, ?_, ?_⟩
  · intro j hj
    have : j ≠ g.measure := hj
    simp [State.meas, State.modMeas, State.setMeas, this]
  · simp only [List.length_append, List.length_cons, List.length_nil]; omega
  · intro j hj
    refine hj.imp (fun hj => ?_) id
    by_cases e : j = g.measure
    · subst e; simpa [State.meas, State.modMeas, State.setMeas] using hj
    · simpa [State.meas, State.modMeas, State.setMeas, e] using hj
  · intro _ j hj
    refine .inl ?_
    by_cases e : j = g.measure
    · subst e
      simpa [State.meas, State.modMeas, State.setMeas, Measure.waits] using hj
    · simpa [State.meas, State.modMeas, State.setMeas, e] using hj

@[simp] theorem faultReport_measure (i : Fin 8) (k : MeasureKind) (f : FaultKind) :
    (faultReport i k f).measure = i := rfl

theorem queueRoom_congr (h : t.queue = s.queue) : t.queueRoom = s.queueRoom := by
  simp [State.queueRoom, h]

/-- Entering FAULT. When the report is not offered the measure waits, so only `w = false` is said. -/
theorem Acts.enterFault (k : FaultKind) (offer : Bool) (s : State) :
    Acts offer (Only i) s (enterFault i k offer s) := by
  unfold Machine.enterFault
  dsimp only
  have h1 : Acts offer (Only i) s ((s.modMeas i Measure.faulted).releaseMeasure i) :=
    .leave _ fun _ h => by simp at h
  split
  · rename_i h
    exact h1.trans (.enqueueGroup (faultReport i (s.meas i).kind k) (by
      simp only [Bool.and_eq_true] at h; exact h.2))
  · rename_i h
    refine h1.trans { Acts.modMeas (w := false) (P := Only i) rfl
        (fun m => { m with heldReport := some (faultReport i (s.meas i).kind k) }) (by simp) id with waits := ?_ }
    intro ho j _
    subst ho
    exact .inr (by
      simp only [Bool.true_and, Bool.not_eq_true] at h
      exact h)

/-! ### Conditions -/

theorem Acts.takeCondition (k : FaultKind) (offer : Bool) (s : State) :
    Acts offer (Only i) s (takeCondition i k offer s) := by
  unfold Machine.takeCondition
  dsimp only
  split
  · split
    · exact .qualify _
    · exact .enterFault k offer s
  · split
    · exact .modKeep rfl rfl rfl
    · exact .refl s

theorem Acts.takePeerCondition (k : FaultKind) (p : Fin 16) (offer : Bool) (s : State) :
    Acts offer (Only i) s (takePeerCondition i k p offer s) := by
  unfold Machine.takePeerCondition
  dsimp only
  split
  · exact (Acts.takeCondition k offer s).trans (.modKeep rfl rfl rfl)
  · exact .takeCondition k offer s

theorem Acts.askPeer (offer : Bool) (s : State) (r : Role) :
    Acts offer (Only i) s (askPeer i offer s r) := by
  unfold Machine.askPeer
  split
  · exact .refl s
  · split
    · exact .refl s
    · split
      · exact .takePeerCondition _ _ _ _
      · exact .refl s

theorem Acts.askPeers (offer : Bool) (s : State) : Acts offer (Only i) s (askPeers i offer s) :=
  .forEach _ (fun r s => .askPeer offer s r) s

/-! ### Gates and rearming -/

theorem Acts.openGate (x : TimeStamp) (s : State) : Acts w (Only i) s (openGate i x s) := by
  unfold Machine.openGate
  dsimp only
  split
  · split
    · split <;> exact .setActive _ rfl
    · exact .setActive _ rfl
  · exact .refl s

theorem Acts.becomeIdle (s : State) : Acts w (Only i) s (becomeIdle i s) :=
  .leave _ fun _ h => by simp at h

theorem Acts.openCarried (now : TimeStamp) (s : State) : Acts w (Only i) s (openCarried i now s) := by
  unfold Machine.openCarried
  split
  · split
    · exact .refl s
    · exact .openGate _ s
  · exact .refl s

theorem Acts.nextState (rested offer : Bool) (s : State) :
    Acts offer (Only i) s (nextState i rested offer s) := by
  unfold Machine.nextState
  dsimp only
  split
  · exact (((Acts.setActive _ rfl).trans (.unhold i)).trans
      (.askPeers offer _)).trans (.openCarried _ _)
  · exact .becomeIdle s

theorem Acts.enterReporting (g : Group) (s : State) (h : s.queueRoom = false) :
    Acts w (Only i) s (enterReporting i g s) := by
  exact .leave _ fun _ _ => .inr h

theorem Acts.finishBlock (n : BitVec 16) (l : List (BitVec 48)) (s : State) :
    Acts true (Only i) s (finishBlock i n l s) := by
  unfold Machine.finishBlock
  dsimp only
  split
  · rename_i h
    exact (Acts.enqueueGroup
      { measure := i, kind := (s.meas i).kind, isFault := false, quals := (s.meas i).block.quals
        sequence := 0, sampleCount := n, values := l } h).trans (.nextState _ _ _)
  · rename_i h
    exact .enterReporting _ _ (by simpa using h)

theorem Acts.completeTotalize (x : BitVec 48) (s : State) :
    Acts true (Only i) s (completeTotalize i x s) := by
  unfold Machine.completeTotalize
  dsimp only
  have key : ∀ (f : Measure → Measure) (n : BitVec 16) (l : List (BitVec 48)) (s : State),
      (∀ m, (f m).st = m.st ∧ (f m).heldGroup = m.heldGroup ∧ (f m).heldReport = m.heldReport) →
      Acts true (Only i) s (Machine.finishBlock i n l (s.modMeas i f)) := fun f n l s h =>
    (Acts.modKeep (h _).1 (h _).2.1 (h _).2.2).trans (.finishBlock _ _ _)
  split
  · split
    · split
      · exact (Acts.qualify _).trans (key _ _ _ _ fun _ => ⟨rfl, rfl, rfl⟩)
      · exact .enterFault _ _ _
    · exact key _ _ _ _ fun _ => ⟨rfl, rfl, rfl⟩
  · exact key _ _ _ _ fun _ => ⟨rfl, rfl, rfl⟩

theorem Acts.closeGate (x : TimeStamp) (s : State) : Acts true (Only i) s (closeGate i x s) := by
  unfold Machine.closeGate
  dsimp only
  have h1 : Acts true (Only i) s
      (s.setMeas i { s.meas i with st := .closing, closeTime := some x }) := .setActive _ rfl
  split
  · split
    · split
      · exact h1.trans (.completeTotalize _ _)
      · exact h1.trans (.modKeep rfl rfl rfl)
    · exact h1
  · exact h1

theorem Acts.closeTimed (x : TimeStamp) (s : State) : Acts w (Only i) s (closeTimed i x s) :=
  .setActive _ rfl

theorem Acts.overrunGate (x : TimeStamp) (s : State) : Acts true (Only i) s (overrunGate i x s) :=
  (Acts.qualify _).trans (.closeGate x _)

/-! ### The G role -/

theorem Acts.examineG (e : Entry) (s : State) : Acts true (Only i) s (examineG i e s) := by
  unfold Machine.examineG
  dsimp only
  split
  · exact .refl s
  · split
    · exact .markExamined i e
    · split
      · exact (Acts.markExamined i e).trans (.takeCondition _ _ _)
      · exact (Acts.markExamined i e).trans (.qualify _)

theorem Acts.scanGate (n : Nat) (fresh : Bool) (s : State) :
    Acts true (Only i) s (scanGate n fresh i s) := by
  induction n generalizing fresh s with
  | zero => exact .refl s
  | succ n ih =>
    unfold Machine.scanGate
    split
    · exact (Acts.overrunGate _ s).trans (ih _ _)
    · split
      · exact .refl s
      · dsimp only
        split
        · exact (Acts.passEntry _ _ _).trans (ih _ _)
        split
        · split
          · split
            · exact (((Acts.examineG _ s).trans (.passEntry _ _ _)).trans (.openGate _ _)).trans (ih _ _)
            · exact .examineG _ s
          · exact (Acts.passEntry _ _ _).trans (ih _ _)
        · split
          · split
            · exact ((((Acts.examineG _ s).trans (.passEntry _ _ _)).trans (.modKeep rfl rfl rfl)).trans
                (.closeGate _ _)).trans (ih _ _)
            · exact .examineG _ s
          · exact (Acts.passEntry _ _ _).trans (ih _ _)
        · split
          · exact (Acts.passEntry _ _ _).trans (ih _ _)
          · exact .refl s
        · exact .refl s

theorem Acts.rescanGate (s : State) : Acts true (Only i) s (rescanGate i s) := .scanGate _ _ s

/-- A loop over the measures that serves the selected ones. -/
theorem Acts.serve {p : Fin 8 → Bool} {f : Fin 8 → State → State}
    (h : ∀ i s, Acts w (Only i) s (f i s)) (s r : State) :
    Acts w (fun i => p i = true) s
      (Machine.forEach r.measureOrder (fun s i => if p i then f i s else s) s) :=
  (forEach_served h _ (measureOrder_nodup r) s).1.weaken fun _ x => x.2

theorem Acts.notifyPeer (k : FaultKind) (p : Fin 16) (s : State) :
    Acts true (fun i => s.notified p i = true) s (notifyPeer k p s) :=
  .serve (p := fun i => s.notified p i) (f := fun i => Machine.takePeerCondition i k p true)
    (fun _ s => .takePeerCondition k p true s) s s

theorem Acts.scanArrival (e : Entry) (s : State) :
    Acts true (fun i => e.wantG.getLsbD i.val = true) s (scanArrival e s) :=
  .serve (p := fun i => e.wantG.getLsbD i.val) (f := fun i s => Machine.scanGate s.scanFuel false i s)
    (fun _ s => .scanGate _ _ s) s s

/-! ### Arming -/

theorem Acts.openAtArming (c : MeasureConfig) (x : TimeStamp) (s : State) :
    Acts w (Only i) s (openAtArming i c x s) := by
  unfold Machine.openAtArming
  split
  · split
    · exact .openGate _ s
    · exact .openGate _ s
    · split
      · exact .openGate _ s
      · exact .refl s
    · exact .refl s
  · exact .refl s

theorem Acts.armMeasure (x : TimeStamp) (s : State) : Acts true (Only i) s (armMeasure i x s) := by
  unfold Machine.armMeasure
  split
  · exact ((Acts.setActive _ rfl).trans (.askPeers _ _)).trans
      (.openAtArming _ _ _)
  · exact .refl s

theorem Acts.openAligned (s : State) : Acts w (Only i) s (openAligned i s) := by
  unfold Machine.openAligned
  dsimp only
  split
  · split
    · exact .openGate _ s
    · exact .refl s
  · exact .refl s

theorem Acts.autoArm (s : State) : Acts true (Only i) s (autoArm i s) := by
  unfold Machine.autoArm
  split
  · split
    · exact .armMeasure _ s
    · exact .refl s
  · exact .refl s

/-! ### The arbiter -/

theorem Acts.afterHeldGroup (k : Option FaultKind) (s : State) :
    Acts false (Only i) s (afterHeldGroup i k s) := by
  unfold Machine.afterHeldGroup
  split
  · exact .enterFault _ false _
  · exact .nextState _ false _

theorem Acts.enqueueAny (g : Group) (h : s.queueRoom = true) :
    Acts false (fun _ => True) s (Machine.enqueueGroup g s) :=
  (Acts.enqueueGroup g h).weaken fun _ _ => trivial

theorem Acts.givePlace (s : State) (h : s.queueRoom = true) :
    Acts false (fun _ => True) s (givePlace i s) := by
  unfold Machine.givePlace
  dsimp only
  split
  · exact (Acts.enqueueAny _ h).trans ((Acts.afterHeldGroup _ _).weaken fun _ _ => trivial)
  · refine Acts.trans ?_ (Acts.enqueueAny _ h)
    exact (Acts.modMeas (w := false) (P := Only i) rfl _ (by simp) id).weaken fun _ _ => trivial
  · exact .refl s

theorem Acts.givePlaces (n : Nat) (s : State) : Acts false (fun _ => True) s (givePlaces n s) := by
  induction n generalizing s with
  | zero => exact .refl s
  | succ n ih =>
    unfold Machine.givePlaces
    split
    · rename_i h
      split
      · exact (Acts.givePlace s h).trans (ih _)
      · exact .refl s
    · exact .refl s

/-! ### Directives -/

theorem Acts.putIdle (s : State) : Acts w (Only i) s (putIdle i s) :=
  (Acts.becomeIdle s).trans (.modKeep rfl rfl rfl)

theorem Acts.disarmMeasure (s : State) : Acts w (Only i) s (disarmMeasure i s) := by
  unfold Machine.disarmMeasure
  split <;> first | exact .refl s | exact .becomeIdle s | exact .putIdle s

theorem Acts.clearFaultMeasure (s : State) : Acts w (Only i) s (clearFaultMeasure i s) := by
  unfold Machine.clearFaultMeasure
  split <;> first | exact .refl s | exact .becomeIdle s | exact .putIdle s

theorem Acts.lateGate (late : Bool) (s : State) : Acts true (Only i) s (lateGate i late s) := by
  unfold Machine.lateGate
  split
  · exact .takeCondition _ _ s
  · exact .refl s

theorem Acts.gateOpenMeasure (x : TimeStamp) (late : Bool) (s : State) :
    Acts true (Only i) s (gateOpenMeasure i x late s) := by
  unfold Machine.gateOpenMeasure
  split
  · split
    · exact (Acts.lateGate late s).trans (.openGate _ _)
    · exact .lateGate late s
  · exact .refl s

theorem Acts.gateCloseMeasure (x : TimeStamp) (late : Bool) (s : State) :
    Acts true (Only i) s (gateCloseMeasure i x late s) := by
  unfold Machine.gateCloseMeasure
  split
  · split
    · exact (Acts.lateGate late s).trans (.closeGate _ _)
    · exact .lateGate late s
  · exact .refl s

theorem Acts.finishInterval (s : State) : Acts true (Only i) s (finishInterval i s) :=
  (Acts.modKeep rfl rfl rfl).trans (.finishBlock _ _ _)

theorem Acts.flushMeasure (x : TimeStamp) (s : State) : Acts true (Only i) s (flushMeasure i x s) := by
  unfold Machine.flushMeasure
  dsimp only
  split
  · split
    · exact .refl s
    · exact (((Acts.qualify _).trans (.modKeep rfl rfl rfl)).trans (.finishInterval _)).trans
        (.rescanGate _)
  · split
    · exact .refl s
    · exact ((Acts.qualify _).trans (.finishInterval _)).trans (.rescanGate _)
  · exact ((Acts.qualify _).trans (.closeGate _ _)).trans (.rescanGate _)
  · exact ((Acts.qualify _).trans (.closeGate _ _)).trans (.rescanGate _)
  · exact .refl s

end Sys2Proof.Machine
end

