-- ==== Sys2Proof/Laws/Samples.lean ====
section
/-! SUPPORT. What the operations of sample formation can do (`Acts`). -/

namespace Sys2Proof.Machine

variable {w : Bool} {s t : State} {i : Fin 8}

theorem Acts.examineAB (e : Entry) (s : State) : Acts w (Only i) s (examineAB i e s) := by
  unfold Machine.examineAB
  dsimp only
  split
  · exact .refl s
  · split
    · exact .markExamined i e
    · split
      · split
        · exact (Acts.markExamined i e).trans (.modKeep rfl rfl rfl)
        · exact .markExamined i e
      · exact (Acts.markExamined i e).trans (.qualify _)

theorem Acts.passExamined (r : Role) (s : State) (e : Entry) :
    Acts w (Only i) s (passExamined i r s e) :=
  (Acts.examineAB e s).trans (.passEntry _ _ _)

theorem Acts.foldPass (r : Role) (l : List Entry) (s : State) :
    Acts w (Only i) s (l.foldl (Machine.passExamined i r) s) := by
  induction l generalizing s with
  | nil => exact .refl s
  | cons e l ih => exact (Acts.passExamined r s e).trans (ih _)

theorem Acts.accumulateSample (c : MeasureConfig) (v : BitVec 48) (s : State) :
    Acts true (Only i) s (accumulateSample i c v s).state := by
  unfold Machine.accumulateSample
  have h : Acts true (Only i) s
      (s.modMeas i fun m => { m with block := m.block.accumulate v }) := .modKeep rfl rfl rfl
  dsimp only
  split
  · exact (h.trans (.finishInterval _)).trans (.rescanGate _)
  · exact h

theorem Acts.testWindow (c : MeasureConfig) (v : BitVec 48) (s : State) :
    Acts true (Only i) s (testWindow i c v s).state := by
  unfold Machine.testWindow
  split
  · exact .accumulateSample c v s
  · exact .modKeep rfl rfl rfl

theorem Acts.rejectBy (k : FaultKind) (s : State) : Acts true (Only i) s (rejectBy i k s).state := by
  unfold Machine.rejectBy
  split
  · exact .qualify _
  · exact .enterFault k true s

theorem Acts.testStoreFull (c : MeasureConfig) (v : BitVec 48) (s : State) :
    Acts true (Only i) s (testStoreFull i c v s).state := by
  unfold Machine.testStoreFull
  dsimp only
  split
  · exact Acts.trans (.modKeep rfl rfl rfl) (.rejectBy _ _)
  · exact Acts.trans (.modKeep rfl rfl rfl) (.testWindow _ _ _)

theorem Acts.testGap (c : MeasureConfig) (v : BitVec 48) (s : State) :
    Acts true (Only i) s (testGap i c v s).state := by
  unfold Machine.testGap
  dsimp only
  split
  · exact Acts.trans (.modKeep rfl rfl rfl) (.rejectBy _ _)
  · exact Acts.trans (.modKeep rfl rfl rfl) (.testStoreFull _ _ _)

theorem Acts.testDiscontinuity (c : MeasureConfig) (a b : TimeStamp) (s : State) :
    Acts true (Only i) s (testDiscontinuity i c a b s).state := by
  unfold Machine.testDiscontinuity
  split
  · exact .rejectBy _ s
  · exact .testGap _ _ s

theorem Acts.testSample (c : MeasureConfig) (a b : TimeStamp) (s : State) :
    Acts true (Only i) s (testSample i c a b s).state := by
  unfold Machine.testSample
  split
  · exact .modKeep rfl rfl rfl
  · exact .testDiscontinuity _ _ _ s

theorem Acts.takeSample (c : MeasureConfig) (a b : Entry) (s : State) :
    Acts true (Only i) s (takeSample i c a b s).state := by
  unfold Machine.takeSample
  dsimp only
  exact (((Acts.foldPass _ _ _).trans (.passExamined _ _ _)).trans (.modKeep rfl rfl rfl)).trans
    (.testSample _ _ _ _)

theorem Acts.reciprocalGap (e : Entry) (s : State) :
    Acts true (Only i) s (reciprocalGap i e s).state := by
  unfold Machine.reciprocalGap
  split
  · exact .rejectBy _ s
  · exact .refl s

theorem Acts.reciprocalStoreFull (s : State) : Acts true (Only i) s (reciprocalStoreFull i s).state := by
  unfold Machine.reciprocalStoreFull
  split
  · exact Acts.trans (.modKeep rfl rfl rfl) (.rejectBy _ _)
  · exact .refl s

theorem Acts.bothParts {p q : State → Move} (b : Bool) (hp : ∀ s, Acts true (Only i) s (p s).state)
    (hq : ∀ s, Acts true (Only i) s (q s).state) (s : State) :
    Acts true (Only i) s (bothParts b p q s).state := by
  unfold Machine.bothParts
  dsimp only
  split
  · split
    · exact (hq s).trans (hp _)
    · exact hq s
  · split
    · exact (hp s).trans (hq _)
    · exact hp s

theorem Acts.countStamp (e : Entry) (s : State) : Acts true (Only i) s (countStamp i e s).state := by
  unfold Machine.countStamp
  dsimp only
  split
  · exact Acts.trans (.modKeep rfl rfl rfl) (.passEntry _ _ _)
  · refine Acts.trans (Acts.trans (.passExamined _ _ _) (.modKeep rfl rfl rfl))
      (.bothParts _ (fun _ => .reciprocalGap _ _) (fun _ => .reciprocalStoreFull _) _)

theorem Acts.forgetStop (s : State) : Acts true (Only i) s (forgetStop i s).state :=
  Acts.modKeep (f := fun m => { m with lastStop := none }) rfl rfl rfl

theorem Acts.abandonStart (s : State) (a : Entry) : Acts true (Only i) s (abandonStart i s a).state :=
  Acts.trans (.passExamined _ _ _) (.modKeep rfl rfl rfl)

/-- The first move of a list is one of the list. -/
theorem firstMove_mem {l : List (Option Move)} {x : Move} (h : l.findSome? id = some x) : some x ∈ l := by
  obtain ⟨o, ho, e⟩ := List.exists_of_findSome?_eq_some h
  have e : o = some x := e
  exact e ▸ ho

theorem Acts.intervalMove {c : MeasureConfig} {x : Move} (h : intervalMove i c s = some x) :
    Acts true (Only i) s x.state := by
  have h := firstMove_mem h
  simp only [intervalMoves, List.mem_cons, List.not_mem_nil, or_false] at h
  have pass : ∀ {r : Role} {o : Option Entry}, some x = o.map (passMove i r s) →
      Acts true (Only i) s x.state := by
    intro r o h
    obtain ⟨e, -, he⟩ := Option.map_eq_some_iff.mp h.symm
    subst he
    exact .passExamined r s e
  have drop : some x = (s.abandoned i c).map (Machine.abandonStart i s) →
      Acts true (Only i) s x.state := by
    intro h
    obtain ⟨e, -, he⟩ := Option.map_eq_some_iff.mp h.symm
    subst he
    exact .abandonStart s e
  rcases h with h | h | h | h | h | h | h
  · exact pass h
  · exact pass h
  · split at h
    · exact drop h
    · cases h
  · exact pass h
  · obtain ⟨e, -, he⟩ := Option.map_eq_some_iff.mp h.symm
    subst he
    exact .takeSample _ _ _ _
  · exact drop h
  · split at h
    · cases h; exact .forgetStop s
    · cases h

theorem Acts.reciprocalMove {x : Move} (h : reciprocalMove i s = some x) :
    Acts true (Only i) s x.state := by
  unfold Machine.reciprocalMove at h
  split at h
  · cases h
  · split at h
    · cases h; exact .countStamp _ _
    · cases h

theorem Acts.judgeMove {x : Move} (h : judgeMove i s = some x) : Acts true (Only i) s x.state := by
  unfold Machine.judgeMove at h
  split at h
  · cases h
  · split at h
    · split at h
      · cases h; exact .passEntry _ _ _
      · split at h
        · cases h; exact .passEntry _ _ _
        · split at h
          · cases h
          · split at h
            · exact .intervalMove h
            · exact .reciprocalMove h
            · cases h
    · cases h

theorem Acts.judgeLoop (n : Nat) (s : State) : Acts true (Only i) s (judgeLoop n i s).state := by
  induction n generalizing s with
  | zero => exact .refl s
  | succ n ih =>
    unfold Machine.judgeLoop
    split
    · exact .refl s
    · rename_i x hx
      split
      · exact (Acts.judgeMove hx).trans (ih _)
      · exact .judgeMove hx

theorem Acts.judge (s : State) : Acts true (Only i) s (judge i s).state := .judgeLoop _ s

theorem Acts.completeInterval (s : State) : Acts true (Only i) s (completeInterval i s) := by
  unfold Machine.completeInterval
  dsimp only
  split
  · exact (((Acts.judge s).trans (.qualify _)).trans (.finishInterval _)).trans (.rescanGate _)
  · exact .judge s

theorem Acts.reciprocalDiscontinuity (c : MeasureConfig) (s : State) :
    Acts true (Only i) s (reciprocalDiscontinuity i c s).state := by
  unfold Machine.reciprocalDiscontinuity
  dsimp only
  split
  · split
    · exact .rejectBy _ s
    · exact .refl s
  · exact .refl s

theorem Acts.finishReciprocal (s : State) : Acts true (Only i) s (finishReciprocal i s) :=
  Acts.trans (.modKeep rfl rfl rfl) (.finishBlock _ _ _)

theorem Acts.completeReciprocal (s : State) : Acts true (Only i) s (completeReciprocal i s) := by
  unfold Machine.completeReciprocal
  dsimp only
  split
  · split
    · exact .judge s
    · rename_i c _
      have h := (Acts.judge (i := i) s).trans (.bothParts s.order.storeFullFirst
        (fun _ => .reciprocalDiscontinuity c _) (fun _ => .reciprocalStoreFull _) _)
      split
      · exact (h.trans (.finishReciprocal _)).trans (.rescanGate _)
      · exact h
  · exact .judge s

theorem Acts.answerSnapshots (s : State) : Acts true (Only i) s (answerSnapshots i s) := by
  unfold Machine.answerSnapshots
  split
  · exact .refl s
  · rename_i c _
    have h : ∀ s1 : State, Acts true (Only i) s s1 → Acts true (Only i) s
        (match (s1.meas i).st, (s1.meas i).block.closeRequest, (s1.meas i).block.openRequest with
          | .closing, some t, none =>
            if s.reached t then
              Machine.rescanGate i (Machine.completeTotalize i (s.snapshot c.a.channel t) s1)
            else s1
          | _, _, _ => s1) := by
      intro s1 h1
      split
      · split
        · exact (h1.trans (.completeTotalize _ _)).trans (.rescanGate _)
        · exact h1
      · exact h1
    refine h _ ?_
    split
    · split
      · exact .modKeep rfl rfl rfl
      · exact .refl s
    · exact .refl s

end Sys2Proof.Machine
end

