-- ==== Sys2Proof/Laws/Keeps.lean ====
section
/-! SUPPORT. What a step inside a command keeps: what is outside the station, local time, and the
invariant. -/

namespace Sys2Proof.Machine

/-- From `s` to `t` nothing outside the station changed, local time exists as before, and, while it exists,
the invariant was kept. -/
structure Keeps (s t : State) : Prop where
  outside : OutsideFrame s t
  time : t.hasTime = s.hasTime
  inv : s.hasTime = true → Sound s → Sound t

variable {w : Bool} {P : Fin 8 → Prop} {s t u : State}

theorem OutsideFrame.rfl' (s : State) : OutsideFrame s s := ⟨rfl, rfl⟩

theorem OutsideFrame.trans (h : OutsideFrame s t) (k : OutsideFrame t u) : OutsideFrame s u :=
  ⟨k.pending.trans h.pending, k.order.trans h.order⟩

theorem Keeps.refl (s : State) : Keeps s s := ⟨.rfl' s, rfl, fun _ h => h⟩

theorem Keeps.trans (h : Keeps s t) (k : Keeps t u) : Keeps s u where
  outside := h.outside.trans k.outside
  time := k.time.trans h.time
  inv := fun ht hi => k.inv (h.time.trans ht) (h.inv ht hi)

theorem Keeps.forEach {α : Type} {f : State → α → State} (l : List α) (h : ∀ a s, Keeps s (f s a))
    (s : State) : Keeps s (forEach l f s) := by
  induction l generalizing s with
  | nil => exact .refl s
  | cons a l ih => exact (h a s).trans (ih (f s a))

theorem hasTime_congr (h : t.eu.align = s.eu.align) : t.hasTime = s.hasTime := by
  simp [State.hasTime, h]

theorem MeasureFrame.link_eqs (h : MeasureFrame s t) :
    t.link.sending = s.link.sending ∧ t.link.receiver = s.link.receiver ∧
    t.link.consecutive = s.link.consecutive := by
  have := h.link
  exact ⟨by rw [← this], by rw [← this], by rw [← this]⟩

/-- The bounds pass along an action of measures, while local time exists. -/
theorem Acts.bounded (h : Acts w P s t) (ht : s.hasTime = true) (hs : Bounded s) : Bounded t where
  store_le := h.store_len.trans hs.store_le
  store_wanted := h.wanted hs.store_wanted
  store_publish := by rw [h.frame.eu]; exact fun x => h.publish (hs.store_publish x)
  queue_le := by have := h.queue_le; have := hs.queue_le; omega
  directives_le := by rw [h.frame.directives]; exact hs.directives_le
  outbox_le := by have := h.outbox_le; have := hs.outbox_le; omega
  released := fun i => h.released i (hs.released i)
  consecutive_lt := by rw [h.frame.link_eqs.2.2]; exact hs.consecutive_lt
  sending_locked := by rw [h.frame.link_eqs.1, h.frame.eu]; exact hs.sending_locked
  sending_le := by rw [h.frame.link_eqs.1]; exact hs.sending_le
  timeless := by
    have : t.hasTime = s.hasTime := hasTime_congr (by rw [h.frame.eu])
    rw [this, ht]; intro h; cases h

theorem Acts.keeps (h : Acts true P s t) : Keeps s t where
  outside := ⟨h.frame.pending, h.frame.order⟩
  time := hasTime_congr (by rw [h.frame.eu])
  inv := fun ht hs =>
    { h.bounded ht hs.toBounded with
      waiting_full := by
        rintro ⟨i, hi⟩
        have hle := (h.bounded ht hs.toBounded).queue_le
        rcases h.waits rfl i hi with h1 | h1
        · have := hs.waiting_full ⟨i, h1⟩
          have := h.queue.length_le
          omega
        · rw [queueRoom_false_iff] at h1
          omega }

/-- The invariant depends on these parts of the state alone. -/
theorem Sound.congr (hs : Sound s) (ha : t.eu.align = s.eu.align) (h1 : t.store = s.store)
    (h2 : t.queue = s.queue) (h3 : t.directives = s.directives) (h4 : t.link.outbox = s.link.outbox)
    (h5 : t.link.consecutive = s.link.consecutive) (h6 : t.link.sending = s.link.sending)
    (h7 : t.measures = s.measures) : Sound t where
  store_le := by rw [h1]; exact hs.store_le
  store_wanted := by rw [h1]; exact hs.store_wanted
  store_publish := by rw [h1, ha]; exact hs.store_publish
  queue_le := by rw [h2]; exact hs.queue_le
  directives_le := by rw [h3]; exact hs.directives_le
  outbox_le := by rw [h4]; exact hs.outbox_le
  released := fun i => by
    unfold State.released State.meas
    rw [h1, h7]
    exact hs.released i
  consecutive_lt := by rw [h5]; exact hs.consecutive_lt
  sending_locked := by rw [h6, ha]; exact hs.sending_locked
  sending_le := by rw [h6]; exact hs.sending_le
  timeless := by
    rw [hasTime_congr ha, h1, h2, h3, h4]
    simp only [State.meas, h7]
    exact hs.timeless
  waiting_full := by
    rw [h2]
    simp only [State.someWaits, State.meas, h7]
    exact hs.waiting_full

theorem Keeps.congr (ho : OutsideFrame s t) (ha : t.eu.align = s.eu.align) (h1 : t.store = s.store)
    (h2 : t.queue = s.queue) (h3 : t.directives = s.directives) (h4 : t.link.outbox = s.link.outbox)
    (h5 : t.link.consecutive = s.link.consecutive) (h6 : t.link.sending = s.link.sending)
    (h7 : t.measures = s.measures) : Keeps s t :=
  ⟨ho, hasTime_congr ha, fun _ hs => hs.congr ha h1 h2 h3 h4 h5 h6 h7⟩

theorem Keeps.setChan (c : Fin 4) (x : Channel) : Keeps s (s.setChan c x) :=
  .congr ⟨rfl, rfl⟩ rfl rfl rfl rfl rfl rfl rfl rfl

theorem Keeps.modChan (c : Fin 4) (f : Channel → Channel) : Keeps s (s.modChan c f) := .setChan c _

theorem Keeps.setPeer (p : Fin 16) (x : Peer) : Keeps s (s.setPeer p x) :=
  .congr ⟨rfl, rfl⟩ rfl rfl rfl rfl rfl rfl rfl rfl

theorem Keeps.countDiscard : Keeps s s.countDiscard :=
  .congr ⟨rfl, rfl⟩ rfl rfl rfl rfl rfl rfl rfl rfl

theorem Fires.keeps (h : Fires s t) : Keeps s t := (h.acts (w := true) (P := fun _ => False)).keeps

theorem Keeps.countDirectiveDrops (n : Nat) : Keeps s (s.countDirectiveDrops n) :=
  (Fires.countDirectiveDrops n s).keeps

/-! ### Channels -/

theorem Keeps.takeEdge (c : Fin 4) (p : Polarity) (fine : BitVec 8) (s : State) :
    Keeps s (takeEdge c p fine s) := by
  unfold Machine.takeEdge
  dsimp only
  split
  · exact (Keeps.setChan _ _).trans (Fires.fireStamp _ _ _).keeps
  · exact .setChan _ _

theorem Keeps.testEdges (c : Fin 4) (s : State) : Keeps s (testEdges s c) := by
  unfold Machine.testEdges
  split
  · exact (Keeps.takeEdge _ _ _ _).trans (.takeEdge _ _ _ _)
  · exact .refl s

theorem Keeps.testChannels (s : State) : Keeps s (testChannels s) := .forEach _ (fun c s => .testEdges c s) _

theorem Keeps.testEvent (s : State) : Keeps s (testEvent s) :=
  (Keeps.testChannels s).trans (.congr ⟨rfl, rfl⟩ rfl rfl rfl rfl rfl rfl rfl rfl)

theorem Keeps.takeHeldEdges (s : State) : Keeps s (takeHeldEdges s) := by
  have fold : ∀ (l : List HeldEdge) (s : State),
      Keeps s (l.foldl (fun s e => Machine.takeEdge e.channel e.polarity e.fine s) s) := by
    intro l
    induction l with
    | nil => exact .refl
    | cons e l ih => exact fun s => (Keeps.takeEdge _ _ _ _).trans (ih _)
  refine Keeps.trans ?_ (fold _ _)
  exact .congr ⟨rfl, rfl⟩ rfl rfl rfl rfl rfl rfl rfl rfl

theorem Keeps.retakeEdges (f : Channel → Channel) (s : State) : Keeps s (retakeEdges f s) :=
  .congr ⟨rfl, rfl⟩ rfl rfl rfl rfl rfl rfl rfl rfl

/-- The roles that hold its source leave an arriving entry's consumer set, and no measure joins it. -/
theorem passHeld_consumers {e : Entry} {i : Fin 8} (h : e.consumers.getLsbD i.val = false) :
    (s.passHeld e).consumers.getLsbD i.val = false := by
  simp only [Entry.consumers, State.passHeld, BitVec.getLsbD_or, BitVec.getLsbD_and, Bool.or_eq_false_iff] at h ⊢
  simp only [h, Bool.false_and, and_self]

/-- The consumers of an offered stamp are active measures (R43, R56). -/
theorem offeredEntry_active {st : Fin 16} {c : Fin 4} {p : Polarity} {x : TimeStamp} {d : BitVec 8} {b : Bool}
    {i : Fin 8} (h : (s.offeredEntry st c p x d b).consumers.getLsbD i.val = true) :
    (s.meas i).st.active = true := by
  have key (r : Role) (h : (s.wantMask r st c p).getLsbD i.val = true) : (s.meas i).st.active = true := by
    rw [State.wantMask, maskOf_getLsbD, Bool.and_eq_true] at h
    exact h.1
  simp only [Entry.consumers, State.offeredEntry, BitVec.getLsbD_or, Bool.or_eq_true] at h
  rcases h with (h | h) | h <;> exact key _ h

/-- A stored entry finds room, holds `publish` only in a LOCKED station, and is wanted by active measures. -/
theorem Keeps.store1 (e : Entry) (hr : s.storeRoom = true)
    (hp : e.publish = true → s.eu.align = some .locked)
    (ha : ∀ i : Fin 8, e.consumers.getLsbD i.val = true → (s.meas i).st.active = true) :
    Keeps s (s.store1 e) where
  outside := ⟨rfl, rfl⟩
  time := rfl
  inv := fun ht hs =>
    { store_le := by
        have : s.store.length < Config.storeCapacity := by simpa [State.storeRoom] using hr
        refine (List.length_filter_le _ _).trans ?_
        simp only [List.length_append, List.length_cons, List.length_nil]; omega
      store_wanted := fun x hx => (List.mem_filter.mp hx).2
      store_publish := fun ha x hx => by
        have hx := (List.mem_filter.mp hx).1
        rcases List.mem_append.mp hx with h | h
        · exact hs.store_publish ha x h
        · rw [List.mem_singleton.mp h]
          cases hb : e.publish
          · simp [State.passHeld, hb]
          · exact absurd (hp hb) ha
      queue_le := hs.queue_le
      directives_le := hs.directives_le
      outbox_le := hs.outbox_le
      released := fun i => by
        by_cases hm : (s.meas i).st.active = true
        · exact .inl hm
        · refine .inr fun x hx => ?_
          rcases List.mem_append.mp (List.mem_filter.mp hx).1 with h | h
          · exact ((hs.released i).resolve_left hm) x h
          · rw [List.mem_singleton.mp h]
            exact passHeld_consumers (Bool.eq_false_iff.mpr fun hc => hm (ha i hc))
      consecutive_lt := hs.consecutive_lt
      sending_locked := hs.sending_locked
      sending_le := hs.sending_le
      timeless := fun h => by
        have : s.hasTime = false := h
        rw [ht] at this; cases this
      waiting_full := hs.waiting_full }

theorem Keeps.offerLocal (c : Fin 4) (x : FlyingStamp) (s : State) : Keeps s (offerLocal c x s) := by
  unfold Machine.offerLocal
  dsimp only
  split
  · exact .refl s
  · split
    · rename_i hr
      refine ((Keeps.store1 _ hr ?_ fun _ => offeredEntry_active).trans (.modChan _ _)).trans
        (Acts.scanArrival _ _).keeps
      intro h
      simp only [State.offeredEntry, State.publishes, Bool.and_eq_true, beq_iff_eq] at h
      exact h.2
    · exact .modChan _ _

theorem Keeps.resolveStamp (c : Fin 4) (x : FlyingStamp) (s : State) : Keeps s (resolveStamp c x s) := by
  unfold Machine.resolveStamp
  dsimp only
  split
  · exact (Keeps.modChan _ _).trans (.modChan _ _)
  · exact (Keeps.modChan _ _).trans (.offerLocal _ _ _)

/-! ### Peers -/

theorem Keeps.presence (p : Fin 16) (s : State) : Keeps s (presence p s) := .setPeer _ _

theorem Keeps.foreignPresence (p : Fin 16) (s : State) : Keeps s (foreignPresence p s) := by
  unfold Machine.foreignPresence
  dsimp only
  split
  · exact .setPeer _ _
  · exact (Keeps.setPeer _ _).trans (Acts.notifyPeer _ _ _).keeps

theorem Keeps.missWindow (p : Fin 16) (s : State) : Keeps s (missWindow p s) := by
  unfold Machine.missWindow
  dsimp only
  split
  · exact (Keeps.setPeer _ _).trans (Acts.notifyPeer _ _ _).keeps
  · exact .setPeer _ _

theorem Keeps.deliverWindowEnd (p : Fin 16) (s : State) : Keeps s (deliverWindowEnd p s) := by
  unfold Machine.deliverWindowEnd
  dsimp only
  have h : Keeps s { s with link := { s.link with windowPresence := false } } :=
    .congr ⟨rfl, rfl⟩ rfl rfl rfl rfl rfl rfl rfl rfl
  split
  · exact h
  · exact h.trans (.missWindow _ _)

theorem Keeps.takeWindowEnd (p : Fin 16) (s : State) : Keeps s (takeWindowEnd p s) := by
  refine Keeps.trans ?_ (.deliverWindowEnd p _)
  exact .congr ⟨rfl, rfl⟩ rfl rfl rfl rfl rfl rfl rfl rfl

/-! ### Boundaries and marks -/

theorem Keeps.boundaryMeasures (s : State) : Keeps s (boundaryMeasures s) := by
  unfold Machine.boundaryMeasures
  dsimp only
  have h : Keeps s (Machine.forEach s.measureOrder (fun s i => openAligned i s) s) :=
    .forEach _ (fun i s => (Acts.openAligned (w := true) (i := i) s).keeps) s
  split
  · exact h
  · refine (h.trans (u := { Machine.forEach s.measureOrder (fun s i => openAligned i s) s with
        eu := { (Machine.forEach s.measureOrder (fun s i => openAligned i s) s).eu with autoArmed := true } })
      (.congr ⟨rfl, rfl⟩ rfl rfl rfl rfl rfl rfl rfl rfl)).trans ?_
    exact .forEach _ (fun i s => (Acts.autoArm (i := i) s).keeps) _

theorem Keeps.boundaryTable (s : State) : Keeps s (boundaryTable s) := by
  unfold Machine.boundaryTable
  split
  · exact (Fires.boundarySequences s).keeps.trans (.boundaryMeasures _)
  · exact (Keeps.boundaryMeasures s).trans (Fires.boundarySequences _).keeps

theorem Keeps.refreshStatusDue (s : State) : Keeps s s.refreshStatusDue :=
  .congr ⟨rfl, rfl⟩ rfl rfl rfl rfl rfl rfl rfl rfl

theorem Keeps.deliverBoundary (l : List (Fin 16)) (s : State) : Keeps s (deliverBoundary l s) := by
  unfold Machine.deliverBoundary
  dsimp only
  refine Keeps.trans (t := boundaryChannels { s with marks := { s.marks with boundary := true } })
    (.congr ⟨rfl, rfl⟩ rfl rfl rfl rfl rfl rfl rfl rfl) ?_
  refine (Keeps.forEach l (fun p s => .deliverWindowEnd p s) _).trans ?_
  refine Keeps.trans ?_ ((Keeps.refreshStatusDue _).trans (.boundaryTable _))
  exact .congr ⟨rfl, rfl⟩ rfl rfl rfl rfl rfl rfl rfl rfl

theorem Keeps.crossBoundary (s : State) : Keeps s (crossBoundary s) := by
  refine Keeps.trans ?_ (.deliverBoundary _ _)
  exact .congr ⟨rfl, rfl⟩ rfl rfl rfl rfl rfl rfl rfl rfl

theorem Keeps.takeDueBoundary (s : State) : Keeps s (takeDueBoundary s) := by
  unfold Machine.takeDueBoundary
  split
  · exact .crossBoundary s
  · exact .refl s

theorem Keeps.loseRecord (r : Record) (s : State) : Keeps s (loseRecord s r) := by
  unfold Machine.loseRecord
  split
  · exact .modChan _ _
  all_goals exact .refl s

theorem Keeps.loseRecords (l : List Record) (s : State) : Keeps s (l.foldl Machine.loseRecord s) := by
  induction l generalizing s with
  | nil => exact .refl s
  | cons r l ih => exact (Keeps.loseRecord r s).trans (ih _)

/-- The line is released: no frame in flight. -/
theorem Keeps.clearSending (s : State) : Keeps s { s with link := { s.link with sending := none } } where
  outside := ⟨rfl, rfl⟩
  time := rfl
  inv := fun _ hs =>
    { hs with
      sending_locked := fun h => by cases h
      sending_le := fun _ h => by cases h }

theorem Keeps.abandonFrame (s : State) : Keeps s (abandonFrame s) := by
  unfold Machine.abandonFrame
  dsimp only
  split
  · exact .refl s
  · split
    · exact .clearSending s
    · exact (Keeps.clearSending s).trans (.loseRecords _ _)

theorem Keeps.cutReception (s : State) : Keeps s (cutReception s) :=
  .congr ⟨rfl, rfl⟩ rfl rfl rfl rfl rfl rfl rfl rfl

theorem Keeps.slip (s : State) : Keeps s (slip s) := by
  unfold Machine.slip
  dsimp only
  refine ((Keeps.abandonFrame s).trans (.cutReception _)).trans ?_
  refine Keeps.trans ?_ (.deliverBoundary _ _)
  exact .congr ⟨rfl, rfl⟩ rfl rfl rfl rfl rfl rfl rfl rfl

theorem Keeps.judgeMark (s : State) : Keeps s (judgeMark s) := by
  unfold Machine.judgeMark
  split
  · exact .refl s
  · exact .slip s

theorem Keeps.emptyDirectives (s : State) : Keeps s (emptyDirectives s) where
  outside := ⟨rfl, rfl⟩
  time := rfl
  inv := fun ht hs =>
    { (Keeps.countDirectiveDrops s.directives.length).inv ht hs with
      directives_le := Nat.zero_le _
      timeless := fun h => by
        have : s.hasTime = false := h
        rw [ht] at this; cases this }

theorem Keeps.adopt (e : BitVec 16) (s : State) : Keeps s (adopt e s) := by
  refine Keeps.trans ?_ (.emptyDirectives _)
  refine Keeps.trans ?_ ((Keeps.retakeEdges _ _).trans (.refreshStatusDue _))
  exact .congr ⟨rfl, rfl⟩ rfl rfl rfl rfl rfl rfl rfl rfl

/-! ### Directives -/

theorem Keeps.popDirective (s : State) : Keeps s s.popDirective where
  outside := ⟨rfl, rfl⟩
  time := rfl
  inv := fun _ hs =>
    { hs with
      directives_le := by
        have := hs.directives_le
        simp only [State.popDirective, List.length_tail]; omega
      timeless := fun h => by
        obtain ⟨h1, h2, h3, h4, h5⟩ := hs.timeless h
        exact ⟨h1, h2, by simp [State.popDirective, h3], h4, h5⟩ }

theorem Acts.applyArm (mask : BitVec 8) (x : TimeStamp) (s : State) :
    Acts true (fun i => mask.getLsbD i.val = true) s (applyArm mask x s) :=
  .serve (p := fun i => mask.getLsbD i.val) (f := fun i => Machine.armMeasure i x)
    (fun _ s => .armMeasure x s) s s

theorem Acts.applyDisarm (mask : BitVec 8) (s : State) :
    Acts true (fun i => mask.getLsbD i.val = true) s (applyDisarm mask s) :=
  .serve (p := fun i => mask.getLsbD i.val) (f := Machine.disarmMeasure) (fun _ s => .disarmMeasure s) s s

theorem Acts.applyGateOpen (mask : BitVec 8) (x : TimeStamp) (late : Bool) (s : State) :
    Acts true (fun i => mask.getLsbD i.val = true) s (applyGateOpen mask x late s) :=
  .serve (p := fun i => mask.getLsbD i.val) (f := fun i => Machine.gateOpenMeasure i x late)
    (fun _ s => .gateOpenMeasure x late s) s s

theorem Acts.applyGateClose (mask : BitVec 8) (x : TimeStamp) (late : Bool) (s : State) :
    Acts true (fun i => mask.getLsbD i.val = true) s (applyGateClose mask x late s) :=
  .serve (p := fun i => mask.getLsbD i.val) (f := fun i => Machine.gateCloseMeasure i x late)
    (fun _ s => .gateCloseMeasure x late s) s s

theorem Acts.applyFlush (mask : BitVec 8) (x : TimeStamp) (s : State) :
    Acts true (fun i => mask.getLsbD i.val = true) s (applyFlush mask x s) :=
  .serve (p := fun i => mask.getLsbD i.val) (f := fun i => Machine.flushMeasure i x)
    (fun _ s => .flushMeasure x s) s s

theorem Acts.applyClearFault (mask : BitVec 8) (s : State) :
    Acts true (fun i => mask.getLsbD i.val = true) s (applyClearFault mask s) :=
  .serve (p := fun i => mask.getLsbD i.val) (f := Machine.clearFaultMeasure)
    (fun _ s => .clearFaultMeasure s) s s

theorem insertDirective_length (d : Directive) (l : List Directive) :
    (insertDirective d l).length = l.length + 1 := by
  induction l with
  | nil => rfl
  | cons x l ih => unfold insertDirective; split <;> simp [ih]

theorem Sound.start (s : State) (straps : BitVec 4) (c : StartCause) : Sound (s.start straps c) where
  store_le := Nat.zero_le _
  store_wanted := fun _ h => by cases h
  store_publish := fun _ _ h => by cases h
  queue_le := Nat.zero_le _
  directives_le := Nat.zero_le _
  outbox_le := Nat.zero_le _
  released := fun _ => .inr fun _ h => by cases h
  consecutive_lt := by simp [State.start, State.allReset, State.reset, Link.reset, Config.muteCollisions]
  sending_locked := fun h => by cases h
  sending_le := fun _ h => by cases h
  timeless := fun _ => ⟨rfl, rfl, rfl, rfl, fun i => by
    simp [State.start, State.allReset, State.reset, State.meas, Measure.reset, Measure.quiet,
      MeasureState.reported, MeasureState.active]⟩
  waiting_full := by
    rintro ⟨i, hi⟩
    simp [State.start, State.allReset, State.reset, State.meas, Measure.reset, Measure.waits] at hi

theorem Sound.allReset (s : State) : Sound s.allReset where
  store_le := Nat.zero_le _
  store_wanted := fun _ h => by cases h
  store_publish := fun _ _ h => by cases h
  queue_le := Nat.zero_le _
  directives_le := Nat.zero_le _
  outbox_le := Nat.zero_le _
  released := fun _ => .inr fun _ h => by cases h
  consecutive_lt := by simp [State.allReset, State.reset, Link.reset, Config.muteCollisions]
  sending_locked := fun h => by cases h
  sending_le := fun _ h => by cases h
  timeless := fun _ => ⟨rfl, rfl, rfl, rfl, fun i => by
    simp [State.allReset, State.reset, State.meas, Measure.reset, Measure.quiet,
      MeasureState.reported, MeasureState.active]⟩
  waiting_full := by
    rintro ⟨i, hi⟩
    simp [State.allReset, State.reset, State.meas, Measure.reset, Measure.waits] at hi

theorem Sound.applyDirective (c : Code) (mask : BitVec 8) (x : TimeStamp) (late : Bool) (straps : BitVec 4)
    (s : State) (ht : s.hasTime = true) (hs : Sound s) : Sound (applyDirective c mask x late straps s) := by
  cases c
  · exact (Acts.applyArm mask x s).keeps.inv ht hs
  · exact (Acts.applyDisarm mask s).keeps.inv ht hs
  · exact (Acts.applyGateOpen mask x late s).keeps.inv ht hs
  · exact (Acts.applyGateClose mask x late s).keeps.inv ht hs
  · exact (Acts.applyFlush mask x s).keeps.inv ht hs
  · exact (Acts.applyClearFault mask s).keeps.inv ht hs
  · exact .start _ _ _

theorem applyDirective_outside (c : Code) (mask : BitVec 8) (x : TimeStamp) (late : Bool)
    (straps : BitVec 4) (s : State) : OutsideFrame s (applyDirective c mask x late straps s) := by
  cases c
  · exact (Acts.applyArm mask x s).keeps.outside
  · exact (Acts.applyDisarm mask s).keeps.outside
  · exact (Acts.applyGateOpen mask x late s).keeps.outside
  · exact (Acts.applyGateClose mask x late s).keeps.outside
  · exact (Acts.applyFlush mask x s).keeps.outside
  · exact (Acts.applyClearFault mask s).keeps.outside
  · exact ⟨rfl, rfl⟩

/-- What an arrival at the Pending Directive List can do. -/
theorem arriveDirective_keeps (straps : BitVec 4) (d : Directive) (s : State) :
    OutsideFrame s (arriveDirective straps d s) ∧
    (s.hasTime = true → Sound s → Sound (arriveDirective straps d s)) := by
  unfold arriveDirective
  split
  · exact ⟨⟨rfl, rfl⟩, (Keeps.countDirectiveDrops _).inv⟩
  · split
    · exact ⟨⟨rfl, rfl⟩, (Keeps.countDirectiveDrops _).inv⟩
    · rename_i hl
      split
      · exact ⟨⟨rfl, rfl⟩, fun _ h => h⟩
      · split
        · exact ⟨applyDirective_outside _ _ _ _ _ s, .applyDirective _ _ _ _ _ s⟩
        · split
          · exact ⟨applyDirective_outside _ _ _ _ _ s, .applyDirective _ _ _ _ _ s⟩
          · refine ⟨⟨rfl, rfl⟩, fun ht hs => { hs with directives_le := ?_, timeless := fun h => ?_ }⟩
            · simp only [insertDirective_length]; omega
            · have : s.hasTime = false := h
              rw [ht] at this; cases this

end Sys2Proof.Machine
end

