-- ==== Sys2Proof/Laws/Edges.lean ====
section
/-! SUPPORT. What an edge, a Test Source event, a change of local time and a window end can do to the channels,
the peers and the trigger sequences. -/

namespace Sys2Proof.Machine

variable {s t u : State}

/-! ### The trigger sequences -/

namespace TriggerSide

variable {x y : TriggerSide} {i j : Fin 4} {muted : Bool} {d : TriggerStep → Directive}

theorem setSeq_get (q : Sequence) : (x.setSeq i q).sequences.get j = if j = i then q else x.sequences.get j := by
  simp [setSeq]

@[simp] theorem place_sequences (e : Directive) : (x.place muted e).sequences = x.sequences := by
  unfold place; split <;> rfl

@[simp] theorem place_triggerOverruns (e : Directive) :
    (x.place muted e).triggerOverruns = x.triggerOverruns := by
  unfold place; split <;> rfl

theorem runSteps_other (h : j ≠ i) (l : List TriggerStep) (x : TriggerSide) :
    (runSteps i muted d l x).sequences.get j = x.sequences.get j := by
  induction l generalizing x with
  | nil => rw [runSteps, setSeq_get, if_neg h]
  | cons a l ih =>
    unfold runSteps
    split
    · rw [ih, place_sequences]
    · rw [setSeq_get, if_neg h, place_sequences]

/-- What a run leaves of its own sequence depends on that sequence alone. -/
theorem runSteps_own {muted' : Bool} {d' : TriggerStep → Directive} (l : List TriggerStep) (x y : TriggerSide)
    (h : y.sequences.get i = x.sequences.get i) :
    (runSteps i muted' d' l y).sequences.get i = (runSteps i muted d l x).sequences.get i := by
  induction l generalizing x y with
  | nil => simp [runSteps, setSeq_get, h]
  | cons a l ih =>
    unfold runSteps
    split
    · exact ih _ _ (by rw [place_sequences, place_sequences, h])
    · simp only [setSeq_get, if_true, h]

theorem fire_other (h : j ≠ i) : (x.fire i muted d).sequences.get j = x.sequences.get j := by
  unfold fire
  split
  · exact runSteps_other h _ x
  · rfl
  · rfl

theorem fire_own {muted' : Bool} {d' : TriggerStep → Directive} (h : y.sequences.get i = x.sequences.get i) :
    (y.fire i muted' d').sequences.get i = (x.fire i muted d).sequences.get i := by
  unfold fire
  rw [h]
  split
  · exact runSteps_own _ x y h
  · exact h
  · exact h

theorem boundary_other (h : j ≠ i) : (x.boundary i muted d).sequences.get j = x.sequences.get j := by
  unfold boundary
  split
  · split
    · exact runSteps_other h _ x
    · rw [setSeq_get, if_neg h]
  · rfl

theorem boundary_own {muted' : Bool} {d' : TriggerStep → Directive}
    (h : y.sequences.get i = x.sequences.get i) :
    (y.boundary i muted' d').sequences.get i = (x.boundary i muted d).sequences.get i := by
  unfold boundary
  rw [h]
  split
  · split
    · exact runSteps_own _ x y h
    · simp only [setSeq_get, if_true, h]
  · exact h

end TriggerSide

theorem fireSequence_other {i j : Fin 4} (h : j ≠ i) (s : State) :
    (fireSequence i s).sequences.get j = s.sequences.get j := TriggerSide.fire_other h

theorem fireSequence_own (i : Fin 4) (s t : State) (h : t.sequences.get i = s.sequences.get i) :
    (fireSequence i t).sequences.get i = (fireSequence i s).sequences.get i := TriggerSide.fire_own h

theorem boundarySequence_other {i j : Fin 4} (h : j ≠ i) (s : State) :
    (boundarySequence i s).sequences.get j = s.sequences.get j := TriggerSide.boundary_other h

theorem boundarySequence_own (i : Fin 4) (s t : State) (h : t.sequences.get i = s.sequences.get i) :
    (boundarySequence i t).sequences.get i = (boundarySequence i s).sequences.get i :=
  TriggerSide.boundary_own h

/-- Serving each sequence once, in any order, gives each what serving it alone gives. -/
theorem forEach_sequences {f : Fin 4 → State → State}
    (ho : ∀ i j s, j ≠ i → (f i s).sequences.get j = s.sequences.get j)
    (hf : ∀ i s t, t.sequences.get i = s.sequences.get i →
      (f i t).sequences.get i = (f i s).sequences.get i)
    (l : List (Fin 4)) (hl : l.Nodup) (s : State) (j : Fin 4) :
    (forEach l (fun s i => f i s) s).sequences.get j
      = if j ∈ l then (f j s).sequences.get j else s.sequences.get j := by
  induction l generalizing s with
  | nil => rfl
  | cons i l ih =>
    obtain ⟨hi, hn⟩ := List.nodup_cons.mp hl
    show (forEach l (fun s i => f i s) (f i s)).sequences.get j = _
    rw [ih hn]
    by_cases h : j = i
    · subst h; simp [hi]
    · simp only [List.mem_cons, h, false_or]
      split
      · exact hf j _ _ (ho i j s h)
      · exact ho i j s h

theorem sequenceOrder_nodup (s : State) : s.sequenceOrder.Nodup :=
  (sequenceOrder_perm s).nodup_iff.mpr (List.nodup_finRange 4)

theorem mem_sequenceOrder (s : State) (i : Fin 4) : i ∈ s.sequenceOrder :=
  (sequenceOrder_perm s).mem_iff.mpr (List.mem_finRange i)

theorem fireStamp_sequences (c : Fin 4) (p : Polarity) (s : State) (i : Fin 4) :
    (fireStamp c p s).sequences.get i = if (s.sequences.get i).onStamp c p then
      (fireSequence i s).sequences.get i else s.sequences.get i := by
  unfold fireStamp
  rw [forEach_sequences (f := fun i s => if (s.sequences.get i).onStamp c p then fireSequence i s else s)
    (fun i j s h => by split; exacts [fireSequence_other h s, rfl])
    (fun i s t h => by rw [h]; split; exacts [fireSequence_own i s t h, h])
    _ (sequenceOrder_nodup s), if_pos (mem_sequenceOrder s i)]
  split <;> rfl

theorem fireEnqueue_sequences (m : Fin 8) (s : State) (i : Fin 4) :
    (fireEnqueue m s).sequences.get i = if (s.sequences.get i).onMeasure m then
      (fireSequence i s).sequences.get i else s.sequences.get i := by
  unfold fireEnqueue
  rw [forEach_sequences (f := fun i s => if (s.sequences.get i).onMeasure m then fireSequence i s else s)
    (fun i j s h => by split; exacts [fireSequence_other h s, rfl])
    (fun i s t h => by rw [h]; split; exacts [fireSequence_own i s t h, h])
    _ (sequenceOrder_nodup s), if_pos (mem_sequenceOrder s i)]
  split <;> rfl

theorem boundarySequences_sequences (s : State) (i : Fin 4) :
    (boundarySequences s).sequences.get i = (boundarySequence i s).sequences.get i := by
  unfold boundarySequences
  rw [forEach_sequences (f := boundarySequence) (fun i j s h => boundarySequence_other h s)
    (fun i s t h => boundarySequence_own i s t h) _ (sequenceOrder_nodup s), if_pos (mem_sequenceOrder s i)]

/-! ### A run of a sequence -/

/-- The outbox takes a step's directive now (R82, R183). -/
def TriggerSide.takes (x : TriggerSide) (muted : Bool) : Prop :=
  x.outbox.length < Config.outboxCapacity ∧ muted = false

/-- How many of n directives the outbox takes now (R82, R183). -/
def TriggerSide.placesFor (x : TriggerSide) (muted : Bool) (n : Nat) : Nat :=
  if muted then 0 else min n (Config.outboxCapacity - x.outbox.length)

theorem placesFor_eq (s : State) (n : Nat) : s.placesFor n = s.triggerSide.placesFor s.isMute n := by
  simp [State.placesFor, TriggerSide.placesFor, State.isMute, State.triggerSide]

namespace TriggerSide

variable {x y : TriggerSide} {i : Fin 4} {muted : Bool} {d : TriggerStep → Directive}

theorem place_taken (e : Directive) (h : x.takes muted) : x.place muted e = { x with outbox := x.outbox ++ [e] } :=
  if_pos h

theorem place_dropped (e : Directive) (h : ¬ x.takes muted) : x.place muted e = x.countDrops 1 := if_neg h

theorem placesFor_taken (n : Nat) (e : Directive) (h : x.takes muted) :
    x.placesFor muted (n + 1) = (x.place muted e).placesFor muted n + 1 := by
  obtain ⟨h1, h2⟩ := h
  rw [place_taken e ⟨h1, h2⟩]
  simp only [placesFor, h2, Bool.false_eq_true, if_false, List.length_append, List.length_cons, List.length_nil]
  omega

theorem placesFor_dropped (n : Nat) (e : Directive) (h : ¬ x.takes muted) :
    x.placesFor muted (n + 1) = 0 ∧ (x.place muted e).placesFor muted n = 0 := by
  have key (m : Nat) : x.placesFor muted m = 0 := by
    unfold placesFor
    split
    · rfl
    · rename_i h'
      have : ¬ x.outbox.length < Config.outboxCapacity := fun k => h ⟨k, by simpa using h'⟩
      omega
  refine ⟨key _, ?_⟩
  rw [place_dropped e h]
  exact key n

end TriggerSide

theorem satAdd_satAdd_one (x : BitVec 4) (n : Nat) : satAdd (satAdd x 1) n = satAdd x (n + 1) := by
  apply BitVec.eq_of_toNat_eq
  simp only [satAdd_toNat]
  omega

theorem satAdd_zero (x : BitVec 4) : satAdd x 0 = x := by
  apply BitVec.eq_of_toNat_eq
  have := x.isLt
  simp only [satAdd_toNat]
  omega

namespace TriggerSide

variable {x y : TriggerSide} {i : Fin 4} {muted : Bool} {d : TriggerStep → Directive}

/-- What a run over the steps l does to what a trigger moves (R181 to R183). -/
structure Ran (i : Fin 4) (muted : Bool) (d : TriggerStep → Directive) (l : List TriggerStep)
    (x y : TriggerSide) : Prop where
  triggerOverruns : y.triggerOverruns = x.triggerOverruns
  run : ∃ placed rest, l = placed ++ rest ∧
    y.outbox = x.outbox ++ (placed.take (x.placesFor muted placed.length)).map d ∧
    y.directiveDrops = satAdd x.directiveDrops (placed.length - x.placesFor muted placed.length) ∧
    (((∀ a ∈ placed, a.pause = 0) ∧ rest = [] ∧
        y.sequences.get i = { x.sequences.get i with st := .idle }) ∨
      ∃ front a, placed = front ++ [a] ∧ (∀ b ∈ front, b.pause = 0) ∧ a.pause ≠ 0 ∧
        y.sequences.get i = { x.sequences.get i with st := .running rest a.pause.toNat 0 })

/-- One step placed, and then a run over the steps that follow. -/
theorem Ran.step {placed : List TriggerStep} (a : TriggerStep)
    (ho : y.outbox = (x.place muted (d a)).outbox
      ++ (placed.take ((x.place muted (d a)).placesFor muted placed.length)).map d)
    (hd : y.directiveDrops = satAdd (x.place muted (d a)).directiveDrops
      (placed.length - (x.place muted (d a)).placesFor muted placed.length)) :
    y.outbox = x.outbox ++ ((a :: placed).take (x.placesFor muted (a :: placed).length)).map d ∧
    y.directiveDrops = satAdd x.directiveDrops
      ((a :: placed).length - x.placesFor muted (a :: placed).length) := by
  rw [ho, hd, List.length_cons]
  by_cases k : x.takes muted
  · rw [placesFor_taken _ (d a) k, List.take_succ_cons, List.map_cons, Nat.add_sub_add_right, place_taken _ k]
    exact ⟨by simp, rfl⟩
  · obtain ⟨h1, h2⟩ := placesFor_dropped placed.length (d a) k
    rw [h1, h2, place_dropped _ k]
    exact ⟨by simp [countDrops], satAdd_satAdd_one _ _⟩

theorem Ran.runSteps (l : List TriggerStep) (x : TriggerSide) : Ran i muted d l x (runSteps i muted d l x) := by
  induction l generalizing x with
  | nil =>
    refine ⟨rfl, [], [], rfl, by simp [Machine.runSteps, setSeq], ?_, .inl ⟨by simp, rfl, ?_⟩⟩
    · simp [Machine.runSteps, setSeq, satAdd_zero]
    · simp [Machine.runSteps, setSeq]
  | cons a l ih =>
    unfold Machine.runSteps
    split
    · rename_i hp
      obtain ⟨h0, placed, rest, h1, h2, h3, h4⟩ := ih (x.place muted (d a))
      obtain ⟨k2, k3⟩ := Ran.step a h2 h3
      refine ⟨h0.trans (place_triggerOverruns _), a :: placed, rest, by rw [h1]; rfl, k2, k3, ?_⟩
      rw [place_sequences] at h4
      rcases h4 with ⟨a1, b, c⟩ | ⟨front, y, a1, b, c, e⟩
      · exact .inl ⟨List.forall_mem_cons.mpr ⟨hp, a1⟩, b, c⟩
      · exact .inr ⟨a :: front, y, by rw [a1]; rfl, List.forall_mem_cons.mpr ⟨hp, b⟩, c, e⟩
    · rename_i hp
      obtain ⟨k2, k3⟩ := Ran.step (muted := muted) (d := d) (x := x) (y := x.place muted (d a)) (placed := []) a
        (by simp) (by simp [satAdd_zero])
      exact ⟨place_triggerOverruns _, [a], l, rfl, k2, k3, .inr ⟨[], a, rfl, by simp, hp, by simp [setSeq]⟩⟩

end TriggerSide

/-- What a run over steps does to the station (R181 to R183). -/
theorem Runs.modTriggers (i : Fin 4) (l : List TriggerStep) (s : State) (f : TriggerSide → TriggerSide)
    (h : f s.triggerSide = runSteps i s.isMute (stepDirective s) l s.triggerSide) :
    Runs i l s (s.modTriggers f) := by
  have hr := TriggerSide.Ran.runSteps (i := i) (muted := s.isMute) (d := stepDirective s) l s.triggerSide
  rw [← h] at hr
  have ho : ∀ j, j ≠ i → (f s.triggerSide).sequences.get j = s.sequences.get j := fun j hj => by
    rw [h]; exact TriggerSide.runSteps_other hj l s.triggerSide
  obtain ⟨h1, h2⟩ := hr
  simp only [← placesFor_eq] at h2
  exact ⟨modTriggers_frame f, ho, h1, h2⟩

/-! ### Edges -/

/-- What an edge does to a channel depends on the time alone. -/
theorem edgeAt_congr (he : t.eu = s.eu) (hp : t.params = s.params) (x : Channel) (p : Polarity)
    (fine : BitVec 8) : t.edgeAt x p fine = s.edgeAt x p fine := by
  unfold State.edgeAt State.edgePosition State.edgeTime State.localTime State.epochLength State.hasTime
  rw [he, hp]

/-- From `s` to `t` channels changed, and what a trigger moves. -/
def ChannelFrame (s t : State) : Prop := TriggerFrame { s with channels := t.channels } t

theorem ChannelFrame.refl (s : State) : ChannelFrame s s := TriggerFrame.rfl' s

theorem ChannelFrame.trans (h : ChannelFrame s t) (k : ChannelFrame t u) : ChannelFrame s u := by
  obtain ⟨⟨a1, a2, a3, a4, a5, a6, -, a8, a9, a10, a11, a12, a13⟩, b1, b2, b3⟩ := h
  obtain ⟨⟨c1, c2, c3, c4, c5, c6, -, c8, c9, c10, c11, c12, c13⟩, d1, d2, d3⟩ := k
  exact ⟨⟨c1.trans a1, c2.trans a2, c3.trans a3, c4.trans a4, c5.trans a5, c6.trans a6, rfl,
    Eq.trans (congrArg (fun l : Link => { l with outbox := s.link.outbox }) c8) a8, c9.trans a9, c10.trans a10,
    c11.trans a11, c12.trans a12, c13.trans a13⟩, d1.trans b1, d2.trans b2, d3.trans b3⟩

theorem takeEdge_fires (c : Fin 4) (p : Polarity) (fine : BitVec 8) (s : State) :
    Fires (s.setChan c (s.edgeAt (s.chan c) p fine).1) (takeEdge c p fine s) := by
  unfold takeEdge
  dsimp only
  split
  · exact .fireStamp _ _ _
  · exact .refl _

theorem takeEdge_frame (c : Fin 4) (p : Polarity) (fine : BitVec 8) (s : State) :
    ChannelFrame s (takeEdge c p fine s) := by
  obtain ⟨⟨a1, a2, a3, a4, a5, a6, -, a8, a9, a10, a11, a12, a13⟩, b1, b2, b3⟩ := (takeEdge_fires c p fine s).frame
  exact ⟨⟨a1, a2, a3, a4, a5, a6, rfl, a8, a9, a10, a11, a12, a13⟩, b1, b2, b3⟩

theorem takeEdge_chan (c : Fin 4) (p : Polarity) (fine : BitVec 8) (s : State) (d : Fin 4) :
    (takeEdge c p fine s).chan d = if d = c then (s.edgeAt (s.chan c) p fine).1 else s.chan d := by
  have h := (takeEdge_fires c p fine s).frame.channels
  simp only [State.chan] at h ⊢
  rw [h]
  simp

/-- Held edges of this tick move channels, and what a trigger moves. -/
theorem takeHeldEdges_frame (s : State) :
    ChannelFrame { s with marks := { s.marks with edges := [] } } (takeHeldEdges s) := by
  unfold takeHeldEdges
  generalize ({ s with marks := { s.marks with edges := [] } } : State) = t
  induction s.marks.edges generalizing t with
  | nil => exact .refl t
  | cons e l ih => exact (takeEdge_frame _ _ _ t).trans (ih _)

/-! ### A Test Source event -/

theorem testEdges_frame (s : State) (c : Fin 4) : ChannelFrame s (testEdges s c) := by
  unfold testEdges
  split
  · exact (takeEdge_frame _ _ _ _).trans (takeEdge_frame _ _ _ _)
  · exact .refl s

theorem testEdges_chan (s : State) (c d : Fin 4) :
    (testEdges s c).chan d = if d = c ∧ (s.chan c).reads .test = true then
      (s.edgeAt (s.edgeAt (s.chan c) .rise 0).1 .fall 128).1 else s.chan d := by
  unfold testEdges
  split
  · rename_i h
    have e := takeEdge_frame c .rise 0 s
    rw [takeEdge_chan, edgeAt_congr (s := s) e.eu e.params]
    by_cases hd : d = c
    · subst hd; simp [h, takeEdge_chan]
    · simp [hd, takeEdge_chan]
  · rename_i h; simp [h]

theorem forTest (l : List (Fin 4)) (hn : l.Nodup) (s : State) :
    ChannelFrame s (forEach l testEdges s) ∧ ∀ d, (forEach l testEdges s).chan d =
      if d ∈ l ∧ (s.chan d).reads .test = true then
        (s.edgeAt (s.edgeAt (s.chan d) .rise 0).1 .fall 128).1 else s.chan d := by
  induction l generalizing s with
  | nil => exact ⟨.refl s, fun d => by simp [forEach]⟩
  | cons a l ih =>
    rw [List.nodup_cons] at hn
    obtain ⟨h1, h2⟩ := ih hn.2 (testEdges s a)
    have e := testEdges_frame s a
    refine ⟨e.trans h1, fun d => ?_⟩
    show (forEach l testEdges (testEdges s a)).chan d = _
    rw [h2 d, testEdges_chan]
    simp only [edgeAt_congr (s := s) e.eu e.params]
    by_cases hd : d = a
    · subst hd; simp [hn.1]
    · simp [hd]

/-- A Test Source event gives every TEST channel its two edges, and moves no other channel. -/
theorem testChannels_chan (s : State) : ChannelFrame s (testChannels s) ∧ ∀ d, (testChannels s).chan d =
    if (s.chan d).reads .test = true then
      (s.edgeAt (s.edgeAt (s.chan d) .rise 0).1 .fall 128).1 else s.chan d := by
  have hn : s.channelOrder.Nodup := (channelOrder_perm s).nodup_iff.mpr (List.nodup_finRange 4)
  have hm : ∀ d, d ∈ s.channelOrder := fun d => (channelOrder_perm s).mem_iff.mpr (List.mem_finRange d)
  obtain ⟨h1, h2⟩ := forTest s.channelOrder hn s
  refine ⟨h1, fun d => ?_⟩
  show (forEach s.channelOrder testEdges s).chan d = _
  rw [h2 d]
  simp [hm]

/-! ### What an edge fires -/

/-- An edge forms a stamp exactly when it is selected, qualified and the one that prescale counts to (R32, R35, R37). -/
theorem edgeAt_forms_iff (s : State) (hs : s.hasTime = true) (x : Channel) (p : Polarity) (fine : BitVec 8) :
    (s.edgeAt x p fine).2 = true ↔
      ∃ g, x.config = some g ∧ g.edges.passes p = true ∧ x.prescale + 1 = g.prescale ∧
        ∀ q, x.lastEdge = some q → q + 256 * max g.holdoff 1 ≤ s.eu.elapsed * 256 + fine.toNat := by
  unfold State.edgeAt
  cases hc : x.config with
  | none => simp
  | some g =>
    simp only [hs, Bool.true_and, Option.some.injEq, exists_eq_left', Bool.and_eq_true]
    have hq : x.qualifies g.holdoff (s.edgePosition fine) = true ↔
        ∀ q, x.lastEdge = some q → q + 256 * max g.holdoff 1 ≤ s.eu.elapsed * 256 + fine.toNat := by
      unfold Channel.qualifies State.edgePosition
      cases x.lastEdge <;> simp
    rw [← hq]
    by_cases h : g.edges.passes p = true ∧ x.qualifies g.holdoff (s.edgePosition fine) = true
    · rw [if_pos h]
      simp only [Channel.select, Channel.count, h, true_and, and_true]
      by_cases h2 : x.prescale + 1 = g.prescale <;> simp [h2]
    · rw [if_neg h]
      simp only [Bool.false_eq_true, false_iff]
      rintro ⟨a, -, b⟩
      exact h ⟨a, b⟩

theorem TriggerSide.runSteps_config {i : Fin 4} {muted : Bool} {d : TriggerStep → Directive} (l : List TriggerStep)
    (x : TriggerSide) : ((runSteps i muted d l x).sequences.get i).config = (x.sequences.get i).config := by
  induction l generalizing x with
  | nil => simp [runSteps, TriggerSide.setSeq_get]
  | cons a l ih =>
    unfold runSteps
    split
    · rw [ih, TriggerSide.place_sequences]
    · simp [TriggerSide.setSeq_get]

theorem fireSequence_config (i : Fin 4) (s : State) :
    ((fireSequence i s).sequences.get i).config = (s.sequences.get i).config := by
  show ((s.triggerSide.fire i _ _).sequences.get i).config = (s.triggerSide.sequences.get i).config
  unfold TriggerSide.fire
  split
  · exact TriggerSide.runSteps_config _ _
  · rfl
  · rfl

theorem boundarySequence_config (i : Fin 4) (s : State) :
    ((boundarySequence i s).sequences.get i).config = (s.sequences.get i).config := by
  show ((s.triggerSide.boundary i _ _).sequences.get i).config = (s.triggerSide.sequences.get i).config
  unfold TriggerSide.boundary
  split
  · split
    · exact TriggerSide.runSteps_config _ _
    · simp [TriggerSide.setSeq_get]
  · rfl

theorem takeEdge_sequences (c : Fin 4) (p : Polarity) (fine : BitVec 8) (s : State) (i : Fin 4) :
    (takeEdge c p fine s).sequences.get i =
      if (s.edgeAt (s.chan c) p fine).2 = true ∧ (s.sequences.get i).onStamp c p = true then
        (fireSequence i s).sequences.get i else s.sequences.get i := by
  unfold takeEdge
  dsimp only
  by_cases h : (s.edgeAt (s.chan c) p fine).2 = true
  · rw [if_pos h, fireStamp_sequences]
    simp only [h, true_and]
    have e : (s.setChan c (s.edgeAt (s.chan c) p fine).1).sequences = s.sequences := rfl
    rw [e]
    split
    · exact fireSequence_own i _ _ rfl
    · rfl
  · rw [if_neg h, if_neg (fun k => h k.1)]
    rfl

/-- Of the two edges of a Test Source event at most one forms a stamp: the second is no tick after the first (R35,
R48). -/
theorem edgeAt_once (s : State) (x : Channel) (h : (s.edgeAt x .rise 0).2 = true) :
    (s.edgeAt (s.edgeAt x .rise 0).1 .fall 128).2 = false := by
  unfold State.edgeAt at h
  split at h
  · cases h
  · rename_i g hc
    dsimp only at h
    split at h
    · rename_i hq
      have e : (s.edgeAt x .rise 0).1.config = some g ∧ (s.edgeAt x .rise 0).1.lastEdge = some (s.edgePosition 0) := by
        unfold State.edgeAt
        rw [hc]
        dsimp only
        rw [if_pos hq]
        split <;> exact ⟨hc, rfl⟩
      generalize (s.edgeAt x .rise 0).1 = y at e
      unfold State.edgeAt
      rw [e.1]
      dsimp only
      rw [if_neg]
      intro hh
      simp only [Bool.and_eq_true, Channel.qualifies, e.2, State.edgePosition] at hh
      have hle := of_decide_eq_true hh.2
      rw [show (128 : BitVec 8).toNat = 128 from rfl, show (0 : BitVec 8).toNat = 0 from rfl] at hle
      omega
    · cases h

/-- A Test Source event fires sequence i at channel c. -/
def State.testFires (s : State) (i c : Fin 4) : Bool :=
  (s.chan c).reads .test && ((s.edgeAt (s.chan c) .rise 0).2 && (s.sequences.get i).onStamp c .rise ||
    (s.edgeAt (s.edgeAt (s.chan c) .rise 0).1 .fall 128).2 && (s.sequences.get i).onStamp c .fall)

theorem testEdges_sequences (s : State) (c i : Fin 4) : (testEdges s c).sequences.get i =
    if s.testFires i c = true then (fireSequence i s).sequences.get i else s.sequences.get i := by
  unfold testEdges State.testFires
  by_cases hr : (s.chan c).reads .test = true
  · have hF := takeEdge_frame c .rise 0 s
    have hc : (takeEdge c .rise 0 s).chan c = (s.edgeAt (s.chan c) .rise 0).1 := by rw [takeEdge_chan, if_pos rfl]
    have h0 : (takeEdge c .rise 0 s).edgeAt (s.edgeAt (s.chan c) .rise 0).1 .fall 128
        = s.edgeAt (s.edgeAt (s.chan c) .rise 0).1 .fall 128 := edgeAt_congr hF.eu hF.params _ _ _
    rw [if_pos hr, takeEdge_sequences, hc, h0, hr]
    by_cases h1 : (s.edgeAt (s.chan c) .rise 0).2 = true ∧ (s.sequences.get i).onStamp c .rise = true
    · have h2 := edgeAt_once s _ h1.1
      rw [if_neg (by rw [h2]; simp), takeEdge_sequences, if_pos h1, if_pos (by rw [h1.1, h1.2]; rfl)]
    · have e : (takeEdge c .rise 0 s).sequences.get i = s.sequences.get i := by rw [takeEdge_sequences, if_neg h1]
      rw [e]
      have h1' : ((s.edgeAt (s.chan c) .rise 0).2 && (s.sequences.get i).onStamp c .rise) = false := by
        rw [Bool.eq_false_iff]; simpa using h1
      simp only [h1', Bool.true_and, Bool.false_or, Bool.and_eq_true]
      split
      · exact fireSequence_own i _ _ e
      · rfl
  · rw [if_neg hr, if_neg (by simp [hr])]

theorem onStamp_channel {x : Sequence} {c d : Fin 4} {p q : Polarity} (h : x.onStamp c p = true)
    (k : x.onStamp d q = true) : c = d := by
  unfold Sequence.onStamp at h k
  split at h
  · rename_i e
    simp only [e, Bool.and_eq_true, beq_iff_eq] at h k
    exact h.1.symm.trans k.1
  · cases h

theorem testFires_channel {i c d : Fin 4} (h : s.testFires i c = true) (k : s.testFires i d = true) : c = d := by
  simp only [State.testFires, Bool.and_eq_true, Bool.or_eq_true] at h k
  rcases h with ⟨-, h | h⟩ <;> rcases k with ⟨-, k | k⟩ <;> exact onStamp_channel h.2 k.2

theorem forTest_sequences (l : List (Fin 4)) (hn : l.Nodup) (s : State) (i : Fin 4) :
    (forEach l testEdges s).sequences.get i =
      if ∃ c ∈ l, s.testFires i c = true then (fireSequence i s).sequences.get i else s.sequences.get i := by
  induction l generalizing s with
  | nil => simp [forEach]
  | cons a l ih =>
    obtain ⟨n1, n2⟩ := List.nodup_cons.mp hn
    have hF := testEdges_frame s a
    have hs := testEdges_sequences s a i
    have hcfg : ((testEdges s a).sequences.get i).config = (s.sequences.get i).config := by
      rw [hs]
      split
      · exact fireSequence_config i s
      · rfl
    have hh : ∀ c ∈ l, (testEdges s a).testFires i c = s.testFires i c := fun c hc => by
      have e : (testEdges s a).chan c = s.chan c := by
        rw [testEdges_chan, if_neg]
        rintro ⟨rfl, -⟩
        exact n1 hc
      have hE : ∀ x p f, (testEdges s a).edgeAt x p f = s.edgeAt x p f := edgeAt_congr hF.eu hF.params
      unfold State.testFires Sequence.onStamp
      rw [e, hcfg, hE, hE]
    have hex : (∃ c ∈ l, (testEdges s a).testFires i c = true) ↔ ∃ c ∈ l, s.testFires i c = true :=
      exists_congr fun c => and_congr_right fun hc => by rw [hh c hc]
    show (forEach l testEdges (testEdges s a)).sequences.get i = _
    rw [ih n2]
    simp only [hex]
    by_cases ha : s.testFires i a = true
    · rw [if_neg (fun ⟨c, hc, hk⟩ => n1 (testFires_channel ha hk ▸ hc)), hs, if_pos ha,
        if_pos ⟨a, List.mem_cons_self, ha⟩]
    · rw [if_neg ha] at hs
      have h2 : (∃ c ∈ a :: l, s.testFires i c = true) ↔ ∃ c ∈ l, s.testFires i c = true := by
        simp only [List.mem_cons, exists_eq_or_imp, ha, false_or, Bool.false_eq_true]
      simp only [h2]
      split
      · exact fireSequence_own i _ _ hs
      · exact hs

/-- A Test Source event fires, once, each sequence whose source is a stamp it forms (R38, R180). -/
theorem testChannels_sequences (s : State) (i : Fin 4) : (testChannels s).sequences.get i =
    if ∃ c, s.testFires i c = true then (fireSequence i s).sequences.get i else s.sequences.get i := by
  have hm : ∀ d, d ∈ s.channelOrder := fun d => (channelOrder_perm s).mem_iff.mpr (List.mem_finRange d)
  show (forEach s.channelOrder testEdges s).sequences.get i = _
  rw [forTest_sequences _ ((channelOrder_perm s).nodup_iff.mpr (List.nodup_finRange 4))]
  simp only [hm, true_and]

/-! ### A change of local time -/

theorem retake_congr (he : u.eu = s.eu) (hp : u.params = s.params) (f : Channel → Channel) (x : Channel) :
    u.retake f x = s.retake f x := by
  unfold State.retake
  rw [he]
  split
  · rw [edgeAt_congr he hp]
  · rfl

theorem retakeEdges_chan (f : Channel → Channel) (s : State) (c : Fin 4) :
    (retakeEdges f s).chan c = s.retake f (s.chan c) := by
  simp [retakeEdges, State.chan]

/-! ### Window ends -/

/-- A window end counts a miss of its peer, or none when a presence has been noted (R69, R95). -/
theorem deliverWindowEnd_peer (p : Fin 16) (s : State) (q : Fin 16) : (deliverWindowEnd p s).peer q =
    if q = p then (if s.link.windowPresence then s.peer p else (s.peer p).miss s.params.missLimit.toNat)
    else s.peer q := by
  have notify (k : FaultKind) (u : State) : (notifyPeer k p u).peer q = u.peer q :=
    congrArg (fun x => Table.get x q) (Acts.notifyPeer k p u).frame.peers
  unfold deliverWindowEnd missWindow
  dsimp only
  split <;> rename_i h
  · by_cases hq : q = p
    · subst hq; simp [State.peer]
    · simp [hq, State.peer]
  · by_cases hq : q = p
    · subst hq
      split
      · rw [notify]; simp [State.peer]
      · simp [State.peer]
    · split
      · rw [notify]; simp [State.peer, hq]
      · simp [State.peer, hq]

/-- With a presence noted, a window end clears the note and changes nothing else. -/
theorem deliverWindowEnd_seen (p : Fin 16) (s : State) (h : s.link.windowPresence = true) :
    deliverWindowEnd p s = { s with link := { s.link with windowPresence := false } } := by
  simp [deliverWindowEnd, h]

end Sys2Proof.Machine
end

