-- ==== Sys2Proof/Laws/Link.lean ====
section
/-! SUPPORT. What Transmit Assembly, the end of the own frame and reception can do. -/

namespace Sys2Proof.Machine

variable {w : Bool} {P : Fin 8 → Prop} {s t u : State}

/-! ### The frame's eight positions -/

theorem placeStatus_len (x : Draft) : (placeStatus x).records.length ≤ x.records.length + 1 := by
  unfold placeStatus; split <;> simp

theorem placeDirectives_len (x : Draft) (h : x.records.length ≤ Config.framePositions) :
    (placeDirectives x).records.length ≤ Config.framePositions := by
  simp only [placeDirectives, Draft.free, List.length_append, List.length_map, List.length_take]
  omega

theorem dataRecords_length (m : Fin 8) (j : Nat) (l : List (BitVec 48)) :
    (dataRecords m j l).length = l.length := by
  induction l generalizing j with
  | nil => rfl
  | cons v l ih => simp [dataRecords, ih]

theorem groupRecords_length (g : Group) : (groupRecords g).length = 1 + g.values.length := by
  simp [groupRecords, dataRecords_length, Nat.add_comm]

/-- The groups taken fill no more than the positions they are offered. -/
theorem groupsTaken_fit (free : Nat) (l : List Group) :
    (((l.take (groupsTaken free l)).map groupRecords).flatten).length ≤ free := by
  induction l generalizing free with
  | nil => simp [groupsTaken]
  | cons g l ih =>
    unfold groupsTaken
    split
    · rename_i h
      have := ih (free - (1 + g.values.length))
      rw [Nat.add_comm 1, List.take_succ_cons, List.map_cons, List.flatten_cons, List.length_append,
        groupRecords_length]
      omega
    · simp

theorem groupLimit_le (s : State) : s.groupLimit ≤ Config.framePositions := by
  unfold State.groupLimit; split <;> decide

theorem placeGroups_len (x : Draft) (h : x.records.length ≤ Config.framePositions) :
    (placeGroups x).records.length ≤ Config.framePositions := by
  simp only [placeGroups, List.length_append]
  have h1 := groupsTaken_fit (x.state.groupLimit - x.records.length) x.state.queue
  have h2 := groupLimit_le x.state
  omega

theorem placeStamps_len (n : Nat) (x : Draft) :
    (placeStamps n x).records.length ≤ x.records.length + n := by
  induction n generalizing x with
  | zero => simp [placeStamps]
  | succ n ih =>
    unfold placeStamps
    split
    · omega
    · refine (ih _).trans ?_
      simp only [List.length_append, List.length_cons, List.length_nil]; omega

/-- A frame has at most 8 records (R72). -/
theorem fillFrame_len (s : State) : (fillFrame s).records.length ≤ Config.framePositions := by
  unfold fillFrame
  dsimp only
  have h0 := placeStatus_len ⟨s, []⟩
  have h1 : (placeStatus ⟨s, []⟩).records.length ≤ Config.framePositions :=
    h0.trans (by simp [Config.framePositions])
  have h2 := placeGroups_len _ (placeDirectives_len _ h1)
  refine (placeStamps_len _ _).trans ?_
  simp only [Draft.free]; omega

/-! ### What filling a frame does to the station -/

/-- What the placements of a frame do: nothing that a step reads changes but the counts a STATUS record
clears, the outbox and the queue, which lose what stood in front, and the Store, which only loses. -/
structure Fills (s t : State) : Prop where
  outside : OutsideFrame s t
  eu : t.eu = s.eu
  loader : t.loader = s.loader
  measures : t.measures = s.measures
  directives : t.directives = s.directives
  peers : t.peers = s.peers
  sequences : t.sequences = s.sequences
  params : t.params = s.params
  sending : t.link.sending = s.link.sending
  receiver : t.link.receiver = s.link.receiver
  consecutive : t.link.consecutive = s.link.consecutive
  outbox : t.link.outbox.length ≤ s.link.outbox.length
  queue : t.queue.length ≤ s.queue.length
  store_len : t.store.length ≤ s.store.length
  wanted : (∀ e ∈ s.store, e.wanted = true) → ∀ e ∈ t.store, e.wanted = true
  publish : (∀ e ∈ s.store, e.publish = false) → ∀ e ∈ t.store, e.publish = false
  untested : t.untested = s.untested
  views : ∀ i r, s.view i r = [] → t.view i r = []

theorem Fills.refl (s : State) : Fills s s :=
  ⟨.rfl' s, rfl, rfl, rfl, rfl, rfl, rfl, rfl, rfl, rfl, rfl, le_rfl, le_rfl, le_rfl, id, id, rfl, fun _ _ => id⟩

theorem Fills.trans (h : Fills s t) (k : Fills t u) : Fills s u where
  outside := h.outside.trans k.outside
  eu := k.eu.trans h.eu
  loader := k.loader.trans h.loader
  measures := k.measures.trans h.measures
  directives := k.directives.trans h.directives
  peers := k.peers.trans h.peers
  sequences := k.sequences.trans h.sequences
  params := k.params.trans h.params
  sending := k.sending.trans h.sending
  receiver := k.receiver.trans h.receiver
  consecutive := k.consecutive.trans h.consecutive
  outbox := k.outbox.trans h.outbox
  queue := k.queue.trans h.queue
  store_len := k.store_len.trans h.store_len
  wanted := fun x => k.wanted (h.wanted x)
  publish := fun x => k.publish (h.publish x)
  untested := k.untested.trans h.untested
  views := fun i r x => k.views i r (h.views i r x)

theorem Fills.placeStatus (x : Draft) : Fills x.state (placeStatus x).state := by
  unfold Machine.placeStatus
  split
  · exact ⟨⟨rfl, rfl⟩, rfl, rfl, rfl, rfl, rfl, rfl, rfl, rfl, rfl, rfl, le_rfl, le_rfl, le_rfl, id, id,
      rfl, fun _ _ => id⟩
  · exact .refl _

theorem Fills.placeDirectives (x : Draft) : Fills x.state (placeDirectives x).state :=
  ⟨⟨rfl, rfl⟩, rfl, rfl, rfl, rfl, rfl, rfl, rfl, rfl, rfl, rfl,
    by simp [Machine.placeDirectives, State.modTriggers, State.setTriggers, State.triggerSide], le_rfl, le_rfl, id,
    id, rfl, fun _ _ => id⟩

theorem Fills.placeGroups (x : Draft) : Fills x.state (placeGroups x).state :=
  ⟨⟨rfl, rfl⟩, rfl, rfl, rfl, rfl, rfl, rfl, rfl, rfl, rfl, rfl, le_rfl,
    by simp [Machine.placeGroups], le_rfl, id, id, rfl, fun _ _ => id⟩

theorem Fills.takePublished (e : Entry) (s : State) : Fills s (takePublished e s) where
  outside := ⟨rfl, rfl⟩
  eu := rfl
  loader := rfl
  measures := rfl
  directives := rfl
  peers := rfl
  sequences := rfl
  params := rfl
  sending := rfl
  receiver := rfl
  consecutive := rfl
  outbox := le_rfl
  queue := le_rfl
  store_len := by
    refine (List.length_filter_le _ _).trans ?_
    simp
  wanted := fun _ x hx => (List.mem_filter.mp hx).2
  publish := fun h x hx => by
    obtain ⟨y, hy, rfl⟩ := List.mem_map.mp (List.mem_filter.mp hx).1
    split
    · rfl
    · exact h y hy
  untested := rfl
  views := fun i r hn => by
    show (s.setStore _).view i r = []
    rw [view_mapStore, List.filter_eq_nil_iff]
    intro x hx hin
    obtain ⟨y, hy, rfl⟩ := List.mem_map.mp hx
    refine List.filter_eq_nil_iff.mp hn y hy ?_
    split at hin
    · cases r <;> exact hin
    · exact hin

theorem Fills.placeStamps (n : Nat) (x : Draft) : Fills x.state (placeStamps n x).state := by
  induction n generalizing x with
  | zero => exact .refl _
  | succ n ih =>
    unfold Machine.placeStamps
    split
    · exact .refl _
    · rename_i e _
      exact Fills.trans (.takePublished e x.state) (ih
        { state := Machine.takePublished e x.state
          records := x.records ++ [.stamp e.channel e.polarity (x.state.carriedDrops e) e.time] })

theorem Fills.fillFrame (s : State) : Fills s (fillFrame s).state :=
  (((Fills.placeStatus ⟨s, []⟩).trans (.placeDirectives _)).trans (.placeGroups _)).trans
    (.placeStamps _ _)

theorem Fills.bounded (h : Fills s t) (hs : Bounded s) (ht : s.hasTime = true) : Bounded t where
  store_le := h.store_len.trans hs.store_le
  store_wanted := h.wanted hs.store_wanted
  store_publish := by rw [h.eu]; exact fun x => h.publish (hs.store_publish x)
  queue_le := h.queue.trans hs.queue_le
  directives_le := by rw [h.directives]; exact hs.directives_le
  outbox_le := h.outbox.trans hs.outbox_le
  released := fun i => by
    have hm : t.meas i = s.meas i := by simp only [State.meas, h.measures]
    refine (hs.released i).imp (fun k => by rwa [hm]) fun k => noConsumer_iff.mpr fun r => ?_
    exact h.views i r (noConsumer_iff.mp k r)
  consecutive_lt := by rw [h.consecutive]; exact hs.consecutive_lt
  sending_locked := by rw [h.sending, h.eu]; exact hs.sending_locked
  sending_le := by rw [h.sending]; exact hs.sending_le
  timeless := by
    rw [hasTime_congr (congrArg EpochUnit.align h.eu), ht]; intro h; cases h

/-- Assembly keeps the bounds; a LOCKED station has its frame in flight. -/
theorem assemble_keeps (s : State) : OutsideFrame s (assemble s) ∧ (assemble s).hasTime = s.hasTime ∧
    (s.hasTime = true → Bounded s → Bounded (assemble s)) := by
  have hf := Fills.fillFrame { s with marks := { s.marks with assembly := true } }
  have hl := fillFrame_len { s with marks := { s.marks with assembly := true } }
  unfold assemble
  dsimp only
  have ha : (fillFrame { s with marks := { s.marks with assembly := true } }).state.eu.align = s.eu.align := by
    rw [hf.eu]
  split
  · rename_i hk
    refine ⟨⟨hf.outside.pending, hf.outside.order⟩, hasTime_congr ha, fun ht hs => ?_⟩
    have hb := hf.bounded (by exact ⟨hs.1, hs.2, hs.3, hs.4, hs.5, hs.6, hs.7, hs.8, hs.9, hs.10, hs.11⟩) ht
    exact { hb with
      sending_locked := fun _ => hk
      sending_le := fun x hx => by cases hx; exact hl }
  · refine ⟨⟨hf.outside.pending, hf.outside.order⟩, hasTime_congr ha, fun ht hs => ?_⟩
    exact hf.bounded (by exact ⟨hs.1, hs.2, hs.3, hs.4, hs.5, hs.6, hs.7, hs.8, hs.9, hs.10, hs.11⟩) ht

theorem Keeps.endReception (s : State) : Keeps s (endReception s) := by
  unfold Machine.endReception
  split
  · exact .congr ⟨rfl, rfl⟩ rfl rfl rfl rfl rfl rfl rfl rfl
  · exact .refl s

theorem endReception_keeps (s : State) : OutsideFrame s (endReception s) ∧
    (endReception s).hasTime = s.hasTime ∧ (Bounded s → Bounded (endReception s)) := by
  unfold endReception
  split
  · exact ⟨⟨rfl, rfl⟩, rfl, fun hs => ⟨hs.1, hs.2, hs.3, hs.4, hs.5, hs.6, hs.7, hs.8, hs.9, hs.10, hs.11⟩⟩
  · exact ⟨.rfl' s, rfl, id⟩

/-! ### The arbiter -/

theorem enqueueGroup_queue (g : Group) (s : State) :
    (enqueueGroup g s).queue = s.queue ++ [{ g with sequence := (s.meas g.measure).sequence }] := by
  unfold enqueueGroup
  rw [(Fires.fireEnqueue g.measure _).frame.queue]

/-- A waiting measure that is given a place takes it. -/
theorem givePlace_grows {i : Fin 8} (hw : (s.meas i).waits = true) :
    s.queue.length + 1 ≤ (givePlace i s).queue.length := by
  unfold givePlace
  dsimp only
  split
  · refine le_trans ?_ (Acts.afterHeldGroup (i := i) (s.meas i).pendingFault _).queue.length_le
    rw [enqueueGroup_queue]; simp
  · rw [enqueueGroup_queue]; simp
  · rename_i h1 h2
    exfalso
    simp only [Measure.waits, Bool.or_eq_true, Bool.and_eq_true, beq_iff_eq, Option.isSome_iff_exists] at hw
    rcases hw with ⟨a, g, b⟩ | ⟨a, g, b⟩
    · exact h1 g a b
    · exact h2 g a b

/-- After the giving of places the queue is full, or no measure waits, or every place offered was taken. -/
theorem givePlaces_full (n : Nat) (s : State) : (givePlaces n s).queueRoom = false ∨
    ¬ (givePlaces n s).someWaits ∨ s.queue.length + n ≤ (givePlaces n s).queue.length := by
  induction n generalizing s with
  | zero => exact .inr (.inr (by simp [givePlaces]))
  | succ n ih =>
    unfold givePlaces
    split
    · rename_i h
      split
      · rename_i i hi
        have hw : (s.meas i).waits = true := by
          simpa using List.find?_some hi
        have hg := givePlace_grows hw
        rcases ih (givePlace i s) with h1 | h1 | h1
        · exact .inl h1
        · exact .inr (.inl h1)
        · exact .inr (.inr (by omega))
      · rename_i hn
        refine .inr (.inl ?_)
        rintro ⟨i, hi⟩
        have := List.find?_eq_none.mp hn i (List.mem_finRange i)
        exact this hi
    · rename_i h
      exact .inl (by simpa using h)

/-- The start of an own window keeps the invariant. -/
theorem startOwnWindow_keeps (s : State) : Keeps s (startOwnWindow s) := by
  have h : ∃ t, startOwnWindow s = givePlaces Config.queueCapacity t ∧ OutsideFrame s t ∧
      t.hasTime = s.hasTime ∧ (s.hasTime = true → Bounded s → Bounded t) := by
    unfold startOwnWindow
    refine ⟨_, rfl, ?_⟩
    split
    · obtain ⟨a1, a2, a3⟩ := assemble_keeps s
      obtain ⟨b1, b2, b3⟩ := endReception_keeps (assemble s)
      exact ⟨a1.trans b1, b2.trans a2, fun ht hs => b3 (a3 ht hs)⟩
    · obtain ⟨b1, b2, b3⟩ := endReception_keeps s
      obtain ⟨a1, a2, a3⟩ := assemble_keeps (endReception s)
      exact ⟨b1.trans a1, a2.trans b2, fun ht hs => a3 (b2.trans ht) (b3 hs)⟩
  obtain ⟨t, e, h1, h2, h3⟩ := h
  rw [e]
  have hg := Acts.givePlaces Config.queueCapacity t
  refine ⟨h1.trans ⟨hg.frame.pending, hg.frame.order⟩, (hasTime_congr (by rw [hg.frame.eu])).trans h2,
    fun ht hs => ?_⟩
  have hb := hg.bounded (h2.trans ht) (h3 ht hs.toBounded)
  refine { hb with waiting_full := fun hw => ?_ }
  have hle := hb.queue_le
  rcases givePlaces_full Config.queueCapacity t with k | k | k
  · rw [queueRoom_false_iff] at k; omega
  · exact absurd hw k
  · omega

/-! ### Collisions and the end of the own frame -/

theorem enterMute_inv (hn : s.link.sending = none) (hs : Sound s) :
    Sound (enterMute s) where
  store_le := by
    refine (List.length_filter_le _ _).trans ?_
    simp only [List.length_map]; exact hs.store_le
  store_wanted := fun x hx => (List.mem_filter.mp hx).2
  store_publish := fun _ x hx => by
    obtain ⟨y, -, rfl⟩ := List.mem_map.mp (List.mem_filter.mp hx).1
    rfl
  queue_le := hs.queue_le
  directives_le := hs.directives_le
  outbox_le := hs.outbox_le
  released := fun i => (Acts.mapStore (w := true) (P := fun _ => False) (fun e : Entry => { e with publish := false })
    (fun _ _ => rfl) (fun _ _ r h => by cases r <;> exact h) fun _ _ _ => rfl).released i (hs.released i)
  consecutive_lt := hs.consecutive_lt
  sending_locked := fun h => by
    have : s.link.sending.isSome = true := h
    rw [hn] at this; cases this
  sending_le := hs.sending_le
  timeless := fun h => by cases h
  waiting_full := hs.waiting_full

theorem loseRecords_link (l : List Record) (s : State) : (l.foldl loseRecord s).link = s.link := by
  induction l generalizing s with
  | nil => rfl
  | cons r l ih => rw [List.foldl_cons, ih]; cases r <;> rfl

theorem abandonFrame_sending (s : State) : (abandonFrame s).link.sending = none := by
  unfold abandonFrame
  split
  · assumption
  · dsimp only
    split
    · rfl
    · rw [loseRecords_link]

theorem collide_keeps (s : State) : OutsideFrame s (collide s) ∧
    (s.hasTime = true → Sound s → Sound (collide s)) := by
  have ha := Keeps.abandonFrame s
  have hn := abandonFrame_sending s
  have hk : Keeps (abandonFrame s) { abandonFrame s with
      link := { (abandonFrame s).link with collisions := satAdd (abandonFrame s).link.collisions 1 } } :=
    .congr ⟨rfl, rfl⟩ rfl rfl rfl rfl rfl rfl rfl rfl
  have h2 := ha.trans hk
  unfold collide
  dsimp only
  split
  · refine ⟨⟨h2.outside.pending, h2.outside.order⟩, fun ht hs => ?_⟩
    exact enterMute_inv hn (h2.inv ht hs)
  · rename_i hc
    refine ⟨⟨h2.outside.pending, h2.outside.order⟩, fun ht hs => ?_⟩
    have hi := h2.inv ht hs
    have hlt : (abandonFrame s).link.consecutive < Config.muteCollisions := hi.consecutive_lt
    have hc : ¬ (abandonFrame s).link.consecutive + 1 = Config.muteCollisions := hc
    exact ⟨{ hi.toBounded with consecutive_lt := by show _ + 1 < _; omega }, hi.waiting_full⟩

theorem selfDeliver_keeps (straps : BitVec 4) (s : State) (r : Record) :
    OutsideFrame s (selfDeliver straps s r) ∧ (Sound s → Sound (selfDeliver straps s r)) := by
  unfold selfDeliver
  split
  · split
    · rename_i h
      simp only [Bool.and_eq_true] at h
      exact ⟨(arriveDirective_keeps _ _ s).1, (arriveDirective_keeps _ _ s).2 h.1⟩
    · exact ⟨.rfl' s, id⟩
  all_goals exact ⟨.rfl' s, id⟩

theorem foldl_keeps {α : Type} {f : State → α → State}
    (h : ∀ s a, OutsideFrame s (f s a) ∧ (Sound s → Sound (f s a))) (l : List α) (s : State) :
    OutsideFrame s (l.foldl f s) ∧ (Sound s → Sound (l.foldl f s)) := by
  induction l generalizing s with
  | nil => exact ⟨.rfl' s, id⟩
  | cons a l ih =>
    exact ⟨(h s a).1.trans (ih (f s a)).1, fun hs => (ih (f s a)).2 ((h s a).2 hs)⟩

theorem endFrame_keeps (straps : BitVec 4) (x : Sending) (s : State) (hx : s.link.sending = some x) :
    OutsideFrame s (endFrame straps x s) ∧ (Sound s → Sound (endFrame straps x s)) := by
  unfold endFrame
  obtain ⟨h1, h2⟩ := foldl_keeps (f := selfDeliver straps) (selfDeliver_keeps straps) x.frame.records
    { s with link := { s.link with sending := some { x with ended := true }, consecutive := 0 } }
  refine ⟨⟨h1.pending, h1.order⟩, fun hs => h2 ?_⟩
  exact { hs with
    consecutive_lt := by simp [Config.muteCollisions]
    sending_locked := fun _ => hs.sending_locked (by rw [hx]; rfl)
    sending_le := fun y hy => by cases hy; exact hs.sending_le x hx
    timeless := hs.timeless }

/-! ### Reception -/

theorem Acts.takeStoreFull {i : Fin 8} (st : Fin 16) (c : Fin 4) (s : State) :
    Acts true (Only i) s (takeStoreFull st c i s) := by
  unfold Machine.takeStoreFull
  dsimp only
  have h1 : Acts true (Only i) s (s.modMeas i fun m =>
      { m with
        pendingA := m.pendingA || m.roleReads .A st c
        pendingB := m.pendingB || m.roleReads .B st c }) := .modKeep rfl rfl rfl
  split
  · exact h1.trans (.takeCondition _ _ _)
  · exact h1

theorem Acts.dropRemote (e : Entry) (s : State) :
    Acts true (fun i => e.consumers.getLsbD i.val = true) s (dropRemote e s) :=
  .serve (p := fun i => e.consumers.getLsbD i.val) (f := fun i => Machine.takeStoreFull e.station e.channel i)
    (fun _ s => .takeStoreFull _ _ s) s s

theorem Keeps.offerRemote (st : Fin 16) (c : Fin 4) (p : Polarity) (d : BitVec 8) (x : TimeStamp)
    (s : State) : Keeps s (offerRemote st c p d x s) := by
  unfold Machine.offerRemote
  dsimp only
  split
  · exact .refl s
  · split
    · exact (Acts.dropRemote _ s).keeps
    · rename_i h
      simp only [Bool.or_eq_true, Bool.not_eq_true', not_or, Bool.not_eq_false] at h
      refine (Keeps.store1 _ h.2 ?_ fun _ => offeredEntry_active).trans (Acts.scanArrival _ _).keeps
      intro h; cases h

theorem dispatchRecord_keeps (p : Fin 16) (straps : BitVec 4) (s : State) (r : ReadRecord) :
    OutsideFrame s (dispatchRecord p straps s r) ∧ (Sound s → Sound (dispatchRecord p straps s r)) := by
  unfold dispatchRecord
  split
  · rename_i ht
    split
    · exact ⟨(Keeps.offerRemote _ _ _ _ _ s).outside, (Keeps.offerRemote _ _ _ _ _ s).inv ht⟩
    · split
      · exact ⟨(arriveDirective_keeps _ _ s).1, (arriveDirective_keeps _ _ s).2 ht⟩
      · exact ⟨.rfl' s, id⟩
    · exact ⟨.rfl' s, id⟩
    · exact ⟨.rfl' s, id⟩
  · exact ⟨.rfl' s, id⟩

theorem dispatch_keeps (p : Fin 16) (straps : BitVec 4) (f : ReadFrame) (s : State) :
    OutsideFrame s (dispatch p straps f s) ∧ (Sound s → Sound (dispatch p straps f s)) := by
  unfold dispatch writeHorizon
  obtain ⟨h1, h2⟩ := foldl_keeps (dispatchRecord_keeps p straps) f.records s
  split
  · rename_i ht
    exact ⟨h1.trans ⟨rfl, rfl⟩, fun hs => (Keeps.setPeer _ _).inv ht (h2 hs)⟩
  · exact ⟨h1, h2⟩

theorem Keeps.adoptFrom (f : ReadFrame) (s : State) : Keeps s (adoptFrom f s) := by
  unfold Machine.adoptFrom
  split
  · exact .adopt _ s
  · exact .refl s

theorem judgeEpoch_keeps (p : Fin 16) (straps : BitVec 4) (b : Peer) (f : ReadFrame) (s : State)
    (ht : s.hasTime = true) :
    OutsideFrame s (judgeEpoch p straps b f s) ∧ (Sound s → Sound (judgeEpoch p straps b f s)) := by
  unfold judgeEpoch
  split
  · have ha := Keeps.adoptFrom f s
    obtain ⟨h1, h2⟩ := dispatch_keeps p straps f (adoptFrom f s)
    exact ⟨ha.outside.trans h1, fun hs => h2 (ha.inv ht hs)⟩
  · exact ⟨⟨rfl, rfl⟩, Keeps.countDiscard.inv ht⟩

theorem setLocked_inv (e : BitVec 16) (o : Nat) (g : AlignOrigin) (hs : Sound s) :
    Sound (setLocked e o g s) where
  store_le := hs.store_le
  store_wanted := hs.store_wanted
  store_publish := fun h => absurd rfl h
  queue_le := hs.queue_le
  directives_le := hs.directives_le
  outbox_le := hs.outbox_le
  released := hs.released
  consecutive_lt := hs.consecutive_lt
  sending_locked := fun _ => rfl
  sending_le := hs.sending_le
  timeless := fun h => by cases h
  waiting_full := hs.waiting_full

/-- Becoming LOCKED, with the edges held for it, keeps the invariant and gives local time. -/
theorem becomeLocked_keeps (e : BitVec 16) (o : Nat) (g : AlignOrigin) (s : State) :
    OutsideFrame s (becomeLocked e o g s) ∧ (becomeLocked e o g s).hasTime = true ∧
    (Sound s → Sound (becomeLocked e o g s)) := by
  have h := Keeps.takeHeldEdges (setLocked e o g s)
  have ht : (setLocked e o g s).hasTime = true := rfl
  exact ⟨⟨h.outside.pending, h.outside.order⟩, h.time.trans ht, fun hs => h.inv ht (setLocked_inv e o g hs)⟩

theorem lockByTimeout_keeps (s : State) :
    OutsideFrame s (lockByTimeout s) ∧ (Sound s → Sound (lockByTimeout s)) := by
  obtain ⟨h1, ht, h3⟩ := becomeLocked_keeps 0 (s.eu.offset % s.epochLength) .founderTimeout s
  unfold lockByTimeout
  dsimp only
  split
  · have k := Keeps.endReception (becomeLocked 0 (s.eu.offset % s.epochLength) .founderTimeout s)
    exact ⟨h1.trans k.outside, fun hs => k.inv ht (h3 hs)⟩
  · exact ⟨h1, h3⟩

theorem hasTime_of_schedule (h : s.hasSchedule = true) (h' : s.eu.align ≠ some .aligning) :
    s.hasTime = true := by
  simp only [State.hasSchedule, Bool.or_eq_true, beq_iff_eq] at h
  exact h.resolve_right h'

theorem joinBy_keeps (f : ReadFrame) (s : State) (hk : s.hasSchedule = true) :
    OutsideFrame s (joinBy f s) ∧ (joinBy f s).hasTime = true ∧ (Sound s → Sound (joinBy f s)) := by
  unfold joinBy
  split
  · exact becomeLocked_keeps _ _ _ s
  · rename_i h
    exact ⟨.rfl' s, hasTime_of_schedule hk h, id⟩

theorem Keeps.notePresence (x : Reception) (s : State) : Keeps s (notePresence x s) := by
  unfold Machine.notePresence
  split
  · exact .refl _
  · exact .congr ⟨rfl, rfl⟩ rfl rfl rfl rfl rfl rfl rfl rfl

theorem takeFrame_keeps (x : Reception) (straps : BitVec 4) (f : ReadFrame) (s : State)
    (hk : s.hasSchedule = true) :
    OutsideFrame s (takeFrame x straps f s) ∧ (Sound s → Sound (takeFrame x straps f s)) := by
  unfold takeFrame
  dsimp only
  obtain ⟨j1, j2, j3⟩ := joinBy_keeps f s hk
  have hp := (Keeps.notePresence x (joinBy f s)).trans (Keeps.presence (finOfNat 15 f.sender) _)
  obtain ⟨e1, e2⟩ := judgeEpoch_keeps (finOfNat 15 f.sender) straps
    ((joinBy f s).peer (finOfNat 15 f.sender)) f _ (hp.time.trans j2)
  exact ⟨(j1.trans hp.outside).trans e1, fun hs => e2 (hp.inv j2 (j3 hs))⟩

theorem receiveFrame_keeps (x : Reception) (straps : BitVec 4) (f : ReadFrame) (s : State)
    (hk : s.hasSchedule = true) :
    OutsideFrame s (receiveFrame x straps f s) ∧ (Sound s → Sound (receiveFrame x straps f s)) := by
  have h1 : Sound s → Sound { s with link := { s.link with receiver := none } } := fun hs =>
    hs.congr rfl rfl rfl rfl rfl rfl rfl rfl
  unfold receiveFrame
  dsimp only
  split
  · split
    · obtain ⟨a, b⟩ := takeFrame_keeps x straps f { s with link := { s.link with receiver := none } } hk
      exact ⟨⟨a.pending, a.order⟩, fun hs => b (h1 hs)⟩
    · unfold takeForeign
      split
      · rename_i ht
        have a := (Keeps.notePresence x { s with link := { s.link with receiver := none } }).trans
          (Keeps.foreignPresence (finOfNat 15 f.sender) _)
        exact ⟨⟨a.outside.pending, a.outside.order⟩, fun hs => a.inv ht (h1 hs)⟩
      · exact ⟨⟨rfl, rfl⟩, h1⟩
  · exact ⟨⟨rfl, rfl⟩, fun hs => hs.congr rfl rfl rfl rfl rfl rfl rfl rfl⟩

end Sys2Proof.Machine
end

