-- ==== Sys2Proof/Laws/Commands.lean ====
section
/-! SUPPORT. What each command can do: it answers a next state, leaves what is outside the station as it was,
and keeps the invariant. -/

namespace Sys2Proof.Machine

variable {s t : State}

/-- A command ends in `t`, with what is outside the station unchanged and the invariant kept. -/
abbrev Ends (s t : State) : Prop := OutsideFrame s t ∧ (Sound s → Sound t)

theorem Ends.refl (s : State) : Ends s s := ⟨.rfl' s, id⟩

theorem Keeps.ends (h : Keeps s t) (ht : s.hasTime = true) : Ends s t := ⟨h.outside, h.inv ht⟩

theorem reached_time {x : TimeStamp} (h : s.reached x = true) : s.hasTime = true := by
  simp only [State.reached, Bool.and_eq_true] at h
  exact h.1

/-! ### Judging without local time -/

theorem quiet_not_active (h : (s.meas i).quiet = true) : (s.meas i).st.active = false := by
  simp only [Measure.quiet, MeasureState.reported, Bool.and_eq_true, Bool.not_eq_true', Bool.or_eq_false_iff] at h
  exact h.1.1

/-- A measure that takes no part judges nothing. -/
theorem judge_quiet (h : (s.meas i).quiet = true) : judge i s = ⟨s, true⟩ := by
  have hm : judgeMove i s = none := by
    unfold judgeMove
    split
    · rfl
    · rw [quiet_not_active h]; rfl
  unfold judge State.judgeFuel judgeLoop
  rw [hm]

theorem quiet_not_closing (h : (s.meas i).quiet = true) : (s.meas i).st ≠ .closing := by
  intro e
  simp [Measure.quiet, e, MeasureState.reported, MeasureState.active] at h

/-! ### Commands -/

theorem effectResetAssert_ends : Ends s (effectResetAssert s) :=
  ⟨⟨rfl, rfl⟩, fun _ => .allReset s⟩

theorem effectResetRelease_ends (straps : BitVec 4) : Ends s (effectResetRelease straps s) := by
  unfold effectResetRelease
  split
  · exact ⟨⟨rfl, rfl⟩, fun _ => .start _ _ _⟩
  · exact .refl s

theorem quiet_loaded (image : List Byte) (n : Fin 16) (i : Fin 8) :
    (loadedMeasure image n i).quiet = true ∧ (loadedMeasure image n i).waits = false := by
  unfold loadedMeasure
  split <;> exact ⟨rfl, rfl⟩

theorem effectImageReadComplete_ends (image : List Byte) : Ends s (effectImageReadComplete image s) := by
  unfold effectImageReadComplete
  split
  · rename_i hd
    simp only [State.readDone, Bool.and_eq_true, beq_iff_eq] at hd
    have hn : s.hasTime = false := by simp [State.hasTime, hd.1]
    unfold judgeImage
    split
    · refine ⟨⟨rfl, rfl⟩, fun hs => ?_⟩
      obtain ⟨h1, h2, h3, h4, -⟩ := hs.timeless hn
      exact
        { store_le := hs.store_le
          store_wanted := hs.store_wanted
          store_publish := fun _ => hs.store_publish (by rw [hd.1]; simp)
          queue_le := hs.queue_le
          directives_le := hs.directives_le
          outbox_le := hs.outbox_le
          released := fun _ => .inr fun e he => by
            have : e ∈ s.store := he
            rw [h1] at this; cases this
          consecutive_lt := hs.consecutive_lt
          sending_locked := fun h => by
            have := hs.sending_locked h
            rw [hd.1] at this; cases this
          sending_le := hs.sending_le
          timeless := fun _ => ⟨h1, h2, h3, h4, fun i => by
            simp [passLoad, State.meas, (quiet_loaded image s.loader.number i).1]⟩
          waiting_full := by
            rintro ⟨i, hi⟩
            simp [passLoad, State.meas, (quiet_loaded image s.loader.number i).2] at hi }
    · refine ⟨⟨rfl, rfl⟩, fun hs => ?_⟩
      exact { hs with
        store_publish := fun _ => hs.store_publish (by rw [hd.1]; simp)
        sending_locked := fun h => by
          have := hs.sending_locked h
          rw [hd.1] at this; cases this
        timeless := fun _ => hs.timeless hn }
  · exact .refl s

theorem effectSeekTimeout_ends : Ends s (effectSeekTimeout s) := by
  unfold effectSeekTimeout
  split
  · obtain ⟨h1, -, h3⟩ := becomeLocked_keeps 0 0 .founder s
    exact ⟨h1, h3⟩
  · exact .refl s

theorem effectAligningTimeout_ends : Ends s (effectAligningTimeout s) := by
  unfold effectAligningTimeout
  split
  · exact lockByTimeout_keeps s
  · exact .refl s

theorem effectAligningOffsetWrap_ends : Ends s (effectAligningOffsetWrap s) := by
  unfold effectAligningOffsetWrap
  split
  · exact ⟨⟨rfl, rfl⟩, fun hs => hs.congr rfl rfl rfl rfl rfl rfl rfl rfl⟩
  · exact .refl s

theorem effectMarkLeadingEdge_ends : Ends s (effectMarkLeadingEdge s) := by
  unfold effectMarkLeadingEdge
  have hk : Keeps s (judgeMark (takeDueBoundary s)) := (Keeps.takeDueBoundary s).trans (.judgeMark _)
  split
  · rename_i ha
    have hn : s.hasTime = false := by simp [State.hasTime, ha]
    refine ⟨⟨rfl, rfl⟩, fun hs => { hs with
      store_publish := fun _ => hs.store_publish (by rw [ha]; simp)
      sending_locked := fun h => by
        have := hs.sending_locked h
        rw [ha] at this; cases this
      timeless := fun _ => hs.timeless hn }⟩
  · exact ⟨⟨rfl, rfl⟩, fun hs => hs.congr rfl rfl rfl rfl rfl rfl rfl rfl⟩
  · rename_i ha; exact hk.ends (by simp [State.hasTime, ha])
  · rename_i ha; exact hk.ends (by simp [State.hasTime, ha])
  all_goals exact .refl s

theorem boundaryDue_time (h : s.boundaryDue = true) : s.hasTime = true := by
  simp only [State.boundaryDue, Bool.and_eq_true] at h
  exact h.1

theorem effectEpochBoundary_ends : Ends s (effectEpochBoundary s) := by
  unfold effectEpochBoundary
  split
  · rename_i h; exact (Keeps.crossBoundary s).ends (boundaryDue_time h)
  · exact .refl s

theorem effectMarkPulseEnd_ends : Ends s (effectMarkPulseEnd s) := by
  unfold effectMarkPulseEnd
  split
  · exact ⟨⟨rfl, rfl⟩, fun hs => hs.congr rfl rfl rfl rfl rfl rfl rfl rfl⟩
  · exact .refl s

theorem effectHorizonHoldEnd_ends : Ends s (effectHorizonHoldEnd s) := by
  unfold effectHorizonHoldEnd
  split
  · exact ⟨⟨rfl, rfl⟩, fun hs => hs.congr rfl rfl rfl rfl rfl rfl rfl rfl⟩
  · exact .refl s

theorem holdEdge_ends (c : Fin 4) (p : Polarity) (fine : BitVec 8) (s : State) :
    Ends s (holdEdge c p fine s) := by
  unfold Machine.holdEdge
  split
  · exact ⟨⟨rfl, rfl⟩, fun hs => hs.congr rfl rfl rfl rfl rfl rfl rfl rfl⟩
  · exact .refl s

theorem effectPinEdge_ends (c : Fin 4) (p : Polarity) (fine : BitVec 8) : Ends s (effectPinEdge c p fine s) := by
  unfold effectPinEdge
  split
  · split
    · rename_i ht; exact (Keeps.takeEdge c p fine s).ends ht
    · exact holdEdge_ends c p fine s
  · exact .refl s

theorem effectTestSourceEvent_ends : Ends s (if s.testEventDue then testEvent s else s) := by
  split
  · rename_i h
    simp only [State.testEventDue, Bool.and_eq_true] at h
    exact (Keeps.testEvent s).ends h.1.1
  · exact .refl s

theorem resolvable_time {c : Fin 4} {x : FlyingStamp} (h : s.resolvable c = some x) :
    s.hasTime = true := by
  unfold State.resolvable at h
  split at h
  · split at h
    · rename_i h1
      simp only [Bool.and_eq_true] at h1
      exact h1.1
    · cases h
  · cases h

theorem effectStampResolution_ends (c : Fin 4) : Ends s (effectStampResolution c s) := by
  unfold effectStampResolution
  split
  · rename_i h; exact (Keeps.resolveStamp _ _ s).ends (resolvable_time h)
  · exact .refl s

theorem snapshotReached_time {i : Fin 8} (h : s.snapshotReached i = true) : s.hasTime = true := by
  have key : ∀ x : Option TimeStamp,
      (match x with | some t => s.reached t | none => false) = true → s.hasTime = true := by
    intro x hx
    cases x with
    | none => cases hx
    | some t => exact reached_time hx
  simp only [State.snapshotReached, Bool.and_eq_true, Bool.or_eq_true] at h
  rcases h.2 with h | h
  · exact key _ h
  · exact key _ h.2

theorem effectSnapshotAnswer_ends (i : Fin 8) : Ends s (effectSnapshotAnswer i s) := by
  unfold effectSnapshotAnswer
  split
  · rename_i h; exact (Acts.answerSnapshots s).keeps.ends (snapshotReached_time h)
  · exact .refl s

theorem timedCloseReached_time {i : Fin 8} {x : TimeStamp} (h : s.timedCloseReached i = some x) :
    s.reached x = true := by
  unfold State.timedCloseReached at h
  dsimp only at h
  split at h
  · split at h
    · rename_i h1; cases h; exact h1.2
    · cases h
  · cases h

theorem effectTimedGateClose_ends (i : Fin 8) : Ends s (effectTimedGateClose i s) := by
  unfold effectTimedGateClose
  split
  · rename_i h
    exact (Acts.closeTimed (i := i) _ s).keeps.ends (reached_time (timedCloseReached_time h))
  · exact .refl s

theorem reopenReached_time {i : Fin 8} {x : TimeStamp} (h : s.reopenReached i = some x) :
    s.reached x = true := by
  unfold State.reopenReached at h
  dsimp only at h
  split at h
  · split at h
    · rename_i h1; cases h; exact h1.2
    · cases h
  · cases h

theorem effectTimedGateReopen_ends (i : Fin 8) : Ends s (effectTimedGateReopen i s) := by
  unfold effectTimedGateReopen
  split
  · rename_i h
    exact (Acts.openGate (i := i) _ s).keeps.ends (reached_time (reopenReached_time h))
  · exact .refl s

theorem overrunReached_time {i : Fin 8} {x : TimeStamp} (h : s.overrunReached i = some x) :
    s.reached x = true := by
  unfold State.overrunReached at h
  split at h
  · split at h
    · rename_i h1; cases h; exact h1
    · cases h
  · cases h

theorem effectGateOverrun_ends (i : Fin 8) : Ends s (effectGateOverrun i s) := by
  unfold effectGateOverrun
  split
  · rename_i h
    exact ((Acts.overrunGate (i := i) _ s).trans (.rescanGate _)).keeps.ends
      (reached_time (overrunReached_time h))
  · exact .refl s

theorem effectSampleSettle_ends (i : Fin 8) : Ends s (effectSampleSettle i s) := by
  unfold effectSampleSettle
  have hk := (Acts.judge (i := i) s).keeps
  refine ⟨hk.outside, fun hs => ?_⟩
  cases ht : s.hasTime
  · rw [judge_quiet ((hs.timeless ht).2.2.2.2 i)]; exact hs
  · exact hk.inv ht hs

theorem effectIntervalBlockComplete_ends (i : Fin 8) : Ends s (effectIntervalBlockComplete i s) := by
  unfold effectIntervalBlockComplete
  split
  · rename_i h
    have hk := (Acts.completeInterval (i := i) s).keeps
    refine ⟨hk.outside, fun hs => ?_⟩
    cases ht : s.hasTime
    · exfalso
      refine quiet_not_closing ((hs.timeless ht).2.2.2.2 i) ?_
      unfold State.intervalComplete at h
      dsimp only at h
      split at h
      · assumption
      · cases h
    · exact hk.inv ht hs
  · exact .refl s

theorem effectReciprocalBlockComplete_ends (i : Fin 8) : Ends s (effectReciprocalBlockComplete i s) := by
  unfold effectReciprocalBlockComplete
  split
  · rename_i h
    have hk := (Acts.completeReciprocal (i := i) s).keeps
    refine ⟨hk.outside, fun hs => ?_⟩
    cases ht : s.hasTime
    · exfalso
      refine quiet_not_closing ((hs.timeless ht).2.2.2.2 i) ?_
      unfold State.reciprocalComplete at h
      dsimp only at h
      split at h
      · assumption
      · cases h
    · exact hk.inv ht hs
  · exact .refl s

theorem effectTransmitAssembly_ends : Ends s (effectTransmitAssembly s) := by
  unfold effectTransmitAssembly
  split
  · rename_i h
    simp only [State.assemblyDue, Bool.and_eq_true] at h
    exact (startOwnWindow_keeps s).ends h.1.1
  · exact .refl s

theorem collisionPoint_locked (h : s.collisionPoint = true) : s.eu.align = some .locked := by
  unfold State.collisionPoint at h
  split at h
  · simp only [Bool.and_eq_true, beq_iff_eq] at h; exact h.1.1.2
  · cases h

theorem effectCollision_ends : Ends s (effectCollision s) := by
  unfold effectCollision
  split
  · rename_i h
    have ht : s.hasTime = true := by simp [State.hasTime, collisionPoint_locked h]
    exact ⟨(collide_keeps s).1, (collide_keeps s).2 ht⟩
  · exact .refl s

theorem endingFrame_sending {x : Sending} (h : s.endingFrame = some x) : s.link.sending = some x := by
  unfold State.endingFrame at h
  split at h
  · split at h
    · cases h; assumption
    · cases h
  · cases h

theorem effectFrameSendEnd_ends (straps : BitVec 4) : Ends s (effectFrameSendEnd straps s) := by
  unfold effectFrameSendEnd
  split
  · rename_i h; exact endFrame_keeps straps _ s (endingFrame_sending h)
  · exact .refl s

theorem endingReception_schedule {bits : List Bool} {x : Reception}
    (h : s.endingReception bits = some x) : s.hasSchedule = true := by
  unfold State.endingReception at h
  split at h
  · split at h
    · rename_i h1; simp only [Bool.and_eq_true] at h1; exact h1.1
    · cases h
  · cases h

theorem effectFrameReceived_ends (bits : List Bool) (straps : BitVec 4) :
    Ends s (effectFrameReceived bits straps s) := by
  unfold effectFrameReceived
  split
  · rename_i h
    split
    · rename_i hd
      simp only [State.deaf, Bool.and_eq_true, beq_iff_eq] at hd
      exact (Keeps.endReception s).ends (by simp [State.hasTime, hd.1])
    · exact receiveFrame_keeps _ _ _ s (endingReception_schedule h)
  · exact .refl s

theorem effectFrameStartTick_ends : Ends s (effectFrameStartTick s) := by
  unfold effectFrameStartTick
  split
  · exact ⟨⟨rfl, rfl⟩, fun hs => hs.congr rfl rfl rfl rfl rfl rfl rfl rfl⟩
  · exact .refl s

theorem endingWindow_time {p : Fin 16} (h : s.endingWindow = some p) : s.hasTime = true := by
  unfold State.endingWindow at h
  split at h
  · rename_i h1; simp only [State.deliversWindows, Bool.and_eq_true] at h1; exact h1.1.1
  · cases h

theorem effectWindowEnd_ends : Ends s (effectWindowEnd s) := by
  unfold effectWindowEnd
  split
  · rename_i h; exact (Keeps.takeWindowEnd _ s).ends (endingWindow_time h)
  · exact .refl s

theorem dueDirective_time {c : Code} {d : Directive} (h : s.dueDirective c = some d) :
    s.hasTime = true := by
  unfold State.dueDirective at h
  split at h
  · split at h
    · rename_i h1; exact reached_time h1.2
    · cases h
  · cases h

theorem effectArm_ends : Ends s (effectArm s) := by
  unfold effectArm
  split
  · rename_i h
    exact ((Keeps.popDirective s).trans (Acts.applyArm _ _ _).keeps).ends (dueDirective_time h)
  · exact .refl s

theorem effectDisarm_ends : Ends s (effectDisarm s) := by
  unfold effectDisarm
  split
  · rename_i h
    exact ((Keeps.popDirective s).trans (Acts.applyDisarm _ _).keeps).ends (dueDirective_time h)
  · exact .refl s

theorem effectGateOpen_ends : Ends s (effectGateOpen s) := by
  unfold effectGateOpen
  split
  · rename_i h
    exact ((Keeps.popDirective s).trans (Acts.applyGateOpen _ _ _ _).keeps).ends (dueDirective_time h)
  · exact .refl s

theorem effectGateClose_ends : Ends s (effectGateClose s) := by
  unfold effectGateClose
  split
  · rename_i h
    exact ((Keeps.popDirective s).trans (Acts.applyGateClose _ _ _ _).keeps).ends (dueDirective_time h)
  · exact .refl s

theorem effectFlush_ends : Ends s (effectFlush s) := by
  unfold effectFlush
  split
  · rename_i h
    exact ((Keeps.popDirective s).trans (Acts.applyFlush _ _ _).keeps).ends (dueDirective_time h)
  · exact .refl s

theorem effectClearFault_ends : Ends s (effectClearFault s) := by
  unfold effectClearFault
  split
  · rename_i h
    exact ((Keeps.popDirective s).trans (Acts.applyClearFault _ _).keeps).ends (dueDirective_time h)
  · exact .refl s

theorem effectRestart_ends (straps : BitVec 4) : Ends s (effectRestart straps s) := by
  unfold effectRestart
  split
  · exact ⟨⟨rfl, rfl⟩, fun _ => .start _ _ _⟩
  · exact .refl s

/-! ### Every command -/

/-- What each command does to a station by itself. -/
def effect : Instr → State → State
  | .resetAssert => effectResetAssert
  | .resetRelease straps => effectResetRelease straps
  | .imageReadComplete image => effectImageReadComplete image
  | .seekTimeout => effectSeekTimeout
  | .aligningTimeout => effectAligningTimeout
  | .aligningOffsetWrap => effectAligningOffsetWrap
  | .markLeadingEdge => effectMarkLeadingEdge
  | .epochBoundary => effectEpochBoundary
  | .markPulseEnd => effectMarkPulseEnd
  | .horizonHoldEnd => effectHorizonHoldEnd
  | .pinEdge channel polarity fine => effectPinEdge channel polarity fine
  | .testSourceEvent => fun s => if s.testEventDue then testEvent s else s
  | .stampResolution channel => effectStampResolution channel
  | .snapshotAnswer measure => effectSnapshotAnswer measure
  | .timedGateClose measure => effectTimedGateClose measure
  | .timedGateReopen measure => effectTimedGateReopen measure
  | .gateOverrun measure => effectGateOverrun measure
  | .sampleSettle measure => effectSampleSettle measure
  | .intervalBlockComplete measure => effectIntervalBlockComplete measure
  | .reciprocalBlockComplete measure => effectReciprocalBlockComplete measure
  | .transmitAssembly => effectTransmitAssembly
  | .collision => effectCollision
  | .frameSendEnd straps => effectFrameSendEnd straps
  | .frameReceived bits straps => effectFrameReceived bits straps
  | .windowEnd => effectWindowEnd
  | .arm => effectArm
  | .disarm => effectDisarm
  | .gateOpen => effectGateOpen
  | .gateClose => effectGateClose
  | .flush => effectFlush
  | .clearFault => effectClearFault
  | .restart straps => effectRestart straps
  | .frameStartTick => effectFrameStartTick

/-- Whatever the command, what is outside the station stays, and the station by itself stays sound. -/
theorem effect_ends (c : Instr) (s : State) : Ends s (effect c s) := by
  cases c <;> first
    | exact effectResetAssert_ends
    | exact effectResetRelease_ends _
    | exact effectImageReadComplete_ends _
    | exact effectSeekTimeout_ends
    | exact effectAligningTimeout_ends
    | exact effectAligningOffsetWrap_ends
    | exact effectMarkLeadingEdge_ends
    | exact effectEpochBoundary_ends
    | exact effectMarkPulseEnd_ends
    | exact effectHorizonHoldEnd_ends
    | exact effectPinEdge_ends _ _ _
    | exact effectTestSourceEvent_ends
    | exact effectStampResolution_ends _
    | exact effectSnapshotAnswer_ends _
    | exact effectTimedGateClose_ends _
    | exact effectTimedGateReopen_ends _
    | exact effectGateOverrun_ends _
    | exact effectSampleSettle_ends _
    | exact effectIntervalBlockComplete_ends _
    | exact effectReciprocalBlockComplete_ends _
    | exact effectTransmitAssembly_ends
    | exact effectCollision_ends
    | exact effectFrameSendEnd_ends _
    | exact effectFrameReceived_ends _ _
    | exact effectWindowEnd_ends
    | exact effectArm_ends
    | exact effectDisarm_ends
    | exact effectGateOpen_ends
    | exact effectGateClose_ends
    | exact effectFlush_ends
    | exact effectClearFault_ends
    | exact effectRestart_ends _
    | exact effectFrameStartTick_ends

/-- Every command acts on the station and on the station without this tick's Test Source event, but for a Test Source
event, and for a slip where there is such an event. -/
theorem exec_eq_inBoth {c : Instr} (ht : c ≠ .testSourceEvent)
    (hm : c = .markLeadingEdge → s.slips = true → s.untested = none) :
    exec c s = .next (s.inBoth (effect c)) := by
  cases c
  case testSourceEvent => exact absurd rfl ht
  case markLeadingEdge =>
    show Host.Outcome.next _ = _
    split
    · rename_i h; rw [s.withoutTestEvent_none (hm rfl h)]; rfl
    · rfl
  all_goals rfl

/-- A slip goes on from the station without this tick's Test Source event. -/
theorem exec_slip (h : s.slips = true) :
    exec .markLeadingEdge s = .next (s.withoutTestEvent.inBoth (effect .markLeadingEdge)) := by
  show Host.Outcome.next _ = _
  rw [h]; rfl

/-- A station without a Test Source event in this tick acts by itself. -/
theorem exec_alone {c : Instr} (ht : c ≠ .testSourceEvent) (w : Station) :
    ∃ u, exec c (s.alone w) = .next u ∧ u.kept = (effect c (s.alone w)).kept := by
  cases c
  case testSourceEvent => exact absurd rfl ht
  case markLeadingEdge =>
    refine ⟨_, rfl, ?_⟩
    split <;> rfl
  all_goals exact ⟨_, rfl, rfl⟩

theorem untestedAfter_eq {c : Instr} (ht : c ≠ .testSourceEvent) :
    s.untestedAfter c = s.untested.bind fun w => (effect c (s.alone w)).kept := by
  unfold State.untestedAfter
  congr 1
  funext w
  obtain ⟨u, hu, hk⟩ := exec_alone (s := s) ht w
  rw [hu]; exact hk

/-- What a command gives: its effect, up to the station without this tick's Test Source event. -/
theorem gives_iff {c : Instr} (ht : c ≠ .testSourceEvent)
    (hm : c = .markLeadingEdge → s.slips = true → s.untested = none) :
    Gives c s t ↔ { effect c s with untested := none } = { t with untested := none } := by
  unfold Gives
  rw [exec_eq_inBoth ht hm, untestedAfter_eq ht]
  constructor
  · intro h
    have := congrArg (fun o : Host.Outcome State Fault Refusal => match o with
      | .next x => { x with untested := none }
      | _ => t) h
    exact this
  · intro h
    have := congrArg (fun x : State => { x with untested := s.untested.bind fun w => (effect c (s.alone w)).kept }) h
    exact congrArg Host.Outcome.next this

theorem gives_effect {c : Instr} (ht : c ≠ .testSourceEvent)
    (hm : c = .markLeadingEdge → s.slips = true → s.untested = none) :
    Gives c s (effect c s) := (gives_iff ht hm).mpr rfl

/-- A command that leaves both its stations as they are. -/
theorem gives_self {c : Instr} (ht : c ≠ .testSourceEvent)
    (hm : c = .markLeadingEdge → s.slips = true → s.untested = none)
    (h : effect c s = s) : Gives c s s := (gives_iff ht hm).mpr (by rw [h])

/-! ### The invariant along every command -/

/-- A sound station stays sound whatever waits, and whatever is kept beside it. -/
theorem Sound.withUntested (h : Sound s) (x : Option Station) : Sound { s with untested := x } :=
  h.congr rfl rfl rfl rfl rfl rfl rfl rfl

theorem inBoth_inv {f : State → State} (hf : ∀ s, Ends s (f s)) (h : Inv s) : Inv (s.inBoth f) where
  toSound := ((hf s).2 h.toSound).withUntested _
  alone := fun x hx => by
    rw [State.inBoth_untested] at hx
    obtain ⟨w, hw, hk⟩ := Option.bind_eq_some_iff.mp hx
    unfold State.kept at hk
    split at hk
    · cases hk
      exact ((hf _).2 (h.alone w hw)).congr rfl rfl rfl rfl rfl rfl rfl rfl
    · cases hk

theorem withoutTestEvent_inv (h : Inv s) : Inv s.withoutTestEvent := by
  cases hu : s.untested with
  | none => rw [State.withoutTestEvent_none s hu]; exact h
  | some w => rw [State.withoutTestEvent_some s hu]; exact ⟨h.alone w hu, fun _ hx => by cases hx⟩

/-- Every command answers a next state, leaves what is outside the station, and keeps the invariant. -/
theorem exec_ends (c : Instr) (s : State) :
    ∃ t, exec c s = .next t ∧ OutsideFrame s t ∧ (Inv s → Inv t) := by
  by_cases ht : c = .testSourceEvent
  · subst ht
    refine ⟨_, rfl, effectTestSourceEvent_ends.1, fun h => ?_⟩
    refine ⟨effectTestSourceEvent_ends.2 h.toSound, fun w hw => ?_⟩
    split at hw
    · cases hw; exact h.toSound.congr rfl rfl rfl rfl rfl rfl rfl rfl
    · exact (h.alone w hw).congr rfl rfl rfl rfl rfl rfl rfl rfl
  · by_cases hm : c = .markLeadingEdge ∧ s.slips = true
    · obtain ⟨rfl, hs⟩ := hm
      have h1 := (effect_ends .markLeadingEdge s.withoutTestEvent).1
      refine ⟨_, exec_slip hs, ⟨?_, ?_⟩, fun h => inBoth_inv (effect_ends _) (withoutTestEvent_inv h)⟩
      · exact h1.pending.trans s.withoutTestEvent_pending
      · exact h1.order.trans s.withoutTestEvent_order
    · refine ⟨_, exec_eq_inBoth ht fun e h => absurd ⟨e, h⟩ hm, ?_, inBoth_inv (effect_ends c)⟩
      exact ⟨(effect_ends c s).1.pending, (effect_ends c s).1.order⟩

/-- One tick keeps what is outside and the invariant. -/
theorem advance_ends : Ends s (advance s) := by
  have ha : (advance s).eu.align = s.eu.align := by
    show (advanceEpochUnit s).align = _
    unfold advanceEpochUnit
    split <;> rfl
  refine ⟨⟨rfl, rfl⟩, fun hs => ?_⟩
  have hx : ∀ y, (advance s).link.sending = some y → ∃ x, s.link.sending = some x ∧ y.frame = x.frame := by
    intro y hy
    have hy : advanceSending s = some y := hy
    unfold advanceSending at hy
    split at hy
    · rename_i x h
      split at hy
      · cases hy
      · cases hy; exact ⟨x, h, rfl⟩
    · cases hy
  exact
    { store_le := hs.store_le
      store_wanted := hs.store_wanted
      store_publish := by rw [ha]; exact hs.store_publish
      queue_le := hs.queue_le
      directives_le := hs.directives_le
      outbox_le := hs.outbox_le
      released := hs.released
      consecutive_lt := hs.consecutive_lt
      sending_locked := fun h => by
        obtain ⟨y, hy⟩ := Option.isSome_iff_exists.mp h
        obtain ⟨x, h1, -⟩ := hx y hy
        rw [ha]; exact hs.sending_locked (by rw [h1]; rfl)
      sending_le := fun y hy => by
        obtain ⟨x, h1, h2⟩ := hx y hy
        rw [h2]; exact hs.sending_le x h1
      timeless := by rw [hasTime_congr ha]; exact hs.timeless
      waiting_full := hs.waiting_full }

/-- After a tick no Test Source event is left to undo. -/
theorem advance_inv (h : Inv s) : Inv (advance s) := ⟨advance_ends.2 h.toSound, fun _ hw => by cases hw⟩

end Sys2Proof.Machine
end

