-- ==== Sys2Proof/Laws/Moves.lean ====
section
/-! SUPPORT. What later proofs cite about times, views, judgements, finished blocks and boundaries: the order of
two times turned round, a judgement with empty views, the group of a finished block, the G role with nothing to
do, and what a boundary and an abandoned frame leave. -/

namespace Sys2Proof.Machine

variable {s t u : State}

/-! ### Times -/

theorem compareEpoch_swap {a b : BitVec 16} (h : compareEpoch a b = .gt) : compareEpoch b a = .lt := by
  unfold compareEpoch at *
  have ha := a.isLt
  have hb := b.isLt
  have hd : (b - a).toNat = (b.toNat + 65536 - a.toNat) % 65536 := by
    rw [BitVec.toNat_sub]; congr 1; omega
  have hd' : (a - b).toNat = (a.toNat + 65536 - b.toNat) % 65536 := by
    rw [BitVec.toNat_sub]; congr 1; omega
  split at h
  · cases h
  · split at h
    · rw [if_neg (by omega), if_neg (by omega)]
    · cases h

/-- If x is later than y, then y is earlier than x. -/
theorem earlier_of_later {x y : TimeStamp} (h : later x y = true) : earlier y x = true := by
  unfold later earlier at *
  simp only [beq_iff_eq] at *
  unfold compareTime at *
  cases hc : compareEpoch y.epoch x.epoch
  · rw [hc] at h; cases h
  · rw [hc] at h
    have : compareEpoch x.epoch y.epoch = .eq := by
      unfold compareEpoch at *
      split at hc
      · rename_i h0
        have : x.epoch = y.epoch := by
          have hx := x.epoch.isLt
          have hy := y.epoch.isLt
          rw [BitVec.toNat_sub] at h0
          apply BitVec.eq_of_toNat_eq; omega
        simp [this]
      · split at hc <;> cases hc
    rw [this]
    simp only at h ⊢
    rcases Nat.lt_trichotomy x.offset.toNat y.offset.toNat with h1 | h1 | h1
    · rw [Nat.compare_eq_lt.mpr h1] at h; cases h
    · rw [h1] at h ⊢
      rw [Nat.compare_eq_eq.mpr rfl] at h ⊢
      simp only at h ⊢
      rw [Nat.compare_eq_gt] at h
      exact Nat.compare_eq_lt.mpr h
    · rw [Nat.compare_eq_lt.mpr h1]
  · rw [compareEpoch_swap hc]

/-- Entries of different times do not hold the same stamp. -/
theorem not_same_of_later {a b : Entry} (h : later b.time a.time = true) :
    a.same b = false ∧ b.same a = false := by
  have hne : a.time ≠ b.time := by
    intro e; rw [e] at h
    simp [later, compareTime, compareEpoch] at h
  have e1 : (a.time == b.time) = false := by simp [hne]
  have e2 : (b.time == a.time) = false := by simp [Ne.symm hne]
  simp [Entry.same, e1, e2]

/-! ### Views -/

/-- Passing an entry in one role keeps the views of the other roles. -/
theorem view_passEntry_other (s : State) (i : Fin 8) (e : Entry) {r q : Role} (h : q ≠ r) :
    (s.passEntry i r e).view i q = (s.view i q).map fun f => if f.same e then f.drop i r else f := by
  unfold State.passEntry
  rw [view_mapStore]
  unfold State.view
  induction s.store with
  | nil => rfl
  | cons f l ih =>
    rw [List.map_cons, List.filter_cons, List.filter_cons, ih]
    have : (if f.same e = true then f.drop i r else f).inView i q = f.inView i q := by
      split
      · rw [drop_inView]; simp [Ne.symm h]
      · rfl
    rw [this]; split <;> simp

/-- Marking a drop count examined keeps every view's entries. -/
theorem view_markExamined (s : State) (i j : Fin 8) (e : Entry) (r : Role) :
    (s.markExamined i e).view j r = (s.view j r).map fun f =>
      if f.same e then { f with examined := withBit f.examined i.val } else f := by
  unfold State.markExamined
  rw [view_mapStore]
  unfold State.view
  induction s.store with
  | nil => rfl
  | cons f l ih =>
    rw [List.map_cons, List.filter_cons, List.filter_cons, ih]
    have : (if f.same e = true then { f with examined := withBit f.examined i.val } else f).inView j r
        = f.inView j r := by
      split
      · cases r <;> rfl
      · rfl
    rw [this]; split <;> simp

/-- The stamps of an empty view. -/
theorem stamps_nil {i : Fin 8} {r : Role} (h : s.view i r = []) : s.stamps i r = [] := by
  simp [State.stamps, h]

/-- With empty A and B views a measure that holds no last stop has no move. -/
theorem judgeMove_empty (s : State) (i : Fin 8) (hA : s.view i .A = []) (hB : s.view i .B = [])
    (hl : (s.meas i).lastStop = none) : judgeMove i s = none := by
  unfold judgeMove
  split
  · rfl
  · simp only [State.passable, hA, hB]
    split
    · split
      · rfl
      · split
        · simp [intervalMove, intervalMoves, State.staleStart, State.barrenStop, State.superseded,
            State.firstSuperseded, State.settled, State.abandoned, State.stopPassed, stamps_nil hA,
            stamps_nil hB, hl]
        · simp [reciprocalMove, stamps_nil hA]
        · rfl
    · rfl

theorem judge_empty (s : State) (i : Fin 8) (hA : s.view i .A = []) (hB : s.view i .B = [])
    (hl : (s.meas i).lastStop = none) : judge i s = ⟨s, true⟩ := by
  unfold judge State.judgeFuel judgeLoop
  rw [judgeMove_empty s i hA hB hl]

/-- With empty A and B views a judgement does nothing but forget the last stop. -/
theorem judge_forgets (s : State) (i : Fin 8) (hA : s.view i .A = []) (hB : s.view i .B = []) :
    ∃ x, judge i s = ⟨s.modMeas i fun m => { m with lastStop := x }, true⟩ := by
  have keep : s = s.modMeas i fun m => { m with lastStop := (s.meas i).lastStop } :=
    (State.modMeas_eq_self s i _ rfl).symm
  cases hm : judgeMove i s with
  | none => exact ⟨(s.meas i).lastStop, by unfold judge State.judgeFuel judgeLoop; rw [hm, ← keep]⟩
  | some x =>
    have hx : x = forgetStop i s := by
      unfold judgeMove at hm
      split at hm
      · cases hm
      · simp only [State.passable, hA, hB] at hm
        split at hm
        · split at hm
          · cases hm
          · split at hm
            · simp [intervalMove, intervalMoves, State.staleStart, State.barrenStop, State.superseded,
                State.firstSuperseded, State.settled, State.abandoned, stamps_nil hA, stamps_nil hB] at hm
              exact hm.2.symm
            · simp [reciprocalMove, stamps_nil hA] at hm
            · cases hm
        · cases hm
    refine ⟨none, ?_⟩
    unfold judge State.judgeFuel judgeLoop
    rw [hm, hx]
    have h1 : judgeLoop (4 * s.store.length + 1) i (forgetStop i s).state = ⟨(forgetStop i s).state, true⟩ := by
      unfold judgeLoop
      rw [judgeMove_empty (forgetStop i s).state i hA hB (by simp [forgetStop])]
    exact h1

/-! ### Blocks and gates -/

/-- The G role of an IDLE measure does nothing. -/
theorem scanGate_idle (n : Nat) (fresh : Bool) (i : Fin 8) (s : State) (h : (s.meas i).st = .idle) :
    scanGate n fresh i s = s := by
  cases n with
  | zero => rfl
  | succ n =>
    unfold scanGate
    have : s.edgeOverrun i = none := by unfold State.edgeOverrun Measure.overrunTime; rw [h]
    rw [this]
    simp only [ite_self]
    split
    · rfl
    · simp [h, MeasureState.active]

/-- The G role with an empty view does nothing while the gate is not OPEN. -/
theorem rescanGate_nil (i : Fin 8) (s : State) (hv : s.view i .G = []) (h : (s.meas i).st ≠ .opened) :
    rescanGate i s = s := by
  unfold rescanGate State.scanFuel
  rw [show 2 * s.store.length + 2 = (2 * s.store.length + 1) + 1 from rfl]
  unfold scanGate
  have : s.edgeOverrun i = none := by
    unfold State.edgeOverrun Measure.overrunTime
    split
    · rename_i h1 _
      split at h1
      · rename_i h2 _ _; exact absurd h2 h
      · cases h1
    · rfl
  simp [this, hv]

/-- A block finished with room in the Result Queue: its group stands in the queue behind what stood there, and
with no rearm left the measure is IDLE. -/
theorem finishBlock_enqueues (i : Fin 8) (n : BitVec 16) (l : List (BitVec 48)) (s : State)
    (hr : s.queueRoom = true) :
    ∃ g, (s.queue ++ [g]) <+: (finishBlock i n l s).queue ∧ g.measure = i ∧ g.kind = (s.meas i).kind ∧
      g.isFault = false ∧ g.sequence = (s.meas i).sequence ∧ g.sampleCount = n ∧ g.values = l ∧
      g.quals = (s.meas i).block.quals ∧
      ((s.meas i).rearms = .left 0 → ((finishBlock i n l s).meas i).st = .idle) := by
  unfold finishBlock
  dsimp only
  rw [if_pos hr]
  set g0 : Group :=
    { measure := i, kind := (s.meas i).kind, isFault := false, quals := (s.meas i).block.quals
      sequence := 0, sampleCount := n, values := l } with hg0
  have he : (enqueueGroup g0 s).queue = s.queue ++ [{ g0 with sequence := (s.meas i).sequence }] := by
    unfold enqueueGroup
    rw [(Fires.fireEnqueue _ _).frame.queue]
  refine ⟨{ g0 with sequence := (s.meas i).sequence }, ?_, rfl, rfl, rfl, rfl, rfl, rfl, rfl, ?_⟩
  · rw [← he]; exact (Acts.nextState (i := i) false true _).queue
  · intro h0
    have hm : ((enqueueGroup g0 s).meas i).rearms = .left 0 := by
      unfold enqueueGroup
      simp only [State.meas]
      rw [(Fires.fireEnqueue _ _).frame.measures]
      simp [State.modMeas, State.setMeas, hg0]; exact h0
    unfold nextState; dsimp only
    rw [hm]; simp only [Rearms.next]
    simp [becomeIdle, State.releaseMeasure, State.meas, State.modMeas, State.setMeas, Measure.idled,
      State.setStore]

/-- With no source on an ABSENT or FOREIGN peer, the questions at an entry into ARMED change nothing. -/
theorem askPeers_self (i : Fin 8) (offer : Bool) (s : State) (h : s.peersGive i) :
    askPeers i offer s = s := by
  have h1 : ∀ r, askPeer i offer s r = s := by
    intro r
    unfold askPeer
    split
    · rfl
    · rename_i x hx
      split
      · rfl
      · rename_i hn
        rcases h r x hx with h2 | h2
        · exact absurd h2 hn
        · rw [h2]
  have h2 : ∀ l : List Role, forEach l (askPeer i offer) s = s := by
    intro l
    induction l with
    | nil => rfl
    | cons r l ih => show forEach l _ (askPeer i offer s r) = s; rw [h1, ih]
  exact h2 _

/-- A stamp without a G consumer moves no gate. -/
theorem scanArrival_none (e : Entry) (s : State) (h : e.wantG = 0) : scanArrival e s = s := by
  have h2 : ∀ l : List (Fin 8),
      forEach l (fun s i => if e.wantG.getLsbD i.val then scanGate s.scanFuel false i s else s) s = s := by
    intro l
    induction l with
    | nil => rfl
    | cons i l ih =>
      show forEach l _ (if e.wantG.getLsbD i.val then _ else s) = s
      rw [h] at ih ⊢
      simpa using ih
  exact h2 _

/-! ### Boundaries -/

/-- A boundary at the measures acts within the measures' frame, but for the note that auto-arm has acted. -/
theorem boundaryMeasures_frame (s : State) :
    MeasureFrame { s with eu := { s.eu with autoArmed := true } } (boundaryMeasures s) := by
  have h1 : MeasureFrame s (forEach s.measureOrder (fun s i => openAligned i s) s) :=
    (Acts.forEach (w := true) (P := fun _ => True) _
      (fun i s => (Acts.openAligned (i := i) s).weaken fun _ _ => trivial) s).frame
  unfold boundaryMeasures
  dsimp only
  split
  · rename_i h
    obtain ⟨a1, a2, a3, a4, a5, a6, a7, a8, a9, a10, a11, a12, a13⟩ := h1
    refine ⟨a1, a2, a3, a4, a5, ?_, a7, a8, a9, a10, a11, a12, a13⟩
    rw [a6] at h ⊢
    show s.eu = { s.eu with autoArmed := true }
    rw [← h]
  · refine MeasureFrame.trans ?_ (Acts.forEach (w := true) (P := fun _ => True) _
      (fun i s => (Acts.autoArm (i := i) s).weaken fun _ _ => trivial) _).frame
    obtain ⟨a1, a2, a3, a4, a5, a6, a7, a8, a9, a10, a11, a12, a13⟩ := h1
    exact ⟨a1, a2, a3, a4, a5, congrArg (fun x : EpochUnit => { x with autoArmed := true }) a6, a7, a8,
      a9, a10, a11, a12, a13⟩

theorem MeasureFrame.autoArmed (h : MeasureFrame s t) :
    MeasureFrame { s with eu := { s.eu with autoArmed := true } }
      { t with eu := { t.eu with autoArmed := true } } := by
  obtain ⟨a1, a2, a3, a4, a5, a6, a7, a8, a9, a10, a11, a12, a13⟩ := h
  exact ⟨a1, a2, a3, a4, a5, congrArg (fun x : EpochUnit => { x with autoArmed := true }) a6, a7, a8, a9,
    a10, a11, a12, a13⟩

theorem boundaryTable_frame (s : State) :
    MeasureFrame { s with eu := { s.eu with autoArmed := true } } (boundaryTable s) := by
  unfold boundaryTable
  split
  · exact (Fires.boundarySequences s).frame.toMeasureFrame.autoArmed.trans (boundaryMeasures_frame _)
  · exact (boundaryMeasures_frame s).trans (Fires.boundarySequences _).frame.toMeasureFrame

/-- What a window end leaves unchanged: all but the peers, the measures' side, the sequences' side and the
noted presence. -/
structure WindowFrame (s t : State) : Prop where
  pending : t.pending = s.pending
  loader : t.loader = s.loader
  params : t.params = s.params
  eu : t.eu = s.eu
  channels : t.channels = s.channels
  link : { t.link with outbox := s.link.outbox, windowPresence := s.link.windowPresence } = s.link
  directives : t.directives = s.directives
  marks : t.marks = s.marks
  untested : t.untested = s.untested

theorem WindowFrame.trans (h : WindowFrame s t) (k : WindowFrame t u) : WindowFrame s u := by
  obtain ⟨a1, a2, a3, a4, a5, a6, a7, a8, a9⟩ := h
  obtain ⟨b1, b2, b3, b4, b5, b6, b7, b8, b9⟩ := k
  exact ⟨b1.trans a1, b2.trans a2, b3.trans a3, b4.trans a4, b5.trans a5,
    Eq.trans (congrArg (fun l : Link =>
      { l with outbox := s.link.outbox, windowPresence := s.link.windowPresence }) b6) a6,
    b7.trans a7, b8.trans a8, b9.trans a9⟩

theorem MeasureFrame.window (h : MeasureFrame s t) : WindowFrame s t := by
  obtain ⟨a1, a2, a3, a4, a5, a6, a7, a8, a9, a10, a11, a12, a13⟩ := h
  exact ⟨a1, a4, a5, a6, a7,
    Eq.trans (congrArg (fun l : Link => { l with windowPresence := s.link.windowPresence }) a8) rfl,
    a10, a11, a13⟩

theorem deliverWindowEnd_frame (p : Fin 16) (s : State) : WindowFrame s (deliverWindowEnd p s) := by
  unfold deliverWindowEnd
  dsimp only
  have h0 : WindowFrame s { s with link := { s.link with windowPresence := false } } := by
    constructor <;> rfl
  split
  · exact h0
  · refine h0.trans ?_
    unfold missWindow
    dsimp only
    split
    · exact WindowFrame.trans (t := State.setPeer _ p _) (by constructor <;> rfl)
        (Acts.notifyPeer _ _ _).frame.window
    · constructor <;> rfl

theorem deliverWindowEnds_frame (l : List (Fin 16)) (s : State) :
    WindowFrame s (forEach l (fun s p => deliverWindowEnd p s) s) := by
  induction l generalizing s with
  | nil => exact (MeasureFrame.rfl' s).window
  | cons p l ih => exact (deliverWindowEnd_frame p s).trans (ih _)

/-! ### An abandoned frame -/

theorem loseRecords_channels (l : List Record) (s : State) :
    l.foldl loseRecord s = { s with channels := (l.foldl loseRecord s).channels } := by
  induction l generalizing s with
  | nil => rfl
  | cons r l ih =>
    show l.foldl loseRecord (loseRecord s r)
      = { s with channels := (l.foldl loseRecord (loseRecord s r)).channels }
    rw [ih]; cases r <;> rfl

/-- Abandoning a frame changes the channels and the frame in flight alone. -/
theorem abandonFrame_eq (s : State) : abandonFrame s =
    { s with channels := (abandonFrame s).channels, link := { s.link with sending := none } } := by
  unfold abandonFrame
  split
  · rename_i h
    show s = { s with link := { s.link with sending := none } }
    rw [← h]
  · dsimp only; split
    · rfl
    · rw [loseRecords_channels]

theorem loseRecords_config (l : List Record) (s : State) (c : Fin 4) :
    ((l.foldl loseRecord s).chan c).config = (s.chan c).config := by
  induction l generalizing s with
  | nil => rfl
  | cons r l ih =>
    show ((l.foldl loseRecord (loseRecord s r)).chan c).config = _
    rw [ih]; cases r <;> simp [loseRecord]
    split <;> simp_all

/-- Lost records move the losses of their channels alone (R45). -/
theorem loseRecords_chan (l : List Record) (s : State) (c : Fin 4) :
    ((l.foldl loseRecord s).chan c).publishDrops.toNat
        = min 255 ((s.chan c).publishDrops.toNat + lossOf c l) ∧
      (l.foldl loseRecord s).chan c
        = { s.chan c with publishDrops := ((l.foldl loseRecord s).chan c).publishDrops } := by
  induction l generalizing s with
  | nil => exact ⟨by have := (s.chan c).publishDrops.isLt; simp [lossOf]; omega, rfl⟩
  | cons r l ih =>
    obtain ⟨h1, h2⟩ := ih (loseRecord s r)
    rw [List.foldl_cons]
    refine ⟨h1.trans ?_, h2.trans ?_⟩
    · cases r with
      | stamp d p drops t =>
        by_cases h : c = d
        · subst h
          simp [loseRecord, lossOf, satAdd_toNat]
          omega
        · simp [loseRecord, lossOf, h, Ne.symm h]
      | _ => rfl
    · cases r with
      | stamp d p drops t =>
        by_cases h : c = d
        · subst h; simp [loseRecord]
        · simp [loseRecord, h]
      | _ => rfl

/-- An abandoned frame moves the losses of its channels alone, and one sent to its end none (R45, R77). -/
theorem abandonFrame_chan (s : State) (c : Fin 4) :
    ((abandonFrame s).chan c).publishDrops.toNat
        = min 255 ((s.chan c).publishDrops.toNat + lossOf c s.unsentRecords) ∧
      (abandonFrame s).chan c = { s.chan c with publishDrops := ((abandonFrame s).chan c).publishDrops } := by
  have kept : (s.chan c).publishDrops.toNat = min 255 ((s.chan c).publishDrops.toNat + lossOf c []) := by
    have := (s.chan c).publishDrops.isLt
    simp [lossOf]; omega
  unfold abandonFrame State.unsentRecords
  cases s.link.sending with
  | none => exact ⟨kept, rfl⟩
  | some x =>
    dsimp only
    split
    · exact ⟨kept, rfl⟩
    · exact loseRecords_chan _ _ c

end Sys2Proof.Machine
end

