-- ==== Sys2Proof/Laws/Served.lean ====
section
/-! SUPPORT. What each shared operation of the measures leaves, said exactly: a loop that serves one measure, an
enqueue, a fault, a condition, a finished block, an opened gate, and the G role of a CLOSING measure. -/

namespace Sys2Proof.Machine

variable {s t u : State} {i : Fin 8}

/-! ### One measure of a loop -/

/-- A loop over the measures serves a selected one once, in a state that agrees with the loop's start in all but
other measures, and nothing after it touches that measure. -/
theorem served_one {w : Bool} {p : Fin 8 → Bool} {f : Fin 8 → State → State}
    (h : ∀ i s, Acts w (Only i) s (f i s)) (s r : State) (i : Fin 8) (hp : p i = true) :
    ∃ u, Acts w (fun j => j ≠ i) s u ∧
      Acts w (fun j => j ≠ i) (f i u)
        (forEach r.measureOrder (fun s i => if p i then f i s else s) s) := by
  obtain ⟨u, h1, h2⟩ := (forEach_served h _ (measureOrder_nodup r) s).2 i (mem_measureOrder r i) hp
  exact ⟨u, h1.weaken fun _ x => x.1, h2.weaken fun _ x => x.1⟩

theorem Acts.meas_eq {w : Bool} (h : Acts w (fun j => j ≠ i) s t) : t.meas i = s.meas i :=
  h.others i (by simp)

/-! ### What a measure's operations read -/

theorem MeasureFrame.epochLength (h : MeasureFrame s t) : t.epochLength = s.epochLength := by
  simp [State.epochLength, h.params]

theorem MeasureFrame.localTime (h : MeasureFrame s t) : t.localTime = s.localTime := by
  simp [State.localTime, h.epochLength, h.eu]

theorem MeasureFrame.hasTime (h : MeasureFrame s t) : t.hasTime = s.hasTime := by
  simp [State.hasTime, h.eu]

theorem MeasureFrame.reached (h : MeasureFrame s t) (x : TimeStamp) : t.reached x = s.reached x := by
  simp [State.reached, h.hasTime, h.localTime]

theorem MeasureFrame.snapshot (h : MeasureFrame s t) (c : Fin 4) (x : TimeStamp) :
    t.snapshot c x = s.snapshot c x := by
  simp [State.snapshot, State.chan, h.channels, h.eu]

theorem MeasureFrame.localHorizon (h : MeasureFrame s t) : t.localHorizon = s.localHorizon := by
  simp [State.localHorizon, h.eu, h.epochLength, h.localTime]

theorem MeasureFrame.crosses (h : MeasureFrame s t) (x y : TimeStamp) (l : List (Fin 16)) :
    t.crosses x y l = s.crosses x y l := by
  simp [State.crosses, State.peer, h.eu, h.loader, h.peers]

theorem MeasureFrame.gateOpened (h : MeasureFrame s t) (m : Measure) (x : TimeStamp) :
    t.gateOpened m x = s.gateOpened m x := by
  simp [State.gateOpened, h.reached, h.snapshot]

theorem MeasureFrame.roleHorizon (h : MeasureFrame s t) (r : Role) (hf : (t.meas i).final r = (s.meas i).final r)
    (hc : (t.meas i).config = (s.meas i).config) : t.roleHorizon i r = s.roleHorizon i r := by
  simp [State.roleHorizon, hf, Measure.roleSource, hc, h.loader, h.localHorizon, State.peer, h.peers]

theorem MeasureFrame.peersGive (h : MeasureFrame s t) (hc : (t.meas i).config = (s.meas i).config)
    (hg : s.peersGive i) : t.peersGive i := by
  intro r x hx
  have hx : (s.meas i).roleSource r = some x := by rw [← hx]; simp [Measure.roleSource, hc]
  have := hg r x hx
  simpa only [State.peer, h.loader, h.peers] using this

/-! ### Enqueue and fault -/

theorem enqueueGroup_meas (g : Group) (s : State) (j : Fin 8) :
    (enqueueGroup g s).meas j = if j = g.measure then
      { s.meas g.measure with sequence := (s.meas g.measure).sequence + 1 } else s.meas j := by
  have h := State.meas_modMeas s g.measure j fun m => { m with sequence := m.sequence + 1 }
  unfold enqueueGroup
  simp only [State.meas] at h ⊢
  rw [(Fires.fireEnqueue g.measure _).frame.measures]
  exact h

theorem enqueueGroup_store (g : Group) (s : State) : (enqueueGroup g s).store = s.store := by
  unfold enqueueGroup
  rw [(Fires.fireEnqueue g.measure _).frame.store]; rfl

theorem enqueueGroup_frame (g : Group) (s : State) : MeasureFrame s (enqueueGroup g s) := by
  unfold enqueueGroup
  refine MeasureFrame.trans ?_ (Fires.fireEnqueue g.measure _).frame.toMeasureFrame
  constructor <;> rfl

theorem view_of_store (h : t.store = s.store) (i : Fin 8) (r : Role) : t.view i r = s.view i r := by
  simp [State.view, h]

/-- A fault that is offered its place: the measure is in FAULT, its report enqueued or waiting. -/
theorem enterFault_faults (i : Fin 8) (k : FaultKind) (offer : Bool) (s : State) :
    Faults s (enterFault i k offer s) i k := by
  unfold enterFault Faults
  dsimp only
  have hm : ((s.modMeas i Measure.faulted).releaseMeasure i).meas i = (s.meas i).faulted := by
    show (s.modMeas i Measure.faulted).meas i = _
    simp
  split
  · refine ⟨?_, .inl ⟨s.queue, [], List.prefix_rfl, ?_⟩⟩
    · rw [enqueueGroup_meas]
      simp [faultReport, State.releaseMeasure, State.setStore, State.meas, State.modMeas, State.setMeas,
        Measure.faulted]
    · rw [enqueueGroup_queue]
      show s.queue ++ _ = _
      rw [faultReport_measure, hm]
      rfl
  · refine ⟨?_, .inr ?_⟩
    · rw [State.meas_modMeas, if_pos rfl, hm]; rfl
    · rw [State.meas_modMeas, if_pos rfl]

theorem enterFault_view (i : Fin 8) (k : FaultKind) (offer : Bool) (s : State) (r : Role) :
    (enterFault i k offer s).view i r = [] := by
  have h : ((s.modMeas i Measure.faulted).releaseMeasure i).view i r = [] := view_releaseMeasure r
  unfold enterFault
  dsimp only
  split
  · rw [view_of_store (enqueueGroup_store _ _)]; exact h
  · exact h

theorem takeCondition_masked (k : FaultKind) (offer : Bool) (s : State) (h : (s.meas i).st.active = true)
    (hm : (s.meas i).masks k = true) :
    takeCondition i k offer s = s.modMeas i (·.qualify (.fault k)) := by
  simp [takeCondition, h, hm]

theorem takeCondition_unmasked (k : FaultKind) (offer : Bool) (s : State) (h : (s.meas i).st.active = true)
    (hm : (s.meas i).masks k = false) : takeCondition i k offer s = enterFault i k offer s := by
  simp [takeCondition, h, hm]

/-! ### What was reported stays reported -/

theorem Reports.start {g : Group} (h : Reports s t i g) (hq : u.queue <+: s.queue)
    (hs : (u.meas i).sequence = (s.meas i).sequence) : Reports u t i g := by
  rcases h with ⟨front, back, h1, h2⟩ | h
  · exact .inl ⟨front, back, by rw [hs]; exact h1, hq.trans h2⟩
  · exact .inr h

theorem Reports.later {g : Group} (h : Reports s t i g) (hq : t.queue <+: u.queue)
    (hm : (t.meas i).st = .reporting → u.meas i = t.meas i) : Reports s u i g := by
  rcases h with ⟨front, back, h1, h2⟩ | ⟨h1, h2⟩
  · obtain ⟨more, h3⟩ := hq
    exact .inl ⟨front, back ++ more, by rw [← h3, h1]; simp, h2⟩
  · exact .inr (by rw [hm h1]; exact ⟨h1, h2⟩)

theorem Faults.start {k : FaultKind} (h : Faults s t i k) (hq : u.queue <+: s.queue)
    (hs : (u.meas i).sequence = (s.meas i).sequence) (hk : (u.meas i).kind = (s.meas i).kind) :
    Faults u t i k := by
  refine ⟨h.1, h.2.imp ?_ fun h => by rw [hk]; exact h⟩
  rintro ⟨front, back, h1, h2⟩
  exact ⟨front, back, hq.trans h1, by rw [hk, hs]; exact h2⟩

theorem Faults.later {k : FaultKind} (h : Faults s t i k) (hq : t.queue <+: u.queue)
    (hm : u.meas i = t.meas i) : Faults s u i k := by
  refine ⟨by rw [hm]; exact h.1, h.2.imp ?_ fun h => by rw [hm]; exact h⟩
  rintro ⟨front, back, h1, h2⟩
  obtain ⟨more, h3⟩ := hq
  exact ⟨front, back ++ more, h1, by rw [← h3, h2]; simp⟩

/-! ### Gates -/

theorem openGate_meas {c : MeasureConfig} (hc : (s.meas i).config = some c) (x : TimeStamp) :
    openGate i x s = s.setMeas i (s.gateOpened (s.meas i) x) := by
  unfold openGate State.gateOpened
  simp only [hc, Option.map_some, Option.some.injEq]
  by_cases hk : c.kind = .totalize
  · simp only [if_pos hk]
    split <;> rfl
  · simp only [if_neg hk]

/-- The G role of a CLOSING measure only passes stamps. -/
theorem scanGate_closing (n : Nat) (fresh : Bool) (s : State) (h : (s.meas i).st = .closing) :
    (scanGate n fresh i s).measures = s.measures ∧ (scanGate n fresh i s).queue = s.queue ∧
    (scanGate n fresh i s).link = s.link ∧ (scanGate n fresh i s).sequences = s.sequences := by
  induction n generalizing s with
  | zero => exact ⟨rfl, rfl, rfl, rfl⟩
  | succ n ih =>
    unfold scanGate
    have : s.edgeOverrun i = none := by
      unfold State.edgeOverrun Measure.overrunTime; rw [h]
    rw [this]
    simp only [ite_self]
    split
    · exact ⟨rfl, rfl, rfl, rfl⟩
    · rename_i e _ _
      have hp := ih (s.passEntry i .G e) h
      simp only [h, MeasureState.active, Bool.true_and]
      split
      · exact hp
      · split
        · exact hp
        · exact ⟨rfl, rfl, rfl, rfl⟩

theorem view_passEntry_length {e : Entry} {r : Role} {l : List Entry} (h : s.view i r = e :: l) :
    ((s.passEntry i r e).view i r).length < (s.view i r).length := by
  have he : e.same e = true := by simp [Entry.same]
  rw [view_passEntry, h, List.filter_cons]
  simp only [he, Bool.not_true, Bool.false_eq_true, if_false, List.length_cons]
  have := List.length_filter_le (fun f => !f.same e) l
  omega

theorem view_length_le (s : State) (i : Fin 8) (r : Role) : (s.view i r).length ≤ s.store.length :=
  List.length_filter_le _ _

/-- With steps enough, the G role of a CLOSING measure stops at a stamp at or after the close time. -/
theorem scanGate_closing_view (n : Nat) (fresh : Bool) (s : State) (h : (s.meas i).st = .closing)
    (hn : (s.view i .G).length < n) {e : Entry} {l : List Entry}
    (hv : (scanGate n fresh i s).view i .G = e :: l) :
    e.heldFor i .G = false ∧ (s.meas i).beforeClose e.time = false := by
  induction n generalizing s with
  | zero => omega
  | succ n ih =>
    unfold scanGate at hv
    have : s.edgeOverrun i = none := by
      unfold State.edgeOverrun Measure.overrunTime; rw [h]
    rw [this] at hv
    simp only [ite_self] at hv
    split at hv
    · rename_i h0; rw [h0] at hv; cases hv
    · rename_i f rest h0
      have hl := view_passEntry_length (s := s) h0
      simp only [h, MeasureState.active, Bool.true_and] at hv
      split at hv
      · exact ih (s.passEntry i .G f) h (by omega) hv
      · rename_i h1
        split at hv
        · exact ih (s.passEntry i .G f) h (by omega) hv
        · rename_i h2
          rw [h0] at hv
          cases hv
          exact ⟨by simpa using h1, by simpa using h2⟩

/-! ### Finished blocks -/

/-- The group of a finished block (R117, R154). -/
def State.blockGroup (s : State) (i : Fin 8) (n : BitVec 16) (l : List (BitVec 48)) : Group where
  measure := i
  kind := (s.meas i).kind
  isFault := false
  quals := (s.meas i).block.quals
  sequence := 0
  sampleCount := n
  values := l

theorem finishBlock_room (i : Fin 8) (n : BitVec 16) (l : List (BitVec 48)) (s : State)
    (h : s.queueRoom = true) :
    finishBlock i n l s = nextState i false true (enqueueGroup (s.blockGroup i n l) s) := by
  unfold finishBlock; dsimp only; rw [if_pos h]; rfl

theorem finishBlock_full (i : Fin 8) (n : BitVec 16) (l : List (BitVec 48)) (s : State)
    (h : s.queueRoom = false) : finishBlock i n l s = enterReporting i (s.blockGroup i n l) s := by
  unfold finishBlock; dsimp only; rw [if_neg (by simp [h])]; rfl

theorem enterReporting_meas (i : Fin 8) (g : Group) (s : State) :
    (enterReporting i g s).meas i = (s.meas i).holding g := by
  show (s.modMeas i (Measure.holding g)).meas i = _
  simp

/-- A finished block is reported: its group goes to the queue or is held. -/
theorem finishBlock_reports (i : Fin 8) (n : BitVec 16) (l : List (BitVec 48)) (s : State) :
    Reports s (finishBlock i n l s) i (s.blockGroup i n l) := by
  cases h : s.queueRoom
  · rw [finishBlock_full i n l s h]
    refine .inr ?_
    rw [enterReporting_meas]
    exact ⟨rfl, rfl⟩
  · rw [finishBlock_room i n l s h]
    obtain ⟨more, h⟩ := (Acts.nextState (i := i) false true (enqueueGroup (s.blockGroup i n l) s)).queue
    refine .inl ⟨s.queue, more, ?_, List.prefix_rfl⟩
    rw [← h, enqueueGroup_queue]
    simp only [List.append_assoc, List.cons_append, List.nil_append]
    rfl

/-- The G role after a finished block cannot undo its report. -/
theorem Reports.rescan {g : Group} (h : Reports s t i g) (hv : (t.meas i).st = .reporting → t.view i .G = []) :
    Reports s (rescanGate i t) i g := by
  refine h.later (Acts.rescanGate t).queue fun hr => ?_
  rw [rescanGate_nil i t (hv hr) (by rw [hr]; simp)]

theorem enterReporting_view (i : Fin 8) (g : Group) (s : State) (r : Role) :
    (enterReporting i g s).view i r = [] := view_releaseMeasure r

/-! ### After the group -/

theorem takeCondition_reporting (k : FaultKind) (offer : Bool) (s : State) (h : (s.meas i).st ≠ .reporting) :
    ((takeCondition i k offer s).meas i).st ≠ .reporting := by
  unfold takeCondition
  dsimp only
  split
  · split
    · rw [State.meas_modMeas, if_pos rfl]; exact h
    · rw [(enterFault_faults i k offer s).1]; simp
  · split
    · rename_i h1; exact absurd h1.1 h
    · exact h

theorem askPeers_reporting (offer : Bool) (s : State) (h : (s.meas i).st ≠ .reporting) :
    ((askPeers i offer s).meas i).st ≠ .reporting := by
  have one : ∀ r (s : State), (s.meas i).st ≠ .reporting → ((askPeer i offer s r).meas i).st ≠ .reporting := by
    intro r s h
    unfold askPeer
    split
    · exact h
    · split
      · exact h
      · split
        · unfold takePeerCondition
          dsimp only
          split
          · rw [State.meas_modMeas, if_pos rfl]; exact takeCondition_reporting _ _ s h
          · exact takeCondition_reporting _ _ s h
        · exact h
  have all : ∀ (l : List Role) (s : State), (s.meas i).st ≠ .reporting →
      ((forEach l (askPeer i offer) s).meas i).st ≠ .reporting := by
    intro l
    induction l with
    | nil => exact fun s h => h
    | cons r l ih => exact fun s h => ih _ (one r s h)
  exact all _ s h

theorem openCarried_reporting (now : TimeStamp) (s : State) (h : (s.meas i).st ≠ .reporting) :
    ((openCarried i now s).meas i).st ≠ .reporting := by
  unfold openCarried
  split
  · split
    · exact h
    · cases hc : (s.meas i).config with
      | none => unfold openGate; simp only [hc]; exact h
      | some c => rw [openGate_meas hc]; simp [State.gateOpened]
  · exact h

/-- The state after an enqueue is not REPORTING. -/
theorem nextState_reporting (rested offer : Bool) (s : State) :
    ((nextState i rested offer s).meas i).st ≠ .reporting := by
  unfold nextState
  dsimp only
  split
  · refine openCarried_reporting _ _ (askPeers_reporting _ _ ?_)
    show ((s.setMeas i _).meas i).st ≠ _
    simp [Measure.rearmed]
  · show ((s.modMeas i Measure.idled).meas i).st ≠ _
    simp [Measure.idled]

/-- A measure that holds the group of a finished block has left the Store. -/
theorem finishBlock_view (i : Fin 8) (n : BitVec 16) (l : List (BitVec 48)) (s : State)
    (h : ((finishBlock i n l s).meas i).st = .reporting) (r : Role) : (finishBlock i n l s).view i r = [] := by
  cases hr : s.queueRoom
  · rw [finishBlock_full i n l s hr]; exact enterReporting_view i _ s r
  · rw [finishBlock_room i n l s hr] at h; exact absurd h (nextState_reporting _ _ _)

/-- With no rearm left and room in the queue a finished block leaves the measure IDLE. -/
theorem finishBlock_idle (i : Fin 8) (n : BitVec 16) (l : List (BitVec 48)) (s : State) (hr : s.queueRoom = true)
    (h : (s.meas i).rearms = .left 0) : ((finishBlock i n l s).meas i).st = .idle := by
  rw [finishBlock_room i n l s hr]
  unfold nextState
  have : ((enqueueGroup (s.blockGroup i n l) s).meas i).rearms = .left 0 := by
    rw [enqueueGroup_meas]; simpa [State.blockGroup] using h
  dsimp only
  rw [this]
  simp only [Rearms.next]
  show ((State.modMeas _ i Measure.idled).meas i).st = _
  simp [Measure.idled]

theorem rescanGate_idle (s : State) (h : (s.meas i).st = .idle) : rescanGate i s = s := scanGate_idle _ _ _ s h

theorem rescanGate_fault (s : State) (h : (s.meas i).st = .fault) : rescanGate i s = s := by
  unfold rescanGate
  cases s.scanFuel with
  | zero => rfl
  | succ n =>
    unfold scanGate
    have : s.edgeOverrun i = none := by unfold State.edgeOverrun Measure.overrunTime; rw [h]
    rw [this]
    simp only [ite_self]
    split
    · rfl
    · simp [h, MeasureState.active]

/-! ### TOTALIZE -/

theorem hasQual_setQual (q r : Qualifier) (x : BitVec 12) (h : hasQual q x = true) :
    hasQual q (setQual r x) = true := by
  simp only [hasQual, setQual, withBit] at *
  simp [h]

theorem hasQual_setQualIf (p : Bool) (q r : Qualifier) (x : BitVec 12) (h : hasQual q x = true) :
    hasQual q (setQualIf p r x) = true := by
  unfold setQualIf; split <;> simp [hasQual_setQual, h]

theorem hasQual_self (q : Qualifier) (x : BitVec 12) : hasQual q (setQual q x) = true := by
  revert x; cases q <;> (try rename_i k; cases k) <;>
    simp [hasQual, setQual, withBit, Qualifier.index, FaultKind.index]

/-- A close snapshot finishes a TOTALIZE block, unless its gate crossed an unmasked discontinuity. -/
theorem completeTotalize_finishes (i : Fin 8) (close : BitVec 48) (s : State)
    (h : (∀ o c, (s.meas i).openTime = some o → (s.meas i).closeTime = some c → s.crosses o c [] = false) ∨
      (s.meas i).masks .discontinuity = true) :
    ∃ quals, (∀ q, hasQual q (s.meas i).block.quals = true → hasQual q quals = true) ∧
      completeTotalize i close s = finishBlock i 0 [close - (s.meas i).block.openSnapshot]
        (s.modMeas i fun m => { m with block := { m.block with quals := quals } }) := by
  unfold completeTotalize
  dsimp only
  have plain : ∃ quals, (∀ q, hasQual q (s.meas i).block.quals = true → hasQual q quals = true) ∧
      finishBlock i 0 [close - (s.meas i).block.openSnapshot] (s.modMeas i fun m => { m with block := { m.block with
        quals := setQualIf (close - (s.meas i).block.openSnapshot == 0) .noEvents m.block.quals } })
      = finishBlock i 0 [close - (s.meas i).block.openSnapshot]
        (s.modMeas i fun m => { m with block := { m.block with quals := quals } }) :=
    ⟨setQualIf (close - (s.meas i).block.openSnapshot == 0) .noEvents (s.meas i).block.quals,
      fun q hq => hasQual_setQualIf _ _ _ _ hq, by simp [State.modMeas]⟩
  split
  · rename_i o c ho hc
    split
    · rename_i hx
      have hm : (s.meas i).masks .discontinuity = true := by
        rcases h with h | h
        · rw [h o c ho hc] at hx; cases hx
        · exact h
      rw [if_pos hm]
      refine ⟨setQualIf (close - (s.meas i).block.openSnapshot == 0) .noEvents
        (setQual (.fault .discontinuity) (s.meas i).block.quals),
        fun q hq => hasQual_setQualIf _ _ _ _ (hasQual_setQual _ _ _ hq), ?_⟩
      congr 1
      simp [State.modMeas, State.setMeas_setMeas, Measure.qualify]
    · exact plain
  · exact plain

theorem completeTotalize_faults (i : Fin 8) (close : BitVec 48) (s : State) {o c : TimeStamp}
    (ho : (s.meas i).openTime = some o) (hc : (s.meas i).closeTime = some c) (hx : s.crosses o c [] = true)
    (hm : (s.meas i).masks .discontinuity = false) :
    completeTotalize i close s = enterFault i .discontinuity true s := by
  unfold completeTotalize
  dsimp only
  rw [ho, hc]
  simp [hx, hm]

/-- What a finished TOTALIZE block reports. -/
theorem completeTotalize_reports (i : Fin 8) (close : BitVec 48) (s : State)
    (h : (∀ o c, (s.meas i).openTime = some o → (s.meas i).closeTime = some c → s.crosses o c [] = false) ∨
      (s.meas i).masks .discontinuity = true) :
    (∃ g, Reports s (completeTotalize i close s) i g ∧ g.measure = i ∧ g.kind = (s.meas i).kind ∧
      g.isFault = false ∧ g.values = [close - (s.meas i).block.openSnapshot] ∧
      ∀ q, hasQual q (s.meas i).block.quals = true → hasQual q g.quals = true) ∧
    (((completeTotalize i close s).meas i).st = .reporting →
      ∀ r, (completeTotalize i close s).view i r = []) ∧
    (s.queueRoom = true → (s.meas i).rearms = .left 0 → ((completeTotalize i close s).meas i).st = .idle) := by
  obtain ⟨quals, h1, h2⟩ := completeTotalize_finishes i close s h
  rw [h2]
  set u := s.modMeas i fun m => { m with block := { m.block with quals := quals } } with hu
  have hm : u.meas i = { s.meas i with block := { (s.meas i).block with quals := quals } } := by simp [hu]
  refine ⟨⟨_, (finishBlock_reports i 0 _ u).start (u := s) List.prefix_rfl (by rw [hm]), rfl, ?_, rfl, rfl, ?_⟩,
    fun hr r => finishBlock_view i _ _ u hr r, fun hr h0 => finishBlock_idle i _ _ u hr (by rw [hm]; exact h0)⟩
  · show (u.meas i).kind = _
    rw [hm]; rfl
  · intro q hq
    show hasQual q (u.meas i).block.quals = true
    rw [hm]; exact h1 q hq

end Sys2Proof.Machine
end

