-- ==== Sys2Proof/Laws/Arming.lean ====
section
/-! SUPPORT. What the questions at an entry into ARMED do (R101): every condition of a named peer is taken masked, or
the first unmasked one puts the measure into FAULT; and what a boundary leaves of a sequence. -/

namespace Sys2Proof.Machine

variable {s : State} {i : Fin 8}

/-- Setting a qualifier sets that one and leaves the others. -/
theorem hasQual_setQual_iff (q r : Qualifier) (x : BitVec 12) :
    hasQual q (setQual r x) = true ↔ hasQual q x = true ∨ q = r := by
  have hlt : ∀ q : Qualifier, q.index < 12 := by
    intro q; cases q <;> (try rename_i k; cases k) <;> decide
  have hinj : q.index = r.index ↔ q = r := by
    constructor
    · intro h
      cases q <;> cases r <;> (try rename_i k; cases k) <;> (try rename_i k; cases k) <;>
        first | rfl | (simp [Qualifier.index, FaultKind.index] at h)
    · rintro rfl; rfl
  rw [← hinj]
  simp only [hasQual, setQual, withBit, BitVec.getLsbD_or, BitVec.getLsbD_twoPow, Bool.or_eq_true,
    Bool.and_eq_true, decide_eq_true_eq]
  have := hlt q
  have := hlt r
  constructor
  · rintro (h | h)
    · exact .inl h
    · exact .inr h.2.symm
  · rintro (h | h)
    · exact .inl h
    · exact .inr ⟨‹_›, h.symm⟩

/-- The roles asked about in any order are the three of them. -/
theorem mem_roleOrder (s : State) (r : Role) : r ∈ s.roleOrder :=
  (arrange_perm _ _).mem_iff.mpr (by cases r <;> simp)

/-- The condition the peer of one role gives measure i at an entry into ARMED. -/
def State.roleGives (s : State) (i : Fin 8) (r : Role) (k : FaultKind) : Prop :=
  ∃ x, (s.meas i).roleSource r = some x ∧ x.station ≠ s.loader.number ∧
    (s.peer x.station).st.condition = some k

theorem peerGives_iff (k : FaultKind) : s.peerGives i k ↔ ∃ r, s.roleGives i r k := Iff.rfl

/-- One question takes the condition its role's peer gives, or does nothing. -/
theorem askPeer_cases (offer : Bool) (s : State) (r : Role) :
    (∃ k x, s.roleGives i r k ∧ (s.meas i).roleSource r = some x ∧
      askPeer i offer s r = takePeerCondition i k x.station offer s) ∨
    ((∀ k, ¬ s.roleGives i r k) ∧ askPeer i offer s r = s) := by
  unfold askPeer
  split
  · rename_i h
    exact .inr ⟨fun k ⟨x, hx, _⟩ => by simp [h] at hx, rfl⟩
  · rename_i x hx
    split
    · rename_i h
      exact .inr ⟨fun k ⟨y, hy, hn, _⟩ => by rw [hx] at hy; cases hy; exact hn h, rfl⟩
    · rename_i hn
      split
      · rename_i k hk
        exact .inl ⟨k, x, ⟨x, hx, hn, hk⟩, hx, rfl⟩
      · rename_i hk
        exact .inr ⟨fun k ⟨y, hy, _, hc⟩ => by rw [hx] at hy; cases hy; simp [hk] at hc, rfl⟩

/-- What asking about the roles of `l` has made of measure i, every condition being masked. -/
structure AskedSome (s : State) (i : Fin 8) (l : List Role) (base a : Measure) : Prop where
  same : a = { base with
    block := { base.block with quals := a.block.quals }
    finalA := a.finalA
    finalB := a.finalB
    finalG := a.finalG }
  quals : ∀ q, hasQual q a.block.quals = true ↔
    hasQual q base.block.quals = true ∨ ∃ k, ∃ r ∈ l, q = .fault k ∧ s.roleGives i r k
  held : ∀ r x, (s.meas i).roleSource r = some x →
    (∃ r' ∈ l, ∃ k y, s.roleGives i r' k ∧ (s.meas i).roleSource r' = some y ∧ y.station = x.station) →
    a.final r = .held (s.peer x.station).horizon
  free : ∀ r, (∀ x, (s.meas i).roleSource r = some x →
    ¬ ∃ r' ∈ l, ∃ k y, s.roleGives i r' k ∧ (s.meas i).roleSource r' = some y ∧ y.station = x.station) →
    a.final r = base.final r

/-- A masked condition on an active measure. -/
theorem takePeerCondition_masked (k : FaultKind) (p : Fin 16) (offer : Bool) (s : State)
    (ha : (s.meas i).st.active = true) (hm : (s.meas i).masks k = true) :
    takePeerCondition i k p offer s
      = s.setMeas i (((s.meas i).qualify (.fault k)).holdFinals p (s.peer p).horizon) := by
  unfold takePeerCondition takeCondition
  dsimp only
  rw [if_pos ha, if_pos hm, ha, hm]
  simp [State.modMeas, State.setMeas_setMeas]

theorem holdFinals_final (m : Measure) (p : Fin 16) (h : Option TimeStamp) (r : Role) :
    (m.holdFinals p h).final r = holdFinal (m.roleOn r p) h (m.final r) := by cases r <;> rfl

theorem forEach_append {α : Type} (l : List α) (x : α) (f : State → α → State) (s : State) :
    forEach (l ++ [x]) f s = f (forEach l f s) x := by simp [forEach]

/-- Asking about some roles while every condition is masked. -/
theorem askSome_masked (offer : Bool) (s : State) (l : List Role) (ha : (s.meas i).st.active = true)
    (hf : ∀ r, (s.meas i).final r = .live)
    (hm : ∀ r ∈ l, ∀ k, s.roleGives i r k → (s.meas i).masks k = true) :
    ∃ a, AskedSome s i l (s.meas i) a ∧ forEach l (askPeer i offer) s = s.setMeas i a := by
  induction l using List.reverseRecOn with
  | nil =>
    exact ⟨s.meas i, ⟨rfl, by simp, fun r x _ h => by simp at h, fun _ _ => rfl⟩, (s.setMeas_self i).symm⟩
  | append_singleton l r ih =>
    obtain ⟨a, h, e⟩ := ih fun r hr => hm r (List.mem_append_left _ hr)
    have hsrc : ∀ r, a.roleSource r = (s.meas i).roleSource r := by intro r; rw [h.same]; rfl
    have hgives : ∀ r k, (s.setMeas i a).roleGives i r k ↔ s.roleGives i r k := by
      intro r k
      unfold State.roleGives
      simp only [State.meas_setMeas, if_true, hsrc]
      rfl
    rw [forEach_append, e]
    rcases askPeer_cases (i := i) offer (s.setMeas i a) r with ⟨k, x, hk, hx, he⟩ | ⟨hk, he⟩
    · rw [hgives] at hk
      simp only [State.meas_setMeas, if_true, hsrc] at hx
      have hmk := hm r (by simp) k hk
      have hact : ((s.setMeas i a).meas i).st.active = true := by
        simp only [State.meas_setMeas, if_true]; rw [h.same]; exact ha
      have hmask : ((s.setMeas i a).meas i).masks k = true := by
        simp only [State.meas_setMeas, if_true]; rw [h.same]; exact hmk
      rw [he, takePeerCondition_masked _ _ _ _ hact hmask, State.setMeas_setMeas]
      simp only [State.meas_setMeas, if_true]
      have hpeer : (s.setMeas i a).peer x.station = s.peer x.station := rfl
      have hon : ∀ r', (a.qualify (.fault k)).roleOn r' x.station = true ↔
          ∃ y, (s.meas i).roleSource r' = some y ∧ y.station = x.station := by
        intro r'
        have : (a.qualify (.fault k)).roleOn r' x.station = (match (s.meas i).roleSource r' with
          | some y => y.station == x.station | none => false) := by
          rw [← hsrc]; rfl
        rw [this]
        cases (s.meas i).roleSource r' <;> simp
      refine ⟨_, ⟨?_, ?_, ?_, ?_⟩, rfl⟩
      · conv_lhs => rw [h.same]
        simp only [Measure.qualify, Measure.holdFinals, hpeer]
        rw [h.same]
        rfl
      · intro q
        show hasQual q (setQual (.fault k) a.block.quals) = true ↔ _
        rw [hasQual_setQual_iff, h.quals]
        constructor
        · rintro ((h1 | ⟨k', r', hr', h1⟩) | rfl)
          · exact .inl h1
          · exact .inr ⟨k', r', List.mem_append_left _ hr', h1⟩
          · exact .inr ⟨k, r, by simp, rfl, hk⟩
        · rintro (h1 | ⟨k', r', hr', rfl, h1⟩)
          · exact .inl (.inl h1)
          · rcases List.mem_append.mp hr' with h2 | h2
            · exact .inl (.inr ⟨k', r', h2, rfl, h1⟩)
            · rw [List.mem_singleton.mp h2] at h1
              obtain ⟨y, hy, _, hc⟩ := h1
              obtain ⟨z, hz, _, hd⟩ := hk
              rw [hy] at hz; cases hz
              rw [hc] at hd; cases hd
              exact .inr rfl
      · intro r1 x1 hx1 hex
        rw [holdFinals_final, hpeer]
        show holdFinal _ _ (a.final r1) = _
        by_cases hold : ∃ r' ∈ l, ∃ k y, s.roleGives i r' k ∧ (s.meas i).roleSource r' = some y ∧
            y.station = x1.station
        · rw [h.held r1 x1 hx1 hold]; simp [holdFinal]
        · have hfree := h.free r1 fun x2 hx2 => by rw [hx1] at hx2; cases hx2; exact hold
          obtain ⟨r', hr', k', y, hk', hy, hyx⟩ := hex
          rcases List.mem_append.mp hr' with h2 | h2
          · exact absurd ⟨r', h2, k', y, hk', hy, hyx⟩ hold
          · rw [List.mem_singleton.mp h2] at hy
            rw [hx] at hy; cases hy
            have := (hon r1).mpr ⟨x1, hx1, hyx.symm⟩
            rw [this, hfree, hf, hyx]; simp [holdFinal]
      · intro r1 hno
        rw [holdFinals_final, hpeer]
        show holdFinal _ _ (a.final r1) = _
        have hoff : (a.qualify (.fault k)).roleOn r1 x.station = false := by
          rw [Bool.eq_false_iff]
          intro hc
          obtain ⟨y, hy, hyx⟩ := (hon r1).mp hc
          exact hno y hy ⟨r, by simp, k, x, hk, hx, hyx.symm⟩
        rw [hoff, h.free r1 fun x1 hx1 ⟨r', hr', rest⟩ => hno x1 hx1 ⟨r', List.mem_append_left _ hr', rest⟩]
        simp [holdFinal]
    · refine ⟨a, ⟨h.same, ?_, ?_, ?_⟩, he⟩
      · intro q
        rw [h.quals]
        constructor
        · exact Or.imp_right fun ⟨k, r', hr', h1⟩ => ⟨k, r', List.mem_append_left _ hr', h1⟩
        · refine Or.imp_right fun ⟨k, r', hr', h1, h2⟩ => ?_
          rcases List.mem_append.mp hr' with h3 | h3
          · exact ⟨k, r', h3, h1, h2⟩
          · rw [List.mem_singleton.mp h3] at h2
            exact absurd ((hgives _ _).mpr h2) (hk k)
      · intro r1 x1 hx1 ⟨r', hr', k, y, h1, h2⟩
        rcases List.mem_append.mp hr' with h3 | h3
        · exact h.held r1 x1 hx1 ⟨r', h3, k, y, h1, h2⟩
        · rw [List.mem_singleton.mp h3] at h1
          exact absurd ((hgives _ _).mpr h1) (hk k)
      · intro r1 hno
        exact h.free r1 fun x1 hx1 ⟨r', hr', rest⟩ => hno x1 hx1 ⟨r', List.mem_append_left _ hr', rest⟩

theorem condition_some {p : PeerState} (h : p.condition ≠ none) : ∃ k, p.condition = some k :=
  Option.ne_none_iff_exists'.mp h

/-- At an entry into ARMED with every condition masked, the measure takes them and nothing else changes. -/
theorem askPeers_masked (offer : Bool) (s : State) (ha : (s.meas i).st.active = true)
    (hf : ∀ r, (s.meas i).final r = .live) (hm : ∀ k, s.peerGives i k → (s.meas i).masks k = true) :
    ∃ a, Asked s i (s.meas i) a ∧ askPeers i offer s = s.setMeas i a := by
  obtain ⟨a, h, e⟩ := askSome_masked (i := i) offer s s.roleOrder ha hf fun r _ k hk => hm k ⟨r, hk⟩
  refine ⟨a, ⟨h.same, ?_, ?_⟩, e⟩
  · intro q
    rw [h.quals]
    constructor
    · exact Or.imp_right fun ⟨k, r, _, h1, h2⟩ => ⟨k, h1, r, h2⟩
    · exact Or.imp_right fun ⟨k, h1, r, h2⟩ => ⟨k, r, mem_roleOrder s r, h1, h2⟩
  · intro r
    split
    · rename_i x hx
      split
      · rename_i hc
        obtain ⟨k, hk⟩ := condition_some hc.2
        exact h.held r x hx ⟨r, mem_roleOrder s r, k, x, ⟨x, hx, hc.1, hk⟩, hx, rfl⟩
      · rename_i hc
        refine h.free r fun y hy ⟨r', _, k, z, ⟨z', hz', hn, hk⟩, hz, hzy⟩ => hc ?_
        rw [hx] at hy; cases hy
        rw [hz] at hz'; cases hz'
        rw [← hzy]
        exact ⟨hn, by rw [hk]; simp⟩
    · rename_i hx
      exact h.free r fun y hy => by rw [hx] at hy; cases hy

/-- A condition meets neither an active nor a REPORTING measure: nothing happens. -/
theorem takePeerCondition_fault (k : FaultKind) (p : Fin 16) (offer : Bool) (s : State)
    (h : (s.meas i).st = .fault) : takePeerCondition i k p offer s = s := by
  unfold takePeerCondition takeCondition
  simp [h, MeasureState.active]

/-- A measure in FAULT takes no further condition. -/
theorem askSome_fault (offer : Bool) (s : State) (l : List Role) (h : (s.meas i).st = .fault) :
    forEach l (askPeer i offer) s = s := by
  induction l with
  | nil => rfl
  | cons r l ih =>
    have e : askPeer i offer s r = s := by
      rcases askPeer_cases (i := i) offer s r with ⟨k, x, -, -, he⟩ | ⟨-, he⟩
      · rw [he, takePeerCondition_fault _ _ _ _ h]
      · exact he
    show forEach l _ (askPeer i offer s r) = s
    rw [e, ih]

/-- The first unmasked condition puts the measure into FAULT with its report. -/
theorem askSome_faults (offer : Bool) (s : State) (l : List Role) (ha : (s.meas i).st.active = true)
    (hf : ∀ r, (s.meas i).final r = .live)
    (hx : ∃ r ∈ l, ∃ k, s.roleGives i r k ∧ (s.meas i).masks k = false) :
    ∃ k, s.peerGives i k ∧ (s.meas i).masks k = false ∧ Faults s (forEach l (askPeer i offer) s) i k ∧
      (offer = false → (forEach l (askPeer i offer) s).queue = s.queue) := by
  induction l using List.reverseRecOn with
  | nil => simp at hx
  | append_singleton l r ih =>
    rw [forEach_append]
    by_cases hl : ∃ r ∈ l, ∃ k, s.roleGives i r k ∧ (s.meas i).masks k = false
    · obtain ⟨k, h1, h2, h3, h4⟩ := ih hl
      have e := askSome_fault offer _ [r] h3.1
      have e : askPeer i offer (forEach l (askPeer i offer) s) r = forEach l (askPeer i offer) s := e
      rw [e]
      exact ⟨k, h1, h2, h3, h4⟩
    · obtain ⟨a, h, e⟩ := askSome_masked (i := i) offer s l ha hf fun r hr k hk => by
        by_contra hc
        exact hl ⟨r, hr, k, hk, by simpa using hc⟩
      have hsrc : ∀ r, a.roleSource r = (s.meas i).roleSource r := by intro r; rw [h.same]; rfl
      obtain ⟨r1, hr1, k, hk, hmk⟩ := hx
      rcases List.mem_append.mp hr1 with h2 | h2
      · exact absurd ⟨r1, h2, k, hk, hmk⟩ hl
      rw [List.mem_singleton.mp h2] at hk
      rw [e]
      have hg : (s.setMeas i a).roleGives i r k := by
        unfold State.roleGives
        simp only [State.meas_setMeas, if_true, hsrc]
        exact hk
      rcases askPeer_cases (i := i) offer (s.setMeas i a) r with ⟨k', x, hk', hx', he⟩ | ⟨hno, -⟩
      · have : k' = k := by
          obtain ⟨y, hy, -, hc⟩ := hk'
          obtain ⟨z, hz, -, hd⟩ := hg
          rw [hy] at hz; cases hz
          rw [hc] at hd; cases hd; rfl
        subst this
        have hact : ((s.setMeas i a).meas i).st.active = true := by
          simp only [State.meas_setMeas, if_true]; rw [h.same]; exact ha
        have hmask : ((s.setMeas i a).meas i).masks k' = false := by
          simp only [State.meas_setMeas, if_true]; rw [h.same]; exact hmk
        have ht : takePeerCondition i k' x.station offer (s.setMeas i a) = enterFault i k' offer (s.setMeas i a) := by
          unfold takePeerCondition takeCondition
          dsimp only
          rw [hact, hmask]
          simp
        have hF := enterFault_faults i k' offer (s.setMeas i a)
        have hkind : ((s.setMeas i a).meas i).kind = (s.meas i).kind := by
          simp only [State.meas_setMeas, if_true]; rw [h.same]; rfl
        have hseq : ((s.setMeas i a).meas i).sequence = (s.meas i).sequence := by
          simp only [State.meas_setMeas, if_true]; rw [h.same]
        rw [he, ht]
        refine ⟨k', ⟨r, hk⟩, hmk, ⟨hF.1, ?_⟩, fun ho => ?_⟩
        · have := hF.2
          rw [hkind, hseq] at this
          exact this
        · subst ho
          unfold enterFault
          simp
          rfl
      · exact absurd hg (hno k)

/-- At an entry into ARMED with an unmasked condition among its peers', the measure enters FAULT with the report of
one of them. -/
theorem askPeers_faults (offer : Bool) (s : State) (ha : (s.meas i).st.active = true)
    (hf : ∀ r, (s.meas i).final r = .live) (hx : ∃ k, s.peerGives i k ∧ (s.meas i).masks k = false) :
    ∃ k, s.peerGives i k ∧ (s.meas i).masks k = false ∧ Faults s (askPeers i offer s) i k ∧
      (offer = false → (askPeers i offer s).queue = s.queue) := by
  obtain ⟨k, ⟨r, hk⟩, hm⟩ := hx
  exact askSome_faults offer s s.roleOrder ha hf ⟨r, mem_roleOrder s r, k, hk, hm⟩

/-- ARM and auto-arm of an IDLE measure in a state `t` that has served other measures before: its entry into ARMED
ends in FAULT on an unmasked condition of a named peer; else it stands as asked, and its gate may open at once. -/
theorem armMeasure_takes {c : MeasureConfig} (x : TimeStamp) {s t : State} (hs : (s.meas i).st = .idle)
    (hc : (s.meas i).config = some c) (hf : MeasureFrame s t) (hm : t.meas i = s.meas i) {base : Measure}
    (hb : base = { (s.meas i).dropBlock with
      st := .armed
      rearms := if c.rearm = 255 then .unlimited else .left c.rearm.toNat
      armingTime := some x
      searchTime := some x }) :
    ((∃ k, s.peerGives i k ∧ (s.meas i).masks k = false) →
      ∃ k, s.peerGives i k ∧ (s.meas i).masks k = false ∧ Faults t (armMeasure i x t) i k) ∧
    ((∀ k, s.peerGives i k → (s.meas i).masks k = true) →
      ∃ a, Asked s i base a ∧ armMeasure i x t = openAtArming i c x (t.setMeas i a)) := by
  have e : armMeasure i x t = openAtArming i c x (askPeers i true (t.setMeas i base)) := by
    unfold armMeasure
    simp only [hm, hs, hc]
    have : (s.meas i).armedAt c x = base := by
      rw [hb]; simp [Measure.armedAt, rearmsOf]
    rw [this]
  set u := t.setMeas i base with hu
  have hum : u.meas i = base := by simp [hu]
  have hpg : ∀ k, u.peerGives i k ↔ s.peerGives i k := by
    intro k; unfold State.peerGives
    rw [hum, hb]
    have h1 : u.loader = s.loader := hf.loader
    have h2 : ∀ p, u.peer p = s.peer p := fun p => by show t.peers.get p = _; rw [hf.peers]
    simp only [h1, h2]; rfl
  have hact : (u.meas i).st.active = true := by rw [hum, hb]; rfl
  have hlive : ∀ r, (u.meas i).final r = .live := by intro r; rw [hum, hb]; cases r <;> rfl
  have hmk : ∀ k, (u.meas i).masks k = (s.meas i).masks k := by intro k; rw [hum, hb]; rfl
  constructor
  · rintro ⟨k0, h0, h0'⟩
    obtain ⟨k, h1, h2, h3, -⟩ :=
      askPeers_faults true u hact hlive ⟨k0, (hpg _).mpr h0, by rw [hmk]; exact h0'⟩
    refine ⟨k, (hpg _).mp h1, by rw [← hmk]; exact h2, ?_⟩
    have e2 : armMeasure i x t = askPeers i true u := by
      rw [e]; unfold openAtArming; rw [h3.1]; rfl
    rw [e2]
    refine ⟨h3.1, ?_⟩
    have := h3.2
    have hk : (u.meas i).kind = (t.meas i).kind := by rw [hum, hb, hm]; rfl
    have hq : (u.meas i).sequence = (t.meas i).sequence := by rw [hum, hb, hm]; rfl
    rw [hk, hq] at this
    exact this
  · intro hall
    obtain ⟨a, h1, h2⟩ := askPeers_masked true u hact hlive fun k hk => by
      rw [hmk]; exact hall k ((hpg k).mp hk)
    refine ⟨a, ⟨by rw [← hum]; exact h1.same, fun q => ?_, fun r => ?_⟩, ?_⟩
    · rw [h1.quals, hum]; simp only [hpg]
    · rw [h1.finals]
      have hr : (u.meas i).roleSource r = (s.meas i).roleSource r := by rw [hum, hb]; rfl
      have h3 : u.loader = s.loader := hf.loader
      have h4 : ∀ p, u.peer p = s.peer p := fun p => by show t.peers.get p = _; rw [hf.peers]
      rw [hr, h3, hum]; simp only [h4]
    · rw [e, h2, hu, State.setMeas_setMeas]

/-! ### A boundary and the sequences -/

theorem openGate_sequences (x : TimeStamp) (s : State) : (openGate i x s).sequences = s.sequences := by
  unfold openGate
  dsimp only
  split
  · split
    · split <;> rfl
    · rfl
  · rfl

theorem openAligned_sequences (s : State) : (openAligned i s).sequences = s.sequences := by
  unfold openAligned
  dsimp only
  split
  · split
    · exact openGate_sequences _ _
    · rfl
  · rfl

theorem openAtArming_sequences (c : MeasureConfig) (x : TimeStamp) (s : State) :
    (openAtArming i c x s).sequences = s.sequences := by
  unfold openAtArming
  split
  · split
    · exact openGate_sequences _ _
    · exact openGate_sequences _ _
    · split
      · exact openGate_sequences _ _
      · rfl
    · rfl
  · rfl

/-- A fault at measure i leaves a sequence whose source it is not. -/
theorem enterFault_sequence (k : FaultKind) (offer : Bool) (s : State) (q : Fin 4)
    (h : (s.sequences.get q).onMeasure i = false) : (enterFault i k offer s).sequences.get q = s.sequences.get q := by
  unfold enterFault
  dsimp only
  split
  · unfold enqueueGroup
    dsimp only
    rw [fireEnqueue_sequences, if_neg]
    · rfl
    · show ¬ ((s.sequences.get q).onMeasure i = true)
      simp [h]
  · rfl

theorem askPeers_sequence (offer : Bool) (s : State) (q : Fin 4) (h : (s.sequences.get q).onMeasure i = false) :
    (askPeers i offer s).sequences.get q = s.sequences.get q := by
  have condition : ∀ k (s : State), (s.sequences.get q).onMeasure i = false →
      (takeCondition i k offer s).sequences.get q = s.sequences.get q := by
    intro k s h
    unfold takeCondition
    dsimp only
    split
    · split
      · rfl
      · exact enterFault_sequence _ _ _ _ h
    · split <;> rfl
  have one : ∀ r (s : State), (s.sequences.get q).onMeasure i = false →
      (askPeer i offer s r).sequences.get q = s.sequences.get q := by
    intro r s h
    rcases askPeer_cases (i := i) offer s r with ⟨k, x, -, -, e⟩ | ⟨-, e⟩
    · rw [e]
      unfold takePeerCondition
      dsimp only
      split <;> exact condition k s h
    · rw [e]
  have all : ∀ (l : List Role) (s : State), (s.sequences.get q).onMeasure i = false →
      (forEach l (askPeer i offer) s).sequences.get q = s.sequences.get q := by
    intro l
    induction l with
    | nil => exact fun s _ => rfl
    | cons r l ih =>
      intro s h
      have e := one r s h
      exact (ih _ (by rw [e]; exact h)).trans e
  exact all _ s h

theorem autoArm_sequence (s : State) (q : Fin 4) (h : (s.sequences.get q).onMeasure i = false) :
    (autoArm i s).sequences.get q = s.sequences.get q := by
  unfold autoArm
  split
  · split
    · unfold armMeasure
      split
      · rw [openAtArming_sequences, askPeers_sequence]
        · rfl
        · exact h
      · rfl
    · rfl
  · rfl

/-- An auto-arm whose conditions are all masked fires no sequence. -/
theorem autoArm_sequences (s : State) (h : ∀ k, s.peerGives i k → (s.meas i).masks k = true) :
    (autoArm i s).sequences = s.sequences := by
  unfold autoArm
  split
  · split
    · cases hs : (s.meas i).st with
      | idle =>
        cases hc : (s.meas i).config with
        | none => unfold armMeasure; simp [hs, hc]
        | some c =>
          obtain ⟨a, -, e⟩ := (armMeasure_takes (i := i) s.localTime hs hc (.rfl' s) rfl rfl).2 h
          rw [e, openAtArming_sequences]
          rfl
      | _ => unfold armMeasure; simp [hs]
    · rfl
  · rfl

/-- Opening aligned gates leaves what the auto-arms and the sequences read. -/
theorem openAligned_all (l : List (Fin 8)) (s : State) :
    (forEach l (fun s i => openAligned i s) s).sequences = s.sequences ∧
    MeasureFrame s (forEach l (fun s i => openAligned i s) s) ∧
    ∀ j, ((forEach l (fun s i => openAligned i s) s).meas j).config = (s.meas j).config := by
  induction l generalizing s with
  | nil => exact ⟨rfl, .rfl' s, fun _ => rfl⟩
  | cons i l ih =>
    obtain ⟨h1, h2, h3⟩ := ih (openAligned i s)
    refine ⟨h1.trans (openAligned_sequences s), (Acts.openAligned (w := true) (i := i) s).frame.trans h2, fun j => ?_⟩
    refine (h3 j).trans ?_
    by_cases hj : j = i
    · subst hj
      unfold openAligned
      dsimp only
      split
      · split
        · rename_i c _ hc _
          rw [openGate_meas hc]
          simp [State.gateOpened]
        · rfl
      · rfl
    · rw [(Acts.openAligned (w := true) (i := i) s).others j (by simp [hj, Only])]

/-- The conditions the peers give, and their masks, follow the configurations, the peers and the station's number. -/
theorem peerGives_congr {t : State} {j : Fin 8} (hm : (t.meas j).config = (s.meas j).config)
    (hl : t.loader = s.loader) (hp : t.peers = s.peers) (k : FaultKind) :
    (t.peerGives j k ↔ s.peerGives j k) ∧ (t.meas j).masks k = (s.meas j).masks k := by
  constructor
  · unfold State.peerGives Measure.roleSource State.peer
    rw [hm, hl, hp]
  · unfold Measure.masks
    rw [hm]

/-- When a boundary at the measures leaves sequence q: no auto-arm is to come, or none of them can report, or the
sequence has no measure as its source. -/
def State.boundaryLeaves (s : State) (q : Fin 4) : Prop :=
  s.eu.autoArmed = true ∨ (∀ j k, s.peerGives j k → (s.meas j).masks k = true) ∨
    ∀ j, (s.sequences.get q).onMeasure j = false

theorem boundaryMeasures_sequence (s : State) (q : Fin 4) (h : s.boundaryLeaves q) :
    (boundaryMeasures s).sequences.get q = s.sequences.get q := by
  unfold boundaryMeasures
  dsimp only
  obtain ⟨h1, h2, h3⟩ := openAligned_all s.measureOrder s
  set u := forEach s.measureOrder (fun s i => openAligned i s) s
  split
  · rw [h1]
  · rename_i hn
    rcases h with h | h | h
    · rw [h2.eu] at hn
      exact absurd h hn
    · have all : ∀ (l : List (Fin 8)) (v : State), (∀ j ∈ l, ∀ k, v.peerGives j k → (v.meas j).masks k = true) →
          l.Nodup → (forEach l (fun s i => autoArm i s) v).sequences = v.sequences := by
        intro l
        induction l with
        | nil => exact fun _ _ _ => rfl
        | cons i l ih =>
          intro v hv hl
          obtain ⟨n1, n2⟩ := List.nodup_cons.mp hl
          refine (ih (autoArm i v) (fun j hj k hk => ?_) n2).trans (autoArm_sequences v (hv i (by simp)))
          have hA := Acts.autoArm (i := i) v
          have hm : (autoArm i v).meas j = v.meas j := hA.others j (by rintro rfl; exact n1 hj)
          obtain ⟨e1, e2⟩ := peerGives_congr (congrArg Measure.config hm) hA.frame.loader hA.frame.peers k
          rw [e2]
          exact hv j (by simp [hj]) k (e1.mp hk)
      rw [all _ _ (fun j _ k hk => ?_) (measureOrder_nodup s)]
      · exact congrArg (fun x => Table.get x q) h1
      · obtain ⟨e1, e2⟩ := peerGives_congr (h3 j) h2.loader h2.peers k
        show (u.meas j).masks k = true
        rw [e2]
        exact h j k (e1.mp hk)
    · have all : ∀ (l : List (Fin 8)) (v : State), (∀ j, (v.sequences.get q).onMeasure j = false) →
          (forEach l (fun s i => autoArm i s) v).sequences.get q = v.sequences.get q := by
        intro l
        induction l with
        | nil => exact fun _ _ => rfl
        | cons i l ih =>
          intro v hv
          have e := autoArm_sequence (i := i) v q (hv i)
          exact (ih _ (by rw [e]; exact hv)).trans e
      refine (all _ _ ?_).trans (congrArg (fun x => Table.get x q) h1)
      show ∀ j, (u.sequences.get q).onMeasure j = false
      rw [h1]
      exact h

/-- A boundary at a sequence that its auto-arms leave does what it does at the sequence alone (R181). -/
theorem boundaryTable_sequence (s : State) (q : Fin 4) (h : s.boundaryLeaves q) :
    (boundaryTable s).sequences.get q = (boundarySequence q s).sequences.get q := by
  unfold boundaryTable
  split
  · have hF := (Fires.boundarySequences s).frame
    have hm : ∀ j, (boundarySequences s).meas j = s.meas j := fun j => congrArg (fun x => Table.get x j) hF.measures
    rw [boundaryMeasures_sequence, boundarySequences_sequences]
    refine h.imp (fun h => by rw [hF.eu]; exact h) (Or.imp (fun h j k hk => ?_) fun h j => ?_)
    · obtain ⟨e1, e2⟩ := peerGives_congr (congrArg Measure.config (hm j)) hF.loader hF.peers k
      rw [e2]
      exact h j k (e1.mp hk)
    · rw [boundarySequences_sequences]
      unfold Sequence.onMeasure
      rw [boundarySequence_config]
      exact h j
  · rw [boundarySequences_sequences]
    exact boundarySequence_own q s _ (boundaryMeasures_sequence s q h)

end Sys2Proof.Machine
end

