-- ==== Sys2Proof/Laws/Checks.lean ====
section
/-! SUPPORT. What the checks ask: the measure and trigger records of the image byte by byte, a directive's validity,
and the order of a remote record. -/

namespace Sys2Proof.Machine

/-! ### Bytes and codes -/

theorem byteAt_lt (image : List Byte) (i : Nat) : byteAt image i < 256 := (image.getD i 0).isLt

theorem fieldAt_lt (image : List Byte) (start n : Nat) : fieldAt image start n < 256 ^ n := by
  induction n with
  | zero => simp [fieldAt]
  | succ n ih => have := byteAt_lt image (start + n); simp only [fieldAt, Nat.pow_succ]; omega

/-- A field of `n` bytes read as a bit vector of their width is its number. -/
theorem fieldAt_mod (image : List Byte) (start : Nat) {n w : Nat} (h : 2 ^ w = 256 ^ n) :
    fieldAt image start n % 2 ^ w = fieldAt image start n := by
  rw [h]; exact Nat.mod_eq_of_lt (fieldAt_lt ..)

theorem zerosAt_one {image : List Byte} {start : Nat} :
    zerosAt image start 1 = true ↔ byteAt image start = 0 := by simp [zerosAt]

theorem zerosAt_two {image : List Byte} {start : Nat} :
    zerosAt image start 2 = true ↔ byteAt image start = 0 ∧ byteAt image (start + 1) = 0 := by
  simp [zerosAt, List.range_succ]

theorem finOfNat_val {n k : Nat} (h : k ≤ n) : (finOfNat n k).val = k := Nat.mod_eq_of_lt (by omega)

theorem finOfNat_eq {n k : Nat} (h : k ≤ n) {x : Fin (n + 1)} : finOfNat n k = x ↔ k = x.val := by
  rw [Fin.ext_iff, finOfNat_val h]

theorem edgesOfCode_ne_off {n : Nat} : ¬ edgesOfCode n = .off ↔ 1 ≤ n ∧ n ≤ 3 := by
  match n with
  | 0 | 1 | 2 | 3 => simp [edgesOfCode]
  | n + 4 => simp [edgesOfCode]

theorem kindOfCode_totalize {n : Nat} : kindOfCode n = .totalize ↔ n = 1 := by
  unfold kindOfCode; split <;> simp_all

theorem kindOfCode_interval {n : Nat} (h : 1 ≤ n ∧ n ≤ 3) : kindOfCode n = .interval ↔ n = 3 := by
  obtain rfl | rfl | rfl : n = 1 ∨ n = 2 ∨ n = 3 := by omega
  all_goals simp [kindOfCode]

theorem gateOfCode_free {n : Nat} : gateOfCode n = .free ↔ n = 0 := by
  unfold gateOfCode; split <;> simp_all

theorem gateOfCode_timed {n : Nat} : gateOfCode n = .timed ↔ n = 1 := by
  unfold gateOfCode; split <;> simp_all

theorem gateOfCode_edge {n : Nat} : gateOfCode n = .edge ↔ n = 2 := by
  unfold gateOfCode; split <;> simp_all

theorem polarityOfCode_eq {n : Nat} (h : n ≤ 2) :
    polarityOfCode n = if n = 0 then .any else if n = 1 then .rise else .fall := by
  obtain rfl | rfl | rfl : n = 0 ∨ n = 1 ∨ n = 2 := by omega
  all_goals rfl

theorem polarityOfCode_any {n : Nat} (h : n ≤ 2) : polarityOfCode n = .any ↔ n = 0 := by
  obtain rfl | rfl | rfl : n = 0 ∨ n = 1 ∨ n = 2 := by omega
  all_goals simp [polarityOfCode]

theorem edgesOfCode_eq (n : Nat) : edgesOfCode n =
    if n = 1 then .rise else if n = 2 then .fall else if n = 3 then .both else .off := by
  match n with
  | 0 | 1 | 2 | 3 => rfl
  | n + 4 => simp [edgesOfCode]

theorem channelConfig_edges (image : List Byte) {n : Nat} (h : n ≤ 3) :
    (channelConfig image (finOfNat 3 n)).edges = edgesOfCode (byteAt image (25 + 12 * n)) := by
  simp only [channelConfig, channelBase, finOfNat_val h]
  congr 2; omega

/-! ### Measure records -/

section
variable {image : List Byte} {number : Fin 16} {i : Fin 8} {r : Nat}

theorem measureCodesOk_iff (hr : measureBase i = r) : measureCodesOk image i = true ↔
    byteAt image r ≤ 3 ∧ byteAt image (r + 1) ≤ 3 ∧ byteAt image (r + 2) ≤ 1 ∧ byteAt image (r + 3) ≤ 1 ∧
    byteAt image (r + 16) ≤ 1 ∧ (byteAt image (r + 2) = 1 → byteAt image (r + 1) = 1) ∧
    (byteAt image (r + 4) ≤ 15 ∧ byteAt image (r + 5) ≤ 3 ∧ byteAt image (r + 6) ≤ 2) ∧
    (byteAt image (r + 7) ≤ 15 ∧ byteAt image (r + 8) ≤ 3 ∧ byteAt image (r + 9) ≤ 2) ∧
    byteAt image (r + 10) ≤ 15 ∧ byteAt image (r + 11) ≤ 3 ∧ byteAt image (r + 12) ≤ 2 := by
  simp only [measureCodesOk, sourceCodesOk, hr, Bool.and_eq_true, decide_eq_true_eq, Bool.or_eq_true, bne_iff_ne,
    beq_iff_eq, Nat.add_assoc, Nat.reduceAdd, imp_iff_not_or, ne_eq]
  tauto

theorem measureReservedOk_iff (hr : measureBase i = r) : measureReservedOk image i = true ↔
    byteAt image (r + 13) < 8 ∧ byteAt image (r + 14) < 64 ∧ byteAt image (r + 17) = 0 ∧
    byteAt image (r + 38) = 0 ∧ byteAt image (r + 39) = 0 := by
  simp only [measureReservedOk, hr, Bool.and_eq_true, decide_eq_true_eq, zerosAt_one, zerosAt_two, Nat.add_assoc,
    Nat.reduceAdd, and_assoc]

/-- The checks on a record whose codes are listed: ranges, window, timed length, stations and local channels of the
used sources, TOTALIZE source, TOTALIZE gate, free gate (R105). -/
theorem measureFieldsOk_iff (hr : measureBase i = r) (h0 : byteAt image r ≠ 0)
    (hc : measureCodesOk image i = true) :
    measureFieldsOk (measureFields image i) (byteAt image 4) (2 ^ byteAt image 5) number
        (fun ch => (channelConfig image ch).edges) = true ↔
    (1 ≤ fieldAt image (r + 24) 2 ∧ fieldAt image (r + 24) 2 ≤ 32767 ∧
      (byteAt image r = 3 → 1 ≤ fieldAt image (r + 22) 2) ∧
      (byteAt image (r + 1) = 1 → 1 ≤ fieldAt image (r + 18) 4)) ∧
    (byteAt image r = 3 → fieldAt image (r + 26) 6 ≤ fieldAt image (r + 32) 6) ∧
    (byteAt image (r + 1) = 1 →
      fieldAt image (r + 18) 4 ≤ fieldAt image (r + 24) 2 * 2 ^ byteAt image 5) ∧
    (∀ k, k = 4 ∨ (k = 7 ∧ byteAt image r = 3) ∨ (k = 10 ∧ byteAt image (r + 1) = 2) →
      byteAt image (r + k) < byteAt image 4 ∧
      (byteAt image (r + k) = number.val → 1 ≤ byteAt image (25 + 12 * byteAt image (r + k + 1)) ∧
        byteAt image (25 + 12 * byteAt image (r + k + 1)) ≤ 3)) ∧
    (byteAt image r = 1 → byteAt image (r + 4) = number.val ∧ byteAt image (r + 6) = 0 ∧
      (byteAt image (r + 1) = 2 → byteAt image (r + 10) = number.val)) ∧
    (byteAt image r ≠ 3 → byteAt image (r + 1) ≠ 0) := by
  obtain ⟨c1, -, -, -, -, -, ⟨a1, a2, a3⟩, ⟨b1, b2, -⟩, g1, g2, -⟩ := (measureCodesOk_iff hr).1 hc
  have imp : ∀ {p q : Prop}, ¬ p ∨ q → p → q := fun h hp => h.resolve_left (not_not.2 hp)
  simp only [measureFieldsOk, MeasureConfig.usedSources, measureFields, sourceAt, hr, Bool.and_eq_true,
    Bool.or_eq_true, decide_eq_true_eq, bne_iff_ne, beq_iff_eq, List.all_eq_true, List.mem_append,
    List.mem_singleton, List.mem_ite_nil_right, ne_eq, kindOfCode_interval ⟨Nat.pos_of_ne_zero h0, c1⟩,
    kindOfCode_totalize, gateOfCode_edge, gateOfCode_timed, gateOfCode_free, polarityOfCode_any a3,
    BitVec.toNat_ofNat, fieldAt_mod image _ (n := 2) (w := 16) rfl, fieldAt_mod image _ (n := 4) (w := 32) rfl,
    fieldAt_mod image _ (n := 6) (w := 48) rfl, Nat.add_assoc, Nat.reduceAdd, forall_eq, or_imp, forall_and, and_imp,
    finOfNat_val a1, finOfNat_val b1, finOfNat_val g1, finOfNat_eq a1, finOfNat_eq g1, finOfNat_eq b1,
    channelConfig_edges image a2, channelConfig_edges image b2, channelConfig_edges image g2, edgesOfCode_ne_off,
    forall_comm (α := Source) (β := _ = _)]
  constructor
  · rintro ⟨⟨⟨⟨⟨⟨⟨⟨⟨⟨q1, q2⟩, q3⟩, q4⟩, q5⟩, q6⟩, ⟨q7, q8⟩, q9⟩, ⟨q10, q11⟩, q12⟩, q13⟩, q14⟩, q15⟩
    exact ⟨⟨q1, q2, imp q3, imp q4⟩, imp q5, imp q6,
      ⟨⟨q7, q8, q9⟩,
        ⟨fun h => (imp q10 h).1, fun h h' => (imp (q11 h) h').1, fun h h' => (imp (q12 h) h').1⟩,
        fun h => (imp q10 h).2, fun h h' => (imp (q11 h) h').2, fun h h' => (imp (q12 h) h').2⟩,
      ⟨fun h => (imp q13 h).1, fun h => (imp q13 h).2,
        fun h h' => q14.resolve_left (not_or.2 ⟨not_not.2 h, not_not.2 h'⟩)⟩, q15.resolve_left⟩
  · rintro ⟨⟨q1, q2, q3, q4⟩, q5, q6, ⟨⟨a1, a2, a3⟩, ⟨b1, b2, b3⟩, d1, d2, d3⟩, ⟨e1, e2, e3⟩, f1⟩
    exact ⟨⟨⟨⟨⟨⟨⟨⟨⟨⟨q1, q2⟩, not_or_of_imp q3⟩, not_or_of_imp q4⟩, not_or_of_imp q5⟩, not_or_of_imp q6⟩,
      ⟨a1, a2⟩, a3⟩,
      ⟨not_or_of_imp fun h => ⟨b1 h, d1 h⟩, fun h => not_or_of_imp fun h' => ⟨b2 h h', d2 h h'⟩⟩,
        fun h => not_or_of_imp fun h' => ⟨b3 h h', d3 h h'⟩⟩,
      not_or_of_imp fun h => ⟨e1 h, e2 h⟩⟩,
      if h : byteAt image r = 1 then
        if h' : byteAt image (r + 1) = 2 then .inr (e3 h h') else .inl (.inr h')
      else .inl (.inl h)⟩,
      or_iff_not_imp_left.2 f1⟩

theorem measureConfig_eq_some_iff {c : MeasureConfig} : measureConfig image number i = some c ↔
    (byteAt image (measureBase i) ≠ 0 ∧ measureCodesOk image i = true ∧ measureReservedOk image i = true ∧
      measureFieldsOk (measureFields image i) (byteAt image 4) (2 ^ byteAt image 5) number
        (fun ch => (channelConfig image ch).edges) = true) ∧ measureFields image i = c := by
  unfold measureConfig
  simp [and_assoc]

theorem measureConfig_isSome_iff : (measureConfig image number i).isSome = true ↔
    byteAt image (measureBase i) ≠ 0 ∧ measureCodesOk image i = true ∧ measureReservedOk image i = true ∧
      measureFieldsOk (measureFields image i) (byteAt image 4) (2 ^ byteAt image 5) number
        (fun ch => (channelConfig image ch).edges) = true := by
  simp [Option.isSome_iff_exists, measureConfig_eq_some_iff]

/-- The fields of a record whose codes and reserved bits pass (Formats). -/
theorem measureFields_spec (hr : measureBase i = r) (h0 : byteAt image r ≠ 0)
    (hc : measureCodesOk image i = true) (hv : measureReservedOk image i = true) {c : MeasureConfig}
    (hf : measureFields image i = c) :
    c.kind = (if byteAt image r = 1 then .totalize else if byteAt image r = 2 then .reciprocal else .interval) ∧
    c.gate = (if byteAt image (r + 1) = 0 then .free else if byteAt image (r + 1) = 1 then .timed
      else if byteAt image (r + 1) = 2 then .edge else .directive) ∧
    (c.gateAlign = .mark ↔ byteAt image (r + 2) = 1) ∧ (c.policy = .latest ↔ byteAt image (r + 3) = 1) ∧
    (∀ k x, (k = 4 ∧ x = c.a) ∨ (k = 7 ∧ x = c.b) ∨ (k = 10 ∧ x = c.g) →
      x.station.val = byteAt image (r + k) ∧ x.channel.val = byteAt image (r + k + 1) ∧
      x.polarity = (if byteAt image (r + k + 2) = 0 then .any
        else if byteAt image (r + k + 2) = 1 then .rise else .fall)) ∧
    c.accept.toNat = byteAt image (r + 13) ∧ c.faultMask.toNat = byteAt image (r + 14) ∧
    c.rearm.toNat = byteAt image (r + 15) ∧ (c.autoArm = true ↔ byteAt image (r + 16) = 1) ∧
    c.length.toNat = fieldAt image (r + 18) 4 ∧ c.blockSize.toNat = fieldAt image (r + 22) 2 ∧
    c.spanLimit.toNat = fieldAt image (r + 24) 2 ∧ c.windowLow.toNat = fieldAt image (r + 26) 6 ∧
    c.windowHigh.toNat = fieldAt image (r + 32) 6 := by
  subst hf
  obtain ⟨c1, c2, -, -, -, -, ⟨a1, a2, a3⟩, ⟨b1, b2, b3⟩, g1, g2, g3⟩ := (measureCodesOk_iff hr).1 hc
  obtain ⟨v1, v2, -⟩ := (measureReservedOk_iff hr).1 hv
  simp only [measureFields, hr]
  refine ⟨?_, ?_, ?_, ?_, ?_, Nat.mod_eq_of_lt v1, Nat.mod_eq_of_lt v2, Nat.mod_eq_of_lt (byteAt_lt ..), by simp,
    fieldAt_mod image _ rfl, fieldAt_mod image _ rfl, fieldAt_mod image _ rfl, fieldAt_mod image _ rfl,
    fieldAt_mod image _ rfl⟩
  · obtain h | h | h : byteAt image r = 1 ∨ byteAt image r = 2 ∨ byteAt image r = 3 := by omega
    all_goals simp [h, kindOfCode]
  · obtain h | h | h | h : byteAt image (r + 1) = 0 ∨ byteAt image (r + 1) = 1 ∨ byteAt image (r + 1) = 2 ∨
        byteAt image (r + 1) = 3 := by omega
    all_goals simp [h, gateOfCode]
  · split <;> simp_all
  · split <;> simp_all
  · rintro k x (⟨rfl, rfl⟩ | ⟨rfl, rfl⟩ | ⟨rfl, rfl⟩)
    · exact ⟨finOfNat_val a1, finOfNat_val a2, polarityOfCode_eq a3⟩
    · exact ⟨finOfNat_val b1, finOfNat_val b2, polarityOfCode_eq b3⟩
    · exact ⟨finOfNat_val g1, finOfNat_val g2, polarityOfCode_eq g3⟩

end

/-! ### Trigger records -/

section
variable {image : List Byte} {i : Fin 4} {r j : Nat}

theorem triggerHeadOk_iff : triggerHeadOk image r = true ↔
    byteAt image r ≤ 2 ∧
    (byteAt image (r + 1) < 64 ∧ byteAt image (r + 1) / 4 % 4 = 0 ∧ byteAt image (r + 1) / 16 ≤ 2) ∧
    byteAt image (r + 2) ≤ 7 ∧ (1 ≤ byteAt image (r + 3) ∧ byteAt image (r + 3) ≤ 3) ∧
    byteAt image (r + 4) = 0 ∧
    (byteAt image r = 1 → 1 ≤ byteAt image (25 + 12 * (byteAt image (r + 1) % 4)) ∧
      byteAt image (25 + 12 * (byteAt image (r + 1) % 4)) ≤ 3) := by
  have hb : channelBase (finOfNat 3 (byteAt image (r + 1) % 4)) + 1 = 25 + 12 * (byteAt image (r + 1) % 4) := by
    simp only [channelBase, finOfNat_val (show byteAt image (r + 1) % 4 ≤ 3 by omega)]; omega
  simp only [triggerHeadOk, Bool.and_eq_true, Bool.or_eq_true, decide_eq_true_eq, bne_iff_ne, ne_eq, hb,
    zerosAt_one, edgesOfCode_ne_off, ← imp_iff_not_or]
  constructor
  · rintro ⟨⟨⟨⟨⟨⟨⟨⟨h0, h1⟩, h2⟩, h3⟩, h4⟩, h5⟩, h6⟩, h7⟩, h8⟩
    exact ⟨h0, ⟨by omega, h2, by omega⟩, h4, ⟨h5, h6⟩, h7, h8⟩
  · rintro ⟨h0, ⟨h1, h2, h3⟩, h4, ⟨h5, h6⟩, h7, h8⟩
    exact ⟨⟨⟨⟨⟨⟨⟨⟨h0, by omega⟩, h2⟩, by omega⟩, h4⟩, h5⟩, h6⟩, h7⟩, h8⟩

theorem stepOk_iff : stepOk image r j = true ↔
    (byteAt image (r + 5 + 5 * j) = 16 ∨ byteAt image (r + 5 + 5 * j) < byteAt image 4) ∧
    1 ≤ byteAt image (r + 6 + 5 * j) ∧ byteAt image (r + 6 + 5 * j) ≤ 7 ∧ 1 ≤ byteAt image (r + 8 + 5 * j) := by
  simp [stepOk, and_assoc]

theorem triggerConfig_eq_some_iff {c : TriggerConfig} (hr : triggerBase i = r) :
    triggerConfig image i = some c ↔
    (byteAt image r ≠ 0 ∧ triggerHeadOk image r = true ∧
      ∀ j < byteAt image (r + 3), stepOk image r j = true) ∧
    ⟨triggerSource image r, (List.range (byteAt image (r + 3))).map (stepAt image r)⟩ = c := by
  unfold triggerConfig
  simp [and_assoc, hr]

theorem triggerConfig_isSome_iff (hr : triggerBase i = r) : (triggerConfig image i).isSome = true ↔
    byteAt image r ≠ 0 ∧ triggerHeadOk image r = true ∧
      ∀ j < byteAt image (r + 3), stepOk image r j = true := by
  simp [Option.isSome_iff_exists, triggerConfig_eq_some_iff hr]

/-- The source of a record that passes the checks (Formats). -/
theorem triggerSource_spec (h : triggerHeadOk image r = true) :
    (byteAt image r = 1 → ∃ ch p, triggerSource image r = .channel ch p ∧ ch.val = byteAt image (r + 1) % 4 ∧
      p = if byteAt image (r + 1) / 16 = 0 then .any
        else if byteAt image (r + 1) / 16 = 1 then .rise else .fall) ∧
    (byteAt image r = 2 → ∃ m, triggerSource image r = .measure m ∧ m.val = byteAt image (r + 2)) := by
  obtain ⟨-, ⟨h1, -, h2⟩, h3, -⟩ := triggerHeadOk_iff.1 h
  constructor
  · intro hk
    refine ⟨_, _, if_pos hk, finOfNat_val (by omega), ?_⟩
    rw [Nat.mod_eq_of_lt (by omega), polarityOfCode_eq h2]
  · intro hk
    exact ⟨_, if_neg (by omega), finOfNat_val h3⟩

end

/-! ### Directives and remote records -/

theorem codeOf_isSome_iff {x : BitVec 4} : (codeOf x).isSome = true ↔ 1 ≤ x.toNat ∧ x.toNat ≤ 7 := by
  revert x; decide

theorem validDirective_iff {s : State} {d : Directive} : s.validDirective d = true ↔
    d.target.toNat ≤ 16 ∧ (1 ≤ d.code.toNat ∧ d.code.toNat ≤ 7) ∧ d.reserved = 0 ∧
      d.offset.toNat < s.epochLength := by
  simp [State.validDirective, codeOf_isSome_iff, and_assoc]

/-- A record is out of order exactly when its source's list has a newest entry and the record is not later (R58). -/
theorem outOfOrder_iff {s : State} {p : Fin 16} {c : Fin 4} {x : TimeStamp} : s.outOfOrder p c x = true ↔
    ∃ front newest back, s.store = front ++ newest :: back ∧ (newest.station = p ∧ newest.channel = c) ∧
      (∀ e ∈ back, ¬ (e.station = p ∧ e.channel = c)) ∧ later x newest.time = false := by
  have hf : ∀ e : Entry, (e.station == p && e.channel == c) = true ↔ e.station = p ∧ e.channel = c := by simp
  unfold State.outOfOrder
  constructor
  · intro h
    split at h
    · rename_i newest hn
      obtain ⟨l, hl⟩ := List.getLast?_eq_some_iff.1 hn
      obtain ⟨l1, l2, hs, -, h2⟩ := List.filter_eq_append_iff.1 hl
      obtain ⟨m1, m2, hm, -, hp, hnil⟩ := List.filter_eq_cons_iff.1 h2
      refine ⟨l1 ++ m1, newest, m2, by simp [hs, hm], (hf _).1 hp, fun e he hh => ?_, by simpa using h⟩
      exact absurd ((hf _).2 hh) (List.filter_eq_nil_iff.1 hnil e he)
    · cases h
  · rintro ⟨front, newest, back, hs, hn, hb, hl⟩
    have hnil : back.filter (fun e => e.station == p && e.channel == c) = [] :=
      List.filter_eq_nil_iff.2 fun e he => by rw [hf]; exact hb e he
    simp [hs, List.filter_append, hn.1, hn.2, hnil, hl]

end Sys2Proof.Machine
end

