-- ==== Sys2Proof/Laws/Judgement.lean ====
section
/-! SUPPORT. A judgement's moves: what each takes out of the views, and that a judgement makes every move. -/

namespace Sys2Proof.Machine

variable {s : State} {i : Fin 8}

/-! ### The stamps of a view, by what makes two the same -/

/-- What makes two entries the same stamp (R53). -/
def Entry.key (e : Entry) : Fin 16 × Fin 4 × TimeStamp := (e.station, e.channel, e.time)

theorem same_iff_key (e f : Entry) : e.same f = true ↔ e.key = f.key := by
  simp [Entry.same, Entry.key, and_assoc]

theorem same_eq_key (e f : Entry) : e.same f = decide (e.key = f.key) := by
  rw [Bool.eq_iff_iff, same_iff_key, decide_eq_true_iff]

theorem drop_key (e : Entry) (j : Fin 8) (r : Role) : (e.drop j r).key = e.key := by cases r <;> rfl

/-- The stamps of a view, oldest first. -/
def State.keys (s : State) (i : Fin 8) (r : Role) : List (Fin 16 × Fin 4 × TimeStamp) :=
  (s.view i r).map Entry.key

theorem keys_passEntry (r q : Role) (e : Entry) : (s.passEntry i r e).keys i q =
    if q = r then (s.keys i q).filter (fun k => decide (k ≠ e.key)) else s.keys i q := by
  unfold State.keys
  split
  · rename_i h
    subst h
    rw [view_passEntry, List.filter_map]
    congr 1
    apply List.filter_congr
    intro f _
    simp [same_eq_key]
  · rename_i h
    rw [view_passEntry_other s i e h, List.map_map]
    apply List.map_congr_left
    intro f _
    show (if f.same e then f.drop i r else f).key = f.key
    split
    · exact drop_key f i r
    · rfl

theorem keys_markExamined (e : Entry) (q : Role) : (s.markExamined i e).keys i q = s.keys i q := by
  unfold State.keys
  rw [view_markExamined, List.map_map]
  apply List.map_congr_left
  intro f _
  show (if f.same e then { f with examined := withBit f.examined i.val } else f).key = f.key
  split <;> rfl

theorem keys_modMeas (f : Measure → Measure) (q : Role) : (s.modMeas i f).keys i q = s.keys i q := rfl

theorem keys_examineAB (e : Entry) (q : Role) : (examineAB i e s).keys i q = s.keys i q := by
  unfold examineAB
  split
  · rfl
  · dsimp only
    split
    · exact keys_markExamined e q
    · split
      · split
        · rw [keys_modMeas, keys_markExamined]
        · exact keys_markExamined e q
      · rw [keys_modMeas, keys_markExamined]

/-- A role that takes an entry, or passes it, no longer has it in its view; the other role's stamps stay. -/
theorem keys_passExamined (r q : Role) (e : Entry) : (passExamined i r s e).keys i q =
    if q = r then (s.keys i q).filter (fun k => decide (k ≠ e.key)) else s.keys i q := by
  unfold passExamined
  rw [keys_passEntry, keys_examineAB]

theorem keys_foldPass (r q : Role) (l : List Entry) (s : State) : (l.foldl (passExamined i r) s).keys i q =
    if q = r then (s.keys i q).filter (fun k => decide (k ∉ l.map Entry.key)) else s.keys i q := by
  induction l generalizing s with
  | nil => simp
  | cons e l ih =>
    show ((l.foldl (passExamined i r) (passExamined i r s e))).keys i q = _
    rw [ih, keys_passExamined]
    split
    · rw [List.filter_filter]
      apply List.filter_congr
      intro k _
      rw [Bool.eq_iff_iff]
      simp only [Bool.and_eq_true, decide_eq_true_eq, List.map_cons, List.mem_cons, not_or]
      exact and_comm
    · rfl

/-! ### What is left to judge -/

/-- The stamps of both views, and the last stop while it is kept: every move lowers it. -/
def State.leftToJudge (s : State) (i : Fin 8) : Nat :=
  (s.keys i .A).length + (s.keys i .B).length + (if (s.meas i).lastStop.isSome then 1 else 0)

theorem leftToJudge_le : s.leftToJudge i + 1 ≤ s.judgeFuel := by
  have h (r : Role) : (s.keys i r).length ≤ s.store.length := by
    unfold State.keys
    rw [List.length_map]
    exact List.length_filter_le _ s.store
  have hA := h .A
  have hB := h .B
  unfold State.leftToJudge State.judgeFuel
  split <;> omega

theorem length_filter_lt {α : Type} {p : α → Bool} {l : List α} {a : α} (h : a ∈ l) (hp : p a = false) :
    (l.filter p).length < l.length := by
  rw [List.length_filter_lt_length_iff_exists]
  exact ⟨a, h, by simp [hp]⟩

theorem key_mem {r : Role} {e : Entry} (h : e ∈ s.view i r) : e.key ∈ s.keys i r := List.mem_map_of_mem h

theorem mem_view_of_stamps {r : Role} {e : Entry} (h : e ∈ s.stamps i r) : e ∈ s.view i r :=
  (List.mem_filter.mp h).1

/-- Taking an entry out of one of the two views, with the last stop as it was, leaves less to judge. -/
theorem lowers_of_keys {t : State} {r : Role} {e : Entry} (hr : r = .A ∨ r = .B) (he : e ∈ s.view i r)
    (hk : ∀ q, t.keys i q = if q = r then (s.keys i q).filter (fun k => decide (k ≠ e.key)) else s.keys i q)
    (hl : (t.meas i).lastStop = (s.meas i).lastStop) : t.leftToJudge i < s.leftToJudge i := by
  have := length_filter_lt (p := fun k => decide (k ≠ e.key)) (key_mem he) (by simp)
  unfold State.leftToJudge
  rw [hk, hk, hl]
  rcases hr with rfl | rfl
  · simp only [if_true, reduceCtorEq, if_false]; omega
  · simp only [if_true, reduceCtorEq, if_false]; omega

/-- A measure write that keeps the last stop. -/
theorem leftToJudge_modMeas (f : Measure → Measure) (h : (f (s.meas i)).lastStop = (s.meas i).lastStop) :
    (s.modMeas i f).leftToJudge i = s.leftToJudge i := by
  unfold State.leftToJudge
  rw [keys_modMeas, keys_modMeas]
  simp [h]

theorem examineAB_lastStop (e : Entry) : ((examineAB i e s).meas i).lastStop = (s.meas i).lastStop := by
  unfold examineAB
  split
  · rfl
  · dsimp only
    split
    · rfl
    · split
      · split
        · simp [State.markExamined]
          rfl
        · rfl
      · simp [State.markExamined, Measure.qualify]
        rfl

theorem passExamined_lowers {r : Role} {e : Entry} (hr : r = .A ∨ r = .B) (he : e ∈ s.view i r) :
    (passExamined i r s e).leftToJudge i < s.leftToJudge i :=
  lowers_of_keys hr he (fun q => keys_passExamined r q e) (examineAB_lastStop e)

theorem passEntry_lowers {r : Role} {e : Entry} (hr : r = .A ∨ r = .B) (he : e ∈ s.view i r) :
    (s.passEntry i r e).leftToJudge i < s.leftToJudge i :=
  lowers_of_keys hr he (fun q => keys_passEntry r q e) rfl

/-! ### The tests of a sample -/

/-- A test that lets the judgement go on changes the measure alone, and not its last stop. -/
def Tested (i : Fin 8) (s : State) (x : Move) : Prop :=
  x.goesOn = true → ∃ f : Measure → Measure, x.state = s.modMeas i f ∧
    (f (s.meas i)).lastStop = (s.meas i).lastStop

theorem Tested.before {x : Move} {f : Measure → Measure} (h : Tested i (s.modMeas i f) x)
    (hf : (f (s.meas i)).lastStop = (s.meas i).lastStop) : Tested i s x := fun hx => by
  obtain ⟨g, hg, hl⟩ := h hx
  refine ⟨fun m => g (f m), ?_, ?_⟩
  · rw [hg]; simp [State.modMeas, State.setMeas_setMeas]
  · simpa using hl.trans (by simpa using hf)

theorem rejectBy_tested (k : FaultKind) (s : State) : Tested i s (rejectBy i k s) := by
  unfold rejectBy
  split
  · exact fun _ => ⟨_, rfl, rfl⟩
  · intro h; cases h

theorem testWindow_tested (c : MeasureConfig) (v : BitVec 48) (s : State) :
    Tested i s (testWindow i c v s) := by
  unfold testWindow accumulateSample
  split
  · dsimp only
    split
    · intro h; cases h
    · exact fun _ => ⟨fun m => { m with block := m.block.accumulate v }, rfl, rfl⟩
  · exact fun _ => ⟨Measure.countRejected, rfl, rfl⟩

theorem testSample_tested (c : MeasureConfig) (a b : TimeStamp) (s : State) :
    Tested i s (testSample i c a b s) := by
  unfold testSample
  split
  · exact fun _ => ⟨_, rfl, rfl⟩
  · unfold testDiscontinuity
    split
    · exact rejectBy_tested _ s
    · unfold testGap
      dsimp only
      split
      · exact (rejectBy_tested _ _).before rfl
      · refine Tested.before ?_ (f := fun m => { m with lossMark := false }) rfl
        unfold testStoreFull
        dsimp only
        split
        · exact (rejectBy_tested _ _).before rfl
        · exact (testWindow_tested _ _ _).before rfl

/-! ### Every move lowers what is left -/

/-- A settled sample's start stands in the A view, its stop in the B view, and the start is earlier. -/
theorem settled_mem {c : MeasureConfig} {a b : Entry} (h : s.settled i c = some (a, b)) :
    b ∈ s.view i .B ∧ ∃ o ∈ s.view i .A, earlier o.time b.time = true ∧ o ∈ s.stamps i .A := by
  unfold State.settled at h
  split at h
  · cases h
  · rename_i oldest rest ho
    split at h
    · cases h
    · rename_i stop hs
      have hmem : oldest ∈ s.stamps i .A := by rw [ho]; exact List.mem_cons_self
      have hb : stop ∈ s.view i .B := mem_view_of_stamps (List.mem_of_find?_eq_some hs)
      have hl : earlier oldest.time stop.time = true := earlier_of_later (by
        unfold State.stopOf at hs
        simpa using List.find?_some hs)
      split at h
      · cases h
      · split at h
        · cases h; exact ⟨hb, _, mem_view_of_stamps hmem, hl, hmem⟩
        · split at h
          · simp only [Option.some.injEq, Prod.mk.injEq] at h
            obtain ⟨-, rfl⟩ := h
            exact ⟨hb, _, mem_view_of_stamps hmem, hl, hmem⟩
          · cases h

theorem takeSample_lowers {c : MeasureConfig} {a b : Entry} (h : s.settled i c = some (a, b))
    (hg : (takeSample i c a b s).goesOn = true) :
    (takeSample i c a b s).state.leftToJudge i < s.leftToJudge i := by
  obtain ⟨hb, o, hov, hoe, hos⟩ := settled_mem h
  obtain ⟨f, hf, hl⟩ := testSample_tested c a.time b.time _ hg
  unfold takeSample
  rw [hf, leftToJudge_modMeas f hl]
  set l := (s.stamps i .A).filter fun a => earlier a.time b.time with hlist
  have hA : ((passExamined i .B (l.foldl (passExamined i .A) s) b).keys i .A).length
      < (s.keys i .A).length := by
    rw [keys_passExamined, if_neg (by decide), keys_foldPass, if_pos rfl]
    refine length_filter_lt (key_mem hov) ?_
    rw [decide_eq_false_iff_not, not_not]
    exact List.mem_map_of_mem (List.mem_filter.mpr ⟨hos, hoe⟩)
  have hB : ((passExamined i .B (l.foldl (passExamined i .A) s) b).keys i .B).length
      < (s.keys i .B).length := by
    rw [keys_passExamined, if_pos rfl, keys_foldPass, if_neg (by decide)]
    exact length_filter_lt (key_mem hb) (by simp)
  unfold State.leftToJudge
  rw [keys_modMeas, keys_modMeas]
  split <;> split <;> omega

theorem firstSuperseded_mem {l : List Entry} {a : Entry} (h : s.firstSuperseded i l = some a) : a ∈ l := by
  induction l with
  | nil => cases h
  | cons x l ih =>
    unfold State.firstSuperseded at h
    split at h
    · cases h; exact List.mem_cons_self
    · exact List.mem_cons_of_mem _ (ih h)

theorem intervalMove_lowers {c : MeasureConfig} {x : Move} (h : intervalMove i c s = some x)
    (hg : x.goesOn = true) : x.state.leftToJudge i < s.leftToJudge i := by
  have h := firstMove_mem h
  simp only [intervalMoves, List.mem_cons, List.not_mem_nil, or_false] at h
  have abandon : some x = (s.abandoned i c).map (abandonStart i s) →
      x.state.leftToJudge i < s.leftToJudge i := by
    intro h
    obtain ⟨e, he, hx⟩ := Option.map_eq_some_iff.mp h.symm
    subst hx
    have hm : e ∈ s.stamps i .A := by
      unfold State.abandoned at he
      split at he
      · cases he
      · rename_i a rest ha
        dsimp only at he
        split at he
        · cases he; rw [ha]; exact List.mem_cons_self
        · cases he
    unfold abandonStart
    rw [leftToJudge_modMeas]
    · exact passExamined_lowers (.inl rfl) (mem_view_of_stamps hm)
    · rfl
  rcases h with h | h | h | h | h | h | h
  · obtain ⟨e, he, hx⟩ := Option.map_eq_some_iff.mp h.symm
    subst hx
    refine passExamined_lowers (.inl rfl) (mem_view_of_stamps ?_)
    unfold State.staleStart at he
    split at he
    · rename_i a rest b ha hb
      split at he
      · cases he; rw [ha]; exact List.mem_cons_self
      · cases he
    · cases he
  · obtain ⟨e, he, hx⟩ := Option.map_eq_some_iff.mp h.symm
    subst hx
    refine passExamined_lowers (.inr rfl) (mem_view_of_stamps ?_)
    unfold State.barrenStop at he
    split at he
    · rename_i b rest a arest hb ha
      split at he
      · cases he; rw [hb]; exact List.mem_cons_self
      · cases he
    · rename_i b rest hb ha
      split at he
      · cases he; rw [hb]; exact List.mem_cons_self
      · cases he
    · cases he
  · split at h
    · exact abandon h
    · cases h
  · obtain ⟨e, he, hx⟩ := Option.map_eq_some_iff.mp h.symm
    subst hx
    refine passExamined_lowers (.inl rfl) (mem_view_of_stamps ?_)
    unfold State.superseded at he
    split at he
    · exact firstSuperseded_mem he
    · cases he
  · obtain ⟨⟨a, b⟩, he, hx⟩ := Option.map_eq_some_iff.mp h.symm
    subst hx
    exact takeSample_lowers he hg
  · exact abandon h
  · split at h
    · rename_i hp
      cases h
      have hs : ((s.meas i).lastStop).isSome = true := by
        unfold State.stopPassed at hp
        split at hp
        · rename_i b hb; rw [hb]; rfl
        · cases hp
      unfold forgetStop State.leftToJudge
      rw [keys_modMeas, keys_modMeas]
      simp [hs]
    · cases h

theorem bothParts_tested {b : Bool} {p q : State → Move} (hp : ∀ s, Tested i s (p s))
    (hq : ∀ s, Tested i s (q s)) (s : State) : Tested i s (bothParts b p q s) := by
  have both : ∀ {p q : State → Move}, (∀ s, Tested i s (p s)) → (∀ s, Tested i s (q s)) →
      Tested i s (let x := p s; if x.goesOn then q x.state else x) := by
    intro p q hp hq
    dsimp only
    split
    · rename_i h
      obtain ⟨f, hf, hl⟩ := hp s h
      rw [hf]
      exact (hq _).before hl
    · rename_i h; exact fun k => absurd k h
  unfold bothParts
  split
  · exact both hq hp
  · exact both hp hq

theorem reciprocalMove_lowers {x : Move} (h : reciprocalMove i s = some x) (hg : x.goesOn = true) :
    x.state.leftToJudge i < s.leftToJudge i := by
  unfold reciprocalMove at h
  split at h
  · cases h
  · rename_i e rest hv
    have hm : e ∈ s.view i .A := mem_view_of_stamps (by rw [hv]; exact List.mem_cons_self)
    split at h
    · cases h
      unfold countStamp at hg ⊢
      dsimp only at hg ⊢
      split at hg
      · rename_i hf
        refine (passEntry_lowers (.inl rfl) ?_).trans_eq (leftToJudge_modMeas _ ?_)
        · exact hm
        · rfl
      · rename_i y hf
        obtain ⟨f, he, hl⟩ := bothParts_tested (fun s => by
            unfold reciprocalGap
            split
            · exact rejectBy_tested _ s
            · exact fun _ => ⟨id, (State.modMeas_eq_self s i id rfl).symm, rfl⟩)
          (fun s => by
            unfold reciprocalStoreFull
            split
            · exact (rejectBy_tested _ _).before rfl
            · exact fun _ => ⟨id, (State.modMeas_eq_self s i id rfl).symm, rfl⟩) _ hg
        rw [he, leftToJudge_modMeas f hl, leftToJudge_modMeas]
        · exact passExamined_lowers (.inl rfl) hm
        · rfl
    · cases h

/-- Every move of a judgement that goes on leaves less to judge. -/
theorem judgeMove_lowers {x : Move} (h : judgeMove i s = some x) (hg : x.goesOn = true) :
    x.state.leftToJudge i < s.leftToJudge i := by
  have pass : ∀ {r : Role} {e : Entry}, s.passable i r = some e → e ∈ s.view i r := by
    intro r e he
    unfold State.passable at he
    split at he
    · rename_i f rest hv
      split at he
      · cases he; rw [hv]; exact List.mem_cons_self
      · cases he
    · cases he
  unfold judgeMove at h
  split at h
  · cases h
  · split at h
    · split at h
      · rename_i e he
        cases h; exact passEntry_lowers (.inl rfl) (pass he)
      · split at h
        · rename_i e he
          cases h; exact passEntry_lowers (.inr rfl) (pass he)
        · split at h
          · cases h
          · split at h
            · exact intervalMove_lowers h hg
            · exact reciprocalMove_lowers h hg
            · cases h
    · cases h

/-! ### A judgement makes every move -/

/-- More steps than there is left to judge make no difference. -/
theorem judgeLoop_enough (m n : Nat) (s : State) (hm : s.leftToJudge i < m) (hn : s.leftToJudge i < n) :
    judgeLoop m i s = judgeLoop n i s := by
  induction m generalizing n s with
  | zero => omega
  | succ m ih =>
    obtain ⟨n, rfl⟩ := Nat.exists_eq_succ_of_ne_zero (Nat.ne_zero_of_lt hn)
    unfold judgeLoop
    split
    · rfl
    · rename_i x hx
      split
      · rename_i hg
        have := judgeMove_lowers hx hg
        exact ih n x.state (by omega) (by omega)
      · rfl

theorem judge_none (h : judgeMove i s = none) : judge i s = ⟨s, true⟩ := by
  unfold judge State.judgeFuel judgeLoop
  rw [h]

theorem judge_last {x : Move} (h : judgeMove i s = some x) (hg : x.goesOn = false) : judge i s = x := by
  unfold judge State.judgeFuel judgeLoop
  rw [h]
  simp [hg]

/-- After a move that lets it go on, a judgement goes on from what the move left (R129). -/
theorem judge_move {x : Move} (h : judgeMove i s = some x) (hg : x.goesOn = true) :
    judge i s = judge i x.state := by
  have hlt := judgeMove_lowers h hg
  have h1 := leftToJudge_le (s := s) (i := i)
  have h2 := leftToJudge_le (s := x.state) (i := i)
  show judgeLoop s.judgeFuel i s = judgeLoop x.state.judgeFuel i x.state
  have : s.judgeFuel = (4 * s.store.length + 1) + 1 := rfl
  rw [this] at h1 ⊢
  rw [judgeLoop, h]
  dsimp only
  rw [if_pos hg]
  exact judgeLoop_enough _ _ _ (by omega) (by omega)

end Sys2Proof.Machine
end

