-- ==== Sys2Proof/Laws/Passing.lean ====
section
/-! SUPPORT. What passing an entry leaves of the Store, seen by the stamps of its entries (R59, R64), whose stamps
are stored for whom, and what a filled frame leaves of the counts. -/

namespace Sys2Proof.Machine

variable {s t : State} {i : Fin 8}

theorem wanted_iff (e : Entry) :
    e.wanted = true ↔ e.publish = true ∨ ∃ (j : Fin 8) (q : Role), e.inView j q = true := by
  constructor
  · intro h
    by_cases hp : e.publish = true
    · exact .inl hp
    · refine .inr ?_
      by_contra hc
      have h0 : ∀ (j : Fin 8) (q : Role), e.inView j q = false := fun j q =>
        Bool.eq_false_iff.mpr fun hv => hc ⟨j, q, hv⟩
      have hz : e.consumers = 0 := by
        apply BitVec.eq_of_getLsbD_eq
        intro k hk
        have hA : e.wantA.getLsbD k = false := h0 ⟨k, hk⟩ .A
        have hB : e.wantB.getLsbD k = false := h0 ⟨k, hk⟩ .B
        have hG : e.wantG.getLsbD k = false := h0 ⟨k, hk⟩ .G
        simp [Entry.consumers, hA, hB, hG]
      simp [Entry.wanted, hz, hp] at h
  · rintro (h | ⟨j, q, h⟩)
    · simp [Entry.wanted, h]
    · exact wanted_of_inView h

/-- Stamps of the chosen entries after the Store was rewritten entry by entry. -/
theorem stamps_mapStore (f : Entry → Entry) (p q : Entry → Bool) (hs : ∀ e, (f e).stamp = e.stamp)
    (hp : ∀ e, p e = true → e.wanted = true) (h : ∀ e, p (f e) = q e) :
    ((s.setStore (s.store.map f)).store.filter p).map Entry.stamp = (s.store.filter q).map Entry.stamp := by
  rw [State.setStore_store, List.filter_filter]
  have e1 : (s.store.map f).filter (fun e => p e && e.wanted) = (s.store.map f).filter p :=
    List.filter_congr fun e _ => by
      cases hb : p e
      · rfl
      · simp [hp e hb]
  rw [e1, List.filter_map, List.map_map]
  have e2 : Entry.stamp ∘ f = Entry.stamp := funext hs
  have e3 : p ∘ f = q := funext h
  rw [e2, e3]

/-- Two entries are the same by their stamps alone. -/
theorem same_of_stamp {e f : Entry} (h : e.stamp = f.stamp) (g : Entry) : e.same g = f.same g := by
  simp only [Entry.stamp, Prod.mk.injEq] at h
  simp only [Entry.same, h.1, h.2.1, h.2.2.2.1]

theorem drop_stamp (e : Entry) (r : Role) : (e.drop i r).stamp = e.stamp := by cases r <;> rfl

theorem drop_heldFor (e : Entry) (r q : Role) (j : Fin 8) : (e.drop i r).heldFor j q = e.heldFor j q := by
  cases r <;> cases q <;> rfl

theorem drop_publish (e : Entry) (r : Role) : (e.drop i r).publish = e.publish := by cases r <;> rfl

/-- What a rewriting that keeps stamps and views leaves as it stands. -/
structure SameViews (s t : State) : Prop where
  views : ∀ j q, (t.view j q).map Entry.stamp = (s.view j q).map Entry.stamp
  stamps : ∀ j q, (t.stamps j q).map Entry.stamp = (s.stamps j q).map Entry.stamp
  publish : (t.store.filter (·.publish)).map Entry.stamp = (s.store.filter (·.publish)).map Entry.stamp

theorem stamps_eq (s : State) (j : Fin 8) (q : Role) :
    s.stamps j q = s.store.filter fun e => e.inView j q && !e.heldFor j q := by
  unfold State.stamps State.view
  rw [List.filter_filter]
  exact List.filter_congr fun e _ => Bool.and_comm _ _

theorem markExamined_views (e : Entry) (s : State) : SameViews s (s.markExamined i e) := by
  have hs : ∀ f : Entry, (if f.same e then { f with examined := withBit f.examined i.val } else f).stamp = f.stamp := by
    intro f; split <;> rfl
  refine ⟨fun j q => ?_, fun j q => ?_, ?_⟩
  · refine stamps_mapStore _ _ _ hs (fun _ h => wanted_of_inView h) fun f => ?_
    split
    · cases q <;> rfl
    · rfl
  · rw [stamps_eq, stamps_eq]
    refine stamps_mapStore _ _ _ hs (fun _ h => wanted_of_inView (Bool.and_eq_true _ _ ▸ h).1) fun f => ?_
    split
    · cases q <;> rfl
    · rfl
  · refine stamps_mapStore _ _ _ hs (fun f h => (wanted_iff f).mpr (.inl h)) fun f => ?_
    split <;> rfl

theorem SameViews.refl (s : State) : SameViews s s := ⟨fun _ _ => rfl, fun _ _ => rfl, rfl⟩

theorem SameViews.modMeas (h : SameViews s t) (f : Measure → Measure) : SameViews s (t.modMeas i f) :=
  ⟨h.views, h.stamps, h.publish⟩

theorem examineAB_views (e : Entry) (s : State) : SameViews s (examineAB i e s) := by
  unfold examineAB
  dsimp only
  split
  · exact .refl s
  · split
    · exact markExamined_views e s
    · split
      · split
        · exact (markExamined_views e s).modMeas _
        · exact markExamined_views e s
      · exact (markExamined_views e s).modMeas _

/-- A choice by the stamp alone goes through the stamps. -/
theorem filter_stamp (p : Entry → Bool) (hp : ∀ e f : Entry, e.stamp = f.stamp → p e = p f) {l k : List Entry}
    (h : l.map Entry.stamp = k.map Entry.stamp) : (l.filter p).map Entry.stamp = (k.filter p).map Entry.stamp := by
  induction l generalizing k with
  | nil =>
    rw [List.map_nil, eq_comm, List.map_eq_nil_iff] at h
    rw [h]
  | cons e l ih =>
    cases k with
    | nil => simp at h
    | cons f k =>
      simp only [List.map_cons, List.cons.injEq] at h
      rw [List.filter_cons, List.filter_cons, hp e f h.1]
      split
      · rw [List.map_cons, List.map_cons, h.1, ih h.2]
      · exact ih h.2

/-- A role passes an entry, and moves nothing else (R59, R64). -/
theorem passEntry_passes (r : Role) (e : Entry) (s : State) : Passes i r e s (s.passEntry i r e) := by
  have hs : ∀ f : Entry, (if f.same e then f.drop i r else f).stamp = f.stamp := by
    intro f; split
    · exact drop_stamp f r
    · rfl
  refine ⟨by rw [view_passEntry], fun j q hjq => ?_, ?_, fun f hf => ?_⟩
  · refine stamps_mapStore _ _ _ hs (fun _ h => wanted_of_inView h) fun f => ?_
    split
    · rw [drop_inView]
      have : (decide (r = q) && decide (i = j)) = false := by
        rw [Bool.and_eq_false_iff, decide_eq_false_iff_not, decide_eq_false_iff_not]
        exact hjq.symm.imp Ne.symm Ne.symm
      rw [this]; simp
    · rfl
  · refine stamps_mapStore _ _ _ hs (fun f h => (wanted_iff f).mpr (.inl h)) fun f => ?_
    split
    · exact drop_publish f r
    · rfl
  · exact (wanted_iff f).mp (List.mem_filter.mp hf).2

/-- The stamps a role judges lose the entry it passes; those of the others stand. -/
theorem passEntry_stamps (r : Role) (e : Entry) (s : State) :
    ((s.passEntry i r e).stamps i r).map Entry.stamp = ((s.stamps i r).filter fun f => !f.same e).map Entry.stamp := by
  have hs : ∀ f : Entry, (if f.same e then f.drop i r else f).stamp = f.stamp := by
    intro f; split
    · exact drop_stamp f r
    · rfl
  rw [stamps_eq, stamps_eq, List.filter_filter]
  refine stamps_mapStore _ _ _ hs (fun _ h => wanted_of_inView (Bool.and_eq_true _ _ ▸ h).1) fun f => ?_
  split
  · rename_i h
    rw [drop_inView, h]
    simp
  · rename_i h
    simp [h]

theorem passEntry_stamps_other (r q : Role) (h : q ≠ r) (e : Entry) (s : State) :
    ((s.passEntry i r e).stamps i q).map Entry.stamp = (s.stamps i q).map Entry.stamp := by
  have hs : ∀ f : Entry, (if f.same e then f.drop i r else f).stamp = f.stamp := by
    intro f; split
    · exact drop_stamp f r
    · rfl
  rw [stamps_eq, stamps_eq]
  refine stamps_mapStore _ _ _ hs (fun _ h => wanted_of_inView (Bool.and_eq_true _ _ ▸ h).1) fun f => ?_
  split
  · rw [drop_inView, drop_heldFor]
    simp [h.symm]
  · rfl

/-- A role that passes an entry after a rewriting that keeps stamps and views moves nothing else (R59, R64). -/
theorem SameViews.passes (h : SameViews s t) (r : Role) (e : Entry) : Passes i r e s (t.passEntry i r e) := by
  have h2 := passEntry_passes (i := i) r e t
  exact ⟨h2.role.trans (filter_stamp _ (fun a b h => by rw [same_of_stamp h]) (h.views i r)),
    fun j q hq => (h2.others j q hq).trans (h.views j q), h2.publish.trans h.publish, h2.wanted⟩

/-- A role takes an entry, or passes it with its drop count examined, and moves nothing else (R59, R64). -/
theorem passExamined_passes (r : Role) (e : Entry) (s : State) : Passes i r e s (passExamined i r s e) :=
  (examineAB_views (i := i) e s).passes r e

theorem passExamined_stamps (r : Role) (e : Entry) (s : State) :
    ((passExamined i r s e).stamps i r).map Entry.stamp
      = ((s.stamps i r).filter fun f => !f.same e).map Entry.stamp :=
  (passEntry_stamps r e _).trans
    (filter_stamp _ (fun a b h => by rw [same_of_stamp h]) ((examineAB_views (i := i) e s).stamps i r))

/-- A role passes entries one after another. -/
theorem foldPass_passes (r : Role) (l : List Entry) (s : State) :
    ((l.foldl (passExamined i r) s).stamps i r).map Entry.stamp
      = ((s.stamps i r).filter fun f => !l.any fun e => f.same e).map Entry.stamp ∧
    (∀ j q, j ≠ i ∨ q ≠ r → ((l.foldl (passExamined i r) s).view j q).map Entry.stamp = (s.view j q).map Entry.stamp) ∧
    ((l.foldl (passExamined i r) s).store.filter (·.publish)).map Entry.stamp
      = (s.store.filter (·.publish)).map Entry.stamp := by
  induction l generalizing s with
  | nil =>
    refine ⟨?_, fun _ _ _ => rfl, rfl⟩
    simp
  | cons e l ih =>
    obtain ⟨h1, h2, h3⟩ := ih (passExamined i r s e)
    have hp := passExamined_passes (i := i) r e s
    refine ⟨h1.trans ?_, fun j q h => (h2 j q h).trans (hp.others j q h), h3.trans hp.publish⟩
    have := filter_stamp (fun f => !l.any fun e => f.same e) (fun a b h => by simp only [same_of_stamp h])
      (passExamined_stamps (i := i) r e s)
    rw [this, List.filter_filter]
    congr 1
    exact List.filter_congr fun f _ => by simp [Bool.and_comm]

/-- The stamps a sample leaves to the A role are those at or after its stop (R134, R136). -/
theorem foldPass_earlier (b : TimeStamp) (s : State) :
    ((((s.stamps i .A).filter fun a => earlier a.time b).foldl (passExamined i .A) s).stamps i .A).map Entry.stamp
      = ((s.stamps i .A).filter fun e => !earlier e.time b).map Entry.stamp := by
  rw [(foldPass_passes .A _ s).1]
  congr 1
  refine List.filter_congr fun f hf => ?_
  congr 1
  rw [Bool.eq_iff_iff, List.any_eq_true]
  constructor
  · rintro ⟨a, ha, hs⟩
    have h := (List.mem_filter.mp ha).2
    simp only [Entry.same, Bool.and_eq_true, beq_iff_eq] at hs
    rw [hs.2]; exact h
  · intro h
    exact ⟨f, List.mem_filter.mpr ⟨hf, h⟩, by simp [Entry.same]⟩

/-- The roles an offered stamp is stored for are those in which its measures want it (R43, R56). -/
theorem offeredEntry_wants (s : State) (p : Fin 16) (c : Fin 4) (q : Polarity) (x : TimeStamp) (d : BitVec 8)
    (b : Bool) (r : Role) : (s.offeredEntry p c q x d b).inView i r = true ↔ (s.meas i).wants r p c q := by
  have h1 : (s.offeredEntry p c q x d b).inView i r = (s.wantMask r p c q).getLsbD i.val := by cases r <;> rfl
  rw [h1, State.wantMask, maskOf_getLsbD, Bool.and_eq_true]
  unfold Measure.wants
  refine and_congr ?_ ?_
  · cases (s.meas i).st <;> simp [MeasureState.active]
  · unfold Measure.roleSource
    cases (s.meas i).config with
    | none => simp
    | some g =>
      have ht : ∀ a : PolaritySel, a.takes q = true ↔
          (a = .any ∨ (a = .rise ∧ q = .rise) ∨ (a = .fall ∧ q = .fall)) := by
        intro a; cases a <;> cases q <;> simp [PolaritySel.takes]
      cases r <;> simp only [Option.bind_some, MeasureConfig.roleSource]
      · by_cases hk : g.kind = .totalize <;> simp [hk, Source.names, ht, and_assoc]
      · by_cases hk : g.kind = .interval <;> simp [hk, Source.names, ht, and_assoc]
      · by_cases hk : g.gate = .edge <;> simp [hk, Source.names, ht, and_assoc]

/-- The test of a completion is the one the statements name (R145, R148, R151). -/
theorem pastClose_iff (s : State) (r : Role) (z : TimeStamp) : s.pastClose i r z = true ↔ s.covers i r z := by
  unfold State.pastClose State.covers horizonAtOrAfter
  cases s.roleHorizon i r <;> simp

/-- A frame filled with a STATUS record leaves the two trigger-side counts it reports at 0; another keeps them (R178,
R182, R196). -/
theorem fillFrame_counts (s : State) :
    (fillFrame s).state.directiveDrops = (if s.link.statusDue then 0 else s.directiveDrops) ∧
    (fillFrame s).state.triggerOverruns = (if s.link.statusDue then 0 else s.triggerOverruns) := by
  have hp : ∀ n (x : Draft), (placeStamps n x).state.directiveDrops = x.state.directiveDrops ∧
      (placeStamps n x).state.triggerOverruns = x.state.triggerOverruns := by
    intro n
    induction n with
    | zero => intro x; exact ⟨rfl, rfl⟩
    | succ n ih =>
      intro x
      unfold placeStamps
      split
      · exact ⟨rfl, rfl⟩
      · exact ih _
  unfold fillFrame
  dsimp only
  rw [(hp _ _).1, (hp _ _).2]
  simp only [placeGroups, placeDirectives, placeStatus]
  split <;> exact ⟨rfl, rfl⟩

end Sys2Proof.Machine
end

