-- ==== Sys2Proof/Laws/Scan.lean ====
section
/-! SUPPORT. The G role over its view, move by move: what each move does, and that a scan makes every move; and a
TOTALIZE gate that closes. -/

namespace Sys2Proof.Machine

variable {s t : State} {i : Fin 8}

/-! ### One move -/

/-- One move of the G role: how the scan goes on, or where it ends. -/
def scanMove (fresh : Bool) (i : Fin 8) (s : State) : (Bool × State) ⊕ State :=
  match (if fresh then s.edgeOverrun i else none) with
  | some t => .inl (true, overrunGate i t s)
  | none =>
    match s.view i .G with
    | [] => .inr s
    | e :: _ =>
      if (s.meas i).st.active && e.heldFor i .G then .inl (fresh, s.passEntry i .G e)
      else
        match (s.meas i).st with
        | .armed =>
          if (s.meas i).opensAt e.time then
            if ((examineG i e s).meas i).st = .armed then
              .inl (true, openGate i e.time ((examineG i e s).passEntry i .G e))
            else .inr (examineG i e s)
          else .inl (fresh, s.passEntry i .G e)
        | .opened =>
          if (s.meas i).closesAt e.time then
            if ((examineG i e s).meas i).st = .opened then
              .inl (true, closeGate i e.time (((examineG i e s).passEntry i .G e).modMeas i fun m =>
                { m with closedByStamp := true }))
            else .inr (examineG i e s)
          else .inl (fresh, s.passEntry i .G e)
        | .closing =>
          if (s.meas i).beforeClose e.time then .inl (fresh, s.passEntry i .G e) else .inr s
        | _ => .inr s

theorem scanGate_succ (n : Nat) (fresh : Bool) (s : State) : scanGate (n + 1) fresh i s =
    match scanMove fresh i s with
    | .inl x => scanGate n x.1 i x.2
    | .inr t => t := by
  conv_lhs => unfold scanGate
  unfold scanMove
  cases (if fresh = true then s.edgeOverrun i else none) with
  | some x => rfl
  | none =>
    cases s.view i .G with
    | nil => rfl
    | cons e l =>
      dsimp only
      split
      · rfl
      · cases (s.meas i).st <;> dsimp only <;> split_ifs <;> rfl

/-! ### A gate that opens of itself -/

theorem takeCondition_gate (k : FaultKind) (offer : Bool) (s : State) (hc : (s.meas i).closedByStamp = false) :
    ((takeCondition i k offer s).meas i).closedByStamp = false ∧
    (((takeCondition i k offer s).meas i).st = (s.meas i).st ∧
        ((takeCondition i k offer s).meas i).carriedOpening = (s.meas i).carriedOpening ∨
      ((takeCondition i k offer s).meas i).st = .fault) := by
  unfold takeCondition
  dsimp only
  split
  · split
    · rw [State.meas_modMeas, if_pos rfl]
      exact ⟨hc, .inl ⟨rfl, rfl⟩⟩
    · refine ⟨?_, .inr (enterFault_faults i k offer s).1⟩
      have hm : ((s.modMeas i Measure.faulted).releaseMeasure i).meas i = (s.meas i).faulted := by
        show (s.modMeas i Measure.faulted).meas i = _
        simp
      unfold enterFault
      dsimp only
      split
      · rw [enqueueGroup_meas]
        simp only [faultReport_measure, if_true, hm]
        rfl
      · rw [State.meas_modMeas, if_pos rfl, hm]
        rfl
  · split
    · rw [State.meas_modMeas, if_pos rfl]
      exact ⟨hc, .inl ⟨rfl, rfl⟩⟩
    · exact ⟨hc, .inl ⟨rfl, rfl⟩⟩

/-- The questions at an entry into ARMED leave the gate's set-up, or put the measure into FAULT. -/
theorem askPeers_gate (offer : Bool) (s : State) (hc : (s.meas i).closedByStamp = false) :
    ((askPeers i offer s).meas i).closedByStamp = false ∧
    (((askPeers i offer s).meas i).st = (s.meas i).st ∧
        ((askPeers i offer s).meas i).carriedOpening = (s.meas i).carriedOpening ∨
      ((askPeers i offer s).meas i).st = .fault) := by
  have one : ∀ r (s : State), (s.meas i).closedByStamp = false →
      ((askPeer i offer s r).meas i).closedByStamp = false ∧
      (((askPeer i offer s r).meas i).st = (s.meas i).st ∧
          ((askPeer i offer s r).meas i).carriedOpening = (s.meas i).carriedOpening ∨
        ((askPeer i offer s r).meas i).st = .fault) := by
    intro r s h
    have keep : (s.meas i).closedByStamp = false ∧ ((s.meas i).st = (s.meas i).st ∧
        (s.meas i).carriedOpening = (s.meas i).carriedOpening ∨ (s.meas i).st = .fault) := ⟨h, .inl ⟨rfl, rfl⟩⟩
    unfold askPeer
    split
    · exact keep
    · split
      · exact keep
      · split
        · rename_i k _
          have := takeCondition_gate k offer s h
          unfold takePeerCondition
          dsimp only
          split
          · rw [State.meas_modMeas, if_pos rfl]
            exact this
          · exact this
        · exact keep
  have fault : ∀ r (s : State), (s.meas i).st = .fault → ((askPeer i offer s r).meas i).st = .fault := by
    intro r s h
    unfold askPeer
    split
    · exact h
    · split
      · exact h
      · split
        · unfold takePeerCondition takeCondition
          simp [h, MeasureState.active]
        · exact h
  have faults : ∀ (l : List Role) (s : State), (s.meas i).st = .fault →
      ((forEach l (askPeer i offer) s).meas i).st = .fault := by
    intro l
    induction l with
    | nil => exact fun s h => h
    | cons r l ih => exact fun s h => ih _ (fault r s h)
  have all : ∀ (l : List Role) (s : State), (s.meas i).closedByStamp = false →
      ((forEach l (askPeer i offer) s).meas i).closedByStamp = false ∧
      (((forEach l (askPeer i offer) s).meas i).st = (s.meas i).st ∧
          ((forEach l (askPeer i offer) s).meas i).carriedOpening = (s.meas i).carriedOpening ∨
        ((forEach l (askPeer i offer) s).meas i).st = .fault) := by
    intro l
    induction l with
    | nil => exact fun s h => ⟨h, .inl ⟨rfl, rfl⟩⟩
    | cons r l ih =>
      intro s h
      obtain ⟨h1, h2⟩ := one r s h
      obtain ⟨k1, k2⟩ := ih (askPeer i offer s r) h1
      refine ⟨k1, ?_⟩
      rcases h2 with ⟨h2, h3⟩ | h2
      · rcases k2 with ⟨k2, k3⟩ | k2
        · exact .inl ⟨k2.trans h2, k3.trans h3⟩
        · exact .inr k2
      · exact .inr (faults l _ h2)
  exact all _ s hc

theorem openCarried_gate (now : TimeStamp) (s : State) (hc : (s.meas i).closedByStamp = false) :
    ((openCarried i now s).meas i).closedByStamp = false ∧
    ((s.meas i).carriedOpening = none → (openCarried i now s).meas i = s.meas i) := by
  unfold openCarried
  split
  · rename_i x _ hx
    refine ⟨?_, fun h => by rw [h] at hx; cases hx⟩
    split
    · exact hc
    · cases hg : (s.meas i).config with
      | none => unfold openGate; simp only [hg]; exact hc
      | some c => rw [openGate_meas hg, State.meas_setMeas, if_pos rfl]; rfl
  · exact ⟨hc, fun _ => rfl⟩

/-- The measure's next state has found no closing stamp, and an EDGE gate opens in the tick of the rearm only at the
previous gate's closing stamp (R124). -/
theorem nextState_gate (offer : Bool) (s : State) :
    ((nextState i false offer s).meas i).closedByStamp = false ∧
    ((s.meas i).config.map (·.gate) = some .edge → (s.meas i).closedByStamp = false →
      ((nextState i false offer s).meas i).st ≠ .opened) := by
  unfold nextState
  dsimp only
  split
  · rename_i r c hr hc
    set g := nextGate c (s.meas i) s.epochLength s.localTime false with hg
    set v := (s.setMeas i ((s.meas i).rearmed g r s.localTime s.eu.elapsed)).unhold i with hv
    have hm : v.meas i = (s.meas i).rearmed g r s.localTime s.eu.elapsed := by
      show (s.setMeas i _).meas i = _
      simp
    obtain ⟨h1, h2⟩ := askPeers_gate (i := i) offer v (by rw [hm]; rfl)
    obtain ⟨k1, k2⟩ := openCarried_gate (i := i) s.localTime _ h1
    refine ⟨k1, fun he hs => ?_⟩
    have ho : (v.meas i).carriedOpening = none := by
      rw [hm]
      show g.opening = none
      rw [hc] at he
      simp only [Option.map_some, Option.some.injEq] at he
      simp [hg, nextGate, he, hs]
    rcases h2 with ⟨h2, h3⟩ | h2
    · rw [k2 (h3.trans ho), h2, hm]
      simp [Measure.rearmed]
    · unfold openCarried
      simp [h2]
  · have : (becomeIdle i s).meas i = (s.meas i).idled := by
      show (s.modMeas i Measure.idled).meas i = _
      simp
    rw [this]
    exact ⟨rfl, fun _ _ => by simp [Measure.idled]⟩

theorem finishBlock_gate (n : BitVec 16) (l : List (BitVec 48)) (s : State) :
    (((finishBlock i n l s).meas i).st = .opened → ((finishBlock i n l s).meas i).closedByStamp = false) ∧
    ((s.meas i).config.map (·.gate) = some .edge → (s.meas i).closedByStamp = false →
      ((finishBlock i n l s).meas i).st ≠ .opened) := by
  cases h : s.queueRoom
  · rw [finishBlock_full i n l s h, enterReporting_meas]
    exact ⟨(nomatch ·), fun _ _ => (nomatch ·)⟩
  · rw [finishBlock_room i n l s h]
    have hm : (enqueueGroup (s.blockGroup i n l) s).meas i = { s.meas i with sequence := (s.meas i).sequence + 1 } := by
      rw [enqueueGroup_meas]; simp [State.blockGroup]
    obtain ⟨h1, h2⟩ := nextState_gate (i := i) true (enqueueGroup (s.blockGroup i n l) s)
    rw [hm] at h2
    exact ⟨fun _ => h1, h2⟩

theorem completeTotalize_gate (x : BitVec 48) (s : State) :
    (((completeTotalize i x s).meas i).st = .opened → ((completeTotalize i x s).meas i).closedByStamp = false) ∧
    ((s.meas i).config.map (·.gate) = some .edge → (s.meas i).closedByStamp = false →
      ((completeTotalize i x s).meas i).st ≠ .opened) := by
  by_cases h : (∀ o c, (s.meas i).openTime = some o → (s.meas i).closeTime = some c → s.crosses o c [] = false) ∨
      (s.meas i).masks .discontinuity = true
  · obtain ⟨quals, -, hf⟩ := completeTotalize_finishes i x s h
    rw [hf]
    obtain ⟨k1, k2⟩ := finishBlock_gate (i := i) 0 [x - (s.meas i).block.openSnapshot]
      (s.modMeas i fun m => { m with block := { m.block with quals := quals } })
    rw [State.meas_modMeas, if_pos rfl] at k2
    exact ⟨k1, k2⟩
  · simp only [not_or, not_forall, Bool.not_eq_true, Bool.not_eq_false] at h
    obtain ⟨⟨o, c, ho, hc, hx⟩, hm⟩ := h
    rw [completeTotalize_faults i x s ho hc hx hm]
    have := (enterFault_faults i .discontinuity true s).1
    exact ⟨(absurd · (by rw [this]; simp)), fun _ _ => by rw [this]; simp⟩

/-- A closed gate opens again in the same tick only by a rearm at the closing stamp (R124). -/
theorem closeGate_gate (x : TimeStamp) (s : State) :
    (((closeGate i x s).meas i).st = .opened → ((closeGate i x s).meas i).closedByStamp = false) ∧
    ((s.meas i).config.map (·.gate) = some .edge → (s.meas i).closedByStamp = false →
      ((closeGate i x s).meas i).st ≠ .opened) := by
  have plain : ∀ v : State, (v.meas i).st = .closing →
      ((v.meas i).st = .opened → (v.meas i).closedByStamp = false) ∧
      ((s.meas i).config.map (·.gate) = some .edge → (s.meas i).closedByStamp = false →
        (v.meas i).st ≠ .opened) :=
    fun v hv => ⟨(absurd · (by rw [hv]; simp)), fun _ _ => by rw [hv]; simp⟩
  have hm : (s.setMeas i { s.meas i with st := .closing, closeTime := some x }).meas i
      = { s.meas i with st := .closing, closeTime := some x } := by simp
  unfold closeGate
  dsimp only
  split
  · split
    · split
      · rename_i c hc _ _
        obtain ⟨k1, k2⟩ := completeTotalize_gate (i := i) (s.snapshot c.a.channel x)
          (s.setMeas i { s.meas i with st := .closing, closeTime := some x })
        rw [hm] at k2
        exact ⟨k1, k2⟩
      · refine plain _ ?_
        rw [State.meas_modMeas, if_pos rfl, hm]
    · exact plain _ (by rw [hm])
  · exact plain _ (by rw [hm])

/-! ### Every move is made -/

/-- The measure once its G role has examined entry e, without a fault (R131). -/
def State.gExamined (s : State) (i : Fin 8) (e : Entry) : Measure :=
  { s.meas i with block := { (s.meas i).block with
    quals := if s.hasExamined i e then (s.meas i).block.quals
      else if e.drops = 255 then setQual (.fault .gap) (s.meas i).block.quals
      else setQualIf (e.drops != 0) .drops (s.meas i).block.quals } }

/-- An examination without a fault leaves the measure's qualifiers and a mark on the entry (R131). -/
theorem examineG_goes {e : Entry} (ha : (s.meas i).st.active = true)
    (h : s.hasExamined i e = true ∨ e.drops ≠ 255 ∨ (s.meas i).masks .gap = true) :
    ∃ l, examineG i e s = ({ s with store := l }).setMeas i (s.gExamined i e) ∧ SameViews s { s with store := l } := by
  have hm : s.markExamined i e = { s with store := (s.markExamined i e).store } := rfl
  have hmm : (s.markExamined i e).meas i = s.meas i := rfl
  unfold examineG State.gExamined
  dsimp only
  by_cases hx : s.hasExamined i e = true
  · refine ⟨s.store, ?_, .refl s⟩
    rw [if_pos hx, if_pos hx]
    exact (State.setMeas_self _ i).symm
  · refine ⟨(s.markExamined i e).store, ?_, hm ▸ markExamined_views e s⟩
    rw [if_neg hx, if_neg hx, ← hm]
    by_cases h0 : e.drops = 0
    · rw [if_pos h0, h0]
      exact (State.setMeas_self _ i).symm
    · rw [if_neg h0]
      by_cases h5 : e.drops = 255
      · rw [if_pos h5, if_pos h5, takeCondition_masked .gap true _ (by rw [hmm]; exact ha)
          (by rw [hmm]; exact (h.resolve_left hx).resolve_left (by simp [h5]))]
        rfl
      · rw [if_neg h5, if_neg h5]
        have : (e.drops != 0) = true := bne_iff_ne.mpr h0
        rw [this]
        rfl

/-- What is left to a scan: twice the stamps of the view, and one more when an overrun already past closes the gate. -/
def State.scanWork (s : State) (fresh : Bool) (i : Fin 8) : Nat :=
  2 * (s.view i .G).length + (if fresh && (s.edgeOverrun i).isSome then 1 else 0)

/-- A gate that is open, and may just have opened, has no closing stamp yet. -/
def State.scanSound (s : State) (fresh : Bool) (i : Fin 8) : Prop :=
  fresh = true → (s.meas i).st = .opened → (s.edgeOverrun i).isSome = true → (s.meas i).closedByStamp = false

theorem edgeOverrun_opened {x : TimeStamp} (h : s.edgeOverrun i = some x) :
    (s.meas i).st = .opened ∧ (s.meas i).config.map (·.gate) = some .edge := by
  have hc : ∃ c, (s.meas i).config = some c ∧ c.gate = .edge := by
    unfold State.edgeOverrun at h
    split at h
    · rename_i c _ hc
      split at h
      · rename_i hg; exact ⟨c, hc, hg.1⟩
      · cases h
    · cases h
  obtain ⟨c, hc, hg⟩ := hc
  refine ⟨?_, by rw [hc]; simp [hg]⟩
  cases hs : (s.meas i).st <;> first | rfl | (unfold State.edgeOverrun Measure.overrunTime at h; simp [hs] at h)

theorem takeCondition_keys (k : FaultKind) (offer : Bool) (s : State) (r : Role) :
    (takeCondition i k offer s).keys i r = s.keys i r ∨ (takeCondition i k offer s).view i r = [] := by
  unfold takeCondition
  dsimp only
  split
  · split
    · exact .inl rfl
    · exact .inr (enterFault_view i k offer s r)
  · split <;> exact .inl rfl

/-- An examination leaves the stamps of the view, but for a fault, which empties it. -/
theorem examineG_keys (e : Entry) (s : State) (r : Role) :
    (examineG i e s).keys i r = s.keys i r ∨ (examineG i e s).view i r = [] := by
  unfold examineG
  dsimp only
  split
  · exact .inl rfl
  · split
    · exact .inl (keys_markExamined e r)
    · split
      · exact (takeCondition_keys .gap true (s.markExamined i e) r).imp_left fun h => h.trans (keys_markExamined e r)
      · exact .inl (keys_markExamined e r)

theorem examineG_pass_lt {e : Entry} {l : List Entry} (hv : s.view i .G = e :: l) :
    (((examineG i e s).passEntry i .G e).view i .G).length < (s.view i .G).length := by
  rcases examineG_keys (i := i) e s .G with h | h
  · have hk := keys_passEntry (s := examineG i e s) (i := i) .G .G e
    rw [if_pos rfl, h] at hk
    have hl := congrArg List.length hk
    rw [State.keys, List.length_map] at hl
    rw [hl, ← List.length_map (f := Entry.key) (as := s.view i .G)]
    exact length_filter_lt (a := e.key) (key_mem (s := s) (i := i) (r := .G) (e := e) (by rw [hv]; simp)) (by simp)
  · have := (Acts.passEntry (w := true) (P := Only i) (s := examineG i e s) i .G e).views i .G h
    rw [this, hv]
    simp

theorem scanMove_lowers {fresh f : Bool} (hs : s.scanSound fresh i) (h : scanMove fresh i s = .inl (f, t)) :
    t.scanWork f i < s.scanWork fresh i ∧ t.scanSound f i := by
  have bit : ∀ (v : State) (b : Bool), (if b && (v.edgeOverrun i).isSome then 1 else 0) ≤ 1 := by
    intro v b; split <;> omega
  unfold scanMove at h
  split at h
  · rename_i x hx
    cases h
    cases fresh with
    | false => cases hx
    | true =>
      simp only [if_true] at hx
      obtain ⟨h1, h2⟩ := edgeOverrun_opened hx
      have hc := hs rfl h1 (by rw [hx]; rfl)
      have hm : (s.modMeas i (·.qualify .overrange)).meas i = (s.meas i).qualify .overrange := by simp
      have hn : ((overrunGate i x s).meas i).st ≠ .opened :=
        (closeGate_gate (i := i) x (s.modMeas i (·.qualify .overrange))).2 (by rw [hm]; exact h2) (by rw [hm]; exact hc)
      have ho : (overrunGate i x s).edgeOverrun i = none := by
        cases he : (overrunGate i x s).edgeOverrun i with
        | none => rfl
        | some y => exact absurd (edgeOverrun_opened he).1 hn
      refine ⟨?_, fun _ hst => absurd hst hn⟩
      have hl := (Acts.overrunGate (i := i) x s).view_len i .G
      unfold State.scanWork
      rw [ho, hx]
      simp only [Option.isSome_none, Option.isSome_some, Bool.and_false, Bool.and_true, if_true, Bool.false_eq_true,
        if_false]
      omega
  · rename_i hx
    split at h
    · cases h
    · rename_i e l hv
      have pass : ∀ {b : Bool} {v : State}, v = s.passEntry i .G e → b = fresh →
          v.scanWork b i < s.scanWork fresh i ∧ v.scanSound b i := by
        rintro b v rfl rfl
        have hl := view_passEntry_length (s := s) hv
        have ho : (b && ((s.passEntry i .G e).edgeOverrun i).isSome) = (b && (s.edgeOverrun i).isSome) := rfl
        refine ⟨?_, hs⟩
        unfold State.scanWork
        rw [ho]
        omega
      have moved : ∀ {v w : State}, v = (examineG i e s).passEntry i .G e →
          (w.view i .G).length ≤ (v.view i .G).length →
          ((w.meas i).st = .opened → (w.edgeOverrun i).isSome = true → (w.meas i).closedByStamp = false) →
          w.scanWork true i < s.scanWork fresh i ∧ w.scanSound true i := by
        rintro v w rfl hl hw
        have hp := examineG_pass_lt (s := s) (i := i) hv
        have := bit w true
        refine ⟨?_, fun _ => hw⟩
        unfold State.scanWork
        omega
      split at h
      · cases h; exact pass rfl rfl
      · split at h
        · split at h
          · split at h
            · cases h
              refine moved rfl ((Acts.openGate (w := true) (i := i) _ _).view_len i .G) fun _ ho => ?_
              obtain ⟨y, hy⟩ := Option.isSome_iff_exists.mp ho
              obtain ⟨-, hg⟩ := edgeOverrun_opened hy
              cases hc : (((examineG i e s).passEntry i .G e).meas i).config with
              | none =>
                exfalso
                unfold openGate at hg
                simp [hc] at hg
              | some c => rw [openGate_meas hc, State.meas_setMeas, if_pos rfl]; rfl
            · cases h
          · cases h; exact pass rfl rfl
        · split at h
          · split at h
            · cases h
              refine moved rfl (((Acts.modKeep (w := true) (i := i) rfl rfl rfl).trans (.closeGate _ _)).view_len i .G)
                fun hst _ => (closeGate_gate (i := i) _ _).1 hst
            · cases h
          · cases h; exact pass rfl rfl
        · split at h
          · cases h; exact pass rfl rfl
          · cases h
        · cases h

/-- Moves enough make every move. -/
theorem scanGate_enough (n m : Nat) (fresh : Bool) (s : State) (hs : s.scanSound fresh i)
    (hn : s.scanWork fresh i < n) (hm : s.scanWork fresh i < m) : scanGate n fresh i s = scanGate m fresh i s := by
  induction n generalizing m fresh s with
  | zero => omega
  | succ n ih =>
    cases m with
    | zero => omega
    | succ m =>
      rw [scanGate_succ, scanGate_succ]
      cases h : scanMove fresh i s with
      | inr t => rfl
      | inl x =>
        obtain ⟨f, t⟩ := x
        obtain ⟨h1, h2⟩ := scanMove_lowers hs h
        exact ih m f t h2 (by omega) (by omega)

theorem scanWork_lt (s : State) (fresh : Bool) (i : Fin 8) : s.scanWork fresh i < s.scanFuel := by
  have := view_length_le s i .G
  unfold State.scanWork State.scanFuel
  split <;> omega

/-- A scan makes one move and goes on in the state it left. -/
theorem scanned_move {fresh f : Bool} (hs : s.scanSound fresh i) (h : scanMove fresh i s = .inl (f, t)) :
    s.scanned fresh i = t.scanned f i := by
  have h0 := scanWork_lt s fresh i
  obtain ⟨h1, h2⟩ := scanMove_lowers hs h
  unfold State.scanned
  obtain ⟨n, hn⟩ : ∃ n, s.scanFuel = n + 1 := ⟨2 * s.store.length + 1, rfl⟩
  rw [hn, scanGate_succ, h]
  exact scanGate_enough n _ f t h2 (by omega) (scanWork_lt t f i)

/-- A scan ends where no move is left. -/
theorem scanned_end {fresh : Bool} (h : scanMove fresh i s = .inr t) : s.scanned fresh i = t := by
  unfold State.scanned
  obtain ⟨n, hn⟩ : ∃ n, s.scanFuel = n + 1 := ⟨2 * s.store.length + 1, rfl⟩
  rw [hn, scanGate_succ, h]

/-! ### A TOTALIZE gate that closes -/

theorem closeGate_answers {c : MeasureConfig} {z : TimeStamp} (hc : (s.meas i).config = some c)
    (hk : c.kind = .totalize) (hr : s.reached z = true) (ho : (s.meas i).block.openRequest = none) :
    closeGate i z s = completeTotalize i (s.snapshot c.a.channel z)
      (s.setMeas i { s.meas i with st := .closing, closeTime := some z }) := by
  unfold closeGate
  simp [hc, hk, hr, ho]

theorem closeGate_asks {c : MeasureConfig} {z : TimeStamp} (hc : (s.meas i).config = some c)
    (hk : c.kind = .totalize) (ho : (s.meas i).block.openRequest ≠ none) :
    closeGate i z s = s.setMeas i { s.meas i with
      st := .closing, closeTime := some z, block := { (s.meas i).block with closeRequest := some z } } := by
  have : (s.meas i).block.openRequest.isNone = false := by
    cases h : (s.meas i).block.openRequest <;> simp_all
  unfold closeGate
  simp [hc, hk, this, State.modMeas, State.setMeas_setMeas]

/-- A TOTALIZE gate that closes at a time reached, in a state u that has served other measures before, perhaps with its
G view judged again, and other measures served after. -/
theorem ClosesTotalize.of_closeGate {u v : State} {c : MeasureConfig} {z : TimeStamp} {quals : BitVec 12}
    (hf : MeasureFrame s u) (hq : s.queue <+: u.queue)
    (hm : u.meas i = { s.meas i with block := { (s.meas i).block with quals := quals } })
    (hc : (s.meas i).config = some c) (hk : c.kind = .totalize) (hr : s.reached z = true)
    (hv : v = closeGate i z u ∨ v = rescanGate i (closeGate i z u)) (ha : Acts true (fun j => j ≠ i) v t) :
    ClosesTotalize s t i c z quals := by
  have hcu : (u.meas i).config = some c := by rw [hm]; exact hc
  have hru : u.reached z = true := by rw [hf.reached]; exact hr
  set w := u.setMeas i { u.meas i with st := .closing, closeTime := some z } with hw
  have hwm : w.meas i = { u.meas i with st := .closing, closeTime := some z } := by simp [hw]
  have hx : ∀ o, w.crosses o z [] = s.crosses o z [] := fun o =>
    (show w.crosses o z [] = u.crosses o z [] from rfl).trans (hf.crosses _ _ _)
  refine ⟨fun hn hd => ?_, fun hn hd o ho hxo => ?_, fun hn => ?_⟩
  · rw [closeGate_answers hcu hk hru (by rw [hm]; exact hn)] at hv
    obtain ⟨⟨g, g1, g2, g3, g4, g5, g6⟩, gv, -⟩ := completeTotalize_reports i (u.snapshot c.a.channel z) w (by
      rw [hwm, hm]
      exact hd.imp_left fun h o z' ho hz => by cases hz; rw [hx]; exact h o ho)
    have hg : Reports w v i g := by
      rcases hv with rfl | rfl
      · exact g1
      · exact g1.rescan fun h => gv h _
    refine ⟨g, (hg.start hq (by rw [hwm, hm])).later ha.queue fun _ => ha.meas_eq, g2, ?_, g4, ?_, fun q h => ?_⟩
    · rw [g3, hwm, hm]; simp [Measure.kind, hc, hk]
    · rw [g5, hwm, hm, hf.snapshot]
    · apply g6; rw [hwm, hm]; exact h
  · rw [closeGate_answers hcu hk hru (by rw [hm]; exact hn), completeTotalize_faults i _ w (o := o) (c := z)
      (by rw [hwm, hm]; exact ho) (by rw [hwm]) (by rw [hx]; exact hxo) (by rw [hwm, hm]; exact hd)] at hv
    have hF := enterFault_faults i .discontinuity true w
    have e : v = enterFault i .discontinuity true w := hv.elim id fun h => h.trans (rescanGate_fault _ hF.1)
    rw [← e] at hF
    exact (hF.start (u := s) hq (by rw [hwm, hm]) (by rw [hwm, hm]; rfl)).later ha.queue ha.meas_eq
  · have e := closeGate_asks (z := z) hcu hk (by rw [hm]; exact hn)
    have hvm : v.meas i = (closeGate i z u).meas i := by
      rcases hv with rfl | rfl
      · rfl
      · have h := (scanGate_closing (closeGate i z u).scanFuel true (i := i) (closeGate i z u) (by rw [e]; simp)).1
        unfold rescanGate
        simp only [State.meas]
        rw [h]
    rw [ha.meas_eq, hvm, e, hm]
    simp

end Sys2Proof.Machine
end

