-- ==== Sys2Proof/WellFormed.lean ====
section
/-! DEFINITION. Which commands the outside world can send: the operands whose length the manual fixes.
Every other operand is in range by its type. The machine is total on ill-formed commands too (log 11). -/

namespace Sys2Proof

/-- A read of the image gives 512 bytes (R187). -/
def imageLengthOk (image : List Byte) : Bool := image.length == Config.imageBytes

/-- The sampled bits are as many as the reception samples (R83). -/
def frameLengthOk (bits : List Bool) : Bool := bits.length == Machine.receptionBits bits

/-- The command is one the outside world can send. -/
def Instr.wellFormed : Instr → Bool
  | .imageReadComplete image => imageLengthOk image
  | .frameReceived bits _ => frameLengthOk bits
  | .resetAssert | .resetRelease _ | .seekTimeout | .aligningTimeout | .aligningOffsetWrap
  | .markLeadingEdge | .epochBoundary | .markPulseEnd | .horizonHoldEnd | .pinEdge _ _ _
  | .testSourceEvent | .stampResolution _ | .snapshotAnswer _ | .timedGateClose _
  | .timedGateReopen _ | .gateOverrun _ | .sampleSettle _ | .intervalBlockComplete _
  | .reciprocalBlockComplete _ | .transmitAssembly | .collision | .frameSendEnd _ | .windowEnd
  | .arm | .disarm | .gateOpen | .gateClose | .flush | .clearFault | .restart _
  | .frameStartTick => true

end Sys2Proof
end

