-- ==== Sys2Proof/Tests/Slice0.lean ====
section
/-! SUPPORT. The model's own tests: ill-formed commands refused, the manual's worked numbers, and for every
statement with hypotheses a state and operands that meet all of them together. -/

namespace Sys2Proof.Tests

open Sys2Proof.Machine

set_option Elab.async false

/-! ### Small states -/

/-- The state after a command. -/
def after (c : Instr) (s : State) : State :=
  match exec c s with
  | .next t => t
  | .fault _ | .refused _ => s

/-- Something that holds of the one value an option can have. -/
theorem of_some {α : Type} {x : Option α} {a : α} {P : α → Prop} (h : x = some a) (hp : P a) :
    ∀ o, x = some o → P o := fun o ho => by
  rw [h] at ho; cases ho; exact hp

/-- Station 0 of a group of 4 (k = 20, b = 8), LOCKED in epoch 412 at offset `o`. -/
def at_ (o : Nat) : State :=
  { State.reset with
    resetHeld := false
    loader := ⟨0, .powerOn, 0xDD2055, 0, 0, 0⟩
    params := ⟨4, 20, 1, 3, 4, 10, 16, 0x0005⟩
    eu := { EpochUnit.reset with
      align := some .locked, epoch := 412, offset := o, disc := 400, origin := .founder
      elapsed := 5000 + o, autoArmed := true } }

/-- The same with another alignment state. -/
def inState (a : AlignState) (o : Nat) : State := { at_ o with eu := { (at_ o).eu with align := some a } }

/-- The station in another epoch. -/
def inEpoch (e : BitVec 16) (s : State) : State := { s with eu := { s.eu with epoch := e } }

/-- A channel configuration: BOTH edges of the pin, published, H = 4, P = 2, R = 9. -/
def chanConfig : ChannelConfig := ⟨.pin, .both, true, 4, 2, 9⟩

/-- A loaded channel. -/
def chanOf (g : ChannelConfig) : Channel := { Channel.reset with config := some g, st := .normal }

/-- An INTERVAL measure on channels 0 and 1 of the own station, FREE gate, N = 10. -/
def config : MeasureConfig where
  kind := .interval
  gate := .free
  gateAlign := .unaligned
  policy := .first
  a := ⟨0, 0, .any⟩
  b := ⟨0, 1, .any⟩
  g := ⟨0, 2, .any⟩
  accept := 2
  faultMask := 0
  rearm := 0
  autoArm := false
  length := 5000
  blockSize := 10
  spanLimit := 8
  windowLow := 1
  windowHigh := 0x1000000

/-- An idle measure. -/
def measOf (c : MeasureConfig) : Measure := { Measure.reset with config := some c, st := .idle }

/-- A measure whose gate has opened at 412:100. -/
def openMeas (c : MeasureConfig) : Measure :=
  { measOf c with
    st := .opened, armingTime := some ⟨412, 100, 0⟩, openTime := some ⟨412, 100, 0⟩
    searchTime := some ⟨412, 100, 0⟩ }

/-- The same measure, closing at 412:600. -/
def closingMeas (c : MeasureConfig) : Measure :=
  { openMeas c with st := .closing, closeTime := some ⟨412, 600, 0⟩ }

/-- A Store entry of the own station that only measure 0 wants, in one role. -/
def entry (c : Fin 4) (o : BitVec 24) (r : Role) : Entry where
  station := 0
  channel := c
  polarity := .rise
  time := ⟨412, o, 0⟩
  drops := 0
  publish := false
  wantA := if r = .A then 1 else 0
  wantB := if r = .B then 1 else 0
  wantG := if r = .G then 1 else 0
  heldA := 0
  heldB := 0
  heldG := 0
  examined := 0

/-- A directive for ALL due at 412:900. -/
def directive (code : BitVec 4) : Directive := ⟨16, code, false, 1, 412, 900, 0⟩

/-- Local time 412:1000 with one due directive and one measure. -/
def due (code : BitVec 4) (m : Measure) : State := { (at_ 1000).setMeas 0 m with directives := [directive code] }

/-- An empty frame of station 1, as its bits: start symbol, header, CRC (computed apart from the model). -/
def frameOf (n : Nat) : List Bool := natBits 128 n

/-- Epoch 412, horizon 412:990, disc epoch 400, the group's signature. -/
def emptyFrame : List Bool := frameOf 0xfe10019c019c0003de000190dd205575

/-- The tick at which the last bit of an empty frame of window 1 is sampled. -/
def receiving (s : State) : State :=
  { s with link := { s.link with receiver := some ⟨127 * 8 + 4, some 1, 3, false⟩ } }

/-! ### Ill-formed and well-formed commands -/

theorem test_image_of_511_bytes_is_ill_formed :
    (Instr.imageReadComplete (List.replicate 511 0)).wellFormed = false := by decide +kernel

theorem test_image_of_512_bytes_is_well_formed :
    (Instr.imageReadComplete (List.replicate 512 0)).wellFormed = true := by decide +kernel

theorem test_frame_one_bit_short_is_ill_formed :
    (Instr.frameReceived (emptyFrame.take 127) 0).wellFormed = false := by decide +kernel

theorem test_frame_as_sampled_is_well_formed :
    (Instr.frameReceived emptyFrame 0).wellFormed = true := by decide +kernel

theorem test_no_word_spells_a_command (nbits w : Nat) : decodeTableWord nbits w = none := rfl

theorem test_fetch_word_leaves_the_queue (nbits w : Nat) : State.reset.withFetchWord nbits w = State.reset := rfl

/-! ### Time (the manual's examples of R5 and R6, the schedule of R68) -/

theorem test_interval_across_one_epoch :
    interval (2 ^ 20) ⟨412, 524288, 37⟩ ⟨413, 1000, 200⟩ = 134473891 := by decide +kernel

theorem test_interval_across_the_wrap :
    interval (2 ^ 20) ⟨65535, 1048000, 0⟩ ⟨0, 100, 0⟩ = 173056 := by decide +kernel

theorem test_adding_ticks :
    addTicks (2 ^ 20) ⟨412, 1040000, 7⟩ 20000 = ⟨413, 11424, 7⟩ ∧
    addTicks (2 ^ 20) ⟨0, 0, 0⟩ (2 ^ 32 - 1) = ⟨4095, 1048575, 0⟩ ∧
    subTicks (2 ^ 20) ⟨0, 3, 0⟩ 8 = ⟨65535, 1048571, 0⟩ := by decide +kernel

theorem test_epochs_at_the_bounds :
    compareEpoch 7 7 = .eq ∧ compareEpoch 7 8 = .gt ∧ compareEpoch 0 32767 = .gt ∧
    compareEpoch 0 32768 = .lt ∧ compareEpoch 32768 0 = .lt ∧ compareEpoch 8 7 = .lt ∧
    serialDiff 0 32767 = 32767 ∧ serialDiff 0 32768 = -32768 ∧ serialDiff 8 7 = -1 := by decide +kernel

theorem test_schedule_of_the_example_group :
    (at_ 0).windowCount = 195 ∧ (at_ 0).windowStart 191 = 1027072 ∧ (at_ 0).windowStart 12 = 64768 ∧
    (at_ 0).windowStart 3 = 16384 ∧ (at_ 0).windowAt 255 = none ∧ (at_ 0).windowAt 256 = some 0 ∧
    (at_ 0).windowAt 5631 = some 0 ∧ (at_ 0).windowAt 5632 = some 1 := by decide +kernel

theorem test_positions_of_the_test_source :
    (∀ t ∈ [8192, 24576, 32768, 40960, 57344], selectedPosition 0x0005 t = true) ∧
    ∀ t ∈ [0, 1, 4096, 8191, 8193, 16384, 49152, 65535], selectedPosition 0x0005 t = false := by decide +kernel

theorem test_crc8_of_a_frame : (readFrame emptyFrame).crcOk = true ∧
    frameBits ⟨1, 412, ⟨412, 990, 0⟩, 400, 0xDD2055, []⟩ = emptyFrame := by decide +kernel

/-! ### Conditions met: steps, reset and load -/

/-- A frame in flight after `n` ticks, ended or not, with `k` own windows with a collision before it. -/
def flight (n k : Nat) (ended : Bool) (records : List Record) : State :=
  { at_ (256 + n) with
    link := { Link.reset with
      sending := some ⟨⟨0, 412, ⟨412, 248, 0⟩, 400, 0xDD2055, records⟩, n, ended⟩, consecutive := k } }

theorem test_witness_EmptyQueueRunsEventOrTick :
    ((at_ 1000).pending = [] ∧ (at_ 1000).dueCommand = none) ∧
    ((at_ 1048576).pending = [] ∧ (at_ 1048576).dueCommand = some .windowEnd) ∧
    (at_ 3).hasTime = true ∧ (inState .seeking 0).eu.align = some .seeking ∧
    (inState .aligning 0).eu.align = some .aligning ∧
    ((inState .configFault 0).hasSchedule = false ∧ (inState .configFault 0).eu.align ≠ some .seeking) ∧
    (at_ 3).link.sending = none ∧ ((flight 1023 0 true []).link.sending.map (·.ended) = some true ∧
      (flight 1023 0 true []).bitPeriod = 8 ∧ 128 * 8 ≤ 1023 + 1) ∧
    ((flight 1023 0 false []).link.sending.map (·.ended) = some false ∧ 1022 + 1 < 128 * 8) ∧
    (inState .loading 0).eu.align = some .loading ∧ (at_ 3).eu.align ≠ some .loading := by decide +kernel

theorem test_witness_CommandsOutOfConditionDoNothing :
    (at_ 1000).resetHeld = false ∧ State.reset.readDone = false ∧ State.reset.seekExpired = false ∧
    State.reset.alignExpired = false ∧ State.reset.wrapDue = false ∧ State.reset.eu.align = none ∧
    State.reset.boundaryDue = false ∧ State.reset.pulseOver = false ∧ State.reset.holdOver = false ∧
    State.reset.testEventDue = false ∧ State.reset.resolvable 0 = none ∧
    State.reset.snapshotReached 0 = false ∧ State.reset.timedCloseReached 0 = none ∧
    State.reset.reopenReached 0 = none ∧ State.reset.overrunReached 0 = none ∧
    State.reset.intervalComplete 0 = false ∧ State.reset.reciprocalComplete 0 = false ∧
    State.reset.assemblyDue = false ∧ State.reset.collisionPoint = false ∧ State.reset.endingFrame = none ∧
    State.reset.endingReception [] = none ∧ State.reset.listening = false ∧
    State.reset.endingWindow = none ∧ State.reset.dueDirective .arm = none ∧
    State.reset.dueDirective .disarm = none ∧ State.reset.dueDirective .gateOpen = none ∧
    State.reset.dueDirective .gateClose = none ∧ State.reset.dueDirective .flush = none ∧
    State.reset.dueDirective .clearFault = none ∧ State.reset.dueDirective .restart = none := by
  decide +kernel

theorem test_witness_IntervalsAndSumsOfTicks :
    ((1048575 : BitVec 24).toNat < 2 ^ 20 ∧ (0 : BitVec 24).toNat < 2 ^ 20) ∧
    (16 ≤ 16 ∧ 16 ≤ 24 ∧ (65535 : BitVec 24).toNat < 2 ^ 16 ∧ 0 < 2 ^ 31 - 65536 ∧ 2 ^ 31 - 65536 < 2 ^ 32 ∧
      65535 + (2 ^ 31 - 65536) < 32768 * 2 ^ 16) ∧
    (16 ≤ 24 ∧ (0xFFFFFF : BitVec 24).toNat < 2 ^ 24 ∧ 0xFFFFFF + (2 ^ 32 - 1) < 32768 * 2 ^ 24) := by
  decide +kernel

theorem test_witness_WindowScheduleCoversWindows :
    0 < (at_ 0).windowCount ∧ 194 < (at_ 0).windowCount ∧ ¬ 195 < (at_ 0).windowCount := by decide +kernel

theorem test_witness_ResetAndStartsResetEveryBlock :
    State.reset.resetHeld = true ∧ (due 7 (measOf config)).dueDirective .restart = some (directive 7) := by
  decide +kernel

/-- The station at the end of the image read. -/
def reading : State :=
  { State.reset with
    resetHeld := false
    loader := { Loader.reset with readTicks := Config.readTicks }
    eu := { EpochUnit.reset with align := some .loading } }

/-- An image of the group of `at_`, its CRC computed apart from the model: channel 0 captures, measure 0 is an
INTERVAL measure, sequence 0 a trigger of measure 0. -/
def image : List Byte :=
  [0xC5, 0x3A, 2, 0, 4, 20, 1, 3, 4] ++ List.replicate 7 0 ++ [10, 16, 0, 5] ++ List.replicate 5 0
    ++ [3, 1, 0, 0, 4, 0, 0, 1, 0, 9] ++ List.replicate 6 0 ++ [4, 0, 0, 1, 0, 9] ++ List.replicate 6 0
    ++ [4, 0, 0, 1, 0, 9] ++ List.replicate 6 0 ++ [4, 0, 0, 1, 0, 9, 0, 3] ++ List.replicate 5 0
    ++ [1, 1] ++ List.replicate 5 0 ++ [2, 0, 255, 1] ++ List.replicate 6 0 ++ [10, 0, 8]
    ++ List.replicate 5 0 ++ [1, 0, 0, 0, 1] ++ List.replicate 284 0 ++ [2, 0, 0, 1, 0, 16, 1, 1, 1]
    ++ List.replicate 108 0 ++ [162, 147, 165]

/-- The CRC-24 register after more bits, looked at after each so that evaluation stays shallow. -/
def crcOver (reg : BitVec 24) : List Bool → BitVec 24
  | [] => reg
  | b :: rest => if reg = 0 then crcOver (crc24Bit reg b) rest else crcOver (crc24Bit reg b) rest

theorem crcOver_eq (l : List Bool) (reg : BitVec 24) : crcOver reg l = l.foldl crc24Bit reg := by
  induction l generalizing reg with
  | nil => rfl
  | cons b l ih => simp [crcOver, ih]

theorem foldl_bytes (l : List Byte) (reg : BitVec 24) :
    l.foldl (fun reg x => (fieldBits x).foldl crc24Bit reg) reg
      = (l.map fieldBits).flatten.foldl crc24Bit reg := by
  induction l generalizing reg with
  | nil => rfl
  | cons x l ih => simp [ih]

theorem crc24_eq_crcOver (l : List Byte) : crc24 l = crcOver 0xFFFFFF (l.map fieldBits).flatten := by
  rw [crcOver_eq, crc24, foldl_bytes]; rfl

theorem test_crc24_of_the_image : crc24 (image.take 509) = 0xA293A5 := by
  rw [crc24_eq_crcOver]
  decide +kernel

theorem test_witness_ImageLoadsOrFaults : reading.readDone = true ∧ imageOk image reading.loader.number = true := by
  have h : imageCrcOk image = true := by
    unfold imageCrcOk
    rw [test_crc24_of_the_image]
    decide +kernel
  refine ⟨by decide +kernel, ?_⟩
  unfold imageOk
  rw [h]
  decide +kernel

theorem test_good_image :
    (passLoad image reading).loader.signature = 0xDD2055 ∧
    (passLoad image reading).loader.measDisabled = 0xFE ∧ (passLoad image reading).loader.trigDisabled = 0xE ∧
    ((passLoad image reading).chan 0).st = .normal ∧ ((passLoad image reading).chan 1).st = .off := by
  decide +kernel

/-- `image` with these bytes in these places. -/
def patched (l : List (Nat × Nat)) : List Byte := l.foldl (fun m x => m.set x.1 (BitVec.ofNat 8 x.2)) image

/-- Measure 0 loads from a record at byte 72, an INTERVAL one with a FREE gate but for the places named. -/
theorem test_measure_records_that_pass :
    [[], [(76, 3)], [(96, 127), (97, 255)], [(73, 1), (91, 128)], [(72, 1), (73, 3), (78, 0)],
      [(72, 1), (73, 2), (78, 0)], [(80, 1)], [(74, 1), (73, 1), (93, 1)]].all
      (fun l => (measureConfig (patched l) 0 0).isSome) = true := by decide +kernel

/-- A kind, a code, a used or unused source, a range, the window, the timed length, a station, a local channel, the
TOTALIZE checks, the free gate or a reserved byte or bit disables it. -/
theorem test_measure_records_that_fail :
    [[(72, 0)], [(72, 4)], [(73, 4)], [(74, 2)], [(74, 1)], [(75, 2)], [(82, 16)], [(83, 4)], [(84, 3)], [(88, 2)],
      [(95, 0)], [(97, 0)], [(96, 128)], [(73, 1)], [(98, 1)], [(73, 1), (91, 128), (93, 1)], [(76, 4)], [(79, 4)],
      [(77, 1)], [(79, 0), (80, 1)], [(72, 1), (73, 3)], [(72, 1), (73, 3), (76, 1), (78, 0)],
      [(72, 1), (73, 2), (78, 0), (82, 1)], [(72, 1), (78, 0)], [(72, 2)], [(85, 8)], [(86, 64)],
      [(89, 1)], [(111, 1)]].all
      (fun l => (measureConfig (patched l) 0 0).isNone) = true := by decide +kernel

/-- The same of sequence 0, whose record at byte 392 has measure 0 as its source and one step. -/
theorem test_trigger_records :
    [[], [(397, 3)], [(398, 7)], [(400, 255)], [(392, 1), (393, 32)], [(395, 2), (402, 16), (403, 7), (405, 1)],
      [(404, 9), (407, 31)]].all (fun l => (triggerConfig (patched l) 0).isSome) = true ∧
    [[(392, 0)], [(392, 3)], [(393, 4)], [(393, 48)], [(393, 64)], [(394, 8)], [(395, 0)], [(395, 4)], [(396, 1)],
      [(397, 17)], [(397, 4)], [(398, 0)], [(398, 8)], [(400, 0)], [(395, 2)], [(392, 1), (393, 1)]].all
      (fun l => (triggerConfig (patched l) 0).isNone) = true := by decide +kernel

theorem test_witness_ImageLoadsOrFaults_bad :
    reading.readDone = true ∧ imageOk (List.replicate 512 0) reading.loader.number = false := by
  decide +kernel

/-! ### Conditions met: the Epoch Unit -/

/-- ALIGNING at its time limit with this offset, a reception in progress or not, and edges of this tick. -/
def expiring (o : Nat) (r : Option Reception) (edges : List HeldEdge) : State :=
  { inState .aligning o with
    eu := { (inState .aligning o).eu with alignTimer := 4194304 }
    link := { Link.reset with receiver := r }
    marks := { TickMarks.clear with edges := edges } }

theorem test_witness_TimeoutsLock :
    ({ inState .seeking 0 with eu := { (inState .seeking 0).eu with seekTimer := 2097152 } }).seekExpired = true ∧
    (inState .seeking 0).marks.edges = [] ∧
    ((expiring 77 none []).alignExpired = true ∧
      (setLocked 0 77 .founderTimeout (expiring 77 none [])).inOwnWindow = false) ∧
    ((expiring 300 (some ⟨9, none, 0, false⟩) []).alignExpired = true ∧
      (setLocked 0 300 .founderTimeout (expiring 300 (some ⟨9, none, 0, false⟩) [])).inOwnWindow = true) ∧
    (let u : State := { at_ 1000 with
        channels := (at_ 1000).channels.set 0 (chanOf chanConfig)
        marks := { TickMarks.clear with edges := [⟨0, .rise, 7⟩, ⟨1, .fall, 9⟩] } };
      (u.chan 0).reads .pin = true ∧ u.hasTime = true ∧ u.marks.edges = ⟨0, .rise, 7⟩ :: [⟨1, .fall, 9⟩]) ∧
    (at_ 1000).marks.edges = [] := by decide +kernel

theorem test_held_edge_is_captured :
    ((after .aligningTimeout { expiring 77 none [⟨0, .rise, 7⟩] with
        channels := (at_ 1000).channels.set 0 (chanOf chanConfig) }).chan 0).recentEdges.map (·.time)
      = [⟨0, 77, 7⟩] := by decide +kernel

/-- The distance of an offset from the mark's place, modulo E. -/
def markOffset (s : State) : Nat :=
  (s.eu.offset + (s.epochLength - s.params.delay.toNat % s.epochLength)) % s.epochLength

theorem test_witness_MarksAlignOrAreIgnored :
    (inState .seeking 0).eu.align = some .seeking ∧ (inState .aligning 5).eu.align = some .aligning ∧
    (inState .aligning 1048576).wrapDue = true ∧ (inState .aligning 1048575).wrapDue = false ∧
    ((at_ 14).hasTime = true ∧ (at_ 14).boundaryDue = false ∧ markOffset (at_ 14) = 4) ∧
    (markOffset (at_ 6) = 1048576 - 4 ∧ (at_ 6).boundaryDue = false) ∧
    ((inState .mute 500).hasTime = true ∧ (at_ 10).boundaryDue = false ∧ markOffset (at_ 10) = 0) ∧
    (at_ 1048576).boundaryDue = true := by decide +kernel

/-- A pin channel with an edge of this tick. -/
def edged (o : Nat) : State := after (.pinEdge 0 .rise 7) ((at_ o).setChan 0 (chanOf chanConfig))

/-- The station with this sequence i. -/
def withSeq (i : Fin 4) (x : Sequence) (s : State) : State := { s with sequences := s.sequences.set i x }

/-- A sequence of one step on a channel's stamps. -/
def seqOn (c : Fin 4) : Sequence := ⟨some ⟨.channel c .any, [⟨16, 1, 1, 1, 0⟩]⟩, .idle⟩

/-- A TEST channel with BOTH beside a pin channel, at a Test Source event, with a sequence on each. -/
def testing (o : Nat) : State :=
  withSeq 0 (seqOn 0) (withSeq 1 (seqOn 1)
    (((at_ o).setChan 0 (chanOf { chanConfig with input := .test, prescale := 1 })).setChan 1
      (chanOf { chanConfig with prescale := 1 })))

/-- The same with the event taken. -/
def tested (o : Nat) : State := after .testSourceEvent (testing o)

/-- The same with an edge of the pin channel taken after the event. -/
def testedAndEdged (o : Nat) : State := after (.pinEdge 1 .rise 7) (tested o)

/-- A frame in flight after `n` ticks, out of the mark's place. -/
def slipping (n : Nat) (ended : Bool) : State :=
  flight n 0 ended [.stamp 0 .rise 3 ⟨412, 200, 0⟩, .stamp 1 .rise 9 ⟨412, 201, 0⟩, .stamp 0 .fall 255 ⟨412, 202, 0⟩]

theorem test_witness_MarkOutOfToleranceSlips :
    ((at_ 15).hasTime = true ∧ (at_ 15).boundaryDue = false ∧ (at_ 15).markWithin = false) ∧
    ((at_ 5).markWithin = false ∧ (at_ 14).markWithin = true ∧ (at_ 6).markWithin = true) ∧
    (((edged 15).chan 1).edgeOf (edged 15).eu.elapsed = none ∧
      (((edged 15).setChan 1 (chanOf chanConfig)).chan 1).config = some chanConfig) ∧
    (((edged 15).chan 0).edgeOf (edged 15).eu.elapsed).map (·.time.fine) = some 7 ∧
    (edged 15).untested = none ∧
    ((slipping 60 false).markWithin = false ∧ lossOf 0 (slipping 60 false).unsentRecords = 260 ∧
      lossOf 1 (slipping 60 false).unsentRecords = 10 ∧ (slipping 1023 true).unsentRecords = []) ∧
    (edged 15).endingWindow = none ∧ (edged 15).cutWindow = none ∧
    ((testedAndEdged 24576).hasTime = true ∧ (testedAndEdged 24576).boundaryDue = false ∧
      (testedAndEdged 24576).markWithin = false ∧
      (testedAndEdged 24576).untested.map (·.link.outbox.length) = some 1) ∧
    ((at_ 6000).endingWindow.toList ++ (at_ 6000).cutWindow.toList = [1] ∧
      (at_ 21760).endingWindow.toList ++ (at_ 21760).cutWindow.toList = [3] ∧
      (at_ 5632).endingWindow.toList ++ (at_ 5632).cutWindow.toList = [1]) := by decide +kernel

theorem test_slip : (after .markLeadingEdge (at_ 299999)).localTime = ⟨413, 10, 0⟩ ∧
    (after .markLeadingEdge (at_ 299999)).eu.disc = 413 ∧
    ((after .markLeadingEdge (edged 15)).chan 0).recentEdges.map (·.time) = [⟨413, 10, 7⟩] := by decide +kernel

/-- The same at the start of an own window that a Test Source event falls on. -/
def testingAtWindow : State := { testing 21760 with params := { (testing 21760).params with density := 0x0080 } }

theorem test_witness_SlipUndoesTestEvent :
    (exec .testSourceEvent testingAtWindow = .next (after .testSourceEvent testingAtWindow)) ∧
    testingAtWindow.testEventDue = true ∧ testingAtWindow.hasTime = true ∧
    (testingAtWindow.after [.transmitAssembly]).hasTime = true ∧
    ((after .testSourceEvent testingAtWindow).after [.transmitAssembly]).slips = true ∧
    (testingAtWindow.after [.transmitAssembly]).slips = true := ⟨rfl, by decide +kernel⟩

theorem test_slip_undoes_an_assembled_event :
    ((after .testSourceEvent testingAtWindow).after [.transmitAssembly]).link.sending.map (·.frame.records.length)
      = some 1 ∧
    (testingAtWindow.after [.transmitAssembly]).link.sending.map (·.frame.records.length) = some 0 ∧
    after .markLeadingEdge ((after .testSourceEvent testingAtWindow).after [.transmitAssembly])
      = after .markLeadingEdge (testingAtWindow.after [.transmitAssembly]) := by decide +kernel

theorem test_slip_undoes_a_test_event :
    ((testedAndEdged 24576).chan 0).edgeCount = 1 ∧ (testedAndEdged 24576).link.outbox.length = 2 ∧
    ((after .markLeadingEdge (testedAndEdged 24576)).chan 0).edgeCount = 0 ∧
    ((after .markLeadingEdge (testedAndEdged 24576)).chan 1).edgeCount = 1 ∧
    (after .markLeadingEdge (testedAndEdged 24576)).link.outbox.length = 1 := by decide +kernel

theorem test_slip_accounts_the_lost_stamps :
    ((after .markLeadingEdge (slipping 60 false)).chan 0).publishDrops = 255 ∧
    ((after .markLeadingEdge (slipping 60 false)).chan 1).publishDrops = 10 ∧
    ((after .markLeadingEdge (slipping 1023 true)).chan 1).publishDrops = 0 := by decide +kernel

theorem test_witness_BoundaryAdvancesEpoch :
    (at_ 1048576).boundaryDue = true ∧ (at_ 1048575).boundaryDue = false ∧
    (at_ 1048576).endingWindow = some 2 ∧
    ({ at_ 1048576 with marks := { TickMarks.clear with windowEnd := true } }).boundaryDue = true ∧
    ({ at_ 1048576 with marks := { TickMarks.clear with windowEnd := true } }).endingWindow = none ∧
    ({ at_ 1048576 with link := { Link.reset with windowPresence := true } }).link.windowPresence = true ∧
    (((edged 1048576).setChan 1 (chanOf chanConfig)).chan 1).config = some chanConfig ∧
    (edged 1048576).boundaryDue = true ∧
    (((edged 1048576).chan 0).edgeOf (edged 1048576).eu.elapsed).isSome = true := by decide +kernel

theorem test_boundary : (after .epochBoundary (at_ 1048576)).localTime = ⟨413, 0, 0⟩ ∧
    (after .epochBoundary (at_ 1048576)).markLine = true ∧
    (after .epochBoundary (at_ 1048576)).link.statusDue = false ∧
    (after .epochBoundary { at_ 1048576 with eu := { (at_ 1048576).eu with epoch := 65535 } }).link.statusDue
      = true := by decide +kernel

/-- A measure whose sources all lie on the own station asks no peer. -/
theorem own_sources {s : State} {i : Fin 8} {c : MeasureConfig} (h : (s.meas i).config = some c)
    (hA : c.a.station = s.loader.number) (hB : c.b.station = s.loader.number)
    (hG : c.g.station = s.loader.number) : s.peersGive i := by
  intro r x hx
  left
  simp only [Measure.roleSource, h, Option.bind_some] at hx
  cases r <;> simp only [MeasureConfig.roleSource] at hx <;> split at hx <;> cases hx <;> assumption

/-- A measure without a configuration asks no peer. -/
theorem no_sources {s : State} {i : Fin 8} (h : (s.meas i).config = none) : s.peersGive i := by
  intro r x hx
  simp [Measure.roleSource, h] at hx

/-- A TIMED configuration aligned to MARK, with auto-arm. -/
def marked : MeasureConfig := { config with gate := .timed, gateAlign := .mark, autoArm := true }

/-- A first boundary as the measures meet it, with one measure and one sequence. -/
def bounding (m : Measure) (st : SequenceState) : State :=
  withSeq 0 ⟨none, st⟩ ({ at_ 0 with
    eu := { (at_ 0).eu with autoArmed := false }
    marks := { TickMarks.clear with boundary := true } }.setMeas 0 m)

theorem test_witness_BoundaryServesMeasuresAndSequences :
    ((bounding { measOf marked with st := .armed } .idle).hasTime = true ∧ marked.gate = .timed ∧
      marked.gateAlign = .mark ∧ (measOf marked).rearmTick = none) ∧
    ({ measOf marked with st := .armed, rearmTick := some 5000 }).rearmTick = some (at_ 0).eu.elapsed ∧
    ((bounding (measOf marked) .idle).marks.boundary = true ∧ (at_ 0).marks.boundary = false ∧
      (measOf marked).st = .idle ∧ marked.autoArm = true ∧ (measOf marked).noAutoArm = false ∧
      (bounding (measOf marked) .idle).eu.autoArmed = false) ∧
    ({ measOf marked with noAutoArm := true }).noAutoArm = true ∧ config.autoArm = false ∧
    ((bounding (measOf marked) (.running [] 2 0)).sequences.get 0).st = .running [] 2 0 ∧ 0 + 1 < 2 ∧
    ((bounding (measOf marked) (.running [] 2 1)).sequences.get 0).st = .running [] 2 1 ∧ 2 ≤ 1 + 1 ∧
    SequenceState.idle.isRunning = false := by decide +kernel

theorem test_witness_peersGive (st : SequenceState) (i : Fin 8) : (bounding (measOf marked) st).peersGive i := by
  by_cases h : i = 0
  · subst h; exact own_sources (c := marked) rfl rfl rfl rfl
  · apply no_sources
    have all : ∀ i, i ≠ 0 → ((bounding (measOf marked) .idle).meas i).config = none := by decide +kernel
    exact all i h

/-- A first boundary as a measure between an ABSENT and a FOREIGN peer meets it. -/
def boundingRemote (mask : BitVec 6) : State :=
  ((bounding (measOf { marked with a := ⟨2, 0, .any⟩, b := ⟨1, 1, .any⟩, faultMask := mask }) .idle).setPeer 1
    ⟨.foreign, some ⟨412, 7, 0⟩, none, 0⟩).setPeer 2 ⟨.absent, some ⟨411, 9, 0⟩, none, 3⟩

theorem test_witness_boundary_peerGives (mask : BitVec 6) :
    (boundingRemote mask).peerGives 0 .sourceAbsent ∧ (boundingRemote mask).peerGives 0 .sourceForeign :=
  ⟨⟨.A, ⟨2, 0, .any⟩, rfl, (by decide : (2 : Fin 16) ≠ 0), rfl⟩,
    ⟨.B, ⟨1, 1, .any⟩, rfl, (by decide : (1 : Fin 16) ≠ 0), rfl⟩⟩

theorem test_boundary_asks_the_peers :
    ((boundaryTable (boundingRemote 4)).meas 0).st = .fault ∧
    ((boundaryTable (boundingRemote 12)).meas 0).openTime = some ⟨412, 0, 0⟩ ∧
    ((boundaryTable (boundingRemote 12)).meas 0).block.quals = 12 := by decide +kernel

/-- A later boundary beside an ABSENT and a FOREIGN peer that a measure names, with a sequence in its pause. -/
def boundingLater : State :=
  withSeq 0 ⟨some ⟨.measure 0, []⟩, .running [] 2 0⟩
    { boundingRemote 0 with eu := { (boundingRemote 0).eu with autoArmed := true } }

theorem test_pause_counts_beside_an_absent_peer :
    boundingLater.eu.autoArmed = true ∧ boundingLater.hasTime = true ∧
    ((boundaryTable boundingLater).sequences.get 0).st = .running [] 2 1 ∧
    (∀ j, (((boundingRemote 0)).sequences.get 0).onMeasure j = false) ∧
    (boundingRemote 0).eu.autoArmed = false := by decide +kernel

theorem test_boundary_auto_arms_and_opens :
    ((after .epochBoundary { (at_ 1048576).setMeas 0 (measOf marked) with
        eu := { (at_ 1048576).eu with autoArmed := false } }).meas 0).openTime = some ⟨413, 0, 0⟩ := by
  decide +kernel

theorem test_witness_PulseAndHoldEnd :
    (at_ 16).hasTime = true ∧ ({ at_ 16 with eu := { (at_ 16).eu with markDrive := true } }).eu.markDrive = true ∧
    16 ≤ (at_ 16).eu.offset ∧
    ({ at_ 16 with eu := { (at_ 16).eu with hold := some ⟨⟨411, 9, 0⟩, 5008⟩ } }).eu.hold
      = some ⟨⟨411, 9, 0⟩, 5008⟩ ∧ 5008 + 8 ≤ (at_ 16).eu.elapsed := by decide +kernel

theorem test_witness_LinesShowState :
    (at_ 5).link.sending = none ∧
    ((flight 7 0 false []).link.sending.map (·.ticks) = some 7 ∧ (flight 7 0 false []).bitPeriod = 8 ∧
      0 * 8 ≤ 7 ∧ 7 < (0 + 1) * 8 ∧ 7 * 8 ≤ 63 ∧ 63 < (7 + 1) * 8 ∧ 128 * 8 ≤ 1024 ∧
      (flight 7 0 false []).link.sending.map (fun x => (frameBits x.frame).length) = some 128) ∧
    ([7, 55, 56, 63, 1024].map fun n => (flight n 0 false []).dataLine) = [true, true, false, false, false] ∧
    ([32959, 32960].map fun n => ({ inState .loading 0 with
      loader := { (at_ 0).loader with readTicks := n } } : State).chipSelectLow) = [true, false] := by decide +kernel

/-! ### Conditions met: channels and the Test Source -/

/-- Channel 0 captures; its previous qualified edge lies 4 ticks back at fine 0, its prescale count is `n`. -/
def capturing (n : Nat) : State :=
  (at_ 1000).setChan 0 { chanOf chanConfig with lastEdge := some (5996 * 256), prescale := n }

theorem test_witness_PinEdgeCountsOrIsIgnored :
    (((capturing 0).chan 0).reads .pin = true ∧ ((capturing 0).chan 0).config = some chanConfig ∧
      (capturing 0).hasTime = true ∧ chanConfig.edges.passes .rise = true ∧
      ((capturing 0).chan 0).lastEdge = some (5996 * 256) ∧
      5996 * 256 + 256 * max chanConfig.holdoff 1
        ≤ (capturing 0).eu.elapsed * 256 + (0 : BitVec 8).toNat) ∧
    (((capturing 0).chan 0).prescale + 1 ≠ chanConfig.prescale ∧
      ((capturing 1).chan 0).prescale + 1 = chanConfig.prescale) ∧
    ((at_ 1000).chan 0).reads .pin = false ∧
    ((inState .configFault 0).hasTime = false ∧ (inState .configFault 0).eu.align ≠ some .seeking ∧
      (inState .configFault 0).eu.align ≠ some .aligning) ∧
    (((inState .aligning 0).setChan 0 (chanOf chanConfig)).chan 0).reads .pin = true ∧
    (at_ 999).eu.elapsed * 256 + 255 < 5996 * 256 + 256 * max chanConfig.holdoff 1 ∧
    (⟨.pin, .rise, true, 4, 2, 9⟩ : ChannelConfig).edges.passes .fall = false := by decide +kernel

theorem test_pin_edge_forms_a_stamp :
    ((after (.pinEdge 0 .rise 0) (capturing 1)).chan 0).inFlight
      = [⟨.rise, ⟨412, 1000, 0⟩, false, 6000⟩] := by decide +kernel

theorem test_witness_TestEventReachesTestChannels :
    (testing 8192).testEventDue = true ∧ ((testing 8192).chan 1).reads .test = false ∧
    ((testing 8192).chan 0).reads .test = true ∧
    ((testing 8192).chan 0).config = some { chanConfig with input := .test, prescale := 1 } ∧
    ((testing 8192).chan 0).qualifies chanConfig.holdoff ((testing 8192).eu.elapsed * 256) = true ∧
    ((testing 8192).edgeAt ((testing 8192).chan 0) .rise 0).2 = true ∧
    ((testing 8192).sequences.get 0).onStamp 0 .rise = true ∧
    ((testing 8192).sequences.get 1).onStamp 0 .rise = false := by decide +kernel

theorem test_test_stamp_fires_its_sequence_once :
    (let s := after .testSourceEvent
        (withSeq 0 ⟨some ⟨.channel 0 .any, [⟨16, 1, 1, 1, 2⟩]⟩, .idle⟩ (testing 8192));
      (s.sequences.get 0).st = .running [] 2 0 ∧ s.triggerOverruns = 0 ∧
      s.sequences.get 1 = (testing 8192).sequences.get 1 ∧ s.link.outbox.length = 1) := by decide +kernel

theorem test_witness_TestCycleHoldsDensityEvents :
    selectedPosition 0x8000 1 = true ∧ selectedPosition 0x8000 65535 = true ∧
    selectedPosition 0x0001 32768 = true ∧ selectedPosition 0xFFFF 0 = false := by decide +kernel

/-- A stamp 8 ticks in flight on channel 0, in a Store of `n` entries. -/
def resolving (suppressed publish : Bool) (n : Nat) : State :=
  { (at_ 1000).setChan 0 { chanOf { chanConfig with publish := publish } with
      inFlight := [⟨.rise, ⟨412, 992, 0⟩, suppressed, 5992⟩] } with
    store := List.replicate n (entry 1 500 .A) }

/-- The stamp in flight of `resolving`. -/
def flying (suppressed : Bool) : FlyingStamp := ⟨.rise, ⟨412, 992, 0⟩, suppressed, 5992⟩

theorem test_witness_ResolutionHasFourOutcomes :
    ((resolving true true 0).hasTime = true ∧
      ((resolving true true 0).chan 0).inFlight = [flying true] ∧ 5992 + 8 ≤ (at_ 1000).eu.elapsed ∧
      (flying true).suppressed = true) ∧
    ((resolving false false 0).localEntry 0 (flying false)).wanted = false ∧
    (((resolving false true 128).localEntry 0 (flying false)).wanted = true ∧
      128 ≤ (resolving false true 128).store.length) ∧
    (((resolving false true 127).localEntry 0 (flying false)).wanted = true ∧
      (resolving false true 127).store.length < 128 ∧
      ((resolving false true 127).localEntry 0 (flying false)).wantG = 0) ∧
    (let s := (resolving false true 0).setMeas 0 (openMeas config);
      (s.localEntry 0 (flying false)).inView 0 .A = true ∧ (s.localEntry 0 (flying false)).inView 0 .B = false ∧
      (s.localEntry 0 (flying false)).publish = true) := by decide +kernel

/-! ### Conditions met: peers -/

/-- The end of window 1, of station 1, which is in a state with `n` missed windows. -/
def windowEnding (st : PeerState) (n : BitVec 4) (seen : Bool) : State :=
  { (at_ 11008).setPeer 1 ⟨st, some ⟨412, 7, 0⟩, some 400, n⟩ with
    link := { Link.reset with windowPresence := seen } }

theorem test_witness_WindowEndCountsMisses :
    ((windowEnding .present 2 false).endingWindow = some 1 ∧
      (windowEnding .present 2 false).link.windowPresence = false ∧
      ((windowEnding .present 2 false).peer 1).st = .present ∧
      (satAdd ((windowEnding .present 2 false).peer 1).missed 1).toNat = (at_ 0).params.missLimit.toNat ∧
      (satAdd ((windowEnding .present 1 false).peer 1).missed 1).toNat ≠ (at_ 0).params.missLimit.toNat) ∧
    (windowEnding .silent 0 true).link.windowPresence = true ∧
    ((windowEnding .absent 3 false).peer 1).st = .absent ∧
    ((windowEnding .foreign 0 false).peer 1).st = .foreign ∧
    (setLocked 0 11008 .founderTimeout (inState .aligning 11008)).eu.elapsed = 0 ∧
    (setLocked 0 11008 .founderTimeout (inState .aligning 11008)).eu.offset = 11008 := by decide +kernel

theorem test_third_miss_makes_absent :
    ((after .windowEnd (windowEnding .present 2 false)).peer 1) = ⟨.absent, some ⟨412, 7, 0⟩, some 400, 3⟩ ∧
    ((after .windowEnd (windowEnding .present 1 false)).peer 1).st = .present := by decide +kernel

theorem test_witness_PresenceTables :
    ((windowEnding .silent 1 false).peer 1).st = .silent ∧ ((windowEnding .present 1 false).peer 1).st = .present ∧
    ((windowEnding .absent 1 false).peer 1).st = .absent ∧ ((windowEnding .foreign 1 false).peer 1).st = .foreign := by
  decide +kernel

/-- A measure with source B on station 1, and a mask. -/
def remote (mask : BitVec 6) : MeasureConfig := { config with b := ⟨1, 1, .any⟩, faultMask := mask }

theorem test_witness_PeerChangeReachesMeasures :
    ((at_ 5).setMeas 0 (openMeas config)).notified 1 0 = false ∧
    (((openMeas (remote 0)).st.active = true ∧ (openMeas (remote 0)).namesStation 1 = true ∧
      (openMeas (remote 0)).masks .sourceAbsent = false) ∧
    ((openMeas (remote 4)).st.active = true ∧ (openMeas (remote 4)).namesStation 1 = true ∧
      (openMeas (remote 4)).masks .sourceAbsent = true ∧
      (openMeas (remote 4)).roleSource .B = some ⟨1, 1, .any⟩ ∧ (openMeas (remote 4)).final .B = .live ∧
      ({ openMeas (remote 4) with finalB := .held none }).final .B ≠ .live ∧
      (openMeas (remote 4)).roleSource .A = some ⟨0, 0, .any⟩ ∧ (openMeas (remote 4)).roleSource .G = none) ∧
    (({ openMeas (remote 0) with st := .reporting }).namesStation 1 = true ∧
      ({ openMeas (remote 0) with st := .reporting }).masks .sourceAbsent = false ∧
      ({ openMeas (remote 4) with st := .reporting }).masks .sourceAbsent = true)) := by decide +kernel

theorem test_masked_absence_keeps_the_horizon :
    (let s := after .windowEnd ((windowEnding .present 2 false).setMeas 0 (openMeas (remote 4)));
      (s.meas 0).st = .opened ∧ s.roleHorizon 0 .B = some ⟨412, 7, 0⟩ ∧
      hasQual (.fault .sourceAbsent) (s.meas 0).block.quals = true) ∧
    ((after .windowEnd ((windowEnding .present 2 false).setMeas 0 (openMeas (remote 0)))).meas 0).st = .fault := by
  decide +kernel

/-! ### Conditions met: gates and blocks -/

/-- A TIMED configuration that closes 900 ticks after it opened. -/
def timed : MeasureConfig := { config with gate := .timed, length := 900 }

theorem test_witness_TimedGateClosesAndReopens :
    (((at_ 1000).setMeas 0 (openMeas timed)).meas 0 = openMeas timed ∧ (openMeas timed).st = .opened ∧
      (openMeas timed).config = some timed ∧ timed.gate = .timed ∧
      (openMeas timed).openTime = some ⟨412, 100, 0⟩ ∧ (openMeas timed).closeTime = none ∧
      ((at_ 1000).setMeas 0 (openMeas timed)).reached
        (addTicks ((at_ 1000).setMeas 0 (openMeas timed)).epochLength ⟨412, 100, 0⟩ timed.length.toNat) = true) ∧
    (({ measOf timed with st := .armed, carriedOpening := some ⟨412, 1000, 0⟩ }).carriedOpening
        = some ⟨412, 1000, 0⟩ ∧
      (at_ 1000).reached ⟨412, 1000, 0⟩ = true ∧ (at_ 999).reached ⟨412, 1000, 0⟩ = false) := by
  decide +kernel

/-- An EDGE configuration that overruns one epoch after it opened. -/
def edge : MeasureConfig := { config with gate := .edge, spanLimit := 1 }

/-- A stamp of channel 2, at 412:992, about to be resolved for a measure, with so many losses before it. -/
def arrivingAfter (losses : BitVec 8) (m : Measure) : State :=
  ((at_ 1000).setChan 2 { chanOf chanConfig with inFlight := [flying false], storeDrops := losses }).setMeas 0 m

/-- The same without a loss. -/
def arriving (m : Measure) : State := arrivingAfter 0 m

/-- A TOTALIZE measure with an EDGE gate, open since 412:100, with a request or none. -/
def edgeTotal (request : Option TimeStamp) : Measure :=
  { openMeas { edge with kind := .totalize } with block := { Block.empty with openRequest := request } }

/-- An ARMED EDGE measure with this search time. -/
def searching (o : BitVec 24) (late : Bool) : Measure :=
  { measOf edge with
    st := .armed, armingTime := some ⟨412, 100, 0⟩, searchTime := some ⟨412, o, 0⟩, searchAfter := late }

theorem test_witness_EdgeGateFollowsStamps :
    ((arriving (searching 992 false)).hasTime = true ∧
      ((arriving (searching 992 false)).chan 2).inFlight = [flying false] ∧
      5992 + 8 ≤ (at_ 1000).eu.elapsed ∧ (flying false).suppressed = false ∧
      (arriving (searching 992 false)).store.length < 128 ∧
      ((arriving (searching 992 false)).localEntry 2 (flying false)).wantG.getLsbD 0 = true ∧
      ((arriving (searching 992 false)).meas 0).config = some edge ∧
      ((arriving (searching 992 false)).meas 0).finalG = .live ∧
      (arriving (searching 992 false)).view 0 .G = [] ∧
      ((arriving (searching 992 false)).localEntry 2 (flying false)).drops ≠ 255 ∧
      ((arrivingAfter 255 (searching 992 false)).localEntry 2 (flying false)).drops = 255 ∧
      (openMeas edge).masks .gap = false ∧ (openMeas { edge with faultMask := 1 }).masks .gap = true ∧
      (arriving (searching 992 false)).hasExamined 0
        ((arriving (searching 992 false)).localEntry 2 (flying false)) = false) ∧
    ((searching 993 false).opensAt ⟨412, 992, 0⟩ = false ∧ (searching 992 true).opensAt ⟨412, 992, 0⟩ = false) ∧
    ((searching 992 false).opensAt ⟨412, 992, 0⟩ = true ∧
      (arriving (searching 992 false)).reached (addEpochs ⟨412, 992, 0⟩ edge.spanLimit.toNat) = false ∧
      (inEpoch 414 (arriving (searching 992 false))).reached
        (addEpochs ⟨412, 992, 0⟩ edge.spanLimit.toNat) = true) ∧
    ((openMeas edge).st = .opened ∧ later (⟨412, 992, 0⟩ : TimeStamp) ⟨412, 992, 0⟩ = false ∧
      later (⟨412, 992, 0⟩ : TimeStamp) ⟨412, 100, 0⟩ = true ∧ edge.kind ≠ .totalize ∧
      (openMeas edge).closesAt ⟨412, 992, 0⟩ = true) ∧
    ((edgeTotal none).block.openRequest = none ∧ (edgeTotal (some ⟨412, 2000, 0⟩)).block.openRequest ≠ none ∧
      (arriving (edgeTotal none)).reached ⟨412, 992, 0⟩ = true ∧
      (arriving (edgeTotal none)).crosses ⟨412, 100, 0⟩ ⟨412, 992, 0⟩ [] = false) ∧
    ((closingMeas edge).st = .closing ∧ earlier (⟨412, 992, 0⟩ : TimeStamp) ⟨412, 993, 0⟩ = true ∧
      earlier (⟨412, 992, 0⟩ : TimeStamp) ⟨412, 992, 0⟩ = false) := by decide +kernel

theorem test_edge_gate_opens_and_closes :
    ((after (.stampResolution 2) (arriving (searching 992 false))).meas 0).openTime = some ⟨412, 992, 0⟩ ∧
    ((after (.stampResolution 2) (arriving (openMeas edge))).meas 0).closeTime = some ⟨412, 992, 0⟩ ∧
    ((after (.stampResolution 2) (inEpoch 414 (arriving (searching 992 false)))).meas 0).closeTime
      = some ⟨413, 992, 0⟩ := by decide +kernel

theorem test_edge_gate_after_losses :
    ((after (.stampResolution 2) (arrivingAfter 255 (openMeas edge))).meas 0).st = .fault ∧
    ((after (.stampResolution 2) (arrivingAfter 255 (openMeas { edge with faultMask := 1 }))).meas 0).st = .closing ∧
    (after (.stampResolution 2) (arriving (edgeTotal none))).queue.map (·.values) = [[0]] := by decide +kernel

/-- A measure with this G view. -/
def gating (m : Measure) (l : List Entry) : State := { (at_ 1000).setMeas 0 m with store := l }

theorem test_witness_EdgeGateFollowsStamps_views :
    ((gating (openMeas edge) [entry 2 200 .G, entry 2 300 .G]).view 0 .G = entry 2 200 .G :: [entry 2 300 .G] ∧
      ((gating (openMeas edge) []).meas 0).config = some edge ∧
      (gating (openMeas edge) []).reached (addEpochs ⟨412, 100, 0⟩ edge.spanLimit.toNat) = false ∧
      (gating (openMeas edge) []).view 0 .G = [] ∧ (measOf edge).st.active = false ∧
      (entry 2 200 .G).heldFor 0 .G = false ∧ ({ entry 2 200 .G with heldG := 1 }).heldFor 0 .G = true ∧
      (gating (openMeas edge) [entry 2 200 .G]).hasExamined 0 (entry 2 200 .G) = false ∧
      (gating (openMeas edge) [{ entry 2 200 .G with examined := 1 }]).hasExamined 0 (entry 2 200 .G) = true) ∧
    ((openMeas edge).closesAt ⟨412, 100, 0⟩ = false ∧ (openMeas edge).closesAt ⟨412, 101, 0⟩ = true ∧
      (closingMeas edge).beforeClose ⟨412, 599, 0⟩ = true ∧ (closingMeas edge).beforeClose ⟨412, 600, 0⟩ = false) := by
  decide +kernel

theorem test_rescan_opens_and_closes :
    (let m := (rescanGate 0 (gating (searching 100 false) [entry 2 200 .G, entry 2 300 .G])).meas 0;
      m.st = .closing ∧ m.openTime = some ⟨412, 200, 0⟩ ∧ m.closeTime = some ⟨412, 300, 0⟩ ∧
      m.closedByStamp = true) ∧
    (rescanGate 0 (gating (searching 100 false) [{ entry 2 200 .G with heldG := 1 }])).store = [] ∧
    ((rescanGate 0 (gating (searching 100 false) [{ entry 2 200 .G with heldG := 1 }])).meas 0).st = .armed := by
  decide +kernel

/-- An EDGE, or a DIRECTIVE, measure open since 411:100, with a G stamp after its overrun time. -/
def overrunning (gate : GateKind) (kind : MeasureKind) (store : List Entry) : State :=
  { (at_ 100).setMeas 0 { openMeas { edge with gate := gate, kind := kind } with
      openTime := some ⟨411, 100, 0⟩ } with store := store }

theorem test_witness_GateOverrunCloses :
    ((overrunning .edge .interval []).meas 0).st = .opened ∧
    ((overrunning .edge .interval []).meas 0).config = some edge ∧ edge.gate = .edge ∧
    ((overrunning .directive .reciprocal []).meas 0).config.map (·.gate) = some .directive ∧
    ((overrunning .edge .interval []).meas 0).openTime = some ⟨411, 100, 0⟩ ∧
    (overrunning .edge .interval []).reached (addEpochs ⟨411, 100, 0⟩ edge.spanLimit.toNat) = true ∧
    edge.kind ≠ .totalize ∧ (overrunning .edge .interval []).view 0 .G = [] ∧
    (after (.gateOverrun 0) (overrunning .edge .interval [entry 2 150 .G])).view 0 .G = [entry 2 150 .G] := by
  decide +kernel

theorem test_overrun_comes_before_a_closing_stamp :
    ((overrunning .edge .interval []).meas 0).closedByStamp = false ∧
    (let s := rescanGate 0 (overrunning .edge .interval [{ entry 2 150 .G with time := ⟨411, 200, 0⟩ }]);
      (s.meas 0).closeTime = some ⟨412, 100, 0⟩ ∧ hasQual .overrange (s.meas 0).block.quals = true ∧
      s.store = []) := by decide +kernel

/-- A TOTALIZE configuration. -/
def totalize : MeasureConfig := { config with kind := .totalize, gate := .directive }

/-- A TOTALIZE measure that waits for its open answer, and one that waits for its close answer. -/
def asking (closing : Bool) : State :=
  (at_ 1000).setMeas 0
    (if closing then { closingMeas totalize with
        block := { Block.empty with closeRequest := some ⟨412, 600, 0⟩, openSnapshot := 5 } }
     else { openMeas totalize with block := { Block.empty with openRequest := some ⟨412, 100, 0⟩ } })

/-- The same TOTALIZE measure with this fault mask, its gate over a discontinuity, and a full queue. -/
def crossing (mask : BitVec 6) : State :=
  let s := (asking true).setMeas 0
    { (asking true).meas 0 with config := some { totalize with faultMask := mask }, openTime := some ⟨411, 9, 0⟩ }
  { s with
    eu := { s.eu with disc := 412 }
    queue := List.replicate 12 (faultReport 1 .totalize .gap) }

/-- Qualified edges of which the older one is 8 ticks old at offset 1000. -/
def ageing : List RecentEdge :=
  [⟨5992, ⟨412, 992, 0⟩, .rise, none, 0, 0, .normal⟩, ⟨5993, ⟨412, 993, 0⟩, .rise, none, 0, 0, .normal⟩]

theorem test_witness_SnapshotsAreAnswered :
    (((asking false).meas 0).config = some totalize ∧
      ((asking false).meas 0).block.openRequest = some ⟨412, 100, 0⟩ ∧
      (asking false).reached ⟨412, 100, 0⟩ = true ∧ ((asking false).meas 0).st ≠ .closing) ∧
    (((asking true).meas 0).st = .closing ∧ totalize.kind = .totalize ∧
      ((asking true).meas 0).block.closeRequest = some ⟨412, 600, 0⟩ ∧
      ((asking true).meas 0).block.openRequest = none ∧ (asking true).reached ⟨412, 600, 0⟩ = true ∧
      (asking true).queueRoom = true ∧ ((asking true).meas 0).openTime = some ⟨412, 100, 0⟩ ∧
      ((asking true).meas 0).closeTime = some ⟨412, 600, 0⟩ ∧
      (asking true).crosses ⟨412, 100, 0⟩ ⟨412, 600, 0⟩ [] = false ∧
      ((asking true).meas 0).rearms = .left 0) ∧
    ((crossing 0).crosses ⟨411, 9, 0⟩ ⟨412, 600, 0⟩ [] = true ∧
      ((crossing 0).meas 0).masks .discontinuity = false ∧
      ((crossing 2).meas 0).masks .discontinuity = true) ∧
    (((capturing 0).chan 0).recentEdges = [] ∧ ((capturing 0).chan 0).reads .pin = true ∧
      ((capturing 0).chan 0).config = some chanConfig ∧ (capturing 0).hasTime = true ∧
      chanConfig.edges.passes .rise = true ∧
      5996 * 256 + 256 * max chanConfig.holdoff 1
        ≤ (capturing 0).eu.elapsed * 256 + (0 : BitVec 8).toNat ∧
      earlier { (capturing 0).localTime with fine := 0 } ⟨412, 1001, 0⟩ = true) ∧
    (ageing.map (fun e => decide (e.tick + 8 ≤ (at_ 1000).eu.elapsed)) = [true, false] ∧
      ageing.map (fun e => earlier e.time ⟨412, 993, 0⟩) = [true, false]) := by decide +kernel

theorem test_snapshot_counts_earlier_edges :
    (after (.pinEdge 0 .rise 0) (capturing 0)).snapshot 0 ⟨412, 1001, 0⟩ = 1 ∧
    (after (.pinEdge 0 .rise 0) (capturing 0)).snapshot 0 ⟨412, 1000, 0⟩ = 0 := by decide +kernel

theorem test_witness_TotalizeReportsCount :
    (asking true).queueRoom = true ∧ ((asking false).meas 0).closeTime = none ∧
    ((crossing 2).meas 0).openTime = some ⟨411, 9, 0⟩ ∧ ((crossing 2).meas 0).closeTime = some ⟨412, 600, 0⟩ ∧
    (crossing 2).crosses ⟨411, 9, 0⟩ ⟨412, 600, 0⟩ [] = true ∧
    ((crossing 2).meas 0).masks .discontinuity = true ∧
    (crossing 2).queueRoom = false ∧ ((crossing 2).meas 0).block.openSnapshot = 5 ∧
    hasQual .gateEnd (setQual .gateEnd 0) = true := by decide +kernel

/-- A TOTALIZE measure whose open request still waits. -/
def unanswered (s : State) : State :=
  s.modMeas 0 fun m => { m with block := { m.block with openRequest := some ⟨412, 2000, 0⟩ } }

theorem test_witness_TotalizeGateCloses :
    (((overrunning .directive .totalize []).meas 0).st = .opened ∧
      ((overrunning .directive .totalize []).meas 0).kind = .totalize ∧
      ((overrunning .directive .totalize []).meas 0).block.openRequest = none ∧
      (overrunning .directive .totalize []).reached (addEpochs ⟨411, 100, 0⟩ 1) = true ∧
      (overrunning .directive .totalize []).crosses ⟨411, 100, 0⟩ ⟨412, 100, 0⟩ [] = false ∧
      ((unanswered (overrunning .edge .totalize [])).meas 0).block.openRequest ≠ none) ∧
    ((due 4 (openMeas totalize)).dueDirective .gateClose = some (directive 4) ∧
      (due 5 (openMeas totalize)).dueDirective .flush = some (directive 5) ∧
      (directive 4).mask.getLsbD 0 = true ∧ ((due 4 (openMeas totalize)).meas 0).config = some totalize ∧
      totalize.gate = .directive ∧
      (due 4 (openMeas totalize)).crosses ⟨412, 100, 0⟩ (directive 4).time [] = false ∧
      ((unanswered (due 5 (openMeas totalize))).meas 0).block.openRequest ≠ none) ∧
    (let s := { overrunning .directive .totalize [] with eu := { (at_ 100).eu with disc := 412 } };
      s.crosses ⟨411, 100, 0⟩ ⟨412, 100, 0⟩ [] = true ∧ (s.meas 0).masks .discontinuity = false ∧
      ((after (.gateOverrun 0) s).meas 0).st = .fault) := by decide +kernel

/-- A closing measure whose sources' horizons lie past its close. -/
def completing (k : MeasureKind) (b : Block) : State :=
  (at_ 1000).setMeas 0 { closingMeas { config with kind := k } with block := b }

/-- A RECIPROCAL block of 4 events between two times. -/
def countedOver (x y : TimeStamp) : Block := { Block.empty with events := 4, first := some x, last := some y }

/-- A RECIPROCAL block of 4 events over 100 ticks. -/
def counted : Block := countedOver ⟨412, 200, 0⟩ ⟨412, 300, 0⟩

/-- A RECIPROCAL block over a discontinuity. -/
def broken : Block := countedOver ⟨399, 5, 0⟩ ⟨400, 0, 0⟩

/-- A closing INTERVAL measure with these stamps in its views. -/
def closingWith (store : List Entry) : State := { completing .interval .empty with store := store }

/-- A closing RECIPROCAL measure with this mask and block, STORE_FULL pending or not. -/
def completingMasked (mask : BitVec 6) (pending : Bool) (b : Block) : State :=
  (at_ 1000).setMeas 0 { closingMeas { config with kind := .reciprocal, faultMask := mask } with
    block := b, pendingA := pending }

theorem test_witness_BlocksComplete :
    (let s := closingWith [entry 0 200 .A, entry 1 300 .B];
      let u := after (.sampleSettle 0) s;
      s.intervalComplete 0 = true ∧ u.queue = s.queue ∧ (u.meas 0).st = .closing ∧ judgeMove 0 u = none ∧
      (u.meas 0).block.n = 1) ∧
    ((completing .interval .empty).view 0 .A = [] ∧ (completing .interval .empty).view 0 .B = [] ∧
      ((completing .interval .empty).meas 0).lastStop = none) ∧
    ((completing .interval .empty).intervalComplete 0 = true ∧ (completing .interval .empty).queueRoom = true ∧
      judgeMove 0 (completing .interval .empty) = none ∧
      ((completing .interval .empty).meas 0).block.n = 0 ∧
      ((completing .interval .empty).meas 0).rearms = .left 0) ∧
    (let s := closingWith [entry 0 400 .A, entry 0 600 .A, entry 1 600 .B];
      s.intervalComplete 0 = true ∧ judgeMove 0 s = none ∧
      s.view 0 .A = [entry 0 400 .A, entry 0 600 .A] ∧ s.view 0 .B = [entry 1 600 .B]) ∧
    ((completing .reciprocal counted).reciprocalComplete 0 = true ∧
      (completing .reciprocal counted).queueRoom = true ∧
      ((completing .reciprocal counted).meas 0).config = some { config with kind := .reciprocal } ∧
      judgeMove 0 (completing .reciprocal counted) = none ∧
      ((completing .reciprocal counted).meas 0).pendingA = false ∧
      ((completing .reciprocal counted).meas 0).rearms = .left 0 ∧
      (completing .reciprocal counted).crosses ⟨412, 200, 0⟩ ⟨412, 300, 0⟩ [0] = false ∧
      counted.events ≠ 0 ∧ hasQual .overrange counted.quals = false ∧
      0 ≤ interval (2 ^ 20) ⟨412, 200, 0⟩ ⟨412, 300, 0⟩ ∧
      interval (2 ^ 20) ⟨412, 200, 0⟩ ⟨412, 300, 0⟩ < 2 ^ 47) ∧
    ((completing .reciprocal .empty).reciprocalComplete 0 = true ∧ Block.empty.events = 0) ∧
    ((completingMasked 0 true broken).reciprocalComplete 0 = true ∧
      judgeMove 0 (completingMasked 0 true broken) = none ∧ broken.events ≠ 0 ∧
      (completingMasked 0 true broken).crosses ⟨399, 5, 0⟩ ⟨400, 0, 0⟩ [0] = true ∧
      ((completingMasked 0 true broken).meas 0).pendingA = true ∧
      ((completingMasked 0 true broken).meas 0).masks .discontinuity = false ∧
      ((completingMasked 0 true broken).meas 0).masks .storeFull = false ∧
      ((completingMasked 34 true broken).meas 0).masks .discontinuity = true ∧
      ((completingMasked 34 true broken).meas 0).masks .storeFull = true) ∧
    (hasQual .overrange { counted with quals := setQual .overrange 0 }.quals = true ∧
      interval (2 ^ 20) ⟨412, 300, 0⟩ ⟨412, 200, 0⟩ < 0) := by decide +kernel

/-- A measure with source B on station 1, whose peer has this horizon, closing at 412:600. -/
def closingRemote (k : MeasureKind) (f : FinalHorizon) (h : Option TimeStamp) : State :=
  ((at_ 1000).setMeas 0 { closingMeas { remote 0 with kind := k } with finalB := f }).setPeer 1
    ⟨.present, h, some 400, 0⟩

theorem test_witness_BlocksComplete_covers :
    ((closingRemote .interval .live (some ⟨412, 600, 0⟩)).meas 0).closeTime = some ⟨412, 600, 0⟩ ∧
    ([(FinalHorizon.live, some ⟨412, 600, 0⟩), (.live, some ⟨412, 599, 255⟩), (.live, none), (.held none, none)].map
      fun x => (closingRemote .interval x.1 x.2).intervalComplete 0) = [true, false, false, true] ∧
    (closingRemote .reciprocal .live none).reciprocalComplete 0 = true ∧
    (closingRemote .interval .live none).reciprocalComplete 0 = false := by decide +kernel

theorem test_interval_block_leaves_its_stamps :
    (let s := after (.intervalBlockComplete 0) (closingWith [entry 0 200 .A, entry 1 300 .B, entry 0 400 .A]);
      s.queue.map (·.sampleCount) = [1] ∧ (s.meas 0).st = .idle) := by decide +kernel

theorem test_completion_counts_an_abandoned_start :
    (let s := after (.intervalBlockComplete 0) { (at_ 1000).setMeas 0 { closingMeas config with
        openTime := some ⟨400, 0, 0⟩ } with store := [{ entry 0 5 .A with time := ⟨400, 5, 0⟩ }] };
      s.queue.map (fun g => hasQual .overrange g.quals) = [true] ∧ s.store = []) := by decide +kernel

theorem test_reciprocal_values :
    ((after (.reciprocalBlockComplete 0) (completing .reciprocal counted)).queue.map (·.values))
      = [[4, 25600, 6400]] ∧
    (after (.reciprocalBlockComplete 0) (completingMasked 34 true broken)).queue.map (fun g =>
        (hasQual (.fault .discontinuity) g.quals, hasQual (.fault .storeFull) g.quals, hasQual .overrange g.quals))
      = [(true, true, false)] ∧
    (after (.reciprocalBlockComplete 0)
        (completing .reciprocal (countedOver ⟨412, 300, 0⟩ ⟨412, 200, 0⟩))).queue.map (·.values) = [[4, 0, 0]] ∧
    (after (.reciprocalBlockComplete 0) (completingMasked 0 true broken)).queue.map (·.isFault) = [true] := by
  decide +kernel

/-- A measure of this configuration whose block has finished, with a rearm left. -/
def finished (c : MeasureConfig) (close : BitVec 24) (found : Bool) : State :=
  (at_ 1000).setMeas 0
    { closingMeas c with rearms := .left 1, closeTime := some ⟨412, close, 0⟩, closedByStamp := found }

theorem test_witness_RearmSetsNextGate :
    ((finished timed 999 false).meas 0).rearms.next = some (.left 0) ∧ Rearms.unlimited.next = some .unlimited ∧
    ((finished timed 999 false).meas 0).config = some timed ∧ timed.gateAlign = .unaligned ∧
    ((finished timed 999 false).meas 0).closeTime = some ⟨412, 999, 0⟩ ∧
    later (at_ 1000).localTime ⟨412, 999, 0⟩ = true ∧
    (later (at_ 1000).localTime ⟨412, 1001, 0⟩ = false ∧ later ⟨412, 1001, 0⟩ (at_ 1000).localTime = true) ∧
    (later (at_ 1000).localTime ⟨412, 1000, 0⟩ = false ∧ later ⟨412, 1000, 0⟩ (at_ 1000).localTime = false) ∧
    ((finished edge 999 true).meas 0).closedByStamp = true ∧ edge.gate = .edge ∧ config.gate = .free ∧
    ((finished edge 999 false).meas 0).closedByStamp = false ∧ totalize.gate = .directive ∧
    ({ closingMeas config with
        st := .reporting, heldGroup := some (faultReport 0 .interval .gap) }).pendingFault = none ∧
    (faultReport 0 .interval .gap).measure = 0 ∧
    (({ measOf config with st := .fault, heldReport := some (faultReport 0 .interval .gap) }).st = .fault ∧
      ({ measOf config with st := .fault, heldReport := some (faultReport 0 .interval .gap) }).heldReport
        = some (faultReport 0 .interval .gap)) := by decide +kernel

theorem test_witness_rearm_peersGive : (finished timed 999 false).peersGive 0 :=
  own_sources (c := timed) rfl rfl rfl rfl

/-- The same with sources on an ABSENT and a FOREIGN peer, and a mask. -/
def finishedRemote (mask : BitVec 6) : State :=
  ((finished { timed with a := ⟨2, 0, .any⟩, b := ⟨1, 1, .any⟩, faultMask := mask } 999 false).setPeer 1
    ⟨.foreign, some ⟨412, 7, 0⟩, none, 0⟩).setPeer 2 ⟨.absent, some ⟨411, 9, 0⟩, none, 3⟩

theorem test_witness_rearm_peerGives (mask : BitVec 6) :
    (finishedRemote mask).peerGives 0 .sourceAbsent ∧ (finishedRemote mask).peerGives 0 .sourceForeign :=
  ⟨⟨.A, ⟨2, 0, .any⟩, rfl, (by decide : (2 : Fin 16) ≠ 0), rfl⟩,
    ⟨.B, ⟨1, 1, .any⟩, rfl, (by decide : (1 : Fin 16) ≠ 0), rfl⟩⟩

theorem test_witness_rearm_timedClose (z : TimeStamp) :
    ((finishedRemote 12).meas 0).timedClose (finishedRemote 12).epochLength timed ⟨412, 999, 0⟩ ∧
    (openMeas timed).timedClose (2 ^ 20) timed ⟨412, 1000, 0⟩ ∧ ¬ Measure.reset.timedClose (2 ^ 20) timed z :=
  ⟨.inl rfl, .inr ⟨rfl, ⟨412, 100, 0⟩, rfl, by decide +kernel⟩, by rintro (h | ⟨-, o, h, -⟩) <;> cases h⟩

theorem test_rearm_asks_the_peers :
    ((nextState 0 false false (finishedRemote 4)).meas 0).st = .fault ∧
    (let m := (nextState 0 false false (finishedRemote 12)).meas 0;
      m.st = .opened ∧ m.openTime = some ⟨412, 1000, 0⟩ ∧ m.finalA = .held (some ⟨411, 9, 0⟩) ∧
      m.finalB = .held (some ⟨412, 7, 0⟩) ∧ m.block.quals = setQual .shifted 12) := by decide +kernel

/-- An OPEN measure with stamps in its views. -/
def judging (m : Measure) (store : List Entry) : State := { (at_ 1000).setMeas 0 m with store := store }

/-- An OPEN INTERVAL measure that meets one start and one stop. -/
def sampling : State := judging (openMeas config) [entry 0 200 .A, entry 1 300 .B]

/-- The same at its last sample. -/
def lastSample : State :=
  judging { openMeas config with block := { Block.empty with n := 9 } } [entry 0 200 .A, entry 1 300 .B]

theorem test_witness_JudgementMakesEveryMove :
    judgeMove 0 (judging (openMeas config) []) = none ∧
    (judgeMove 0 sampling).map (·.goesOn) = some true ∧ (judgeMove 0 lastSample).map (·.goesOn) = some false := by
  decide +kernel

/-- An INTERVAL configuration under LATEST. -/
def latest : MeasureConfig := { config with policy := .latest }

/-- A measure open since 400:0. -/
def longOpen (c : MeasureConfig) : Measure := { openMeas c with openTime := some ⟨400, 0, 0⟩ }

/-- A start of epoch 400. -/
def oldStart : Entry := { entry 0 5 .A with time := ⟨400, 5, 0⟩ }

theorem test_witness_IntervalMovesFollowRules :
    (((judging (openMeas config) [entry 0 99 .A]).passable 0 .A = some (entry 0 99 .A)) ∧
      (openMeas config).st.active = true ∧
      (judging (openMeas config) [entry 1 99 .B]).passable 0 .A = none ∧
      (judging (openMeas config) [entry 1 99 .B]).passable 0 .B = some (entry 1 99 .B)) ∧
    ((sampling.meas 0).st = .opened ∧ (sampling.meas 0).config = some config ∧ config.kind = .interval ∧
      sampling.passable 0 .A = none ∧ sampling.passable 0 .B = none) ∧
    (let s := judging { openMeas config with lastStop := some ⟨412, 300, 0⟩ } [entry 0 299 .A];
      s.stamps 0 .A = [entry 0 299 .A] ∧ earlier (entry 0 299 .A).time ⟨412, 300, 0⟩ = true ∧
      s.beyondGate 0 ⟨412, 299, 0⟩ = false) ∧
    (let s := judging (openMeas config) [entry 0 300 .A, entry 1 300 .B];
      s.staleStart 0 = none ∧ s.stamps 0 .A = [entry 0 300 .A] ∧ s.stamps 0 .B = [entry 1 300 .B] ∧
      later (entry 1 300 .B).time (entry 0 300 .A).time = false ∧ s.beyondGate 0 ⟨412, 300, 0⟩ = false) ∧
    (let s := judging (openMeas config) [entry 1 300 .B];
      s.stamps 0 .A = [] ∧ horizonLater (s.roleHorizon 0 .A) ⟨412, 300, 0⟩ = true) ∧
    (sampling.staleStart 0 = none ∧ sampling.barrenStop 0 = none ∧ sampling.knownOpen 0 ⟨412, 300, 0⟩ = true ∧
      sampling.stamps 0 .A = [entry 0 200 .A] ∧ sampling.stamps 0 .B = [entry 1 300 .B]) ∧
    (let s := judging (openMeas latest) [entry 0 200 .A, entry 1 300 .B];
      latest.policy = .latest ∧ s.superseded 0 latest = none ∧ s.staleStart 0 = none ∧
      s.barrenStop 0 = none ∧ horizonLater (s.roleHorizon 0 .A) ⟨412, 300, 0⟩ = true) ∧
    (let s := judging (openMeas latest) [entry 0 200 .A, entry 0 250 .A];
      s.abandoned 0 latest = none ∧ s.staleStart 0 = none ∧ s.barrenStop 0 = none ∧
      s.stamps 0 .A = [] ++ entry 0 200 .A :: [entry 0 250 .A] ∧
      horizonLater (s.roleHorizon 0 .B) (entry 0 250 .A).time = true ∧ s.stamps 0 .B = [] ∧
      s.beyondGate 0 ⟨412, 200, 0⟩ = false) ∧
    (let s := judging (longOpen config) [oldStart];
      s.staleStart 0 = none ∧ s.barrenStop 0 = none ∧ s.superseded 0 config = none ∧
      s.stamps 0 .A = [oldStart] ∧ s.stamps 0 .B = [] ∧
      horizonAtOrAfter (s.roleHorizon 0 .B) ⟨oldStart.time.epoch + config.spanLimit + 1, 0, 0⟩ = true ∧
      s.beyondGate 0 oldStart.time = false) := by decide +kernel

/-- An ARMED measure with an arming time and another search time. -/
def armedAt (c : MeasureConfig) : Measure :=
  { measOf c with st := .armed, armingTime := some ⟨412, 100, 0⟩, searchTime := some ⟨412, 200, 0⟩ }

theorem test_witness_passable_floors :
    ([99, 100].map fun o => ((judging (armedAt config) [entry 0 o .A]).passable 0 .A).isSome) = [true, false] ∧
    ([199, 200].map fun o => ((judging (armedAt edge) [entry 0 o .A]).passable 0 .A).isSome) = [true, false] ∧
    ([99, 100].map fun o => ((judging (closingMeas config) [entry 0 o .A]).passable 0 .A).isSome) = [true, false] ∧
    ((judging (openMeas config) [{ entry 0 500 .A with heldA := 1 }]).passable 0 .A).isSome = true := by
  decide +kernel

theorem test_witness_knownOpen_gates :
    ([599, 600].map fun o => (judging (closingMeas config) []).knownOpen 0 ⟨412, o, 0⟩) = [true, false] ∧
    (judging (openMeas config) []).knownOpen 0 ⟨413, 0, 0⟩ = true ∧
    ([999, 1000].map fun o => (judging (openMeas timed) []).knownOpen 0 ⟨412, o, 0⟩) = [true, false] ∧
    ([999, 1000].map fun o => (judging (openMeas { config with gate := .directive }) []).knownOpen 0 ⟨412, o, 0⟩)
      = [true, false] ∧
    ([991, 992].map fun o => (judging (openMeas edge) []).knownOpen 0 ⟨412, o, 0⟩) = [true, false] ∧
    (judging { openMeas edge with finalG := .held none } []).knownOpen 0 ⟨412, 2000, 0⟩ = true ∧
    (judging (armedAt config) []).knownOpen 0 ⟨412, 150, 0⟩ = false := by decide +kernel

theorem test_abandoned_start_counts :
    ((after (.sampleSettle 0) (judging (longOpen config) [oldStart])).meas 0).block.overrange = 1 ∧
    ((after (.sampleSettle 0) (judging (openMeas latest) [entry 0 200 .A, entry 0 250 .A, entry 1 300 .B])).meas
      0).block.sum = 50 * 256 := by decide +kernel

/-- A measure with what the tests of a sample ask about, and a mask. -/
def sampled (mask : BitVec 6) (loss pending : Bool) : State :=
  (at_ 1000).setMeas 0 { openMeas { config with faultMask := mask } with lossMark := loss, pendingA := pending }

theorem test_witness_SampleIsTakenAndTested :
    (sampling.hasExamined 0 (entry 0 200 .A) = false ∧ (entry 0 200 .A).drops = 0 ∧
      ({ entry 0 200 .A with drops := 254 } : Entry).drops ≠ 255 ∧ (sampling.meas 0).kind = .interval ∧
      (judging (openMeas config) [{ entry 0 200 .A with examined := 1 }]).hasExamined 0 (entry 0 200 .A) = true) ∧
    (config.spanLimit.toNat < ((421 : BitVec 16) - 412).toNat ∧
      ((420 : BitVec 16) - 412).toNat ≤ config.spanLimit.toNat) ∧
    ((sampled 0 false false).crosses ⟨399, 5, 0⟩ ⟨400, 0, 0⟩ [0, 0] = true ∧
      ((sampled 2 false false).meas 0).masks .discontinuity = true ∧
      ((sampled 0 false false).meas 0).masks .discontinuity = false) ∧
    ((sampled 0 true false).crosses ⟨412, 200, 0⟩ ⟨412, 300, 0⟩ [0, 0] = false ∧
      ((sampled 0 true false).meas 0).lossMark = true ∧ ((sampled 1 true false).meas 0).masks .gap = true ∧
      ((sampled 0 true false).meas 0).masks .gap = false) ∧
    (((sampled 0 false true).meas 0).lossMark = false ∧ ((sampled 0 false true).meas 0).pendingA = true ∧
      ((sampled 32 false true).meas 0).masks .storeFull = true ∧
      ((sampled 0 false true).meas 0).masks .storeFull = false) ∧
    (config.accept.getLsbD (config.windowFlag 0) = false ∧ config.accept.getLsbD (config.windowFlag 1) = true ∧
      config.accept.getLsbD (config.windowFlag 0x1000000) = true ∧
      config.accept.getLsbD (config.windowFlag 0x1000001) = false) ∧
    ((sampling.meas 0).block.n + 1 ≠ config.blockSize ∧ (lastSample.meas 0).block.n + 1 = config.blockSize ∧
      (lastSample.meas 0).rearms = .left 0 ∧ lastSample.queueRoom = true) := by decide +kernel

theorem test_sample_keeps_a_start_at_its_stop :
    (let s := after (.sampleSettle 0)
        (judging (openMeas config) [entry 0 200 .A, entry 0 250 .A, entry 1 300 .B, entry 0 300 .A]);
      s.view 0 .A = [entry 0 300 .A] ∧ s.view 0 .B = [] ∧ (s.meas 0).block.sum = 25600) := by decide +kernel

theorem test_last_sample_finishes_the_block :
    (after (.sampleSettle 0) lastSample).queue.map (·.sampleCount) = [10] := by decide +kernel

/-- An OPEN RECIPROCAL measure that meets a stamp with so many losses before it. -/
def countingAfter (mask : BitVec 6) (pending : Bool) (first : Option TimeStamp) (losses : BitVec 8) : State :=
  judging { openMeas { config with kind := .reciprocal, faultMask := mask } with
      pendingA := pending, block := { Block.empty with first := first } } [{ entry 0 300 .A with drops := losses }]

/-- The same after 3 losses. -/
def counting : State := countingAfter 0 false (some ⟨412, 200, 0⟩) 3

theorem test_witness_SettleCountsReciprocalStamp :
    (counting.meas 0).st = .opened ∧ (counting.meas 0).config = some { config with kind := .reciprocal } ∧
    counting.view 0 .A = { entry 0 300 .A with drops := 3 } :: [] ∧ counting.passable 0 .B = none ∧
    counting.view 0 .B = [] ∧
    ({ entry 0 300 .A with drops := 3 } : Entry).heldFor 0 .A = false ∧
    (counting.meas 0).openTime = some ⟨412, 100, 0⟩ ∧
    earlier ({ entry 0 300 .A with drops := 3 } : Entry).time ⟨412, 100, 0⟩ = false ∧
    counting.knownOpen 0 ⟨412, 300, 0⟩ = true ∧ counting.beyondGate 0 ⟨412, 300, 0⟩ = false ∧
    ({ entry 0 300 .A with drops := 3 } : Entry).drops ≠ 255 ∧ (counting.meas 0).pendingA = false ∧
    (counting.meas 0).block.first = some ⟨412, 200, 0⟩ ∧
    counting.hasExamined 0 { entry 0 300 .A with drops := 3 } = false ∧
    ((countingAfter 0 true none 255).meas 0).block.first = none ∧
    (∀ mask ∈ [0, 33], (countingAfter mask true (some ⟨412, 200, 0⟩) 255).view 0 .A
        = [{ entry 0 300 .A with drops := 255 }] ∧
      ((countingAfter mask true (some ⟨412, 200, 0⟩) 255).meas 0).pendingA = true ∧
      ((countingAfter mask true (some ⟨412, 200, 0⟩) 255).meas 0).masks .gap = (mask == 33) ∧
      ((countingAfter mask true (some ⟨412, 200, 0⟩) 255).meas 0).masks .storeFull = (mask == 33)) := by
  decide +kernel

/-- An OPEN RECIPROCAL measure whose view holds two stamps, the one after the first with so many losses. -/
def countingTwo (losses : BitVec 8) : State :=
  judging (openMeas { config with kind := .reciprocal }) [entry 0 200 .A, { entry 0 300 .A with drops := losses }]

theorem test_stamps_are_counted_in_view_order :
    (countingTwo 3).view 0 .A = entry 0 200 .A :: [{ entry 0 300 .A with drops := 3 }] ∧
    (let s := after (.sampleSettle 0) (countingTwo 3);
      s.store = [] ∧ (s.meas 0).block.first = some ⟨412, 200, 0⟩ ∧ (s.meas 0).block.last = some ⟨412, 300, 0⟩ ∧
      (s.meas 0).block.events = 4) ∧
    (let s := judging (closingMeas { config with kind := .reciprocal }) [entry 0 600 .A, entry 0 700 .A];
      s.knownOpen 0 ⟨412, 600, 0⟩ = false ∧ s.passable 0 .B = none ∧ after (.sampleSettle 0) s = s) ∧
    (judging (closingMeas { config with kind := .reciprocal }) []).beyondGate 0 ⟨412, 600, 0⟩ = true ∧
    (judging (openMeas config) [{ entry 0 300 .A with examined := 1 }]).hasExamined 0 (entry 0 300 .A) = true := by
  decide +kernel

theorem test_losses_of_a_counted_stamp :
    ((after (.sampleSettle 0) (countingAfter 0 true none 255)).meas 0).pendingA = true ∧
    ((after (.sampleSettle 0) (countingAfter 0 false (some ⟨412, 200, 0⟩) 255)).meas 0).st = .fault ∧
    ((after (.sampleSettle 0) (countingAfter 33 true (some ⟨412, 200, 0⟩) 255)).meas 0).block.quals = 33 ∧
    ((after (.sampleSettle 0) (countingAfter 33 true (some ⟨412, 200, 0⟩) 255)).meas 0).block.events = 256 := by
  decide +kernel

theorem test_stamp_counts_its_losses :
    ((after (.sampleSettle 0) counting).meas 0).block.events = 4 ∧ (after (.sampleSettle 0) counting).store = [] := by
  decide +kernel

theorem test_witness_SettleAccumulatesSample :
    (sampling.meas 0).st = .opened ∧ (sampling.meas 0).config = some config ∧ config.kind = .interval ∧
    config.policy = .first ∧ sampling.view 0 .A = [entry 0 200 .A] ∧ sampling.view 0 .B = [entry 1 300 .B] ∧
    (entry 0 200 .A).heldFor 0 .A = false ∧ (entry 1 300 .B).heldFor 0 .B = false ∧
    (sampling.meas 0).lastStop = none ∧
    later (entry 1 300 .B).time (entry 0 200 .A).time = true ∧
    (sampling.meas 0).openTime = some ⟨412, 100, 0⟩ ∧
    earlier (entry 0 200 .A).time ⟨412, 100, 0⟩ = false ∧ earlier (entry 1 300 .B).time ⟨412, 100, 0⟩ = false ∧
    sampling.knownOpen 0 (entry 1 300 .B).time = true ∧ (entry 0 200 .A).drops = 0 ∧
    (entry 1 300 .B).drops = 0 ∧
    ((entry 1 300 .B).time.epoch - (entry 0 200 .A).time.epoch).toNat ≤ config.spanLimit.toNat ∧
    sampling.crosses (entry 0 200 .A).time (entry 1 300 .B).time [config.a.station, config.b.station] = false ∧
    (sampling.meas 0).lossMark = false ∧ (sampling.meas 0).pendingA = false ∧
    (sampling.meas 0).pendingB = false ∧
    config.accept.getLsbD (config.windowFlag
      (sampling.sampleValue (entry 0 200 .A).time (entry 1 300 .B).time)) = true ∧
    (sampling.meas 0).block.n + 1 ≠ config.blockSize := by decide +kernel

theorem test_sample_of_100_ticks :
    ((after (.sampleSettle 0) sampling).meas 0).block.sum = 25600 ∧
    ((after (.sampleSettle 0) sampling).meas 0).block.minimum = 25600 ∧
    (after (.sampleSettle 0) sampling).store = [] := by decide +kernel

theorem test_witness_IntervalBlockReportsItsSamples :
    ([5, 3, 10] : List (BitVec 48)).length < 65536 ∧ ([] : List (BitVec 48)).length < 65536 ∧
    (([5, 3, 10] : List (BitVec 48)).foldl Block.accumulate .empty).intervalValues = [6, 3, 10, 0] := by
  decide +kernel

/-! ### Conditions met: the Timing Link -/

/-- A group of one data record. -/
def group : Group := ⟨0, .totalize, false, 0x400, 7, 0, [6]⟩

/-- The records of a frame of the five kinds that fill it. -/
def fullRecords : List Record :=
  [.status (at_ 256).status, .directive (directive 1)]
    ++ groupRecords ⟨0, .interval, false, 0x400, 7, 3, [6, 3, 10, 0]⟩ ++ [.stamp 0 .fall 2 ⟨412, 200, 9⟩]

theorem test_witness_FrameReadsBack : fullRecords.length ≤ 8 ∧ fullRecords.length = 8 := by decide +kernel

/-- The own window 0 starts; the outbox holds `n` directives, the queue these groups and the Store these entries. -/
def assembling (a : AlignState) (due : Bool) (receiver : Option Reception) (n : Nat) (queue : List Group)
    (store : List Entry) : State :=
  { inState a 256 with
    queue := queue
    store := store
    link := { Link.reset with
      statusDue := due, receiver := receiver, outbox := List.replicate n (directive 1) } }

/-- A published entry. -/
def published (c : Fin 4) (o : BitVec 24) : Entry := { entry c o .B with wantB := 0, publish := true }

theorem test_witness_AssemblySendsFrame :
    (let s := assembling .locked true none 6 [group] [];
      s.assemblyDue = true ∧ s.eu.align = some .locked ∧ s.link.receiver = none ∧ s.link.outbox.length ≤ 6 ∧
      s.link.statusDue = true ∧ ∀ i, (s.meas i).waits = false) ∧
    (assembling .locked false none 6 [group] [published 0 100]).link.statusDue = false ∧
    (let s := assembling .locked false none 4 [group, group] [published 0 100];
      s.store.any (·.publish) = true ∧ s.link.outbox.length = 4 ∧
      (after .transmitAssembly s).queue = [group] ∧
      (after .transmitAssembly s).link.sending.map (·.frame.records.length) = some 7) := by decide +kernel

/-- A STATUS record due, with losses to report. -/
def reporting (a : AlignState) : State :=
  { assembling a true none 1 [] [] with
    directiveDrops := 3
    triggerOverruns := 2
    link := { (assembling a true none 1 [] []).link with collisions := 4, discards := 5 } }

theorem test_status_clears_the_counts_it_reports :
    ((reporting .locked).status.directiveDrops, (reporting .locked).status.triggerOverruns,
      (reporting .locked).status.collisions, (reporting .locked).status.discards) = (3, 2, 4, 5) ∧
    (∀ a ∈ [AlignState.locked, .mute], (let t := after .transmitAssembly (reporting a);
      (t.directiveDrops, t.triggerOverruns, t.link.collisions, t.link.discards) = (0, 0, 0, 0))) := by decide +kernel

/-- A full queue, and measures 2 and 5 that hold a group and wait. -/
def waitingFor (s : State) : State :=
  let held : Measure := { measOf totalize with st := .reporting, heldGroup := some { group with measure := 2 } }
  { (s.setMeas 2 held).setMeas 5 { held with heldGroup := some { group with measure := 5 } } with
    queue := List.replicate 12 group }

theorem test_arbiter_gives_the_lowest_index_first :
    (after .transmitAssembly (waitingFor (assembling .locked true none 5 [] []))).queue.map (·.measure)
      = List.replicate 11 0 ++ [2] ∧
    (after .transmitAssembly (waitingFor (assembling .locked true none 3 [] []))).queue.map (·.measure)
      = List.replicate 10 0 ++ [2, 5] := by decide +kernel

theorem test_witness_StampsArePublished :
    (let s := assembling .locked true none 6 [] [published 1 100, published 0 200, published 0 248];
      s.assemblyDue = true ∧ s.link.receiver = none ∧ s.eu.align = some .locked ∧
      (∀ e ∈ s.store, e.publish = true → (e.time.epoch - 412).toNat ≤ 32767) ∧
      (s.localHorizon.epoch - 412).toNat ≤ 32767 ∧
      (∀ e ∈ s.store, e.publish = true → e.station = s.loader.number) ∧
      (published 1 100).same (published 0 200) = false ∧ (published 0 200).same (published 0 248) = false ∧
      (published 1 100).same (published 0 248) = false) := by decide +kernel

theorem test_frame_horizon_is_the_oldest_left :
    (after .transmitAssembly (assembling .locked true none 6 [] [published 1 100, published 0 200])).link.sending.map
      (·.frame.horizon) = some ⟨412, 200, 0⟩ ∧
    (after .transmitAssembly (assembling .locked true none 6 [] [published 1 100])).link.sending.map
      (·.frame.horizon) = some ⟨412, 248, 0⟩ := by decide +kernel

theorem test_witness_MuteAssemblyDiscards :
    (let s := assembling .mute true none 6 [group] [];
      s.assemblyDue = true ∧ s.eu.align = some .mute ∧ s.link.sending = none ∧ s.link.outbox.length ≤ 6 ∧
      (∀ e ∈ s.store, e.publish = false) ∧ s.link.statusDue = true ∧ (∀ i, (s.meas i).waits = false) ∧
      (after .transmitAssembly s).queue = [group]) ∧
    (after .transmitAssembly (assembling .mute true none 5 [group] [])).queue = [] := by decide +kernel

/-- The tick at which the last bit of an empty frame is sampled, in an own window. -/
def deafened : State := receiving (at_ 300)

theorem test_witness_OwnWindowEndsReception :
    (let s := assembling .locked false (some ⟨9, none, 0, false⟩) 6 [] [];
      s.assemblyDue = true ∧ s.eu.align = some .locked ∧ s.link.receiver = some ⟨9, none, 0, false⟩ ∧
      s.link.statusDue = false) ∧
    (deafened.endingReception emptyFrame = some ⟨127 * 8 + 4, some 1, 3, false⟩ ∧
      deafened.eu.align = some .locked ∧ deafened.inOwnWindow = true) := by decide +kernel

theorem test_witness_CollisionAbandonsFrame :
    ((flight 60 0 false fullRecords).collisionPoint = true ∧
      (flight 60 0 false fullRecords).link.consecutive ≠ 2 ∧
      (flight 60 0 false fullRecords).link.sending.isSome = true) ∧
    ((flight 60 2 false fullRecords).collisionPoint = true ∧
      (flight 60 2 false fullRecords).link.consecutive = 2) ∧
    (flight 4 0 false fullRecords).collisionPoint = false := by decide +kernel

theorem test_collision_returns_the_losses :
    ((after .collision (flight 60 0 false fullRecords)).chan 0).publishDrops = 3 ∧
    (after .collision (flight 60 2 false fullRecords)).eu.align = some .mute := by decide +kernel

theorem test_witness_FrameEndSelfDelivers :
    ((flight 1020 0 false []).endingFrame.map (·.frame.records) = some []) ∧
    ((flight 1532 0 false [.directive (directive 1)]).endingFrame.map (·.frame.records)
        = some [.directive (directive 1)] ∧
      (flight 1532 0 false [.directive (directive 1)]).hasTime = true ∧
      (directive 1).isFor (flight 1532 0 false [.directive (directive 1)]).loader.number = true) ∧
    ((directive 1).target.toNat = 16 ∧ ({ directive 1 with target := 0 } : Directive).target.toNat = 0 ∧
      ({ directive 1 with target := 5 } : Directive).isFor 0 = false ∧ (at_ 5).hasTime = true ∧
      State.reset.hasTime = false) := by decide +kernel

theorem test_witness_StartTickNotesWindow :
    (at_ 5635).listening = true ∧ (at_ 5635).windowAt 5635 = some 1 ∧ (at_ 300).listening = false ∧
    (at_ 100).listening = true ∧ (at_ 100).windowAt 100 = none := by decide +kernel

/-- The reception of `receiving`. -/
def reception : Reception := ⟨127 * 8 + 4, some 1, 3, false⟩

/-- A station with another signature. -/
def strange (s : State) : State := { s with loader := ⟨0, .powerOn, 7, 0, 0, 0⟩ }

/-- A peer that stands PRESENT with a horizon. -/
def known (s : State) (h : TimeStamp) : State := s.setPeer 1 ⟨.present, some h, some 400, 1⟩

theorem test_witness_UnusedFramesAreNotApplied :
    ((receiving (at_ 6700)).endingReception (emptyFrame.set 20 true) = some reception ∧
      (receiving (at_ 6700)).deaf = false ∧
      (receiving (at_ 6700)).formOk reception (readFrame (emptyFrame.set 20 true)) = false) ∧
    ((strange (receiving (at_ 6700))).endingReception emptyFrame = some reception ∧
      (strange (receiving (at_ 6700))).deaf = false ∧
      (strange (receiving (at_ 6700))).formOk reception (readFrame emptyFrame) = true ∧
      (readFrame emptyFrame).signature ≠ 7) ∧
    ((strange (receiving (inState .aligning 6700))).endingReception emptyFrame = some reception ∧
      (inState .aligning 6700).hasTime = false) ∧
    ((inEpoch 413 (receiving (at_ 6700))).endingReception emptyFrame = some reception ∧
      (inEpoch 413 (receiving (at_ 6700))).formOk reception (readFrame emptyFrame) = true ∧
      (inEpoch 413 (receiving (at_ 6700))).hasTime = true ∧
      compareEpoch 413 (readFrame emptyFrame).epoch = .lt) ∧
    ((inEpoch 411 (known (receiving (at_ 6700)) ⟨412, 991, 0⟩)).endingReception emptyFrame = some reception ∧
      compareEpoch 411 (readFrame emptyFrame).epoch = .gt ∧
      ((known (receiving (at_ 6700)) ⟨412, 991, 0⟩).peer 1).st = .present ∧
      ((known (receiving (at_ 6700)) ⟨412, 991, 0⟩).peer 1).horizon = some ⟨412, 991, 0⟩ ∧
      compareTime ⟨412, 991, 0⟩ (readFrame emptyFrame).horizon = .lt) := by decide +kernel

theorem test_regressing_frame_is_not_adopted :
    (after (.frameReceived emptyFrame 0) (inEpoch 411 (known (receiving (at_ 6700)) ⟨412, 991, 0⟩))).eu.epoch
      = 411 := by decide +kernel

theorem test_witness_AcceptedFrameIsDispatched :
    (known (receiving (at_ 6700)) ⟨412, 990, 0⟩).endingReception emptyFrame = some reception ∧
    (known (receiving (at_ 6700)) ⟨412, 990, 0⟩).hasTime = true ∧
    (known (receiving (at_ 6700)) ⟨412, 990, 0⟩).deaf = false ∧
    (known (receiving (at_ 6700)) ⟨412, 990, 0⟩).formOk reception (readFrame emptyFrame) = true ∧
    (readFrame emptyFrame).signature = (at_ 6700).loader.signature ∧ (readFrame emptyFrame).records = [] ∧
    (readFrame emptyFrame).epoch = (at_ 6700).eu.epoch ∧ (1 : Fin 16).val = (readFrame emptyFrame).sender ∧
    horizonOk ((known (receiving (at_ 6700)) ⟨412, 990, 0⟩).peer 1) (readFrame emptyFrame).horizon = true ∧
    ({ directive 1 with target := 0 }.target.toNat = (at_ 6700).loader.number.val ∧
      16 ≤ (directive 1).target.toNat ∧ { directive 1 with target := 15 }.target.toNat < 16) ∧
    State.reset.hasTime = false := by decide +kernel

theorem test_witness_FrameIsAdoptedOrJoined :
    ((inEpoch 411 (receiving (at_ 6700))).endingReception emptyFrame = some reception ∧
      (inEpoch 411 (receiving (at_ 6700))).deaf = false ∧
      (inEpoch 411 (receiving (at_ 6700))).formOk reception (readFrame emptyFrame) = true ∧
      compareEpoch 411 (readFrame emptyFrame).epoch = .gt ∧
      horizonOk ((inEpoch 411 (receiving (at_ 6700))).peer 1) (readFrame emptyFrame).horizon = true ∧
      ((inEpoch 411 (receiving (edged 6700))).chan 1).edgeOf (edged 6700).eu.elapsed = none ∧
      (((inEpoch 411 (receiving (edged 6700))).chan 0).edgeOf (edged 6700).eu.elapsed).isSome = true) ∧
    ((receiving (inState .aligning 6700)).endingReception emptyFrame = some reception ∧
      (receiving (inState .aligning 6700)).eu.align = some .aligning ∧
      (receiving (inState .aligning 6700)).formOk reception (readFrame emptyFrame) = true) := by decide +kernel

theorem test_adoption_and_join :
    (after (.frameReceived emptyFrame 0) (inEpoch 411 (receiving (at_ 6700)))).eu.epoch = 412 ∧
    ((after (.frameReceived emptyFrame 0) (inEpoch 411 (receiving (edged 6700)))).chan 0).recentEdges.map
      (·.time.epoch) = [412] ∧
    (after (.frameReceived emptyFrame 0) (receiving (inState .aligning 6700))).eu.origin = .joined := by
  decide +kernel

/-- A station in ALIGNING with an edge of this tick on a pin channel, as an empty frame ends. -/
def joining : State :=
  { (receiving (inState .aligning 6700)).setChan 0 (chanOf { chanConfig with prescale := 1 }) with
    marks := { TickMarks.clear with edges := [⟨0, .rise, 7⟩] }
    sequences := (testing 0).sequences }

theorem test_join_takes_the_held_edges :
    joining.endingReception emptyFrame = some reception ∧ joining.deaf = false ∧
    horizonOk (joining.peer 1) (readFrame emptyFrame).horizon = true ∧
    (let s := after (.frameReceived emptyFrame 0) joining;
      (s.chan 0).recentEdges.map (·.time) = [⟨412, 6700, 7⟩] ∧ s.link.receiver = none ∧
      s.link.windowPresence = true ∧ s.marks.edges = [] ∧ s.link.outbox.length = 1) := by decide +kernel

/-- A measure that wants stamps of station 1, channel 1, in a Store of `n` entries. -/
def wanting (c : MeasureConfig) (n : Nat) : State :=
  { (at_ 1000).setMeas 0 (openMeas c) with store := List.replicate n (entry 0 500 .A) }

/-- A measure that reads station 1, channel 1 as G, and a mask. -/
def gatedBy (mask : BitVec 6) : MeasureConfig := { edge with g := ⟨1, 1, .any⟩, faultMask := mask }

theorem test_witness_RemoteOfferOutcomes :
    ((wanting (remote 0) 0).offeredEntry 1 2 .rise ⟨412, 7, 0⟩ 0 false).wanted = false ∧
    (((wanting (remote 0) 128).offeredEntry 1 1 .rise ⟨412, 7, 0⟩ 0 false).wanted = true ∧
      128 ≤ (wanting (remote 0) 128).store.length ∧ ((wanting (remote 0) 128).meas 0).roleReads .G 1 1 = false ∧
      ((wanting (remote 0) 128).offeredEntry 1 1 .rise ⟨412, 7, 0⟩ 0 false).consumers.getLsbD 0 = true ∧
      ((wanting (remote 0) 128).offeredEntry 1 1 .rise ⟨412, 7, 0⟩ 0 false).consumers.getLsbD 7 = false) ∧
    (((wanting (gatedBy 0) 128).offeredEntry 1 1 .rise ⟨412, 7, 0⟩ 0 false).consumers.getLsbD 0 = true ∧
      ((wanting (gatedBy 0) 128).meas 0).roleReads .G 1 1 = true ∧
      ((wanting (gatedBy 0) 128).meas 0).masks .storeFull = false ∧
      ((wanting (gatedBy 32) 128).meas 0).masks .storeFull = true) ∧
    ({ wanting (remote 0) 0 with store := [{ entry 1 7 .B with station := 1 }] }).outOfOrder 1 1 ⟨412, 7, 0⟩
      = true ∧
    ({ wanting (remote 0) 0 with store := [{ entry 1 7 .B with station := 1 }] }).outOfOrder 1 1 ⟨412, 7, 1⟩
      = false ∧
    (((wanting (remote 0) 127).offeredEntry 1 1 .rise ⟨412, 7, 0⟩ 0 false).wanted = true ∧
      (wanting (remote 0) 127).outOfOrder 1 1 ⟨412, 7, 0⟩ = false ∧ (wanting (remote 0) 127).store.length < 128 ∧
      ((wanting (remote 0) 127).offeredEntry 1 1 .rise ⟨412, 7, 0⟩ 0 false).wantG = 0) := by decide +kernel

/-! ### Conditions met: directives and triggers -/

/-- ARM in a boundary's tick for a TIMED MARK measure between an ABSENT and a FOREIGN peer. -/
def armingRemote (mask : BitVec 6) : State :=
  { ((due 1 (measOf { remote mask with gate := .timed, gateAlign := .mark, a := ⟨2, 0, .any⟩ })).setPeer 1
      ⟨.foreign, some ⟨412, 7, 0⟩, none, 0⟩).setPeer 2 ⟨.absent, some ⟨411, 9, 0⟩, none, 3⟩ with
    marks := { TickMarks.clear with boundary := true } }

theorem test_witness_ArmArmsIdleMeasures :
    (due 1 (measOf config)).dueDirective .arm = some (directive 1) ∧
    (directive 1).mask.getLsbD 0 = true ∧ (directive 1).mask.getLsbD 7 = false ∧
    ((due 1 (measOf config)).meas 0).st = .idle ∧ ((due 1 (measOf config)).meas 0).config = some config ∧
    config.gate = .free ∧ edge.gate = .edge ∧ marked.gateAlign = .mark ∧
    (due 1 (measOf timed)).marks.boundary = false ∧ timed.gateAlign = .unaligned ∧
    (armingRemote 0).dueDirective .arm = some (directive 1) ∧
    ((armingRemote 0).meas 0).masks .sourceAbsent = false ∧ ((armingRemote 0).meas 0).masks .sourceForeign = false ∧
    ((armingRemote 12).meas 0).masks .sourceAbsent = true ∧ ((armingRemote 12).meas 0).masks .sourceForeign = true ∧
    (armingRemote 12).marks.boundary = true := by decide +kernel

theorem test_witness_arm_peerGives (mask : BitVec 6) :
    (armingRemote mask).peerGives 0 .sourceAbsent ∧ (armingRemote mask).peerGives 0 .sourceForeign :=
  ⟨⟨.A, ⟨2, 0, .any⟩, rfl, (by decide : (2 : Fin 16) ≠ 0), rfl⟩,
    ⟨.B, ⟨1, 1, .any⟩, rfl, (by decide : (1 : Fin 16) ≠ 0), rfl⟩⟩

theorem test_witness_arm_peersGive : (due 1 (measOf config)).peersGive 0 :=
  own_sources (c := config) rfl rfl rfl rfl

theorem test_arm_opens_a_free_gate :
    ((after .arm (due 1 (measOf config))).meas 0).openTime = some ⟨412, 900, 0⟩ := by decide +kernel

theorem test_arm_asks_the_peers :
    ((after .arm (armingRemote 4)).meas 0).st = .fault ∧
    (let s := after .arm (armingRemote 12);
      (s.meas 0).openTime = some ⟨412, 1000, 0⟩ ∧ s.roleHorizon 0 .A = some ⟨411, 9, 0⟩ ∧
      s.roleHorizon 0 .B = some ⟨412, 7, 0⟩ ∧ (s.meas 0).block.quals = 12) := by decide +kernel

theorem test_witness_DisarmAndClearFaultMakeIdle :
    (due 2 (openMeas config)).dueDirective .disarm = some (directive 2) ∧
    (due 6 { measOf config with st := .fault }).dueDirective .clearFault = some (directive 6) ∧
    ((after .disarm (due 2 (openMeas config))).meas 0).noAutoArm = true ∧
    ((after .disarm (due 2 (measOf config))).meas 0).noAutoArm = false := by decide +kernel

/-- A DIRECTIVE-gated configuration, with a mask. -/
def gated (mask : BitVec 6) : MeasureConfig := { config with gate := .directive, faultMask := mask }

theorem test_witness_DirectiveGatesOpenAndClose :
    (due 3 { measOf (gated 0) with st := .armed }).dueDirective .gateOpen = some (directive 3) ∧
    ((due 3 { measOf (gated 0) with st := .armed }).meas 0).config.map (·.gate) = some .directive ∧
    (due 4 (openMeas (gated 0))).dueDirective .gateClose = some (directive 4) ∧
    ((due 4 (openMeas (gated 0))).meas 0).st = .opened ∧ (gated 0).kind ≠ .totalize := by decide +kernel

theorem test_gate_open_takes_the_open_snapshot :
    (let s := after .gateOpen ((due 3 { measOf totalize with st := .armed }).setChan 0
        { chanOf chanConfig with edgeCount := 7 });
      (s.meas 0).st = .opened ∧ (s.meas 0).block.openSnapshot = 7 ∧ (s.meas 0).block.openRequest = none) := by
  decide +kernel

/-- An OPEN TOTALIZE measure that masks LATE_GATE. -/
def lateTotal : State := (at_ 1000).setMeas 0 (openMeas { totalize with faultMask := 16 })

theorem test_late_close_and_flush_of_totalize :
    (lateTotal.hasTime = true ∧ (lateTotal.meas 0).masks .lateGate = true ∧
      (lateTotal.meas 0).config = some { totalize with faultMask := 16 } ∧
      (lateTotal.meas 0).block.openRequest = none ∧
      lateTotal.crosses ⟨412, 100, 0⟩ lateTotal.localTime [] = false ∧
      (lateTotal.meas 0).masks .discontinuity = false ∧
      (inEpoch 413 { lateTotal with eu := { lateTotal.eu with disc := 413 } }).crosses
        ⟨412, 100, 0⟩ ⟨413, 1000, 0⟩ [] = true ∧
      ((unanswered lateTotal).meas 0).block.openRequest ≠ none) ∧
    ((arriveDirective 0 (directive 4) lateTotal).queue.map fun g =>
      (g.values, hasQual (.fault .lateGate) g.quals)) = [([0], true)] ∧
    ((arriveDirective 0 (directive 5) lateTotal).queue.map fun g =>
      (g.values, hasQual .partialBlock g.quals)) = [([0], true)] := by decide +kernel

theorem test_witness_LateDirectivesTakeEffectNow :
    ((at_ 900).validDirective (directive 3) = true ∧ (at_ 900).directives.length < 8 ∧
      (directive 3).immediate = false ∧ later (directive 3).time (at_ 900).localTime = false ∧
      codeOf (directive 3).code = some .gateOpen ∧ codeOf (directive 4).code = some .gateClose ∧
      codeOf (directive 5).code = some .flush) ∧
    ((openMeas (gated 16)).masks .lateGate = true ∧ (openMeas (gated 0)).masks .lateGate = false ∧
      (openMeas (gated 0)).config.map (·.gate) = some .directive ∧ (openMeas (gated 0)).kind ≠ .totalize ∧
      (openMeas { gated 0 with kind := .reciprocal }).kind = .reciprocal ∧
      ({ openMeas config with block := { Block.empty with n := 2 } }).block.n ≠ 0) := by decide +kernel

theorem test_late_gate_close_faults :
    ((arriveDirective 0 (directive 4) ((at_ 1000).setMeas 0 (openMeas (gated 0)))).meas 0).st = .fault ∧
    ((arriveDirective 0 (directive 4) ((at_ 1000).setMeas 0 (openMeas (gated 16)))).meas 0).closeTime
      = some ⟨412, 1000, 0⟩ := by decide +kernel

theorem test_witness_FlushFinishesOrCloses :
    ((due 5 (openMeas { gated 0 with kind := .reciprocal })).dueDirective .flush = some (directive 5) ∧
      ((due 5 (openMeas { gated 0 with kind := .reciprocal })).meas 0).kind = .reciprocal) ∧
    (({ openMeas config with block := { Block.empty with n := 2 } }).kind = .interval ∧
      ({ openMeas config with block := { Block.empty with n := 2 } }).block.n ≠ 0) ∧
    (openMeas config).block.n = 0 ∧ (closingMeas { gated 0 with kind := .reciprocal }).st ≠ .opened := by
  decide +kernel

theorem test_witness_DirectiveArrivalClasses :
    (at_ 1000).validDirective (directive 8) = false ∧
    8 ≤ ({ at_ 1000 with directives := List.replicate 8 (directive 1) }).directives.length ∧
    ((at_ 1000).validDirective (directive 1) = true ∧ codeOf (directive 1).code = some .arm ∧
      (directive 1).immediate = false ∧ later (directive 1).time (at_ 1000).localTime = false ∧
      later (directive 1).time (at_ 899).localTime = true ∧ later (directive 1).time (at_ 900).localTime = false) ∧
    ((at_ 1000).validDirective { directive 1 with immediate := true } = true) := by decide +kernel

theorem test_valid_directives :
    ([{ directive 1 with target := 16 }, directive 7, { directive 1 with mask := 0 },
      { directive 1 with offset := 0xFFFFF }].all (at_ 1000).validDirective = true) ∧
    [{ directive 1 with target := 17 }, directive 0, directive 8, { directive 1 with reserved := 1 },
      { directive 1 with offset := 0x100000 }].all (fun d => !(at_ 1000).validDirective d) = true := by
  decide +kernel

/-- A step with this pause. -/
def stepOf (pause : BitVec 8) : TriggerStep := ⟨16, 1, 1, 1, pause⟩

/-- A sequence of three steps, the second with a pause, and a station with `n` directives in its outbox. -/
def triggering (st : SequenceState) (n : Nat) : State :=
  { withSeq 0 ⟨some ⟨.measure 0, [stepOf 0, stepOf 2, stepOf 0]⟩, st⟩ (at_ 1000) with
    link := { Link.reset with outbox := List.replicate n (directive 1) } }

theorem test_witness_TriggerRunsOrOverruns :
    ((triggering (.running [stepOf 0] 2 0) 0).sequences.get 0).st = .running [stepOf 0] 2 0 ∧ 0 + 1 < 2 ∧
    ((triggering (.running [stepOf 0] 2 1) 0).sequences.get 0).st = .running [stepOf 0] 2 1 ∧ 2 ≤ 1 + 1 ∧
    ((triggering .idle 5).sequences.get 0).st = .idle ∧
    ((triggering .idle 5).sequences.get 0).config = some ⟨.measure 0, [stepOf 0, stepOf 2, stepOf 0]⟩ ∧
    ((triggering .idle 5).sequences.get 0).onMeasure 0 = true ∧ SequenceState.idle.isRunning = false ∧
    (tested 24576).untested = some (testing 24576).toStation := by decide +kernel

theorem test_trigger_runs_to_its_pause :
    ((fireSequence 0 (triggering .idle 5)).sequences.get 0).st = .running [stepOf 0] 2 0 ∧
    (fireSequence 0 (triggering .idle 5)).link.outbox.length = 6 ∧
    (fireSequence 0 (triggering .idle 5)).directiveDrops = 1 ∧
    ((boundarySequence 0 (triggering (.running [stepOf 0] 2 1) 0)).sequences.get 0).st = .idle := by
  decide +kernel

theorem test_witness_StepKeepsInvariant : ∃ t, step State.reset = .next t := ⟨_, rfl⟩

end Sys2Proof.Tests
end

section
/-! PROOFS. Time and the tick: the comparison of epoch numbers, one tick, the ends of the MARK pulse and of the horizon
hold, the lines, and the station right after reset. -/

namespace Sys2Proof.Machine

variable {s t : State}

/-! ### Commands that act by themselves -/

/-- A command other than a Test Source event and a mark gives its effect. -/
theorem gives_of_effect_eq {c : Instr} (ht : c ≠ .testSourceEvent) (hm : c ≠ .markLeadingEdge) (h : effect c s = t) :
    Gives c s t :=
  h ▸ gives_effect ht fun e => absurd e hm

/-! ### Epoch numbers -/

theorem epochDiff_toNat (a b : BitVec 16) : (b - a).toNat = (b.toNat + 65536 - a.toNat) % 65536 := by
  rw [BitVec.toNat_sub]; congr 1; omega

theorem compareEpoch_eq_iff {a b : BitVec 16} : compareEpoch a b = .eq ↔ (b - a).toNat = 0 := by
  unfold compareEpoch
  generalize (b - a).toNat = d
  grind

theorem compareEpoch_gt_iff {a b : BitVec 16} :
    compareEpoch a b = .gt ↔ 1 ≤ (b - a).toNat ∧ (b - a).toNat ≤ 32767 := by
  unfold compareEpoch
  generalize (b - a).toNat = d
  grind

theorem compareEpoch_lt_iff {a b : BitVec 16} : compareEpoch a b = .lt ↔ 32768 ≤ (b - a).toNat := by
  unfold compareEpoch
  generalize (b - a).toNat = d
  grind

theorem serialDiff_eq (a b : BitVec 16) :
    serialDiff a b = if (b - a).toNat ≤ 32767 then ((b - a).toNat : Int) else ((b - a).toNat : Int) - 65536 := by
  unfold serialDiff
  rw [BitVec.toInt_eq_toNat_cond]
  split <;> split <;> omega

/-- Settles O5: the serial comparison and the serial difference read the same number d. -/
theorem epochsCompareSerially : Obligations.EpochsCompareSerially := by
  intro a b
  have hd := epochDiff_toNat a b
  have hd' := epochDiff_toNat b a
  have ha := a.isLt
  have hb := b.isLt
  refine ⟨(b - a).toNat, hd, fun h => compareEpoch_eq_iff.mpr h, fun h => compareEpoch_gt_iff.mpr h,
    fun h => compareEpoch_lt_iff.mpr h, fun h => ?_, fun h => ?_, fun h => compareEpoch_lt_iff.mpr ?_⟩
  · rw [serialDiff_eq, if_pos h]
  · rw [serialDiff_eq, if_neg (by omega)]
  · omega

/-! ### One tick -/

theorem hasTime_iff : s.hasTime = true ↔ s.eu.align = some .locked ∨ s.eu.align = some .mute := by
  simp [State.hasTime]

theorem hasSchedule_iff : s.hasSchedule = true ↔ s.hasTime = true ∨ s.eu.align = some .aligning := by
  simp [State.hasSchedule]

/-- In LOCKED and MUTE a tick moves the offset and the elapsed scale, and keeps the local horizon for a hold (R8, R10,
R35). -/
theorem advance_eu_of_hasTime (h : s.hasTime = true) : (advance s).eu = { s.eu with
    offset := s.eu.offset + 1, elapsed := s.eu.elapsed + 1, prevHorizon := s.localHorizon } := by
  show advanceEpochUnit s = _
  unfold advanceEpochUnit
  rcases hasTime_iff.mp h with ha | ha <;> rw [ha]

/-- In LOADING, in CONFIG_FAULT and under reset no counter of the Epoch Unit moves (R10). -/
theorem advance_eu_of_no_schedule (h : s.hasSchedule = false) (hs : s.eu.align ≠ some .seeking) :
    (advance s).eu = s.eu := by
  have hn : ¬ (s.hasTime = true ∨ s.eu.align = some .aligning) := fun k => by
    rw [hasSchedule_iff.mpr k] at h; cases h
  rw [hasTime_iff] at hn
  show advanceEpochUnit s = _
  unfold advanceEpochUnit
  split <;> simp_all

/-- What a tick makes of the frame in flight (R77). -/
theorem advance_sending {x : Sending} (h : s.link.sending = some x) : (advance s).link.sending =
    if x.ended = true ∧ (frameBits x.frame).length * s.bitPeriod ≤ x.ticks + 1 then none
    else some { x with ticks := x.ticks + 1 } := by
  show advanceSending s = _
  unfold advanceSending
  rw [h]

theorem advance_sending_none (h : s.link.sending = none) : (advance s).link.sending = none := by
  show advanceSending s = _
  unfold advanceSending
  rw [h]

/-- Settles O2: the branches of `idle`, and each counter of a tick by the alignment state. -/
theorem emptyQueueRunsEventOrTick : Obligations.EmptyQueueRunsEventOrTick := by
  intro s
  refine ⟨fun hp => ⟨fun c hc => ?_, fun hc => ?_⟩, advance_eu_of_hasTime, fun h => ?_, fun h => ?_,
    advance_eu_of_no_schedule, advance_sending_none, fun x hx => ⟨fun he hl => ?_, fun he => ?_⟩, fun h => ?_,
    fun h => ?_, ?_⟩
  · simp only [step, hp, idle, hc]
  · simp only [step, hp, idle, hc]
  · show advanceEpochUnit s = _
    unfold advanceEpochUnit
    rw [h]
  · show advanceEpochUnit s = _
    unfold advanceEpochUnit
    rw [h]
  · rw [advance_sending hx, if_pos ⟨he, hl⟩]
  · rw [advance_sending hx, if_neg]
    rintro ⟨h1, h2⟩
    rcases he with h | h
    · rw [h] at h1; cases h1
    · omega
  · show (advanceLoader s).readTicks = _
    unfold advanceLoader
    rw [if_pos h]
    rfl
  · exact if_neg h
  · have hl : advanceLoader s = { s.loader with readTicks := (advanceLoader s).readTicks } := by
      unfold advanceLoader
      split <;> rfl
    show advance s = { s with loader := { s.loader with readTicks := (advanceLoader s).readTicks }, eu := _, link := _, untested := _, marks := _ }
    rw [← hl]
    rfl

/-! ### The ends of the MARK pulse and of the horizon hold -/

theorem localHorizon_of_hold {h : Hold} (hh : s.eu.hold = some h) : s.localHorizon = h.value := by
  simp only [State.localHorizon, hh]

/-- Without a hold the local horizon is local time minus 8 ticks (R8). -/
theorem localHorizon_of_no_hold (hh : s.eu.hold = none) :
    s.localHorizon = subTicks s.epochLength s.localTime 8 := by
  simp only [State.localHorizon, hh]; rfl

/-- Settles O15: both conditions hold, so each effect is its own write. -/
theorem pulseAndHoldEnd : Obligations.PulseAndHoldEnd := by
  intro s
  refine ⟨fun ht hm ho => gives_of_effect_eq nofun nofun ?_, fun h ht hh hs =>
    ⟨localHorizon_of_hold hh, gives_of_effect_eq nofun nofun ?_, localHorizon_of_no_hold rfl⟩⟩
  · have hp : s.pulseOver = true := by
      simp only [State.pulseOver, ht, hm, Bool.true_and]; exact decide_eq_true ho
    simp only [effect, effectMarkPulseEnd, hp, if_true]
  · have hp : s.holdOver = true := by
      simp only [State.holdOver, hh, ht, Bool.true_and]; exact decide_eq_true hs
    simp only [effect, effectHorizonHoldEnd, hp, if_true]

/-! ### The lines -/

theorem bitPeriod_pos (s : State) : 0 < s.bitPeriod := by
  unfold State.bitPeriod; positivity

theorem faultLine_iff : s.faultLine = true ↔ s.eu.align = some .configFault ∨ s.eu.align = some .mute ∨
    (s.eu.align ≠ none ∧ ∃ i, (s.meas i).st = .fault) := by
  simp [State.faultLine, Option.isSome_iff_ne_none, or_assoc]

theorem dataLine_none (h : s.link.sending = none) : s.dataLine = false := by
  simp only [State.dataLine, h]

/-- DATA at a tick of bit k of the frame in flight (R77). -/
theorem dataLine_bit {x : Sending} (h : s.link.sending = some x) {k : Nat} (hk : k < (frameBits x.frame).length)
    (hlo : k * s.bitPeriod ≤ x.ticks) (hhi : x.ticks < (k + 1) * s.bitPeriod) :
    s.dataLine = (frameBits x.frame)[k] := by
  have hq : x.ticks / s.bitPeriod = k := Nat.div_eq_of_lt_le hlo hhi
  simp only [State.dataLine, h, hq, List.getElem?_eq_getElem hk, Option.getD_some]

/-- DATA is released after the last bit (R77). -/
theorem dataLine_past {x : Sending} (h : s.link.sending = some x)
    (hl : (frameBits x.frame).length * s.bitPeriod ≤ x.ticks) : s.dataLine = false := by
  have hq : (frameBits x.frame).length ≤ x.ticks / s.bitPeriod := (Nat.le_div_iff_mul_le (bitPeriod_pos s)).mpr hl
  simp only [State.dataLine, h, List.getElem?_eq_none hq, Option.getD_none]

theorem chipSelectLow_iff :
    s.chipSelectLow = true ↔ s.eu.align = some .loading ∧ s.loader.readTicks < 32960 := by
  simp only [State.chipSelectLow, Bool.and_eq_true, beq_iff_eq, decide_eq_true_eq]
  rfl

theorem sclk_iff : s.sclk = true ↔ s.chipSelectLow = true ∧ 4 ≤ s.loader.readTicks % 8 := by
  simp only [State.sclk, Bool.and_eq_true, decide_eq_true_eq]
  rfl

/-- Of the command and the address only the two ones of 0x03, bits 6 and 7, are high (R187). -/
theorem readCommand_bit_iff (k : Nat) :
    ((natBits 8 0x03 ++ natBits 16 0x0000)[k]?).getD false = true ↔ k = 6 ∨ k = 7 := by
  by_cases h : k < 24
  · revert h; revert k; decide
  · rw [List.getElem?_eq_none (by simpa using h)]
    simp only [Option.getD_none, Bool.false_eq_true, false_iff]
    omega

theorem mosi_iff :
    s.mosi = true ↔ s.chipSelectLow = true ∧ (s.loader.readTicks / 8 = 6 ∨ s.loader.readTicks / 8 = 7) := by
  unfold State.mosi
  rw [Bool.and_eq_true, readCommand_bit_iff]
  rfl

/-- Settles O16: each line by its own condition. -/
theorem linesShowState : Obligations.LinesShowState := fun _ =>
  ⟨hasTime_iff, faultLine_iff, Iff.rfl, dataLine_none, fun _ hx => ⟨fun _ hk => dataLine_bit hx hk, dataLine_past hx⟩,
    chipSelectLow_iff, sclk_iff, mosi_iff⟩

/-! ### The station right after reset -/

/-- Settles O59: the reset state is its own reset, which is sound, and holds no Test Source event. -/
theorem resetHasInvariant : Obligations.ResetHasInvariant :=
  ⟨Sound.allReset State.reset, fun _ hw => by cases hw⟩

end Sys2Proof.Machine
end

section
/-! PROOFS. Times on the fine scale: the comparison of two times is the sign of their interval, and adding and
subtracting ticks undo each other. -/

namespace Sys2Proof.Machine

/-! ### The interval of two times -/

/-- The position of a time inside its epoch, in fine steps (R5). -/
def TimeStamp.steps (t : TimeStamp) : Nat := t.offset.toNat * 256 + t.fine.toNat

theorem interval_eq_steps (E : Nat) (a b : TimeStamp) :
    interval E a b = serialDiff a.epoch b.epoch * (E * 256) + b.steps - a.steps := by
  unfold interval TimeStamp.steps
  rw [Int.mul_assoc]

theorem steps_lt {E : Nat} {t : TimeStamp} (h : t.offset.toNat < E) : t.steps < E * 256 := by
  have := t.fine.isLt
  unfold TimeStamp.steps
  omega

theorem serialDiff_bounds (a b : BitVec 16) : -32768 ≤ serialDiff a b ∧ serialDiff a b ≤ 32767 := by
  have := (b - a).isLt
  rw [serialDiff_eq]
  split <;> omega

theorem compare_congr {α β : Type} [LinearOrder α] [LinearOrder β] {x y : α} {u v : β} (hlt : x < y ↔ u < v)
    (hgt : y < x ↔ v < u) : compare x y = compare u v := by
  rcases lt_trichotomy x y with h | h | h
  · rw [compare_lt_iff_lt.mpr h, compare_lt_iff_lt.mpr (hlt.mp h)]
  · have huv : u = v := le_antisymm (not_lt.mp fun k => (hgt.mpr k).ne' h) (not_lt.mp fun k => (hlt.mpr k).ne h)
    rw [compare_eq_iff_eq.mpr h, compare_eq_iff_eq.mpr huv]
  · rw [compare_gt_iff_gt.mpr h, compare_gt_iff_gt.mpr (hgt.mp h)]

/-- In one epoch the comparison of R4, offset before fine, is that of the positions in fine steps. -/
theorem compare_steps (a b : TimeStamp) :
    (match compare b.offset.toNat a.offset.toNat with
      | .eq => compare b.fine.toNat a.fine.toNat
      | o => o) = compare b.steps a.steps := by
  have ha := a.fine.isLt
  have hb := b.fine.isLt
  unfold TimeStamp.steps
  rcases hc : compare b.offset.toNat a.offset.toNat with _ | _ | _
  · have := Nat.compare_eq_lt.mp hc
    exact (Nat.compare_eq_lt.mpr (by omega)).symm
  · have := Nat.compare_eq_eq.mp hc
    exact compare_congr (by omega) (by omega)
  · have := Nat.compare_eq_gt.mp hc
    exact (Nat.compare_eq_gt.mpr (by omega)).symm

theorem compareTime_eq (a b : TimeStamp) : compareTime a b =
    match compareEpoch a.epoch b.epoch with
    | .eq => compare b.steps a.steps
    | o => o := by
  rw [← compare_steps]
  rfl

/-- The comparison of two times is the sign of their interval (R4, R5). -/
theorem compareTime_eq_sign {E : Nat} {a b : TimeStamp} (ha : a.offset.toNat < E) (hb : b.offset.toNat < E) :
    compareTime a b = compare (interval E a b) 0 := by
  have hx := steps_lt ha
  have hy := steps_lt hb
  have hd := serialDiff_eq a.epoch b.epoch
  have hl := (b.epoch - a.epoch).isLt
  rw [compareTime_eq, interval_eq_steps]
  rcases hc : compareEpoch a.epoch b.epoch with _ | _ | _
  · have h := compareEpoch_lt_iff.mp hc
    have h1 : serialDiff a.epoch b.epoch ≤ -1 := by rw [hd, if_neg (by omega)]; omega
    have h2 := Int.mul_le_mul_of_nonneg_right h1 (Int.natCast_nonneg (E * 256))
    exact (compare_lt_iff_lt.mpr (by push_cast at h2 ⊢; omega)).symm
  · have h := compareEpoch_eq_iff.mp hc
    have h1 : serialDiff a.epoch b.epoch = 0 := by rw [hd, if_pos (by omega), h]; rfl
    rw [h1]
    exact compare_congr (by omega) (by omega)
  · obtain ⟨h0, h⟩ := compareEpoch_gt_iff.mp hc
    have h1 : 1 ≤ serialDiff a.epoch b.epoch := by rw [hd, if_pos h]; omega
    have h2 := Int.mul_le_mul_of_nonneg_right h1 (Int.natCast_nonneg (E * 256))
    exact (compare_gt_iff_gt.mpr (by push_cast at h2 ⊢; omega)).symm

theorem interval_natAbs_lt {E : Nat} {a b : TimeStamp} (ha : a.offset.toNat < E) (hb : b.offset.toNat < E) :
    (interval E a b).natAbs < 32769 * E * 256 := by
  have hx := steps_lt ha
  have hy := steps_lt hb
  obtain ⟨hlo, hhi⟩ := serialDiff_bounds a.epoch b.epoch
  have h1 := Int.mul_le_mul_of_nonneg_right hlo (Int.natCast_nonneg (E * 256))
  have h2 := Int.mul_le_mul_of_nonneg_right hhi (Int.natCast_nonneg (E * 256))
  rw [interval_eq_steps]
  push_cast at h1 h2 ⊢
  omega

/-! ### Adding and subtracting ticks -/

section
variable {E : Nat} {t : TimeStamp} {L : Nat}

theorem addTicks_offset (hE : 0 < E) (hw : E ≤ 2 ^ 24) :
    (addTicks E t L).offset.toNat = (t.offset.toNat + L) % E :=
  Nat.mod_eq_of_lt ((Nat.mod_lt _ hE).trans_le hw)

/-- Taking back L ticks borrows as many epochs as adding them carried (R6). -/
theorem borrows_eq_carries {o : Nat} (ho : o < E) :
    (L - (o + L) % E + (E - 1)) / E = (o + L) / E := by
  have h := Nat.div_add_mod (o + L) E
  have hm := Nat.mod_lt (o + L) (Nat.zero_lt_of_lt ho)
  generalize (o + L) / E = q at h ⊢
  generalize (o + L) % E = m at h hm ⊢
  have hq : E * (q + 1) = E * q + E := Nat.mul_succ E q
  apply Nat.div_eq_of_lt_le <;> rw [Nat.mul_comm]
  · rcases Nat.eq_zero_or_pos q with rfl | hp
    · omega
    · have := Nat.le_mul_of_pos_right E hp
      omega
  · omega

/-- Subtracting L ticks undoes adding them (R6). -/
theorem subTicks_addTicks (ho : t.offset.toNat < E) (hw : E ≤ 2 ^ 24) : subTicks E (addTicks E t L) L = t := by
  have hE := Nat.zero_lt_of_lt ho
  have hdm := Nat.div_add_mod' (t.offset.toNat + L) E
  unfold subTicks
  simp only [addTicks_offset hE hw, borrows_eq_carries ho]
  obtain ⟨e, o, f⟩ := t
  simp only [addTicks, timeAt, BitVec.add_sub_cancel, TimeStamp.mk.injEq, true_and, and_true]
  have hback : (o.toNat + L) % E + (o.toNat + L) / E * E - L = o.toNat := by
    dsimp only at hdm
    omega
  rw [hback, BitVec.ofNat_toNat, BitVec.setWidth_eq]

/-- L ticks later lies L ticks away, while the sum crosses fewer than 32768 epochs (R5, R6). -/
theorem interval_addTicks (ho : t.offset.toNat < E) (hw : E ≤ 2 ^ 24) (hL : t.offset.toNat + L < 32768 * E) :
    interval E t (addTicks E t L) = L * 256 := by
  have hE := Nat.zero_lt_of_lt ho
  have hdm := Nat.div_add_mod' (t.offset.toNat + L) E
  have hq : (t.offset.toNat + L) / E < 32768 := (Nat.div_lt_iff_lt_mul hE).mpr hL
  have hdiff : ((addTicks E t L).epoch - t.epoch).toNat = (t.offset.toNat + L) / E := by
    have hs : (addTicks E t L).epoch - t.epoch = BitVec.ofNat 16 ((t.offset.toNat + L) / E) := by
      simp only [addTicks, timeAt]
      rw [BitVec.add_comm, BitVec.add_sub_cancel]
    rw [hs, BitVec.toNat_ofNat]
    exact Nat.mod_eq_of_lt (hq.trans (by decide))
  have hs : serialDiff t.epoch (addTicks E t L).epoch = ((t.offset.toNat + L) / E : Nat) := by
    rw [serialDiff_eq, hdiff, if_pos (by omega)]
  have hst : (addTicks E t L).steps = (t.offset.toNat + L) % E * 256 + t.fine.toNat := by
    unfold TimeStamp.steps
    rw [addTicks_offset hE hw]
    rfl
  rw [interval_eq_steps, hs, hst, TimeStamp.steps]
  generalize (t.offset.toNat + L) / E = q at hdm ⊢
  generalize (t.offset.toNat + L) % E = m at hdm ⊢
  have hc : (q : Int) * ((E : Int) * 256) = ((q * E : Nat) : Int) * 256 := by push_cast; ring
  rw [hc]
  omega

theorem later_addTicks (ho : t.offset.toNat < E) (hw : E ≤ 2 ^ 24) (h0 : 0 < L)
    (hL : t.offset.toNat + L < 32768 * E) : later (addTicks E t L) t = true := by
  have hE := Nat.zero_lt_of_lt ho
  have hlt : (addTicks E t L).offset.toNat < E := by rw [addTicks_offset hE hw]; exact Nat.mod_lt _ hE
  unfold later
  rw [compareTime_eq_sign ho hlt, interval_addTicks ho hw hL, beq_iff_eq]
  exact compare_gt_iff_gt.mpr (by omega)

end

/-- Settles O6: the interval's sign is the comparison, and ticks added and subtracted carry and borrow alike. -/
theorem intervalsAndSumsOfTicks : Obligations.IntervalsAndSumsOfTicks := by
  refine ⟨fun E a b ha hb => ⟨rfl, ?_, ?_, ?_, interval_natAbs_lt ha hb⟩, fun k t L _ hk ho _ => ?_⟩
  · rw [compareTime_eq_sign ha hb]; exact compare_gt_iff_gt.symm
  · rw [compareTime_eq_sign ha hb]; exact compare_eq_iff_eq.symm
  · rw [compareTime_eq_sign ha hb]; exact compare_lt_iff_lt.symm
  · have hw : 2 ^ k ≤ 2 ^ 24 := Nat.pow_le_pow_right (by omega) hk
    have hE : 0 < 2 ^ k := Nat.two_pow_pos k
    refine ⟨subTicks_addTicks ho hw, rfl, ?_, later_addTicks ho hw⟩
    rw [addTicks_offset hE hw]
    exact Nat.mod_lt _ hE

end Sys2Proof.Machine
end

section
/-! PROOFS. Reset and starts: every block takes its reset value. -/

namespace Sys2Proof.Machine

variable {s t : State}

/-- A station whose blocks stand as in the reset state has every block reset. -/
theorem blocksReset_allReset (s : State) : BlocksReset s.allReset where
  params := rfl
  channels := Table.get_fill _
  store := rfl
  link := rfl
  peers := Table.get_fill _
  measures := Table.get_fill _
  queue := rfl
  directives := rfl
  directiveDrops := rfl
  sequences := Table.get_fill _
  triggerOverruns := rfl
  untested := rfl

/-- A start writes the loader, the Epoch Unit and the straps alone on top of the reset (R186). -/
theorem blocksReset_start (s : State) (straps : BitVec 4) (cause : StartCause) :
    BlocksReset (s.start straps cause) :=
  have h := blocksReset_allReset s
  ⟨h.params, h.channels, h.store, h.link, h.peers, h.measures, h.queue, h.directives, h.directiveDrops, h.sequences,
    h.triggerOverruns, h.untested⟩

/-- With its measures reset a station out of CONFIG_FAULT and MUTE keeps FAULT low (R194). -/
theorem BlocksReset.faultLine_low (h : BlocksReset s) (hc : s.eu.align ≠ some .configFault)
    (hm : s.eu.align ≠ some .mute) : s.faultLine = false := by
  rw [Bool.eq_false_iff, ne_eq, faultLine_iff]
  rintro (k | k | ⟨-, i, k⟩)
  · exact hc k
  · exact hm k
  · rw [h.measures i] at k; cases k

/-- A start's station shows READY and FAULT low (R193, R194). -/
theorem start_faultLine (s : State) (straps : BitVec 4) (cause : StartCause) :
    (s.start straps cause).faultLine = false :=
  (blocksReset_start s straps cause).faultLine_low nofun nofun

/-- After RESET_ASSERT nothing is left of this tick's Test Source event: without local time no station is kept. -/
theorem resetAssert_inBoth (s : State) : s.inBoth effectResetAssert = s.allReset := by
  have h : (s.untested.bind fun w => (effectResetAssert (s.alone w)).kept) = none := by
    cases s.untested <;> rfl
  show { s.allReset with untested := s.untested.bind fun w => (effectResetAssert (s.alone w)).kept } = _
  rw [h]
  rfl

theorem resetRelease_gives (h : s.resetHeld = true) (straps : BitVec 4) :
    Gives (.resetRelease straps) s (s.start straps .powerOn) :=
  gives_of_effect_eq nofun nofun (if_pos h)

theorem restart_gives {d : Directive} (h : s.dueDirective .restart = some d) (straps : BitVec 4) :
    Gives (.restart straps) s (s.start straps .restart) :=
  gives_of_effect_eq nofun nofun (by simp only [effect, effectRestart, h, restartStation])

/-- Settles O8: RESET_ASSERT ends in `allReset`, the two starts in `start`. -/
theorem resetAndStartsResetEveryBlock : Obligations.ResetAndStartsResetEveryBlock := by
  refine ⟨fun s => ?_, fun s straps h => ?_, fun s d straps h => ?_⟩
  · have hb := blocksReset_allReset s
    exact ⟨s.allReset, congrArg Host.Outcome.next (resetAssert_inBoth s), hb, rfl, rfl, rfl, rfl, rfl, rfl,
      hb.faultLine_low nofun nofun, rfl, rfl, rfl⟩
  · exact ⟨_, resetRelease_gives h straps, blocksReset_start .., rfl, rfl, rfl, rfl, rfl, rfl, start_faultLine ..⟩
  · exact ⟨_, restart_gives h straps, blocksReset_start .., rfl, rfl, rfl, rfl, start_faultLine .., rfl, rfl⟩

end Sys2Proof.Machine
end

section
/-! PROOFS. The Epoch Unit: becoming LOCKED by a timeout, marks that align, boundaries and slips. -/

namespace Sys2Proof.Machine

variable {s t u : State}

/-! ### Becoming LOCKED -/

/-- Becoming LOCKED writes the Epoch Unit and the link's two notes alone (R14, R16, R17). -/
theorem setLocked_frame (e : BitVec 16) (o : Nat) (g : AlignOrigin) (s : State) :
    EpochFrame s (setLocked e o g s) := by
  constructor <;> rfl

theorem setLocked_statusDue (e : BitVec 16) (o : Nat) (g : AlignOrigin) (s : State) :
    (setLocked e o g s).link.statusDue = (e.toNat % s.params.statusInterval.toNat == 0) := rfl

/-- STATUS is due by epoch 0 whatever the interval (R195). -/
theorem setLocked_zero_statusDue (o : Nat) (g : AlignOrigin) (s : State) :
    (setLocked 0 o g s).link.statusDue = true := by
  rw [setLocked_statusDue]
  exact beq_iff_eq.mpr (Nat.zero_mod _)

/-- The first local horizon is local time minus 8 ticks (R8). -/
theorem setLocked_localHorizon (e : BitVec 16) (o : Nat) (g : AlignOrigin) (s : State) :
    (setLocked e o g s).localHorizon
      = subTicks (setLocked e o g s).epochLength (setLocked e o g s).localTime 8 :=
  localHorizon_of_no_hold rfl

/-- Held edges move channels and triggers, not time. -/
theorem takeHeldEdges_eu (u : State) : (takeHeldEdges u).eu = u.eu := (takeHeldEdges_frame u).eu

theorem takeHeldEdges_ready (u : State) (h : u.eu.align = some .locked) : (takeHeldEdges u).ready = true :=
  hasTime_iff.mpr (.inl ((congrArg EpochUnit.align (takeHeldEdges_eu u)).trans h))

theorem takeHeldEdges_none (h : u.marks.edges = []) : takeHeldEdges u = u := by
  have hm : ({ u.marks with edges := [] } : TickMarks) = u.marks := by rw [← h]
  show u.marks.edges.foldl _ { u with marks := { u.marks with edges := [] } } = u
  rw [hm, h]
  rfl

/-- The first held edge is taken, and then the ones after it. -/
theorem takeHeldEdges_cons {c : Fin 4} {p : Polarity} {fine : BitVec 8} {rest : List HeldEdge}
    (h : u.marks.edges = ⟨c, p, fine⟩ :: rest) {v : State}
    (hv : v = takeEdge c p fine { u with marks := { u.marks with edges := [] } }) :
    takeHeldEdges u = takeHeldEdges { v with marks := { v.marks with edges := rest } } := by
  have hm : v.marks = { u.marks with edges := [] } := by rw [hv]; exact (takeEdge_frame c p fine _).marks
  have hback : { v with marks := { ({ v.marks with edges := rest } : TickMarks) with edges := [] } } = v := by
    have : ({ ({ v.marks with edges := rest } : TickMarks) with edges := [] } : TickMarks) = v.marks := by rw [hm]
    rw [this]
  show u.marks.edges.foldl _ _ = rest.foldl _ { v with marks := { ({ v.marks with edges := rest } : TickMarks) with
    edges := [] } }
  rw [hback, h, hv]
  rfl

/-- A held edge is taken as PIN_EDGE takes it (R34; log 42). -/
theorem pinEdge_gives {c : Fin 4} (p : Polarity) (fine : BitVec 8) (ht : u.hasTime = true)
    (hr : (u.chan c).reads .pin = true) : Gives (.pinEdge c p fine) u (takeEdge c p fine u) :=
  gives_of_effect_eq nofun nofun (by simp only [effect, effectPinEdge, hr, ht, if_true])

theorem takeHeldEdges_inOwnWindow (u : State) : (takeHeldEdges u).inOwnWindow = u.inOwnWindow := by
  have hF := takeHeldEdges_frame u
  have hp : (takeHeldEdges u).params = u.params := hF.params
  have hl : (takeHeldEdges u).loader = u.loader := hF.loader
  unfold State.inOwnWindow State.windowOwner State.windowAt State.windowCount State.windowLength State.epochLength
    State.bitPeriod
  rw [takeHeldEdges_eu, hp, hl]

theorem takeHeldEdges_receiver (u : State) : (takeHeldEdges u).link.receiver = u.link.receiver :=
  (takeHeldEdges_frame u).toMeasureFrame.link_eqs.2.1

theorem seekTimeout_effect (h : s.seekExpired = true) :
    effect .seekTimeout s = takeHeldEdges (setLocked 0 0 .founder s) := if_pos h

theorem aligningTimeout_effect (h : s.alignExpired = true) : effect .aligningTimeout s = lockByTimeout s := if_pos h

/-- Without a reception, or out of an own window, the timeout locks and ends nothing (R17, R83). -/
theorem lockByTimeout_quiet (h : (setLocked 0 (s.eu.offset % s.epochLength) .founderTimeout s).inOwnWindow = false ∨
    s.link.receiver = none) :
    lockByTimeout s = takeHeldEdges (setLocked 0 (s.eu.offset % s.epochLength) .founderTimeout s) := by
  unfold lockByTimeout becomeLocked
  dsimp only
  rw [takeHeldEdges_inOwnWindow]
  rcases h with h | h
  · rw [h]; rfl
  · split
    · refine if_neg fun k => ?_
      have hn : (takeHeldEdges (setLocked 0 (s.eu.offset % s.epochLength) .founderTimeout s)).link.receiver = none :=
        (takeHeldEdges_receiver _).trans h
      rw [hn] at k
      exact absurd k.2 nofun
    · rfl

/-- A reception in an own window of the station just LOCKED ends as a discard (R83, R88; log 27). -/
theorem lockByTimeout_ends {v : State}
    (hv : v = takeHeldEdges (setLocked 0 (s.eu.offset % s.epochLength) .founderTimeout s))
    (h : (setLocked 0 (s.eu.offset % s.epochLength) .founderTimeout s).inOwnWindow = true)
    (hr : s.link.receiver ≠ none) : lockByTimeout s =
      { v with link := { v.link with receiver := none, discards := satAdd v.link.discards 1 } } := by
  unfold lockByTimeout becomeLocked
  dsimp only
  rw [takeHeldEdges_inOwnWindow, h, if_pos rfl, ← hv]
  have ha : v.eu.align = some .locked := by rw [hv, takeHeldEdges_eu]; rfl
  have hn : v.link.receiver.isSome = true := by
    have hvr : v.link.receiver = s.link.receiver := by rw [hv, takeHeldEdges_receiver]; rfl
    rw [hvr]
    exact Option.isSome_iff_ne_none.mpr hr
  exact if_pos ⟨ha, hn⟩

/-- Settles O10: both timeouts are `setLocked` and then the held edges, one by one. -/
theorem timeoutsLock : Obligations.TimeoutsLock := by
  refine ⟨fun s h => ?_, fun s h => ?_, fun u c p fine rest ht hr he => ?_, fun u => takeHeldEdges_none⟩
  · exact ⟨setLocked 0 0 .founder s, gives_of_effect_eq nofun nofun (seekTimeout_effect h), setLocked_frame .., rfl, rfl,
      rfl, rfl, rfl, rfl, rfl, rfl, setLocked_localHorizon .., rfl, setLocked_zero_statusDue .., rfl,
      takeHeldEdges_eu _, takeHeldEdges_ready _ rfl, fun k => takeHeldEdges_none k⟩
  · have he := aligningTimeout_effect h
    exact ⟨setLocked 0 (s.eu.offset % s.epochLength) .founderTimeout s, _, rfl, setLocked_frame .., rfl, rfl, rfl, rfl,
      rfl, rfl, rfl, setLocked_localHorizon .., rfl, rfl, setLocked_zero_statusDue .., rfl, takeHeldEdges_eu _,
      takeHeldEdges_ready _ rfl, fun k => takeHeldEdges_none k,
      fun hq => gives_of_effect_eq nofun nofun (he.trans (lockByTimeout_quiet hq)),
      fun hw hr => gives_of_effect_eq nofun nofun (he.trans (lockByTimeout_ends rfl hw hr))⟩
  · exact ⟨_, pinEdge_gives (u := { u with marks := { u.marks with edges := [] } }) p fine ht hr,
      takeHeldEdges_cons he rfl⟩

/-! ### The station at a boundary -/

/-- The station as a boundary finds it at the measures and the sequences: the channels' counts closed, the window ends
delivered, and the link at its new epoch (R19, R39, R69, R195). -/
def boundaryStation (ended : List (Fin 16)) (s : State) : State :=
  let s1 := boundaryChannels { s with marks := { s.marks with boundary := true } }
  let s2 := forEach ended (fun s p => deliverWindowEnd p s) s1
  State.refreshStatusDue { s2 with link := { s2.link with windowPresence := false } }

theorem deliverBoundary_eq (ended : List (Fin 16)) (s : State) :
    deliverBoundary ended s = boundaryTable (boundaryStation ended s) := rfl

/-- What the boundary leaves of the station before the measures and the sequences: the channels, the peers, the
measures' side and the triggers' side apart, all but two notes of the link and one mark of the tick. -/
structure BoundaryFrame (s u : State) : Prop where
  pending : u.pending = s.pending
  loader : u.loader = s.loader
  params : u.params = s.params
  eu : u.eu = s.eu
  directives : u.directives = s.directives
  marks : u.marks = { s.marks with boundary := true }
  sending : u.link.sending = s.link.sending
  receiver : u.link.receiver = s.link.receiver
  consecutive : u.link.consecutive = s.link.consecutive
  collisions : u.link.collisions = s.link.collisions
  discards : u.link.discards = s.link.discards
  windowPresence : u.link.windowPresence = false
  statusDue : u.link.statusDue = (s.eu.epoch.toNat % s.params.statusInterval.toNat == 0)
  chan : ∀ c, u.chan c = s.retake Channel.boundary (s.chan c)

/-- A window end clears the noted presence and may fill the outbox; the rest of the link stays. -/
theorem WindowFrame.link_eqs (h : WindowFrame s t) :
    t.link.sending = s.link.sending ∧ t.link.receiver = s.link.receiver ∧
    t.link.consecutive = s.link.consecutive ∧ t.link.collisions = s.link.collisions ∧
    t.link.discards = s.link.discards := by
  rw [← h.link]
  exact ⟨rfl, rfl, rfl, rfl, rfl⟩

theorem boundaryStation_frame (ended : List (Fin 16)) (s : State) : BoundaryFrame s (boundaryStation ended s) := by
  have hw := deliverWindowEnds_frame ended (boundaryChannels { s with marks := { s.marks with boundary := true } })
  obtain ⟨hsend, hrec, hcons, hcol, hdis⟩ := hw.link_eqs
  have hdue : (boundaryStation ended s).link.statusDue
      = (s.eu.epoch.toNat % s.params.statusInterval.toNat == 0) := by
    show ((forEach ended _ _).eu.epoch.toNat % (forEach ended _ _).params.statusInterval.toNat == 0) = _
    rw [hw.eu, hw.params]
    rfl
  exact
    { pending := hw.pending, loader := hw.loader, params := hw.params, eu := hw.eu, directives := hw.directives
      marks := hw.marks, sending := hsend, receiver := hrec, consecutive := hcons, collisions := hcol
      discards := hdis, windowPresence := rfl, statusDue := hdue
      chan := fun c => by
        show (forEach ended _ _).channels.get c = _
        rw [hw.channels]
        exact (retakeEdges_chan _ _ c).trans (retake_congr rfl rfl _ _) }

theorem retake_of_none {f : Channel → Channel} {x : Channel} (h : x.edgeOf s.eu.elapsed = none) :
    s.retake f x = f x := by
  unfold State.retake
  rw [h]

theorem retake_of_some {f : Channel → Channel} {x : Channel} {r : RecentEdge} (h : x.edgeOf s.eu.elapsed = some r) :
    s.retake f x = (s.edgeAt (f (x.withoutEdge r)) r.polarity r.time.fine).1 := by
  unfold State.retake
  rw [h]

/-- A channel without an edge in the tick of the boundary: its count closes, and it may return to NORMAL (R39, R41). -/
theorem BoundaryFrame.chan_quiet (h : BoundaryFrame s u) {c : Fin 4} {g : ChannelConfig}
    (hc : (s.chan c).config = some g) (he : (s.chan c).edgeOf s.eu.elapsed = none) :
    u.chan c = { s.chan c with
      rateCount := 0
      st := if (s.chan c).st = .throttled ∧ (s.chan c).rateCount ≤ 3 * g.rate / 4 then .normal
        else (s.chan c).st } := by
  rw [h.chan, retake_of_none he]
  simp only [Channel.boundary, hc]

/-- A channel with an edge in the tick of the boundary takes it again after the boundary (R33, R39; log 26). -/
theorem BoundaryFrame.chan_edge (h : BoundaryFrame s u) {c : Fin 4} {r : RecentEdge}
    (he : (s.chan c).edgeOf s.eu.elapsed = some r) :
    u.chan c = (u.edgeAt ((s.chan c).withoutEdge r).boundary r.polarity r.time.fine).1 := by
  rw [h.chan, retake_of_some he, edgeAt_congr h.eu h.params]

/-- With no window end the boundary leaves the peers and all it brings to the measures and sequences. -/
theorem boundaryStation_none (s : State) : (boundaryStation [] s).peers = s.peers ∧
    (boundaryStation [] s).measures = s.measures ∧ (boundaryStation [] s).store = s.store ∧
    (boundaryStation [] s).queue = s.queue ∧ (boundaryStation [] s).triggerSide = s.triggerSide :=
  ⟨rfl, rfl, rfl, rfl, rfl⟩

/-- One window end with a boundary counts a miss of its peer, or none when a presence has been noted (R69, R95). -/
theorem boundaryStation_peer (p q : Fin 16) (s : State) : (boundaryStation [p] s).peer q =
    if q = p then (if s.link.windowPresence then s.peer p else (s.peer p).miss s.params.missLimit.toNat)
    else s.peer q :=
  deliverWindowEnd_peer p (boundaryChannels { s with marks := { s.marks with boundary := true } }) q

/-- A window end that has seen a presence reaches nobody. -/
theorem boundaryStation_seen (p : Fin 16) (s : State) (h : s.link.windowPresence = true) :
    (boundaryStation [p] s).measures = s.measures ∧ (boundaryStation [p] s).store = s.store ∧
    (boundaryStation [p] s).queue = s.queue ∧ (boundaryStation [p] s).triggerSide = s.triggerSide := by
  have he := deliverWindowEnd_seen p (boundaryChannels { s with marks := { s.marks with boundary := true } }) h
  have hb : boundaryStation [p] s = State.refreshStatusDue { boundaryChannels { s with marks := { s.marks with
      boundary := true } } with link := { s.link with windowPresence := false } } := by
    show State.refreshStatusDue { deliverWindowEnd p _ with link := { (deliverWindowEnd p _).link with
      windowPresence := false } } = _
    rw [he]
    rfl
  rw [hb]
  exact ⟨rfl, rfl, rfl, rfl⟩

/-! ### A regular boundary -/

/-- The station at a regular boundary: the epoch advances and MARK is driven (R18). -/
def State.atRegularBoundary (s : State) : State :=
  { s with
    eu := { s.eu with epoch := s.eu.epoch + 1, offset := 0, markDrive := true }
    marks := { s.marks with windowEnd := true } }

theorem crossBoundary_eq (s : State) :
    crossBoundary s = boundaryTable (boundaryStation s.endingWindow.toList s.atRegularBoundary) := rfl

theorem boundaryTable_eu (u : State) : (boundaryTable u).eu = { u.eu with autoArmed := true } :=
  (boundaryTable_frame u).eu

/-- Settles O13: `boundaryStation` of the advanced station, and then the measures and sequences. -/
theorem boundaryAdvancesEpoch : Obligations.BoundaryAdvancesEpoch := by
  intro s h
  have hF := boundaryStation_frame s.endingWindow.toList s.atRegularBoundary
  have hte := boundaryTable_eu (boundaryStation s.endingWindow.toList s.atRegularBoundary)
  have hready : (boundaryTable (boundaryStation s.endingWindow.toList s.atRegularBoundary)).ready = s.hasTime :=
    hasTime_congr (by rw [hte, hF.eu]; rfl)
  refine ⟨_, _, gives_of_effect_eq nofun nofun (if_pos h), crossBoundary_eq s, hF.eu, hF.marks, hte, ?_,
    hready.trans (boundaryDue_time h), hF.statusDue, hF.windowPresence, hF.sending, hF.receiver,
    fun c g hc he => hF.chan_quiet hc he, fun c r he => hF.chan_edge he, fun q hq => ?_, fun p hp => ?_, fun hn => ?_,
    hF.directives, hF.loader, hF.params, hF.pending⟩
  · exact (congrArg EpochUnit.markDrive hte).trans (congrArg EpochUnit.markDrive hF.eu)
  · cases hw : s.endingWindow with
    | none => rfl
    | some p => exact (boundaryStation_peer p q _).trans (if_neg fun e => hq (by rw [hw, e]))
  · rw [hp]
    exact (boundaryStation_peer p p _).trans (if_pos rfl)
  · cases hw : s.endingWindow with
    | none => exact (boundaryStation_none _).2
    | some p =>
      rw [hw] at hn
      exact boundaryStation_seen p _ (hn.resolve_left nofun)

/-! ### Marks -/

theorem slips_eq_false (h : s.hasTime = false ∨ s.boundaryDue = true ∨ s.markWithin = true) : s.slips = false := by
  unfold State.slips
  rcases h with h | h | h <;> simp [h]

/-- A mark that is no slip gives its effect. -/
theorem mark_gives (h : s.slips = false) (he : effect .markLeadingEdge s = t) : Gives .markLeadingEdge s t :=
  he ▸ gives_effect nofun fun _ k => by rw [h] at k; cases k

theorem mark_effect_of_hasTime (h : s.hasTime = true) :
    effect .markLeadingEdge s = judgeMark (takeDueBoundary s) := by
  show effectMarkLeadingEdge s = _
  unfold effectMarkLeadingEdge
  rcases hasTime_iff.mp h with ha | ha <;> rw [ha]

theorem takeDueBoundary_none (h : s.boundaryDue = false) : takeDueBoundary s = s := by
  simp [takeDueBoundary, h]

/-- Within tolerance of the own boundary, counted from the delay, or during the own pulse (R20). -/
theorem markWithin_iff : s.markWithin = true ↔ s.eu.markDrive = true ∨
    (s.eu.offset + (s.epochLength - s.params.delay.toNat % s.epochLength)) % s.epochLength
      ≤ s.params.tolerance.toNat ∨
    s.epochLength - s.params.tolerance.toNat
      ≤ (s.eu.offset + (s.epochLength - s.params.delay.toNat % s.epochLength)) % s.epochLength := by
  simp [State.markWithin, or_assoc]

/-- After its own boundary the station drives its own pulse, so the edge is that one (R18, R20). -/
theorem markWithin_crossBoundary (s : State) : (crossBoundary s).markWithin = true := by
  refine markWithin_iff.mpr (.inl ?_)
  rw [crossBoundary_eq, boundaryTable_eu, (boundaryStation_frame _ _).eu]
  rfl

/-- In the tick of the own boundary a mark does what the boundary does (R11, R20; log 9). -/
theorem mark_effect_of_boundary (h : s.boundaryDue = true) :
    effect .markLeadingEdge s = effect .epochBoundary s := by
  have hb : effect .epochBoundary s = crossBoundary s := if_pos h
  rw [mark_effect_of_hasTime (boundaryDue_time h), hb, takeDueBoundary, if_pos h]
  exact if_pos (markWithin_crossBoundary s)

theorem hasTime_false (h1 : s.eu.align ≠ some .locked) (h2 : s.eu.align ≠ some .mute) : s.hasTime = false := by
  rw [Bool.eq_false_iff, ne_eq, hasTime_iff]
  exact not_or.mpr ⟨h1, h2⟩

/-- Settles O11: a mark by the alignment state; none of its cases is a slip. -/
theorem marksAlignOrAreIgnored : Obligations.MarksAlignOrAreIgnored := by
  intro s
  refine ⟨fun h => ?_, fun h => ⟨realign s, ?_, rfl, rfl⟩, fun h => gives_of_effect_eq nofun nofun (if_pos h),
    fun ht hb hw => ?_, fun hb t hg => ?_⟩
  · have ht : s.hasTime = false := hasTime_false (by rw [h]; nofun) (by rw [h]; nofun)
    exact mark_gives (slips_eq_false (.inl ht)) (by simp only [effect, effectMarkLeadingEdge, h, beginAligning])
  · have ht : s.hasTime = false := hasTime_false (by rw [h]; nofun) (by rw [h]; nofun)
    exact mark_gives (slips_eq_false (.inl ht)) (by simp only [effect, effectMarkLeadingEdge, h])
  · have hw := markWithin_iff.mpr hw
    refine mark_gives (slips_eq_false (.inr (.inr hw))) ?_
    rw [mark_effect_of_hasTime ht, takeDueBoundary_none hb]
    exact if_pos hw
  · have hs := slips_eq_false (.inr (.inl hb))
    refine (gives_iff (c := .markLeadingEdge) nofun fun _ k => by rw [hs] at k; cases k).mpr ?_
    rw [mark_effect_of_boundary hb]
    exact (gives_iff (c := .epochBoundary) nofun nofun).mp hg

/-! ### A slip -/

/-- The station as a slip hands it to its boundary: the own frame abandoned, a reception cut, and the epoch advanced at
offset D (R21, R69, R77). -/
def State.atSlip (s : State) : State :=
  { cutReception (abandonFrame s) with
    eu := { (cutReception (abandonFrame s)).eu.beginHold with
      epoch := (cutReception (abandonFrame s)).eu.epoch + 1
      offset := (cutReception (abandonFrame s)).params.delay.toNat
      disc := (cutReception (abandonFrame s)).eu.epoch + 1 }
    marks := { (cutReception (abandonFrame s)).marks with windowEnd := true } }

theorem slip_eq (s : State) : slip s =
    boundaryTable (boundaryStation (s.endingWindow.toList ++ s.cutWindow.toList) s.atSlip) := rfl

/-- The Epoch Unit at a slip (R8, R21). -/
def State.slipUnit (s : State) : EpochUnit :=
  { s.eu with
    epoch := s.eu.epoch + 1
    offset := s.params.delay.toNat
    disc := s.eu.epoch + 1
    hold := some ⟨match s.eu.hold with | some h => h.value | none => s.eu.prevHorizon, s.eu.elapsed⟩ }

/-- A slip writes the Epoch Unit, the losses of the channels, the frame in flight, the reception's cut and a mark of the
tick. -/
theorem atSlip_eq (s : State) : s.atSlip = { s with
    eu := s.slipUnit
    channels := (abandonFrame s).channels
    link := { s.link with sending := none, receiver := s.link.receiver.map fun x => { x with cut := true } }
    marks := { s.marks with windowEnd := true } } := by
  unfold State.atSlip
  rw [abandonFrame_eq s]
  rfl

theorem atSlip_chan (s : State) (c : Fin 4) : s.atSlip.chan c = (abandonFrame s).chan c := by
  rw [atSlip_eq]

theorem edgeAt_publishDrops (s : State) (x : Channel) (p : Polarity) (fine : BitVec 8) :
    (s.edgeAt x p fine).1.publishDrops = x.publishDrops := by
  unfold State.edgeAt
  split
  · rfl
  · dsimp only
    split
    · split <;> rfl
    · rfl

theorem boundary_publishDrops (x : Channel) : x.boundary.publishDrops = x.publishDrops := by
  unfold Channel.boundary
  split <;> rfl

/-- Taking an edge again leaves a channel's losses on the publish side (R45). -/
theorem retake_publishDrops (s : State) (x : Channel) :
    (s.retake Channel.boundary x).publishDrops = x.publishDrops := by
  unfold State.retake
  split
  · rw [edgeAt_publishDrops, boundary_publishDrops]
    rfl
  · exact boundary_publishDrops x

/-- What a slip makes of a channel before its tick's edge: its losses are those of the abandoned frame too (R45). -/
theorem slip_chan {l : List (Fin 16)} (hu : u = boundaryStation l s.atSlip) (c : Fin 4) :
    (u.chan c).publishDrops = ((abandonFrame s).chan c).publishDrops ∧
    s.atSlip.chan c = { s.chan c with publishDrops := (u.chan c).publishDrops } := by
  have hp : (u.chan c).publishDrops = ((abandonFrame s).chan c).publishDrops := by
    rw [hu, (boundaryStation_frame _ _).chan, retake_publishDrops, atSlip_chan]
  exact ⟨hp, by rw [hp, atSlip_chan]; exact (abandonFrame_chan s c).2⟩

/-- A slip with a Test Source event taken at the skipped offset is the slip of the station without it (R47; log 39). -/
theorem slip_without_test_event {w : Station} (hu : s.untested = some w) (h : s.slips = true) :
    exec .markLeadingEdge s = exec .markLeadingEdge (s.alone w) := by
  have hw : exec .markLeadingEdge (s.alone w) = .next ((s.alone w).inBoth (effect .markLeadingEdge)) :=
    exec_eq_inBoth nofun fun _ _ => rfl
  rw [exec_slip h, s.withoutTestEvent_some hu, hw]

theorem slip_gives (hu : s.untested = none) (ht : s.hasTime = true) (hb : s.boundaryDue = false)
    (hw : s.markWithin = false) : Gives .markLeadingEdge s (slip s) := by
  have he : effect .markLeadingEdge s = slip s := by
    rw [mark_effect_of_hasTime ht, takeDueBoundary_none hb, judgeMark, hw]
    rfl
  exact he ▸ gives_effect nofun fun _ _ => hu

/-- Settles O12: `boundaryStation` of the slipped station, and then the measures and sequences. -/
theorem markOutOfToleranceSlips : Obligations.MarkOutOfToleranceSlips := by
  refine ⟨fun s w hu ht hb hw => slip_without_test_event hu (by simp [State.slips, ht, hb, hw]),
    fun s hu ht hb hw => ?_⟩
  obtain ⟨u, hue⟩ : ∃ u, u = boundaryStation (s.endingWindow.toList ++ s.cutWindow.toList) s.atSlip := ⟨_, rfl⟩
  have hF : BoundaryFrame s.atSlip u := hue ▸ boundaryStation_frame _ _
  have hc := slip_chan hue
  have hS := atSlip_eq s
  have hel : s.atSlip.eu.elapsed = s.eu.elapsed := by rw [hS]; rfl
  have hedge (c : Fin 4) : (s.atSlip.chan c).edgeOf s.atSlip.eu.elapsed = (s.chan c).edgeOf s.eu.elapsed := by
    rw [(hc c).2, hel]; rfl
  refine ⟨u, hue ▸ slip_eq s ▸ slip_gives hu ht hb hw, hF.eu.trans (congrArg (·.eu) hS),
    hF.sending.trans (congrArg (·.link.sending) hS), hF.consecutive.trans (congrArg (·.link.consecutive) hS),
    hF.collisions.trans (congrArg (·.link.collisions) hS), hF.discards.trans (congrArg (·.link.discards) hS),
    hF.receiver.trans (congrArg (·.link.receiver) hS), hF.windowPresence, ?_, ?_, fun c => ?_, fun c g hg he => ?_,
    fun c r he => ?_, fun h1 h2 => ?_, fun p hp => ?_, hF.directives.trans (congrArg (·.directives) hS),
    hF.loader.trans (congrArg (·.loader) hS), hF.params.trans (congrArg (·.params) hS),
    hF.pending.trans (congrArg (·.pending) hS)⟩
  · rw [hF.statusDue, hS]; rfl
  · rw [hF.marks, hS]
  · rw [(hc c).1]; exact (abandonFrame_chan s c).1
  · have hg' : (s.atSlip.chan c).config = some g := by rw [(hc c).2]; exact hg
    have hq := hF.chan_quiet hg' ((hedge c).trans he)
    rw [(hc c).2] at hq
    exact hq
  · have hq := hF.chan_edge ((hedge c).trans he)
    rw [(hc c).2] at hq
    exact hq
  · rw [h1, h2] at hue
    rw [hue, hS]
    exact boundaryStation_none _
  · rw [hue, hp, boundaryStation_peer, if_pos rfl, hS]

end Sys2Proof.Machine
end

section
/-! PROOFS. The configuration image: what its checks ask, byte by byte, and what the load leaves. -/

namespace Sys2Proof.Machine

variable {s : State} {image : List Byte}

/-! ### The load -/

/-- The load writes a measure's configuration and state alone (R105, R106). -/
theorem loadedMeasure_spec (image : List Byte) (number : Fin 16) (i : Fin 8) :
    (loadedMeasure image number i).config = measureConfig image number i ∧
    (loadedMeasure image number i).st
      = if (measureConfig image number i).isSome then .idle else .disabled := by
  unfold loadedMeasure
  cases h : measureConfig image number i <;> exact ⟨rfl, rfl⟩

theorem loadedSequence_eq (image : List Byte) (i : Fin 4) : loadedSequence image i
    = ⟨triggerConfig image i, if (triggerConfig image i).isSome then .idle else .disabled⟩ := by
  unfold loadedSequence
  cases h : triggerConfig image i <;> rfl

theorem imageReadComplete_passes (hr : s.readDone = true) (hi : imageOk image s.loader.number = true) :
    Gives (.imageReadComplete image) s (passLoad image s) :=
  gives_of_effect_eq nofun nofun (by simp only [effect, effectImageReadComplete, judgeImage, hr, hi, if_true])

theorem imageReadComplete_fails (hr : s.readDone = true) (hi : imageOk image s.loader.number = false) :
    Gives (.imageReadComplete image) s (failLoad s) :=
  gives_of_effect_eq nofun nofun (by
    simp only [effect, effectImageReadComplete, judgeImage, hr, hi, if_true, Bool.false_eq_true, if_false])

/-! ### The five image checks -/

theorem zerosAt_iff {start n : Nat} :
    zerosAt image start n = true ↔ ∀ k, start ≤ k → k < start + n → byteAt image k = 0 := by
  simp only [zerosAt, List.all_eq_true, List.mem_range, beq_iff_eq]
  constructor
  · intro h k hlo hhi
    have := h (k - start) (by omega)
    rwa [Nat.add_sub_cancel' hlo] at this
  · intro h j hj
    exact h _ (by omega) (by omega)

/-- A channel record's fields in range and its reserved bytes 0 (R30, R190). -/
theorem channelRecordOk_iff {c : Fin 4} : channelRecordOk image c = true ↔
    byteAt image (24 + 12 * c.val) ≤ 1 ∧ byteAt image (25 + 12 * c.val) ≤ 3 ∧
    byteAt image (26 + 12 * c.val) ≤ 1 ∧ byteAt image (27 + 12 * c.val) = 0 ∧
    1 ≤ fieldAt image (30 + 12 * c.val) 3 ∧ fieldAt image (30 + 12 * c.val) 3 ≤ 65536 ∧
    byteAt image (35 + 12 * c.val) = 0 := by
  unfold channelRecordOk
  simp only [Bool.and_eq_true, decide_eq_true_eq, zerosAt_one, and_assoc]
  simp only [channelBase, Nat.add_right_comm 24 (12 * c.val), Nat.reduceAdd]

/-- The reserved bytes outside the records of channels, measures and sequences (R190). -/
theorem reservedBytes_iff :
    (∀ k, k = 3 ∨ (9 ≤ k ∧ k ≤ 15) ∨ (20 ≤ k ∧ k ≤ 23) ∨ (472 ≤ k ∧ k ≤ 508) → byteAt image k = 0) ↔
    zerosAt image 3 1 = true ∧ zerosAt image 9 7 = true ∧ zerosAt image 20 4 = true ∧
      zerosAt image 472 37 = true := by
  simp only [zerosAt_iff]
  constructor
  · intro h
    exact ⟨fun k _ _ => h k (by omega), fun k _ _ => h k (by omega), fun k _ _ => h k (by omega),
      fun k _ _ => h k (by omega)⟩
  · rintro ⟨h3, h9, h20, h472⟩ k (rfl | ⟨hlo, hhi⟩ | ⟨hlo, hhi⟩ | ⟨hlo, hhi⟩)
    · exact h3 3 (by omega) (by omega)
    · exact h9 k hlo (by omega)
    · exact h20 k hlo (by omega)
    · exact h472 k hlo (by omega)

/-- Check 4 (R190). -/
theorem fieldsOk_iff : fieldsOk image = true ↔
    2 ≤ byteAt image 4 ∧ byteAt image 4 ≤ 16 ∧ 16 ≤ byteAt image 5 ∧ byteAt image 5 ≤ 24 ∧
    byteAt image 6 ≤ 3 ∧ 2 ≤ byteAt image 7 ∧ byteAt image 7 ≤ 15 ∧
    1 ≤ byteAt image 8 ∧ byteAt image 8 ≤ 15 ∧ 1 ≤ byteAt image 17 ∧
    (∀ k, k = 3 ∨ (9 ≤ k ∧ k ≤ 15) ∨ (20 ≤ k ∧ k ≤ 23) ∨ (472 ≤ k ∧ k ≤ 508) → byteAt image k = 0) ∧
    ∀ c : Fin 4, byteAt image (24 + 12 * c.val) ≤ 1 ∧ byteAt image (25 + 12 * c.val) ≤ 3 ∧
      byteAt image (26 + 12 * c.val) ≤ 1 ∧ byteAt image (27 + 12 * c.val) = 0 ∧
      1 ≤ fieldAt image (30 + 12 * c.val) 3 ∧ fieldAt image (30 + 12 * c.val) 3 ≤ 65536 ∧
      byteAt image (35 + 12 * c.val) = 0 := by
  simp only [fieldsOk, reservedBytes_iff, ← channelRecordOk_iff, Bool.and_eq_true, decide_eq_true_eq,
    List.all_eq_true, List.mem_finRange, true_implies]
  tauto

/-- The five checks (R188). -/
theorem imageOk_iff {number : Fin 16} : imageOk image number = true ↔
    (byteAt image 0 = 0xC5 ∧ byteAt image 1 = 0x3A) ∧ byteAt image 2 = 0x02 ∧
    (crc24 (image.take 509)).toNat = fieldAt image 509 3 ∧ fieldsOk image = true ∧
    byteAt image 4 ≤ (2 ^ byteAt image 5 - 256) / (672 * (4 * 2 ^ byteAt image 6)) ∧
    number.val < byteAt image 4 := by
  unfold imageOk markerOk revisionOk imageCrcOk placeOk
  simp only [Bool.and_eq_true, beq_iff_eq, decide_eq_true_eq, and_assoc]
  exact Iff.rfl

/-! ### Parameters and channels -/

theorem byte_toNat (image : List Byte) (i : Nat) : (BitVec.ofNat 8 (byteAt image i)).toNat = byteAt image i :=
  Nat.mod_eq_of_lt (byteAt_lt image i)

theorem imageParams_spec (image : List Byte) :
    (imageParams image).stations.toNat = byteAt image 4 ∧ (imageParams image).exponent.toNat = byteAt image 5 ∧
    (imageParams image).bitCode.toNat = byteAt image 6 ∧ (imageParams image).missLimit.toNat = byteAt image 7 ∧
    (imageParams image).tolerance.toNat = byteAt image 8 ∧ (imageParams image).delay.toNat = byteAt image 16 ∧
    (imageParams image).statusInterval.toNat = byteAt image 17 ∧
    (imageParams image).density.toNat = fieldAt image 18 2 :=
  ⟨byte_toNat .., byte_toNat .., byte_toNat .., byte_toNat .., byte_toNat .., byte_toNat .., byte_toNat ..,
    fieldAt_mod image 18 (by decide)⟩

theorem channelConfig_spec (image : List Byte) (c : Fin 4) {r : Nat} (hr : channelBase c = r) :
    ((channelConfig image c).input = .test ↔ byteAt image r = 1) ∧
    (channelConfig image c).edges = (if byteAt image (r + 1) = 1 then .rise
      else if byteAt image (r + 1) = 2 then .fall else if byteAt image (r + 1) = 3 then .both else .off) ∧
    ((channelConfig image c).publish = true ↔ byteAt image (r + 2) = 1) ∧
    (channelConfig image c).holdoff = fieldAt image (r + 4) 2 ∧
    (channelConfig image c).prescale = fieldAt image (r + 6) 3 ∧
    (channelConfig image c).rate = fieldAt image (r + 9) 2 := by
  subst hr
  refine ⟨?_, edgesOfCode_eq _, beq_iff_eq, rfl, rfl, rfl⟩
  show inputOfCode _ = .test ↔ _
  unfold inputOfCode
  split <;> simp_all

/-! ### Measure and trigger records -/

/-- A measure is loaded from its record exactly when the record is not DISABLED and its checks pass (R105). -/
theorem measureConfig_isSome_spec {number : Fin 16} {i : Fin 8} {r : Nat} (hr : measureBase i = r) :
    (measureConfig image number i).isSome = true ↔
      (1 ≤ byteAt image r ∧ byteAt image r ≤ 3 ∧ byteAt image (r + 1) ≤ 3 ∧ byteAt image (r + 2) ≤ 1 ∧
        byteAt image (r + 3) ≤ 1 ∧ byteAt image (r + 16) ≤ 1 ∧
        (byteAt image (r + 2) = 1 → byteAt image (r + 1) = 1) ∧
        ∀ k, k = 4 ∨ k = 7 ∨ k = 10 →
          byteAt image (r + k) ≤ 15 ∧ byteAt image (r + k + 1) ≤ 3 ∧ byteAt image (r + k + 2) ≤ 2) ∧
      (1 ≤ fieldAt image (r + 24) 2 ∧ fieldAt image (r + 24) 2 ≤ 32767 ∧
        (byteAt image r = 3 → 1 ≤ fieldAt image (r + 22) 2) ∧
        (byteAt image (r + 1) = 1 → 1 ≤ fieldAt image (r + 18) 4)) ∧
      (byteAt image r = 3 → fieldAt image (r + 26) 6 ≤ fieldAt image (r + 32) 6) ∧
      (byteAt image (r + 1) = 1 →
        fieldAt image (r + 18) 4 ≤ fieldAt image (r + 24) 2 * 2 ^ byteAt image 5) ∧
      (∀ k, k = 4 ∨ (k = 7 ∧ byteAt image r = 3) ∨ (k = 10 ∧ byteAt image (r + 1) = 2) →
        byteAt image (r + k) < byteAt image 4 ∧
        (byteAt image (r + k) = number.val → 1 ≤ byteAt image (25 + 12 * byteAt image (r + k + 1)) ∧
          byteAt image (25 + 12 * byteAt image (r + k + 1)) ≤ 3)) ∧
      (byteAt image r = 1 → byteAt image (r + 4) = number.val ∧ byteAt image (r + 6) = 0 ∧
        (byteAt image (r + 1) = 2 → byteAt image (r + 10) = number.val)) ∧
      (byteAt image r ≠ 3 → byteAt image (r + 1) ≠ 0) ∧
      (byteAt image (r + 13) < 8 ∧ byteAt image (r + 14) < 64 ∧
        ∀ k, k = 17 ∨ k = 38 ∨ k = 39 → byteAt image (r + k) = 0) := by
  rw [measureConfig_isSome_iff, hr]
  constructor
  · rintro ⟨h0, hc, hv, hf⟩
    obtain ⟨hk, hg, ha, hp, hauto, hmark, s4, s7, s10⟩ := (measureCodesOk_iff hr).mp hc
    obtain ⟨ranges, window, timed, sources, totalize, free⟩ := (measureFieldsOk_iff hr h0 hc).mp hf
    obtain ⟨v13, v14, v17, v38, v39⟩ := (measureReservedOk_iff hr).mp hv
    refine ⟨⟨by omega, hk, hg, ha, hp, hauto, hmark, ?_⟩, ranges, window, timed, sources, totalize, free, v13, v14, ?_⟩
    · rintro k (rfl | rfl | rfl) <;> assumption
    · rintro k (rfl | rfl | rfl) <;> assumption
  · rintro ⟨⟨h1, hk, hg, ha, hp, hauto, hmark, hs⟩, ranges, window, timed, sources, totalize, free, v13, v14, hv⟩
    have h0 : byteAt image r ≠ 0 := by omega
    have hc := (measureCodesOk_iff hr).mpr ⟨hk, hg, ha, hp, hauto, hmark, hs 4 (by simp), hs 7 (by simp), hs 10 (by simp)⟩
    exact ⟨h0, hc, (measureReservedOk_iff hr).mpr ⟨v13, v14, hv 17 (by simp), hv 38 (by simp), hv 39 (by simp)⟩,
      (measureFieldsOk_iff hr h0 hc).mpr ⟨ranges, window, timed, sources, totalize, free⟩⟩

/-- A sequence is loaded from its record exactly when its source is not NONE and its checks pass (R179). -/
theorem triggerConfig_isSome_spec {i : Fin 4} {r : Nat} (hr : triggerBase i = r) :
    (triggerConfig image i).isSome = true ↔
      (1 ≤ byteAt image r ∧ byteAt image r ≤ 2) ∧
      (byteAt image (r + 1) < 64 ∧ byteAt image (r + 1) / 4 % 4 = 0 ∧ byteAt image (r + 1) / 16 ≤ 2) ∧
      byteAt image (r + 2) ≤ 7 ∧ 1 ≤ byteAt image (r + 3) ∧ byteAt image (r + 3) ≤ 3 ∧
      byteAt image (r + 4) = 0 ∧
      (byteAt image r = 1 → 1 ≤ byteAt image (25 + 12 * (byteAt image (r + 1) % 4)) ∧
        byteAt image (25 + 12 * (byteAt image (r + 1) % 4)) ≤ 3) ∧
      ∀ j, j < byteAt image (r + 3) →
        (byteAt image (r + 5 + 5 * j) = 16 ∨ byteAt image (r + 5 + 5 * j) < byteAt image 4) ∧
        1 ≤ byteAt image (r + 6 + 5 * j) ∧ byteAt image (r + 6 + 5 * j) ≤ 7 ∧
        1 ≤ byteAt image (r + 8 + 5 * j) := by
  rw [triggerConfig_isSome_iff hr, triggerHeadOk_iff, ← Nat.one_le_iff_ne_zero]
  simp only [stepOk_iff]
  tauto

/-- The steps of a loaded sequence have the bytes of the record (Formats). -/
theorem stepAt_spec {r j : Nat} (h : stepOk image r j = true) :
    (stepAt image r j).target = BitVec.ofNat 5 (byteAt image (r + 5 + 5 * j)) ∧
    (stepAt image r j).code.toNat = byteAt image (r + 6 + 5 * j) ∧
    (stepAt image r j).mask.toNat = byteAt image (r + 7 + 5 * j) ∧
    (stepAt image r j).lead.toNat = byteAt image (r + 8 + 5 * j) ∧
    (stepAt image r j).pause.toNat = byteAt image (r + 9 + 5 * j) := by
  obtain ⟨-, -, hc, -⟩ := stepOk_iff.mp h
  exact ⟨rfl, Nat.mod_eq_of_lt (by omega), byte_toNat .., byte_toNat .., byte_toNat ..⟩

/-- What a loaded sequence holds (R179, Formats). -/
theorem triggerConfig_spec {i : Fin 4} {r : Nat} (hr : triggerBase i = r) {c : TriggerConfig}
    (h : triggerConfig image i = some c) :
    (byteAt image r = 1 → ∃ ch p, c.source = .channel ch p ∧ ch.val = byteAt image (r + 1) % 4 ∧
      p = if byteAt image (r + 1) / 16 = 0 then .any
        else if byteAt image (r + 1) / 16 = 1 then .rise else .fall) ∧
    (byteAt image r = 2 → ∃ m, c.source = .measure m ∧ m.val = byteAt image (r + 2)) ∧
    c.steps.length = byteAt image (r + 3) ∧
    ∀ (j : Nat) (h : j < c.steps.length),
      c.steps[j].target = BitVec.ofNat 5 (byteAt image (r + 5 + 5 * j)) ∧
      c.steps[j].code.toNat = byteAt image (r + 6 + 5 * j) ∧
      c.steps[j].mask.toNat = byteAt image (r + 7 + 5 * j) ∧
      c.steps[j].lead.toNat = byteAt image (r + 8 + 5 * j) ∧
      c.steps[j].pause.toNat = byteAt image (r + 9 + 5 * j) := by
  obtain ⟨⟨-, hhead, hsteps⟩, rfl⟩ := (triggerConfig_eq_some_iff hr).mp h
  obtain ⟨hch, hm⟩ := triggerSource_spec hhead
  refine ⟨hch, hm, by simp, fun j hj => ?_⟩
  have hj' : j < byteAt image (r + 3) := by simpa using hj
  simp only [List.getElem_map, List.getElem_range]
  exact stepAt_spec (hsteps j hj')

/-- Settles O9: the two ends of IMAGE_READ_COMPLETE, and each check and field by its own lemma. -/
theorem imageLoadsOrFaults : Obligations.ImageLoadsOrFaults := by
  refine ⟨fun s image hr hi => ?_, fun s image hr hi => ⟨imageReadComplete_fails hr hi, rfl, rfl⟩,
    fun image number => ?_, fun image number i r hr => ⟨measureConfig_isSome_spec hr.symm, fun c hc => ?_⟩,
    fun image i r hr => ⟨triggerConfig_isSome_spec hr.symm, fun c hc => triggerConfig_spec hr.symm hc⟩,
    fun image p hp => hp ▸ imageParams_spec image, fun image c r g hr hg => hg ▸ channelConfig_spec image c hr.symm,
    fun image a n => ⟨rfl, ?_⟩⟩
  · refine ⟨passLoad image s, imageReadComplete_passes hr hi, rfl, rfl, rfl, rfl, rfl, fun i => maskOf_getLsbD _ i,
      fun i => maskOf_getLsbD _ i, fun c => ?_, fun i => ?_, fun i => ?_, rfl, rfl, rfl, rfl, rfl, rfl⟩
    · have hc : (passLoad image s).chan c = loadedChannel image c := Table.get_build _ c
      rw [hc]
      exact ⟨rfl, rfl⟩
    · have hm : (passLoad image s).meas i = loadedMeasure image s.loader.number i := Table.get_build _ i
      rw [hm]
      exact loadedMeasure_spec image _ i
    · exact (Table.get_build _ i).trans (loadedSequence_eq image i)
  · rw [imageOk_iff, fieldsOk_iff]
    tauto
  · obtain ⟨⟨h0, hcodes, hres, -⟩, hf⟩ := measureConfig_eq_some_iff.mp hc
    exact measureFields_spec hr.symm (hr ▸ h0) hcodes hres hf
  · rw [Nat.mul_comm]
    rfl

end Sys2Proof.Machine
end

section
/-! PROOFS. Reception: the checks of a frame, frames that are not applied, and frames that move the epoch. -/

namespace Sys2Proof.Machine

variable {s t u : State} {x : Reception} {f : ReadFrame} {p : Fin 16}

/-- The link without the reception that has ended. -/
def State.received (s : State) : State := { s with link := { s.link with receiver := none } }

theorem frameReceived_gives {bits : List Bool} (straps : BitVec 4) (hx : s.endingReception bits = some x)
    (hd : s.deaf = false) : Gives (.frameReceived bits straps) s (receiveFrame x straps (readFrame bits) s) :=
  gives_of_effect_eq nofun nofun (by
    simp only [effect, effectFrameReceived, hx, hd, Bool.false_eq_true, if_false])

/-! ### The checks of a frame -/

/-- Checks 1 to 5 (R84). -/
theorem formOk_iff : s.formOk x f = true ↔
    (f.startOk = true ∧ x.distance < 16 * s.bitPeriod) ∧ f.crcOk = true ∧
    (f.count ≤ 8 ∧ ∀ r ∈ f.records, r ≠ .unknown) ∧
    (f.sender < s.params.stations.toNat ∧ f.sender ≠ s.loader.number.val) ∧
    ∃ w, x.window = some w ∧ w % s.params.stations.toNat = f.sender := by
  unfold State.formOk
  rcases hw : x.window with _ | w
  · simp
  · simp only [Bool.and_eq_true, decide_eq_true_eq, List.all_eq_true, bne_iff_ne, beq_iff_eq, and_assoc,
      Option.some.injEq, exists_eq_left']
    exact Iff.rfl

theorem finOfNat_sender (hp : p.val = f.sender) : finOfNat 15 f.sender = p :=
  (finOfNat_eq (by omega)).mpr hp.symm

theorem receiveFrame_malformed (straps : BitVec 4) (h : s.formOk x f = false) :
    receiveFrame x straps f s = s.received.countDiscard := by
  unfold receiveFrame
  rw [h]
  rfl

theorem receiveFrame_foreign (straps : BitVec 4) (h : s.formOk x f = true) (hs : f.signature ≠ s.loader.signature) :
    receiveFrame x straps f s = takeForeign x f s.received := by
  unfold receiveFrame
  rw [h]
  exact if_neg hs

theorem receiveFrame_own (straps : BitVec 4) (h : s.formOk x f = true) (hs : f.signature = s.loader.signature) :
    receiveFrame x straps f s = takeFrame x straps f s.received := by
  unfold receiveFrame
  rw [h]
  exact if_pos hs

/-- The noted presence after a frame: the window's owner is present, unless the window was cut (R69). -/
theorem notePresence_eq (x : Reception) (s : State) : notePresence x s = { s with link := { s.link with
    windowPresence := if x.cut then s.link.windowPresence else true } } := by
  unfold notePresence
  split <;> rfl

/-! ### Checks 7 and 8 -/

theorem epochOk_eq_false (h : compareEpoch s.eu.epoch f.epoch = .lt) : s.epochOk f = false := by
  simp [State.epochOk, h]

theorem horizonOk_eq_false {b : Peer} {h old : TimeStamp} (hp : b.st = .present) (ho : b.horizon = some old)
    (hc : compareTime old h = .lt) : horizonOk b h = false := by
  simp [horizonOk, hp, ho, hc]

theorem judgeEpoch_accepted {b : Peer} (straps : BitVec 4) (he : s.epochOk f = true)
    (hh : horizonOk b f.horizon = true) : judgeEpoch p straps b f s = dispatch p straps f (adoptFrom f s) := by
  simp [judgeEpoch, he, hh]

theorem judgeEpoch_refused {b : Peer} (straps : BitVec 4) (h : s.epochOk f = false ∨ horizonOk b f.horizon = false) :
    judgeEpoch p straps b f s = s.countDiscard := by
  unfold judgeEpoch
  rcases h with h | h <;> simp [h]

theorem joinBy_hasTime (h : s.hasTime = true) : joinBy f s = s := by
  refine if_neg fun k => ?_
  rcases hasTime_iff.mp h with ha | ha <;> rw [ha] at k <;> cases k

/-- A station with local time judges the frame of its sender against the sender's entry as it stood (R86). -/
theorem takeFrame_hasTime (straps : BitVec 4) (ht : s.hasTime = true) (hp : p.val = f.sender) :
    takeFrame x straps f s = judgeEpoch p straps (s.peer p) f (presence p (notePresence x s)) := by
  unfold takeFrame
  dsimp only
  rw [finOfNat_sender hp, joinBy_hasTime ht]

/-- Settles O47: a malformed frame is a discard, a foreign one a foreign presence, and one that check 7 or 8 refuses a
presence and a discard. -/
theorem unusedFramesAreNotApplied : Obligations.UnusedFramesAreNotApplied := by
  refine ⟨fun s bits straps x hx hd hf => ?_, fun s bits straps x hx hd hf hs => ⟨fun ht => ?_, fun p ht hp => ?_⟩,
    fun s bits straps x p hx ht hd hf hs hp hr => ?_, fun s x f => formOk_iff⟩
  · have hg := frameReceived_gives straps hx hd
    rw [receiveFrame_malformed straps hf] at hg
    exact hg
  · have hg := frameReceived_gives straps hx hd
    have hn : takeForeign x (readFrame bits) s.received = s.received := if_neg (by
      show ¬ s.hasTime = true
      rw [ht]; nofun)
    rw [receiveFrame_foreign straps hf hs, hn] at hg
    exact hg
  · have hg := frameReceived_gives straps hx hd
    have hn : takeForeign x (readFrame bits) s.received = foreignPresence p (notePresence x s.received) := by
      rw [← finOfNat_sender hp]
      exact if_pos ht
    rw [receiveFrame_foreign straps hf hs, hn, notePresence_eq] at hg
    exact hg
  · have hg := frameReceived_gives straps hx hd
    have href : (presence p (notePresence x s.received)).epochOk (readFrame bits) = false ∨
        horizonOk (s.received.peer p) (readFrame bits).horizon = false := by
      rw [notePresence_eq]
      rcases hr with h | ⟨hst, old, ho, hc⟩
      · exact .inl (epochOk_eq_false h)
      · exact .inr (horizonOk_eq_false hst ho hc)
    rw [receiveFrame_own straps hf hs, takeFrame_hasTime (s := s.received) straps ht hp,
      judgeEpoch_refused straps href,
      notePresence_eq] at hg
    exact hg

/-! ### A greater epoch, and joining -/

/-- The station after a frame of p has been noted and its presence taken (R69, R93). -/
def State.noted (s : State) (x : Reception) (p : Fin 16) : State := presence p (notePresence x s)

theorem noted_eq (s : State) (x : Reception) (p : Fin 16) : s.noted x p =
    { s.setPeer p (s.peer p).presence with link := { s.link with
      windowPresence := if x.cut then s.link.windowPresence else true } } := by
  unfold State.noted
  rw [notePresence_eq]
  rfl

theorem presence_st (y : Peer) : y.presence.st = .present ∧ y.presence.missed = 0 := by
  unfold Peer.presence
  split <;> exact ⟨rfl, rfl⟩

/-- A dispatched frame without records writes the sender's horizon and discontinuity epoch alone (R87, R97). -/
theorem dispatch_empty (straps : BitVec 4) (ht : u.hasTime = true) (hr : f.records = [])
    (hp : (u.peer p).st = .present ∧ (u.peer p).missed = 0) :
    dispatch p straps f u = u.setPeer p ⟨.present, some f.horizon, some f.disc, 0⟩ := by
  obtain ⟨hst, hmiss⟩ := hp
  unfold dispatch writeHorizon
  rw [hr, List.foldl_nil, ht, if_pos rfl, ← hst, ← hmiss]

/-- What adoption of epoch e leaves (R23, R33, R177, R195). -/
theorem adopt_eq (e : BitVec 16) (s : State) : adopt e s =
    { s with
      eu := { s.eu.beginHold with epoch := e, disc := e }
      channels := (adopt e s).channels
      link := { s.link with statusDue := e.toNat % s.params.statusInterval.toNat == 0 }
      directives := []
      directiveDrops := satAdd s.directiveDrops s.directives.length } := rfl

theorem adopt_chan (e : BitVec 16) (s : State) (c : Fin 4) :
    (adopt e s).chan c = (adopt e s).retake id (s.chan c) := by
  have h := retakeEdges_chan id { s with eu := { s.eu.beginHold with epoch := e, disc := e } } c
  exact h.trans (retake_congr (s := adopt e s) rfl rfl id (s.chan c))

theorem adoptFrom_greater (h : compareEpoch s.eu.epoch f.epoch = .gt) : adoptFrom f s = adopt f.epoch s := if_pos h

theorem compareEpoch_self (e : BitVec 16) : compareEpoch e e = .eq := by simp [compareEpoch]

/-- A frame of the station's own epoch is not adopted (R23). -/
theorem adoptFrom_equal (h : f.epoch = s.eu.epoch) : adoptFrom f s = s := by
  refine if_neg ?_
  rw [h, compareEpoch_self]
  nofun

/-- A station with local time adopts a greater epoch of a frame that passes the checks, and dispatches it (R23, R87). -/
theorem takeFrame_adopts (straps : BitVec 4) (ht : s.hasTime = true) (hp : p.val = f.sender)
    (hh : horizonOk (s.peer p) f.horizon = true) (he : compareEpoch s.eu.epoch f.epoch = .gt) :
    takeFrame x straps f s = dispatch p straps f (adopt f.epoch (s.noted x p)) := by
  have hn : (s.noted x p).eu = s.eu := by rw [noted_eq]; rfl
  have hok : (s.noted x p).epochOk f = true := by simp [State.epochOk, hn, he]
  have hg := judgeEpoch_accepted (p := p) (b := s.peer p) straps hok hh
  rw [adoptFrom_greater (hn ▸ he)] at hg
  exact (takeFrame_hasTime straps ht hp).trans hg

theorem joinBy_aligning (h : s.eu.align = some .aligning) :
    joinBy f s = becomeLocked f.epoch (s.eu.offset % s.epochLength) .joined s := if_pos h

/-- In ALIGNING the frame gives the station its epoch, and is then dispatched as one of its own epoch (R16, R87). -/
theorem takeFrame_joins (straps : BitVec 4) (ha : s.eu.align = some .aligning) (hp : p.val = f.sender)
    (hh : horizonOk (s.peer p) f.horizon = true) {v : State}
    (hv : v = takeHeldEdges (setLocked f.epoch (s.eu.offset % s.epochLength) .joined s)) :
    takeFrame x straps f s = dispatch p straps f (v.noted x p) := by
  have hF := takeHeldEdges_frame (setLocked f.epoch (s.eu.offset % s.epochLength) .joined s)
  rw [← hv] at hF
  have hpeer : v.peer p = s.peer p := congrArg (Table.get · p) hF.peers
  have he : f.epoch = (v.noted x p).eu.epoch := by
    have h1 : (v.noted x p).eu = v.eu := by rw [noted_eq]; rfl
    rw [h1, hF.eu]
    rfl
  have hok : (v.noted x p).epochOk f = true := by simp [State.epochOk, ← he, compareEpoch_self]
  have hg := judgeEpoch_accepted (p := p) (b := v.peer p) straps hok (hpeer ▸ hh)
  rw [adoptFrom_equal he] at hg
  unfold takeFrame
  dsimp only
  rw [finOfNat_sender hp, joinBy_aligning ha, becomeLocked, ← hv]
  exact hg

theorem noted_peer (s : State) (x : Reception) (p : Fin 16) :
    (s.noted x p).peer p = (s.peer p).presence ∧ ∀ q, q ≠ p → (s.noted x p).peer q = s.peer q := by
  rw [noted_eq]
  exact ⟨by simp [State.peer], fun q hq => by simp [State.peer, hq]⟩

/-- What adoption of epoch e by a frame of p makes of a station, part by part (R23, R33, R93, R177, R195). -/
structure Adopted (s v : State) (e : BitVec 16) (x : Reception) (p : Fin 16) : Prop where
  eu : v.eu = { s.eu.beginHold with epoch := e, disc := e }
  directives : v.directives = []
  directiveDrops : v.directiveDrops = satAdd s.directiveDrops s.directives.length
  sender : v.peer p = (s.peer p).presence
  others : ∀ q, q ≠ p → v.peer q = s.peer q
  link : v.link = { s.link with
    receiver := none
    windowPresence := if x.cut then s.link.windowPresence else true
    statusDue := e.toNat % s.params.statusInterval.toNat == 0 }
  chan : ∀ c, v.chan c = v.retake id (s.chan c)
  store : v.store = s.store
  measures : v.measures = s.measures
  queue : v.queue = s.queue
  sequences : v.sequences = s.sequences
  triggerOverruns : v.triggerOverruns = s.triggerOverruns

theorem adopted_of_eq {e : BitVec 16} {v : State} (hv : v = adopt e (s.received.noted x p)) : Adopted s v e x p := by
  have hn := noted_eq s.received x p
  obtain ⟨hsender, hothers⟩ := noted_peer s.received x p
  have hp (q : Fin 16) : v.peer q = (s.received.noted x p).peer q := by rw [hv]; rfl
  have hc (c : Fin 4) : (s.received.noted x p).chan c = s.chan c := by rw [hn]; rfl
  exact
    { eu := by rw [hv, adopt_eq, hn]; rfl
      directives := by rw [hv]; rfl
      directiveDrops := by rw [hv, adopt_eq, hn]; rfl
      sender := (hp p).trans hsender
      others := fun q hq => (hp q).trans (hothers q hq)
      link := by rw [hv, adopt_eq, hn]; rfl
      chan := fun c => by rw [hv, adopt_chan, hc]
      store := by rw [hv, adopt_eq, hn]; rfl
      measures := by rw [hv, adopt_eq, hn]; rfl
      queue := by rw [hv, adopt_eq, hn]; rfl
      sequences := by rw [hv, adopt_eq, hn]; rfl
      triggerOverruns := by rw [hv, adopt_eq, hn]; rfl }

theorem Adopted.hasTime {e : BitVec 16} {v : State} (h : Adopted s v e x p) (ht : s.hasTime = true) :
    v.hasTime = true :=
  (hasTime_congr (by rw [h.eu]; rfl)).trans ht

/-- Held edges fill the outbox alone of the link. -/
theorem takeHeldEdges_link (u : State) :
    (takeHeldEdges u).link = { u.link with outbox := (takeHeldEdges u).link.outbox } :=
  congrArg (fun l : Link => { l with outbox := (takeHeldEdges u).link.outbox }) (takeHeldEdges_frame u).link

/-- What joining by a frame of p makes of a station: it is locked by the frame's epoch, takes the held edges, and notes
the frame (R16, R34, R93). -/
theorem joined_eq {w v : State} (hw : w = takeHeldEdges u) (hv : v = w.noted x p) : v =
    { w.setPeer p (u.peer p).presence with
      eu := u.eu
      marks := { u.marks with edges := [] }
      link := { u.link with
        outbox := w.link.outbox
        windowPresence := if x.cut then u.link.windowPresence else true } } := by
  have hF := takeHeldEdges_frame u
  have hl := takeHeldEdges_link u
  rw [← hw] at hF hl
  have heu : w.eu = u.eu := hF.eu
  have hm : w.marks = { u.marks with edges := [] } := hF.marks
  have hpeer : w.peer p = u.peer p := congrArg (Table.get · p) hF.peers
  rw [hv, noted_eq, ← hpeer, ← heu, ← hm, hl]
  rfl

/-- Settles O49: a greater epoch is adopted, and in ALIGNING the frame's epoch is joined; then the frame is
dispatched. -/
theorem frameIsAdoptedOrJoined : Obligations.FrameIsAdoptedOrJoined := by
  intro s bits straps x p hx hd hf hs hp hh
  have hg := frameReceived_gives straps hx hd
  rw [receiveFrame_own straps hf hs] at hg
  generalize readFrame bits = f at *
  refine ⟨fun ht he => ?_, fun ha => ?_⟩
  · obtain ⟨v, hv⟩ : ∃ v, v = adopt f.epoch (s.received.noted x p) := ⟨_, rfl⟩
    rw [takeFrame_adopts (s := s.received) straps ht hp hh he, ← hv] at hg
    have hA := adopted_of_eq hv
    have hel : v.eu.elapsed = s.eu.elapsed := by rw [hA.eu]; rfl
    refine ⟨v, hg, hA.eu, hA.directives, hA.directiveDrops, hA.sender, hA.others, by rw [hA.link],
      by rw [hA.link], by rw [hA.link], fun c hc => ?_, fun c r hc => ?_, hA.store,
      hA.measures, hA.queue, ?_, fun hr => ?_⟩
    · rw [hA.chan, retake_of_none (hel ▸ hc)]
      rfl
    · rw [hA.chan, retake_of_some (hel ▸ hc)]
      rfl
    · rw [State.triggerSide, hA.sequences, hA.link, hA.triggerOverruns]
      rfl
    · rw [dispatch_empty straps (hA.hasTime ht) hr (hA.sender ▸ presence_st _)] at hg
      exact hg
  · obtain ⟨u, hu⟩ : ∃ u, u = setLocked f.epoch (s.eu.offset % s.epochLength) .joined s.received := ⟨_, rfl⟩
    obtain ⟨w, hw⟩ : ∃ w, w = takeHeldEdges u := ⟨_, rfl⟩
    obtain ⟨v, hv⟩ : ∃ v, v = w.noted x p := ⟨_, rfl⟩
    have hF := takeHeldEdges_frame u
    rw [takeFrame_joins (s := s.received) straps ha hp hh (hu ▸ hw), ← hv] at hg
    have hve := joined_eq hw hv
    have hU : EpochFrame s.received u := hu ▸ setLocked_frame ..
    have heu : v.eu = u.eu := by rw [hve]
    have hlock : v.ready = true := hasTime_iff.mpr (.inl (by rw [heu, hu]; rfl))
    have hcut : v.link.windowPresence = !x.cut := by
      rw [hve, hu]
      cases x.cut <;> rfl
    have hpeer : v.peer p = (s.peer p).presence ∧ ∀ q, q ≠ p → v.peer q = s.peer q := by
      obtain ⟨h1, h2⟩ := noted_peer w x p
      have hp (q : Fin 16) : w.peer q = s.peer q := by
        rw [hw]; exact congrArg (Table.get · q) (hF.peers.trans hU.peers)
      rw [hv]
      exact ⟨hp p ▸ h1, fun q hq => (h2 q hq).trans (hp q)⟩
    have htrig : v.channels = w.channels ∧ v.triggerSide = w.triggerSide := by rw [hve]; exact ⟨rfl, rfl⟩
    refine ⟨v, hg, by rw [heu, hu]; rfl, by rw [heu, hu]; rfl, by rw [heu, hu]; rfl, by rw [heu, hu]; rfl,
      by rw [heu, hu]; rfl, hlock, by rw [heu, hu]; rfl, by rw [heu, hu]; rfl,
      localHorizon_of_no_hold (by rw [heu, hu]; rfl), by rw [heu, hu]; rfl, by rw [hve, hu]; rfl, hpeer.1, hpeer.2,
      ?_, ?_, ?_, ?_, by rw [hve, hu]; rfl, hcut, by rw [hve, hu]; rfl, ⟨u, hU, heu.symm, by rw [hu]; rfl, hw ▸ htrig⟩,
      fun hm => ?_, fun hr => ?_⟩
    · rw [hve, hw]; exact hF.store.trans hU.store
    · rw [hve, hw]; exact hF.measures.trans hU.measures
    · rw [hve, hw]; exact hF.queue.trans hU.queue
    · rw [hve, hw]; exact hF.directives.trans hU.directives
    · have hn : w = u := hw.trans (takeHeldEdges_none (by rw [hu]; exact hm))
      rw [htrig.1, htrig.2, hn, hu]
      exact ⟨rfl, rfl⟩
    · rw [dispatch_empty straps hlock hr (hpeer.1 ▸ presence_st _)] at hg
      exact hg

end Sys2Proof.Machine
end

section
/-! PROOFS. A sample: taken out of the views, tested in order, and accumulated. -/

namespace Sys2Proof.Machine

variable {s t : State} {i : Fin 8}

/-! ### What passing does to the measure -/

/-- What an examined drop count of an A or B stamp does to the measure (R131). -/
theorem examineAB_meas (e : Entry) (s : State) : (examineAB i e s).meas i =
    if s.hasExamined i e = true ∨ e.drops = 0 then s.meas i
    else if e.drops = 255 then
      (if (s.meas i).kind = .interval then { s.meas i with lossMark := true } else s.meas i)
    else (s.meas i).qualify .drops := by
  have hm : (s.markExamined i e).meas i = s.meas i := rfl
  unfold examineAB
  dsimp only
  split
  · rename_i hx
    rw [if_pos (.inl hx)]
  · rename_i hx
    split
    · rename_i h0
      rw [if_pos (.inr h0), hm]
    · rename_i h0
      rw [if_neg (not_or.mpr ⟨hx, h0⟩)]
      split
      · split
        · rw [State.meas_modMeas, if_pos rfl, hm]
        · exact hm
      · rw [State.meas_modMeas, if_pos rfl, hm]

theorem passEntry_meas (r : Role) (e : Entry) (s : State) (j : Fin 8) : (s.passEntry i r e).meas j = s.meas j := rfl

theorem passExamined_meas (r : Role) (e : Entry) (s : State) :
    (passExamined i r s e).meas i = (examineAB i e s).meas i := rfl

theorem examineAB_queue (e : Entry) (s : State) : (examineAB i e s).queue = s.queue := by
  unfold examineAB
  dsimp only
  split
  · rfl
  · split
    · rfl
    · split
      · split <;> rfl
      · rfl

/-- Measure n is m but for its loss mark and its block's qualifiers: all that an examined drop count moves (R131). -/
def Measure.MarkedAs (m n : Measure) : Prop :=
  n = { m with lossMark := n.lossMark, block := { m.block with quals := n.block.quals } }

theorem Measure.MarkedAs.rfl' (m : Measure) : m.MarkedAs m := rfl

theorem Measure.MarkedAs.trans {m n k : Measure} (h : m.MarkedAs n) (h' : n.MarkedAs k) : m.MarkedAs k := by
  unfold Measure.MarkedAs at h h' ⊢
  rw [h] at h'
  exact h'

theorem passExamined_marks (r : Role) (e : Entry) (s : State) : (s.meas i).MarkedAs ((passExamined i r s e).meas i) := by
  rw [passExamined_meas, examineAB_meas]
  split
  · exact .rfl' _
  · split
    · split
      · rfl
      · exact .rfl' _
    · rfl

theorem foldPass_marks (r : Role) (l : List Entry) (s : State) :
    (s.meas i).MarkedAs ((l.foldl (passExamined i r) s).meas i) ∧ (l.foldl (passExamined i r) s).queue = s.queue := by
  induction l generalizing s with
  | nil => exact ⟨.rfl' _, rfl⟩
  | cons e l ih =>
    obtain ⟨h1, h2⟩ := ih (passExamined i r s e)
    exact ⟨(passExamined_marks r e s).trans h1, h2.trans (examineAB_queue e s)⟩

/-! ### A sample taken -/

/-- The station as a taken sample leaves it for its tests (R134, R136). -/
def State.sampleTaken (s : State) (i : Fin 8) (b : Entry) : State :=
  (passExamined i .B (((s.stamps i .A).filter fun a => earlier a.time b.time).foldl (passExamined i .A) s) b).modMeas i
    fun m => { m with lastStop := some b.time }

theorem takeSample_eq (c : MeasureConfig) (a b : Entry) (s : State) :
    takeSample i c a b s = testSample i c a.time b.time (s.sampleTaken i b) := rfl

theorem sampleTaken_acts (b : Entry) (s : State) : Acts true (Only i) s (s.sampleTaken i b) :=
  ((Acts.foldPass .A _ s).trans (.passExamined .B _ b)).trans (.modKeep rfl rfl rfl)

theorem sampleTaken_queue (b : Entry) (s : State) : (s.sampleTaken i b).queue = s.queue :=
  (examineAB_queue b _).trans (foldPass_marks .A _ s).2

theorem sampleTaken_meas (b : Entry) (s : State) : (s.sampleTaken i b).meas i = { s.meas i with
    lastStop := some b.time
    lossMark := ((s.sampleTaken i b).meas i).lossMark
    block := { (s.meas i).block with quals := ((s.sampleTaken i b).meas i).block.quals } } := by
  have hm := (foldPass_marks .A ((s.stamps i .A).filter fun a => earlier a.time b.time) s).1.trans
    (passExamined_marks (i := i) .B b _)
  unfold State.sampleTaken
  rw [State.meas_modMeas, if_pos rfl]
  unfold Measure.MarkedAs at hm
  rw [hm]

/-- The B role's passing leaves the stamps of the A role. -/
theorem passExamined_stamps_other {r q : Role} (h : q ≠ r) (e : Entry) (s : State) :
    ((passExamined i r s e).stamps i q).map Entry.stamp = (s.stamps i q).map Entry.stamp :=
  (passEntry_stamps_other r q h e _).trans ((examineAB_views e s).stamps i q)

/-- What a taken sample leaves of every view (R134, R136). -/
theorem sampleTaken_views (b : Entry) (s : State) :
    ((s.sampleTaken i b).stamps i .A).map Entry.stamp
      = ((s.stamps i .A).filter fun e => !earlier e.time b.time).map Entry.stamp ∧
    ((s.sampleTaken i b).view i .B).map Entry.stamp = ((s.view i .B).filter fun e => !e.same b).map Entry.stamp ∧
    (∀ j q, j ≠ i ∨ q = .G → ((s.sampleTaken i b).view j q).map Entry.stamp = (s.view j q).map Entry.stamp) ∧
    ((s.sampleTaken i b).store.filter (·.publish)).map Entry.stamp
      = (s.store.filter (·.publish)).map Entry.stamp := by
  obtain ⟨-, hviews, hpub⟩ := foldPass_passes (i := i) .A ((s.stamps i .A).filter fun a => earlier a.time b.time) s
  have hA := foldPass_earlier (i := i) b.time s
  unfold State.sampleTaken
  generalize ((s.stamps i .A).filter fun a => earlier a.time b.time).foldl (passExamined i .A) s = u at *
  have hB := passExamined_passes (i := i) .B b u
  refine ⟨(passExamined_stamps_other (by decide) b u).trans hA, hB.role.trans ?_, fun j q hq => ?_, hB.publish.trans hpub⟩
  · exact filter_stamp _ (fun e f h => by rw [same_of_stamp h]) (hviews i .B (.inr (by decide)))
  · exact (hB.others j q (hq.imp_right fun h => by rw [h]; decide)).trans
      (hviews j q (hq.imp_right fun h => by rw [h]; decide))

/-! ### The tests -/

theorem rejectBy_masked {k : FaultKind} (h : (s.meas i).masks k = true) :
    rejectBy i k s = ⟨s.setMeas i ((s.meas i).qualify (.fault k)), true⟩ := if_pos h

theorem rejectBy_unmasked {k : FaultKind} (h : (s.meas i).masks k = false) :
    rejectBy i k s = ⟨enterFault i k true s, false⟩ := if_neg (by rw [h]; nofun)

/-- A fault after a write of the measure that keeps its sequence number and its configuration. -/
theorem enterFault_faults_mod {f : Measure → Measure} (k : FaultKind) (hs : (f (s.meas i)).sequence = (s.meas i).sequence)
    (hc : (f (s.meas i)).config = (s.meas i).config) : Faults s (enterFault i k true (s.modMeas i f)) i k := by
  have hm : (s.modMeas i f).meas i = f (s.meas i) := by rw [State.meas_modMeas, if_pos rfl]
  refine (enterFault_faults i k true _).start List.prefix_rfl (by rw [hm]; exact hs.symm) ?_
  rw [hm, Measure.kind, Measure.kind, hc]

/-- A write of one measure on top of another. -/
theorem modMeas_setMeas (f : Measure → Measure) (m : Measure) : (s.modMeas i f).setMeas i m = s.setMeas i m :=
  State.setMeas_setMeas s i _ m

/-- A test that finds its condition after a write of the measure: with the condition masked its qualifier is set, else
the measure enters FAULT (R140 to R142). -/
theorem rejectBy_mod {f : Measure → Measure} (k : FaultKind) (hs : (f (s.meas i)).sequence = (s.meas i).sequence)
    (hc : (f (s.meas i)).config = (s.meas i).config) {x : Move} (hx : x = rejectBy i k (s.modMeas i f)) :
    ((s.meas i).masks k = true → x = ⟨s.setMeas i ((f (s.meas i)).qualify (.fault k)), true⟩) ∧
    ((s.meas i).masks k = false → x.goesOn = false ∧ Faults s x.state i k) := by
  have hm : (s.modMeas i f).meas i = f (s.meas i) := by rw [State.meas_modMeas, if_pos rfl]
  have hmask : ((s.modMeas i f).meas i).masks k = (s.meas i).masks k := by
    rw [hm, Measure.masks, Measure.masks, hc]
  refine ⟨fun h => ?_, fun h => ?_⟩
  · rw [hx, rejectBy_masked (hmask.trans h), modMeas_setMeas, hm]
  · rw [hx, rejectBy_unmasked (hmask.trans h)]
    exact ⟨rfl, enterFault_faults_mod k hs hc⟩

theorem testSample_over {c : MeasureConfig} {a b : TimeStamp} (h : c.spanLimit.toNat < (b.epoch - a.epoch).toNat) :
    testSample i c a b s = ⟨s.modMeas i Measure.countOverrange, true⟩ := if_pos h

theorem testSample_within {c : MeasureConfig} {a b : TimeStamp} (h : (b.epoch - a.epoch).toNat ≤ c.spanLimit.toNat) :
    testSample i c a b s = testDiscontinuity i c a b s := if_neg (by omega)

theorem testDiscontinuity_crosses {c : MeasureConfig} {a b : TimeStamp}
    (h : s.crosses a b [c.a.station, c.b.station] = true) :
    testDiscontinuity i c a b s = rejectBy i .discontinuity s := if_pos h

theorem testDiscontinuity_passes {c : MeasureConfig} {a b : TimeStamp}
    (h : s.crosses a b [c.a.station, c.b.station] = false) :
    testDiscontinuity i c a b s = testGap i c (s.sampleValue a b) s := by
  unfold testDiscontinuity MeasureConfig.sampleStations
  rw [h]
  rfl

theorem testGap_loss {c : MeasureConfig} {v : BitVec 48} (h : (s.meas i).lossMark = true) :
    testGap i c v s = rejectBy i .gap (s.modMeas i fun m => { m with lossMark := false }) := if_pos h

theorem Measure.clearLoss_eq_self {m : Measure} (h : m.lossMark = false) : { m with lossMark := false } = m := by
  cases m; cases h; rfl

theorem Measure.clearPending_eq_self {m : Measure} (hA : m.pendingA = false) (hB : m.pendingB = false) :
    { m with pendingA := false, pendingB := false } = m := by
  cases m; cases hA; cases hB; rfl

theorem testGap_passes {c : MeasureConfig} {v : BitVec 48} (h : (s.meas i).lossMark = false) :
    testGap i c v s = testStoreFull i c v s := by
  have hs : s.modMeas i (fun m => { m with lossMark := false }) = s :=
    s.modMeas_eq_self i _ (Measure.clearLoss_eq_self h)
  unfold testGap
  dsimp only
  rw [hs, h]
  rfl

theorem testStoreFull_pending {c : MeasureConfig} {v : BitVec 48}
    (h : (s.meas i).pendingA = true ∨ (s.meas i).pendingB = true) : testStoreFull i c v s
      = rejectBy i .storeFull (s.modMeas i fun m => { m with pendingA := false, pendingB := false }) :=
  if_pos (Bool.or_eq_true_iff.mpr h)

theorem testStoreFull_passes {c : MeasureConfig} {v : BitVec 48} (hA : (s.meas i).pendingA = false)
    (hB : (s.meas i).pendingB = false) : testStoreFull i c v s = testWindow i c v s := by
  have hs : s.modMeas i (fun m => { m with pendingA := false, pendingB := false }) = s :=
    s.modMeas_eq_self i _ (Measure.clearPending_eq_self hA hB)
  unfold testStoreFull
  dsimp only
  rw [hs, hA, hB]
  rfl

theorem testWindow_outside {c : MeasureConfig} {v : BitVec 48} (h : c.accept.getLsbD (c.windowFlag v) = false) :
    testWindow i c v s = ⟨s.modMeas i Measure.countRejected, true⟩ := if_neg (by rw [h]; nofun)

theorem testWindow_inside {c : MeasureConfig} {v : BitVec 48} (h : c.accept.getLsbD (c.windowFlag v) = true) :
    testWindow i c v s = accumulateSample i c v s := if_pos h

/-- The station with the sample in its block (R144). -/
def State.accumulated (s : State) (i : Fin 8) (v : BitVec 48) : State :=
  s.setMeas i { s.meas i with block := (s.meas i).block.accumulate v }

theorem accumulated_meas (v : BitVec 48) :
    (s.accumulated i v).meas i = { s.meas i with block := (s.meas i).block.accumulate v } := by
  unfold State.accumulated
  rw [State.meas_setMeas, if_pos rfl]

theorem accumulateSample_more {c : MeasureConfig} {v : BitVec 48} (h : (s.meas i).block.n + 1 ≠ c.blockSize) :
    accumulateSample i c v s = ⟨s.accumulated i v, true⟩ :=
  if_neg fun k => h (by
    have hm : (s.modMeas i fun m => { m with block := m.block.accumulate v }).meas i = _ := accumulated_meas v
    rw [hm] at k
    exact k)

theorem accumulateSample_last {c : MeasureConfig} {v : BitVec 48} (h : (s.meas i).block.n + 1 = c.blockSize) :
    accumulateSample i c v s = ⟨rescanGate i (finishInterval i (s.accumulated i v)), false⟩ :=
  if_pos (by
    have hm : (s.modMeas i fun m => { m with block := m.block.accumulate v }).meas i = _ := accumulated_meas v
    rw [hm]
    exact h)

/-! ### A finished INTERVAL block -/

/-- The station with NO_EVENTS on the block when it holds no sample (R159). -/
def State.intervalQualified (s : State) (i : Fin 8) : State :=
  s.modMeas i fun m => { m with block := { m.block with
    quals := setQualIf ((s.meas i).block.n == 0) .noEvents m.block.quals } }

theorem intervalQualified_meas (s : State) (i : Fin 8) : (s.intervalQualified i).meas i = { s.meas i with
    block := { (s.meas i).block with
      quals := setQualIf ((s.meas i).block.n == 0) .noEvents (s.meas i).block.quals } } := by
  unfold State.intervalQualified
  rw [State.meas_modMeas, if_pos rfl]

theorem finishInterval_eq (s : State) : finishInterval i s =
    finishBlock i (s.meas i).block.n (s.meas i).block.intervalValues (s.intervalQualified i) := rfl

/-- A finished INTERVAL block's group: it has the block's count, values and qualifiers (R154, R155). -/
def State.intervalGroup (s : State) (i : Fin 8) : Group :=
  (s.intervalQualified i).blockGroup i (s.meas i).block.n (s.meas i).block.intervalValues

theorem intervalGroup_kind (s : State) (i : Fin 8) : (s.intervalGroup i).kind = (s.meas i).kind := by
  show ((s.intervalQualified i).meas i).kind = _
  rw [intervalQualified_meas]
  rfl

theorem intervalGroup_quals (s : State) (i : Fin 8) : (s.intervalGroup i).quals =
    setQualIf ((s.meas i).block.n == 0) .noEvents (s.meas i).block.quals := by
  show ((s.intervalQualified i).meas i).block.quals = _
  rw [intervalQualified_meas]

/-- A finished INTERVAL block is reported, whatever the G role judges after it (R117). -/
theorem finishInterval_reports (s : State) :
    Reports s (rescanGate i (finishInterval i s)) i (s.intervalGroup i) := by
  have hs : ((s.intervalQualified i).meas i).sequence = (s.meas i).sequence := by rw [intervalQualified_meas]
  exact ((finishBlock_reports i _ _ (s.intervalQualified i)).rescan fun h => finishBlock_view i _ _ _ h .G).start
    List.prefix_rfl hs.symm

/-- With room in the queue and no rearm left a finished INTERVAL block leaves the measure IDLE (R122). -/
theorem finishInterval_idle (hr : s.queueRoom = true) (h : (s.meas i).rearms = .left 0) :
    ((rescanGate i (finishInterval i s)).meas i).st = .idle := by
  have hi : ((finishInterval i s).meas i).st = .idle :=
    finishBlock_idle i _ _ (s.intervalQualified i) hr (by rw [intervalQualified_meas]; exact h)
  rw [rescanGate_idle _ hi]
  exact hi

/-- The N-th sample finishes the block (R144, R155). -/
theorem accumulateSample_finishes {c : MeasureConfig} {v : BitVec 48} (hn : (s.meas i).block.n + 1 = c.blockSize)
    {x : Move} (hx : x = accumulateSample i c v s) :
    x.goesOn = false ∧
    ((s.meas i).rearms = .left 0 → s.queueRoom = true → (x.state.meas i).st = .idle) ∧
    ∃ g, Reports s x.state i g ∧ g.measure = i ∧ g.kind = (s.meas i).kind ∧ g.isFault = false ∧
      g.sampleCount = c.blockSize ∧ g.values = ((s.meas i).block.accumulate v).intervalValues := by
  have hm := accumulated_meas (s := s) (i := i) v
  rw [hx, accumulateSample_last hn]
  refine ⟨rfl, fun hl hr => finishInterval_idle hr (by rw [hm]; exact hl), (s.accumulated i v).intervalGroup i,
    (finishInterval_reports _).start List.prefix_rfl (by rw [hm]), rfl, ?_, rfl, ?_, ?_⟩
  · rw [intervalGroup_kind, hm]; rfl
  · show ((s.accumulated i v).meas i).block.n = _
    rw [hm]; exact hn
  · show ((s.accumulated i v).meas i).block.intervalValues = _
    rw [hm]

/-! ### Consumer sets and discontinuities -/

/-- A measure is in the consumer set exactly when one of its roles has the entry in its view (R59, R64). -/
theorem consumers_iff (f : Entry) (i : Fin 8) :
    f.consumers.getLsbD i.val = true ↔ ∃ r, f.inView i r = true := by
  simp only [Entry.consumers, BitVec.getLsbD_or, Bool.or_eq_true]
  constructor
  · rintro ((h | h) | h)
    · exact ⟨.A, h⟩
    · exact ⟨.B, h⟩
    · exact ⟨.G, h⟩
  · rintro ⟨r, h⟩
    cases r
    · exact .inl (.inl h)
    · exact .inl (.inr h)
    · exact .inr h

theorem crossesAt_iff {a b : TimeStamp} {d : BitVec 16} : crossesAt a b d = true ↔
    1 ≤ (d - a.epoch).toNat ∧ (d - a.epoch).toNat ≤ (b.epoch - a.epoch).toNat := by
  simp only [crossesAt, Bool.and_eq_true, decide_eq_true_eq]

/-- One named peer's part of the discontinuity test: a peer of which no frame has been accepted gives none (R27). -/
theorem peerCrosses_iff {a b : TimeStamp} {p : Fin 16} : (match (s.peer p).disc with
      | some d => crossesAt a b d
      | none => false) = true ↔ ∃ d, (s.peer p).disc = some d ∧ crossesAt a b d = true := by
  cases (s.peer p).disc <;> simp

/-- A span crosses a discontinuity of the own station or of a named peer (R27). -/
theorem crosses_iff {a b : TimeStamp} {stations : List (Fin 16)} : s.crosses a b stations = true ↔
    ∃ d : BitVec 16,
      (d = s.eu.disc ∨ ∃ p ∈ stations, p ≠ s.loader.number ∧ (s.peer p).disc = some d) ∧
      1 ≤ (d - a.epoch).toNat ∧ (d - a.epoch).toNat ≤ (b.epoch - a.epoch).toNat := by
  simp only [← crossesAt_iff]
  unfold State.crosses
  rw [Bool.or_eq_true, List.any_eq_true]
  constructor
  · rintro (h | ⟨p, hp, h⟩)
    · exact ⟨_, .inl rfl, h⟩
    · rw [Bool.and_eq_true, bne_iff_ne] at h
      obtain ⟨d, hd, hx⟩ := peerCrosses_iff.mp h.2
      exact ⟨d, .inr ⟨p, hp, h.1, hd⟩, hx⟩
  · rintro ⟨d, rfl | ⟨p, hp, hn, hd⟩, hx⟩
    · exact .inl hx
    · exact .inr ⟨p, hp, Bool.and_eq_true_iff.mpr ⟨bne_iff_ne.mpr hn, peerCrosses_iff.mpr ⟨d, hd, hx⟩⟩⟩

/-- Settles O34: what taking a sample leaves, and its tests in their order. -/
theorem sampleIsTakenAndTested : Obligations.SampleIsTakenAndTested := by
  refine ⟨fun s i c a b => ⟨s.sampleTaken i b, takeSample_eq c a b s, ?_⟩, fun s t i r e ht => ?_, consumers_iff,
    fun s i c a b v x hc hk hv hx => ?_, fun s a b l => crosses_iff⟩
  · obtain ⟨hA, hB, ho, hp⟩ := sampleTaken_views (i := i) b s
    have hacts := sampleTaken_acts (i := i) b s
    exact ⟨hA, hB, ho, hp, hacts.frame, hacts.others, sampleTaken_queue b s, sampleTaken_meas b s⟩
  · subst ht
    have hacts := Acts.passExamined (w := true) (i := i) r s e
    have hm : (passExamined i r s e).meas i = _ := examineAB_meas (i := i) e s
    refine ⟨passExamined_passes r e s, hacts.frame, examineAB_queue e s, hacts.others, fun h => ?_, fun h h0 h1 => ?_,
      fun h h1 hi => ?_⟩
    · rw [hm, if_pos h]
    · rw [hm, if_neg (not_or.mpr ⟨by rw [h]; nofun, h0⟩), if_neg h1]
    · rw [hm, if_neg (not_or.mpr ⟨by rw [h]; nofun, by rw [h1]; decide⟩), if_pos h1, if_pos hi]
  · have hkind : (s.meas i).kind = .interval := by simp only [Measure.kind, hc, hk]
    refine ⟨fun h => hx.trans (testSample_over h), fun hs hcr => ?_, fun hs hcr => ?_⟩
    · rw [testSample_within hs, testDiscontinuity_crosses hcr] at hx
      refine ⟨fun h => hx.trans (rejectBy_masked h), fun h => ?_⟩
      rw [hx, rejectBy_unmasked h]
      exact ⟨rfl, enterFault_faults i _ true s⟩
    · have hval : s.sampleValue a b = v := hv.symm
      rw [testSample_within hs, testDiscontinuity_passes hcr, hval] at hx
      refine ⟨fun hl => ?_, fun hl hp => ?_, fun hl hA hB => ⟨fun hw => ?_, fun hw hn => ?_, fun hw hn => ?_⟩⟩
      · rw [testGap_loss hl] at hx
        exact rejectBy_mod .gap rfl rfl hx
      · rw [testGap_passes hl, testStoreFull_pending hp] at hx
        exact rejectBy_mod .storeFull rfl rfl hx
      · rw [testGap_passes hl, testStoreFull_passes hA hB, testWindow_outside hw] at hx
        exact hx
      · rw [testGap_passes hl, testStoreFull_passes hA hB, testWindow_inside hw, accumulateSample_more hn] at hx
        exact hx
      · rw [testGap_passes hl, testStoreFull_passes hA hB, testWindow_inside hw] at hx
        rw [← hkind]
        exact accumulateSample_finishes hn hx

end Sys2Proof.Machine
end

section
/-! PROOFS. Completion of blocks: what a judgement that goes on keeps of the gate, and the group of a completed INTERVAL
or RECIPROCAL block. -/

namespace Sys2Proof.Machine

variable {s t u : State} {i : Fin 8}

/-! ### When a block completes -/

theorem intervalComplete_iff : s.intervalComplete i = true ↔
    (s.meas i).st = .closing ∧ ∃ c z, (s.meas i).config = some c ∧ c.kind = .interval ∧
      (s.meas i).closeTime = some z ∧ s.covers i .A z ∧ s.covers i .B z := by
  unfold State.intervalComplete
  dsimp only
  split
  · rename_i t c hst hclose hc
    simp only [hst, hclose, hc, Bool.and_eq_true, beq_iff_eq, pastClose_iff, Option.some.injEq, true_and, and_assoc]
    constructor
    · rintro ⟨hk, hA, hB⟩
      exact ⟨c, t, rfl, hk, rfl, hA, hB⟩
    · rintro ⟨_, _, rfl, hk, rfl, hA, hB⟩
      exact ⟨hk, hA, hB⟩
  · rename_i h
    simp only [Bool.false_eq_true, false_iff]
    rintro ⟨hst, c, z, hc, -, hz, -⟩
    exact h z c hst hz hc

theorem reciprocalComplete_iff : s.reciprocalComplete i = true ↔
    (s.meas i).st = .closing ∧ ∃ c z, (s.meas i).config = some c ∧ c.kind = .reciprocal ∧
      (s.meas i).closeTime = some z ∧ s.covers i .A z := by
  unfold State.reciprocalComplete
  dsimp only
  split
  · rename_i t c hst hclose hc
    simp only [hst, hclose, hc, Bool.and_eq_true, beq_iff_eq, pastClose_iff, Option.some.injEq, true_and]
    constructor
    · rintro ⟨hk, hA⟩
      exact ⟨c, t, rfl, hk, rfl, hA⟩
    · rintro ⟨_, _, rfl, hk, rfl, hA⟩
      exact ⟨hk, hA⟩
  · rename_i h
    simp only [Bool.false_eq_true, false_iff]
    rintro ⟨hst, c, z, hc, -, hz, -⟩
    exact h z c hst hz hc

/-! ### What a judgement keeps while it goes on -/

/-- What a completion asks of a measure, and what its report is numbered by. -/
def Measure.gateFacts (m : Measure) :
    Option MeasureConfig × MeasureState × Option TimeStamp × FinalHorizon × FinalHorizon × BitVec 16 :=
  (m.config, m.st, m.closeTime, m.finalA, m.finalB, m.sequence)

/-- A move that lets the judgement go on keeps the gate facts; one that ends it has put the measure into FAULT or
reported its block. -/
structure Judged (i : Fin 8) (s : State) (x : Move) : Prop where
  goes : x.goesOn = true → (x.state.meas i).gateFacts = (s.meas i).gateFacts
  ends : x.goesOn = false → (x.state.meas i).st = .fault ∨ ∃ g, Reports s x.state i g

theorem gateFacts_sequence {m n : Measure} (h : m.gateFacts = n.gateFacts) : m.sequence = n.sequence :=
  congrArg (fun k => k.2.2.2.2.2) h

theorem gateFacts_config {m n : Measure} (h : m.gateFacts = n.gateFacts) : m.config = n.config := congrArg Prod.fst h

theorem gateFacts_st {m n : Measure} (h : m.gateFacts = n.gateFacts) : m.st = n.st := congrArg (fun k => k.2.1) h

/-- A move judged in a state that keeps the gate facts and the queue's front is so judged before it. -/
theorem Judged.before {x : Move} (h : Judged i u x) (hm : (u.meas i).gateFacts = (s.meas i).gateFacts)
    (hq : s.queue <+: u.queue) : Judged i s x where
  goes hx := (h.goes hx).trans hm
  ends hx := (h.ends hx).imp_right fun ⟨g, hg⟩ => ⟨g, hg.start hq (gateFacts_sequence hm).symm⟩

/-- A write of the measure that keeps its gate facts, and lets the judgement go on. -/
theorem Judged.modMeas {f : Measure → Measure} (h : (f (s.meas i)).gateFacts = (s.meas i).gateFacts) :
    Judged i s ⟨s.modMeas i f, true⟩ where
  goes _ := by
    show ((s.modMeas i f).meas i).gateFacts = _
    rw [State.meas_modMeas, if_pos rfl, h]
  ends := nofun

theorem gateFacts_modMeas {f : Measure → Measure} (h : (f (s.meas i)).gateFacts = (s.meas i).gateFacts) :
    ((s.modMeas i f).meas i).gateFacts = (s.meas i).gateFacts := (Judged.modMeas h).goes rfl

theorem Measure.MarkedAs.gateFacts {m n : Measure} (h : m.MarkedAs n) : n.gateFacts = m.gateFacts := by
  rw [h]; rfl

theorem rejectBy_judged (k : FaultKind) (s : State) : Judged i s (rejectBy i k s) := by
  unfold rejectBy
  split
  · exact .modMeas rfl
  · exact {
      goes := nofun
      ends := fun _ => .inl (enterFault_faults i k true s).1 }

theorem accumulateSample_judged (c : MeasureConfig) (v : BitVec 48) (s : State) :
    Judged i s (accumulateSample i c v s) := by
  by_cases h : (s.meas i).block.n + 1 = c.blockSize
  · obtain ⟨hg, -, g, hr, -⟩ := accumulateSample_finishes h rfl
    exact ⟨fun k => absurd (hg.symm.trans k) nofun, fun _ => .inr ⟨g, hr⟩⟩
  · rw [accumulateSample_more h]
    exact .modMeas (f := fun m => { m with block := m.block.accumulate v }) rfl

theorem testWindow_judged (c : MeasureConfig) (v : BitVec 48) (s : State) : Judged i s (testWindow i c v s) := by
  unfold testWindow
  split
  · exact accumulateSample_judged c v s
  · exact .modMeas rfl

/-- A test after a write that clears marks. -/
theorem Judged.afterMod {f : Measure → Measure} {x : Move} (h : Judged i (s.modMeas i f) x)
    (hf : (f (s.meas i)).gateFacts = (s.meas i).gateFacts) : Judged i s x :=
  h.before (gateFacts_modMeas hf) List.prefix_rfl

theorem testStoreFull_judged (c : MeasureConfig) (v : BitVec 48) (s : State) :
    Judged i s (testStoreFull i c v s) := by
  unfold testStoreFull
  dsimp only
  split
  · exact (rejectBy_judged _ _).afterMod rfl
  · exact (testWindow_judged c v _).afterMod rfl

theorem testGap_judged (c : MeasureConfig) (v : BitVec 48) (s : State) : Judged i s (testGap i c v s) := by
  unfold testGap
  dsimp only
  split
  · exact (rejectBy_judged _ _).afterMod rfl
  · exact (testStoreFull_judged c v _).afterMod rfl

theorem testSample_judged (c : MeasureConfig) (a b : TimeStamp) (s : State) :
    Judged i s (testSample i c a b s) := by
  unfold testSample testDiscontinuity
  split
  · exact .modMeas rfl
  · split
    · exact rejectBy_judged _ s
    · exact testGap_judged c _ s

theorem takeSample_judged (c : MeasureConfig) (a b : Entry) (s : State) : Judged i s (takeSample i c a b s) := by
  rw [takeSample_eq]
  refine (testSample_judged c _ _ _).before ?_ ?_
  · rw [sampleTaken_meas]; rfl
  · rw [sampleTaken_queue]

theorem passMove_judged (r : Role) (e : Entry) (s : State) : Judged i s (passMove i r s e) :=
  ⟨fun _ => (passExamined_marks r e s).gateFacts, nofun⟩

theorem abandonStart_judged (a : Entry) (s : State) : Judged i s (abandonStart i s a) :=
  ⟨fun _ => (gateFacts_modMeas (f := Measure.countOverrange) rfl).trans (passExamined_marks .A a s).gateFacts, nofun⟩

/-- Each move of an INTERVAL measure is judged (R133 to R138). -/
theorem intervalMove_judged {c : MeasureConfig} {x : Move} (h : intervalMove i c s = some x) : Judged i s x := by
  have hx := firstMove_mem h
  simp only [intervalMoves, List.mem_cons, List.not_mem_nil, or_false] at hx
  rcases hx with h | h | h | h | h | h | h
  · obtain ⟨e, -, rfl⟩ := Option.map_eq_some_iff.mp h.symm
    exact passMove_judged .A e s
  · obtain ⟨e, -, rfl⟩ := Option.map_eq_some_iff.mp h.symm
    exact passMove_judged .B e s
  · split at h
    · obtain ⟨e, -, rfl⟩ := Option.map_eq_some_iff.mp h.symm
      exact abandonStart_judged e s
    · cases h
  · obtain ⟨e, -, rfl⟩ := Option.map_eq_some_iff.mp h.symm
    exact passMove_judged .A e s
  · obtain ⟨e, -, rfl⟩ := Option.map_eq_some_iff.mp h.symm
    exact takeSample_judged c _ _ s
  · obtain ⟨e, -, rfl⟩ := Option.map_eq_some_iff.mp h.symm
    exact abandonStart_judged e s
  · split at h
    · cases h
      exact .modMeas rfl
    · cases h

/-- Each move of a judgement of an INTERVAL measure is judged. -/
theorem judgeMove_judged {c : MeasureConfig} (hc : (s.meas i).config = some c) (hk : c.kind = .interval) {x : Move}
    (h : judgeMove i s = some x) : Judged i s x := by
  have pass (r : Role) (e : Entry) : Judged i s ⟨s.passEntry i r e, true⟩ := ⟨fun _ => rfl, nofun⟩
  unfold judgeMove at h
  simp only [hc, hk] at h
  split at h
  · split at h
    · cases h
      exact pass _ _
    · split at h
      · cases h
        exact pass _ _
      · split at h
        · cases h
        · exact intervalMove_judged h
  · cases h

theorem judgeLoop_judged {c : MeasureConfig} (n : Nat) (s : State) (hc : (s.meas i).config = some c)
    (hk : c.kind = .interval) : Judged i s (judgeLoop n i s) := by
  induction n generalizing s with
  | zero => exact ⟨fun _ => rfl, nofun⟩
  | succ n ih =>
    unfold judgeLoop
    split
    · exact ⟨fun _ => rfl, nofun⟩
    · rename_i x hx
      have hj := judgeMove_judged hc hk hx
      split
      · rename_i hg
        have hm := hj.goes hg
        exact (ih x.state ((gateFacts_config hm).trans hc)).before hm (Acts.judgeMove hx).queue
      · exact hj

/-- A judgement of an INTERVAL measure that leaves it CLOSING, with nothing enqueued, has gone on to its end. -/
theorem judge_goesOn {c : MeasureConfig} (hc : (s.meas i).config = some c) (hk : c.kind = .interval)
    (hq : (judge i s).state.queue = s.queue) (hst : ((judge i s).state.meas i).st = .closing) :
    (judge i s).goesOn = true := by
  by_contra hn
  rcases (judgeLoop_judged s.judgeFuel s hc hk).ends (Bool.eq_false_iff.mpr hn) with hf | ⟨g, ⟨front, back, h, hp⟩ | ⟨hr, -⟩⟩
  · rw [judge] at hst
    rw [hf] at hst; cases hst
  · have hl := congrArg List.length (h.symm.trans hq)
    have := hp.length_le
    simp only [List.length_append, List.length_cons] at hl
    omega
  · rw [judge] at hst
    rw [hr] at hst; cases hst

/-- The source horizons and the held sources of a CLOSING measure stand while a judgement goes on. -/
theorem covers_congr (hF : MeasureFrame s t) (hm : (t.meas i).gateFacts = (s.meas i).gateFacts) (r : Role)
    (hr : r = .A ∨ r = .B) (z : TimeStamp) : t.covers i r z ↔ s.covers i r z := by
  have hf : (t.meas i).final r = (s.meas i).final r := by
    rcases hr with rfl | rfl
    · exact congrArg (fun k => k.2.2.2.1) hm
    · exact congrArg (fun k => k.2.2.2.2.1) hm
  unfold State.covers
  rw [hf, hF.roleHorizon r hf (gateFacts_config hm)]

theorem intervalComplete_congr (hF : MeasureFrame s t) (hm : (t.meas i).gateFacts = (s.meas i).gateFacts)
    (h : s.intervalComplete i = true) : t.intervalComplete i = true := by
  obtain ⟨hst, c, z, hc, hk, hz, hA, hB⟩ := intervalComplete_iff.mp h
  exact intervalComplete_iff.mpr ⟨(gateFacts_st hm).trans hst, c, z, (gateFacts_config hm).trans hc, hk,
    (congrArg (fun k => k.2.2.1) hm).trans hz, (covers_congr hF hm .A (.inl rfl) z).mpr hA,
    (covers_congr hF hm .B (.inr rfl) z).mpr hB⟩

theorem completeInterval_goes (h : (judge i s).goesOn = true) : completeInterval i s =
    rescanGate i (finishInterval i ((judge i s).state.modMeas i (·.qualify .gateEnd))) := if_pos h

theorem intervalBlockComplete_effect (h : s.intervalComplete i = true) :
    effect (.intervalBlockComplete i) s = completeInterval i s := if_pos h

/-- INTERVAL_BLOCK_COMPLETE makes every move of the judgement first, and then completes the block where that leaves it
(R145; log 52). -/
theorem intervalBlockComplete_judges (hc : s.intervalComplete i = true) (hg : Gives (.sampleSettle i) s u)
    (hu : u.untested = s.untested) (hq : u.queue = s.queue) (hst : (u.meas i).st = .closing)
    (hn : judgeMove i u = none) : exec (.intervalBlockComplete i) s = exec (.intervalBlockComplete i) u := by
  have hF := (Acts.judge (i := i) s).frame
  have hux : u = (judge i s).state := by
    have h := (gives_iff (c := .sampleSettle i) nofun nofun).mp hg
    have h' := congrArg (fun v : State => { v with untested := s.untested }) h
    have h1 : ({ (judge i s).state with untested := s.untested } : State) = (judge i s).state := by
      rw [← hF.untested]
    have h2 : ({ u with untested := s.untested } : State) = u := by rw [← hu]
    exact (h1.symm.trans (h'.trans h2)).symm
  obtain ⟨-, c, -, hcfg, hk, -⟩ := intervalComplete_iff.mp hc
  have hgo : (judge i s).goesOn = true := judge_goesOn hcfg hk (hux ▸ hq) (hux ▸ hst)
  have hcu : u.intervalComplete i = true := by
    rw [hux]
    exact intervalComplete_congr hF ((judgeLoop_judged _ s hcfg hk).goes hgo) hc
  have hself : judge i u = ⟨u, true⟩ := judge_none hn
  have he : effect (.intervalBlockComplete i) s = effect (.intervalBlockComplete i) u := by
    rw [intervalBlockComplete_effect hc, intervalBlockComplete_effect hcu, completeInterval_goes hgo,
      completeInterval_goes (by rw [hself]), hself, hux]
  have halone (w : Station) : s.alone w = u.alone w := by
    rw [hux]
    unfold State.alone
    rw [hF.pending, hF.order]
  rw [exec_eq_inBoth (c := .intervalBlockComplete i) (s := s) nofun nofun,
    exec_eq_inBoth (c := .intervalBlockComplete i) (s := u) nofun nofun]
  unfold State.inBoth
  rw [he, hu]
  simp only [halone]

/-! ### A completed INTERVAL block -/

/-- The station with GATE_END on the block (R145). -/
def State.gateEnded (s : State) (i : Fin 8) : State := s.modMeas i (·.qualify .gateEnd)

theorem gateEnded_meas (s : State) (i : Fin 8) : (s.gateEnded i).meas i = (s.meas i).qualify .gateEnd := by
  unfold State.gateEnded
  rw [State.meas_modMeas, if_pos rfl]

theorem intervalBlockComplete_gives (h : s.intervalComplete i = true) (hn : judgeMove i s = none) :
    Gives (.intervalBlockComplete i) s (rescanGate i (finishInterval i (s.gateEnded i))) := by
  have hj := judge_none hn
  refine gives_of_effect_eq nofun nofun ?_
  rw [intervalBlockComplete_effect h, completeInterval_goes (by rw [hj]), hj]
  rfl

/-- The station with a finished INTERVAL block's group in the queue (R117, R154). -/
def State.intervalEnqueued (s : State) (i : Fin 8) : State := enqueueGroup (s.intervalGroup i) (s.intervalQualified i)

/-- With room in the queue a finished INTERVAL block's group is enqueued, and the measure takes its next state
(R117, R122). -/
theorem finishInterval_room (hr : s.queueRoom = true) :
    finishInterval i s = nextState i false true (s.intervalEnqueued i) :=
  finishBlock_room i _ _ (s.intervalQualified i) hr

theorem intervalEnqueued_queue (s : State) (i : Fin 8) : (s.intervalEnqueued i).queue =
    s.queue ++ [{ s.intervalGroup i with sequence := (s.meas i).sequence }] := by
  have hs : ((s.intervalQualified i).meas i).sequence = (s.meas i).sequence := by rw [intervalQualified_meas]
  rw [← hs]
  exact enqueueGroup_queue (s.intervalGroup i) (s.intervalQualified i)

theorem intervalEnqueued_frame (s : State) (i : Fin 8) : MeasureFrame s (s.intervalEnqueued i) :=
  MeasureFrame.trans (by constructor <;> rfl) (enqueueGroup_frame _ _)

theorem intervalEnqueued_store (s : State) (i : Fin 8) : (s.intervalEnqueued i).store = s.store :=
  enqueueGroup_store _ _

theorem intervalEnqueued_others {j : Fin 8} (h : j ≠ i) : (s.intervalEnqueued i).meas j = s.meas j := by
  have he := enqueueGroup_meas (s.intervalGroup i) (s.intervalQualified i) j
  have hi : (s.intervalGroup i).measure = i := rfl
  rw [hi, if_neg h] at he
  refine he.trans ?_
  unfold State.intervalQualified
  rw [State.meas_modMeas, if_neg h]

/-- The enqueue moves the sequence number on, and the block has its qualifiers. -/
theorem intervalEnqueued_meas (s : State) (i : Fin 8) : (s.intervalEnqueued i).meas i = { s.meas i with
    sequence := (s.meas i).sequence + 1, block := ((s.intervalEnqueued i).meas i).block } := by
  have he := enqueueGroup_meas (s.intervalGroup i) (s.intervalQualified i) i
  have hi : (s.intervalGroup i).measure = i := rfl
  rw [hi, if_pos rfl, intervalQualified_meas] at he
  have h : (s.intervalEnqueued i).meas i = _ := he
  rw [h]

end Sys2Proof.Machine
end

section
/-! PROOFS. Completion of a RECIPROCAL block: the two parts of its test, in either order, and its group. -/

namespace Sys2Proof.Machine

variable {s t u : State} {i : Fin 8} {k l : FaultKind} {C D : Prop} {p : Bool} {q : BitVec 12} {x y : Move}

/-! ### The two parts of the completion's test -/

/-- The measure with this STORE_FULL mark pending and these qualifiers on its block. -/
def Measure.carrying (m : Measure) (p : Bool) (q : BitVec 12) : Measure :=
  { m with pendingA := p, block := { m.block with quals := q } }

/-- The station whose measure i carries this mark and these qualifiers: what a part of the test leaves that goes on. -/
def State.carrying (s : State) (i : Fin 8) (p : Bool) (q : BitVec 12) : State :=
  s.setMeas i ((s.meas i).carrying p q)

theorem carrying_meas (s : State) (i : Fin 8) (p : Bool) (q : BitVec 12) :
    (s.carrying i p q).meas i = (s.meas i).carrying p q := by
  unfold State.carrying
  rw [State.meas_setMeas, if_pos rfl]

theorem carrying_self (s : State) (i : Fin 8) :
    s.carrying i (s.meas i).pendingA (s.meas i).block.quals = s := State.setMeas_self s i

theorem carrying_setMeas (m : Measure) : (s.carrying i p q).setMeas i m = s.setMeas i m :=
  State.setMeas_setMeas s i _ m

/-- What a part of the test does that looks for the condition k, which stands when C does: it goes on, with the
qualifier where k is masked, or it ends in FAULT. -/
structure PartOf (s : State) (i : Fin 8) (k : FaultKind) (C : Prop) (q : BitVec 12) (p : Bool) (x : Move) : Prop where
  passes : ¬ C ∨ (s.meas i).masks k = true → ∃ q', x = ⟨s.carrying i p q', true⟩ ∧
    ∀ r, hasQual r q' = true ↔ hasQual r q = true ∨ (r = .fault k ∧ C)
  faults : C → (s.meas i).masks k = false → x.goesOn = false ∧ Faults s x.state i k

/-- A part that does not find its condition changes nothing. -/
theorem PartOf.absent (h : ¬ C) (hx : x = ⟨s.carrying i p q, true⟩) : PartOf s i k C q p x where
  passes _ := ⟨q, hx, fun _ => ⟨.inl, fun h' => h'.resolve_right fun h' => h h'.2⟩⟩
  faults h' := absurd h' h

/-- A part that finds its condition rejects by it. -/
theorem PartOf.found (h : C) (hx : x = rejectBy i k (s.carrying i p q)) : PartOf s i k C q p x := by
  have hm := carrying_meas s i p q
  have hmask : ((s.carrying i p q).meas i).masks k = (s.meas i).masks k := by rw [hm]; rfl
  refine ⟨fun h' => ?_, fun _ h' => ?_⟩
  · have hmasked : (s.meas i).masks k = true := h'.resolve_left fun hn => hn h
    refine ⟨setQual (.fault k) q, ?_, fun r => ?_⟩
    · rw [hx, rejectBy_masked (hmask.trans hmasked), carrying_setMeas, hm]
      rfl
    · rw [hasQual_setQual_iff]
      exact or_congr_right ⟨fun hr => ⟨hr, h⟩, fun hr => hr.1⟩
  · rw [hx, rejectBy_unmasked (hmask.trans h')]
    exact ⟨rfl, (enterFault_faults i k true _).start List.prefix_rfl (by rw [hm]; rfl) (by rw [hm]; rfl)⟩

theorem carrying_frame : MeasureFrame s (s.carrying i p q) := by constructor <;> rfl

/-- The DISCONTINUITY part looks at the block's span, which no part changes (R27, R148). -/
theorem reciprocalDiscontinuity_part (c : MeasureConfig) (s : State) (p : Bool) (q : BitVec 12) :
    PartOf s i .discontinuity ((s.meas i).block.crossing s c) q p
      (reciprocalDiscontinuity i c (s.carrying i p q)) := by
  have hb : reciprocalDiscontinuity i c (s.carrying i p q) =
      match (s.meas i).block.first, (s.meas i).block.last with
      | some x, some y =>
        if (s.meas i).block.events ≠ 0 ∧ s.crosses x y [c.a.station] then
          rejectBy i .discontinuity (s.carrying i p q)
        else ⟨s.carrying i p q, true⟩
      | _, _ => ⟨s.carrying i p q, true⟩ := by
    unfold reciprocalDiscontinuity
    rw [carrying_meas]
    rfl
  unfold Block.crossing
  cases hf : (s.meas i).block.first with
  | none =>
    refine .absent ?_ (by rw [hb, hf])
    rintro ⟨-, x, y, hx, -⟩
    cases hx
  | some a =>
    cases hl : (s.meas i).block.last with
    | none =>
      refine .absent ?_ (by rw [hb, hf, hl])
      rintro ⟨-, x, y, -, hy, -⟩
      cases hy
    | some z =>
      rw [hf, hl] at hb
      by_cases hcr : (s.meas i).block.events ≠ 0 ∧ s.crosses a z [c.a.station] = true
      · exact .found ⟨hcr.1, a, z, rfl, rfl, hcr.2⟩ (hb.trans (if_pos hcr))
      · refine .absent ?_ (hb.trans (if_neg hcr))
        rintro ⟨he, _, _, hx, hy, h⟩
        cases hx
        cases hy
        exact hcr ⟨he, h⟩

/-- The STORE_FULL part takes the pending mark (R142, R147). -/
theorem reciprocalStoreFull_part (s : State) (q : BitVec 12) :
    PartOf s i .storeFull ((s.meas i).pendingA = true) q false
      (reciprocalStoreFull i (s.carrying i (s.meas i).pendingA q)) := by
  have hm := carrying_meas s i (s.meas i).pendingA q
  unfold reciprocalStoreFull
  rw [hm]
  cases hp : (s.meas i).pendingA with
  | false => exact .absent nofun rfl
  | true =>
    refine .found rfl ?_
    show rejectBy i .storeFull ((s.carrying i true q).modMeas i _) = _
    congr 1
    unfold State.modMeas
    rw [carrying_setMeas, carrying_meas]
    rfl

/-- What both parts of the test do, one after the other. -/
structure BothPartsOf (s : State) (i : Fin 8) (k l : FaultKind) (C D : Prop) (q : BitVec 12) (y : Move) : Prop where
  passes : ¬ C ∨ (s.meas i).masks k = true → ¬ D ∨ (s.meas i).masks l = true →
    ∃ q', y = ⟨s.carrying i false q', true⟩ ∧
      ∀ r, hasQual r q' = true ↔ hasQual r q = true ∨ (r = .fault k ∧ C) ∨ (r = .fault l ∧ D)
  first : C → (s.meas i).masks k = false → y.goesOn = false ∧ (y.state.meas i).st = .fault ∧
    (¬ D ∨ (s.meas i).masks l = true → Faults s y.state i k)
  second : D → (s.meas i).masks l = false → y.goesOn = false ∧ (y.state.meas i).st = .fault ∧
    (¬ C ∨ (s.meas i).masks k = true → Faults s y.state i l)

theorem BothPartsOf.symm (h : BothPartsOf s i k l C D q y) : BothPartsOf s i l k D C q y where
  passes hD hC := by
    obtain ⟨q', hy, hq⟩ := h.passes hC hD
    exact ⟨q', hy, fun r => (hq r).trans (or_congr_right or_comm)⟩
  first := h.second
  second := h.first

/-- One part, and then the other in the state it leaves. -/
theorem PartOf.then {f : State → Move} (hx : PartOf s i k C q p x)
    (hf : ∀ q, PartOf s i l D q false (f (s.carrying i p q))) (hy : y = if x.goesOn then f x.state else x) :
    BothPartsOf s i k l C D q y := by
  by_cases hC : ¬ C ∨ (s.meas i).masks k = true
  · obtain ⟨q1, rfl, hq1⟩ := hx.passes hC
    have hy' : y = f (s.carrying i p q1) := hy
    have hz := hf q1
    rw [← hy'] at hz
    refine ⟨fun _ hD => ?_, fun h h' => ?_, fun h h' => ?_⟩
    · obtain ⟨q2, hy2, hq2⟩ := hz.passes hD
      exact ⟨q2, hy2, fun r => by rw [hq2, hq1, or_assoc]⟩
    · exact absurd hC (by rw [h']; exact fun h'' => h''.elim (fun hn => hn h) nofun)
    · obtain ⟨hg, hF⟩ := hz.faults h h'
      exact ⟨hg, hF.1, fun _ => hF⟩
  · obtain ⟨hCn, hmask⟩ := not_or.mp hC
    obtain ⟨hg, hF⟩ := hx.faults (not_not.mp hCn) (Bool.eq_false_iff.mpr hmask)
    have hy' : y = x := by rw [hy, hg]; rfl
    rw [hy']
    exact ⟨fun h => absurd h hC, fun _ _ => ⟨hg, hF.1, fun _ => hF⟩, fun _ _ => ⟨hg, hF.1, fun h => absurd h hC⟩⟩

/-- The test of a RECIPROCAL completion, in either order of its parts (R148; log 7). -/
theorem reciprocalParts (b : Bool) (c : MeasureConfig) (s : State) :
    BothPartsOf s i .discontinuity .storeFull ((s.meas i).block.crossing s c) ((s.meas i).pendingA = true)
      (s.meas i).block.quals (bothParts b (reciprocalDiscontinuity i c) (reciprocalStoreFull i) s) := by
  have hd := reciprocalDiscontinuity_part (i := i) c s
  have hf := reciprocalStoreFull_part (i := i) s
  have hd' := hd (s.meas i).pendingA (s.meas i).block.quals
  have hf' := hf (s.meas i).block.quals
  rw [carrying_self] at hd' hf'
  cases b with
  | false => exact hd'.then hf rfl
  | true => exact (hf'.then (hd false) rfl).symm

/-! ### The block's group -/

/-- The station with the qualifiers of its forming on a RECIPROCAL block (R148, R156). -/
def State.reciprocalQualified (s : State) (i : Fin 8) : State :=
  s.modMeas i fun m => { m with block := { m.block with quals := (s.meas i).block.reciprocalQuals s.epochLength } }

theorem reciprocalQualified_meas (s : State) (i : Fin 8) : (s.reciprocalQualified i).meas i = { s.meas i with
    block := { (s.meas i).block with quals := (s.meas i).block.reciprocalQuals s.epochLength } } := by
  unfold State.reciprocalQualified
  rw [State.meas_modMeas, if_pos rfl]

/-- A finished RECIPROCAL block's group (R148, R156). -/
def State.reciprocalGroup (s : State) (i : Fin 8) : Group :=
  (s.reciprocalQualified i).blockGroup i 0 ((s.meas i).block.reciprocalValues s.epochLength)

theorem finishReciprocal_eq (s : State) : finishReciprocal i s =
    finishBlock i 0 ((s.meas i).block.reciprocalValues s.epochLength) (s.reciprocalQualified i) := rfl

theorem reciprocalGroup_kind (s : State) (i : Fin 8) : (s.reciprocalGroup i).kind = (s.meas i).kind := by
  show ((s.reciprocalQualified i).meas i).kind = _
  rw [reciprocalQualified_meas]
  rfl

theorem reciprocalGroup_quals (s : State) (i : Fin 8) : (s.reciprocalGroup i).quals =
    (s.meas i).block.reciprocalQuals s.epochLength := by
  show ((s.reciprocalQualified i).meas i).block.quals = _
  rw [reciprocalQualified_meas]

/-- A finished RECIPROCAL block is reported, whatever the G role judges after it (R117). -/
theorem finishReciprocal_reports (s : State) :
    Reports s (rescanGate i (finishReciprocal i s)) i (s.reciprocalGroup i) := by
  have hs : ((s.reciprocalQualified i).meas i).sequence = (s.meas i).sequence := by rw [reciprocalQualified_meas]
  exact ((finishBlock_reports i _ _ (s.reciprocalQualified i)).rescan fun h => finishBlock_view i _ _ _ h .G).start
    List.prefix_rfl hs.symm

/-- With room in the queue and no rearm left a finished RECIPROCAL block leaves the measure IDLE (R122). -/
theorem finishReciprocal_idle (hr : s.queueRoom = true) (h : (s.meas i).rearms = .left 0) :
    ((rescanGate i (finishReciprocal i s)).meas i).st = .idle := by
  have hi : ((finishReciprocal i s).meas i).st = .idle :=
    finishBlock_idle i _ _ (s.reciprocalQualified i) hr (by rw [reciprocalQualified_meas]; exact h)
  rw [rescanGate_idle _ hi]
  exact hi

/-! ### Its values and qualifiers -/

theorem hasQual_setQualIf_self {b : Bool} (r : Qualifier) (q : BitVec 12) (h : b = true) :
    hasQual r (setQualIf b r q) = true := by
  rw [h]
  exact hasQual_self r q

/-- A qualifier of the block stays on it at its forming. -/
theorem reciprocalQuals_keeps {b : Block} {E : Nat} {r : Qualifier} (h : hasQual r b.quals = true) :
    hasQual r (b.reciprocalQuals E) = true :=
  hasQual_setQualIf _ _ _ _ (hasQual_setQualIf _ _ _ _ h)

theorem reciprocalQuals_noEvents {b : Block} {E : Nat} (h : b.events = 0) :
    hasQual .noEvents (b.reciprocalQuals E) = true :=
  hasQual_setQualIf _ _ _ _ (hasQual_setQualIf_self _ _ (beq_iff_eq.mpr h))

theorem span_eq {b : Block} {E : Nat} {x y : TimeStamp} (hx : b.first = some x) (hy : b.last = some y) :
    b.span E = interval E x y := by
  unfold Block.span
  rw [hx, hy]

theorem spanOutOfRange_iff {b : Block} {E : Nat} (h : b.events ≠ 0) :
    b.spanOutOfRange E = true ↔ b.span E < 0 ∨ 2 ^ 47 ≤ b.span E := by
  simp only [Block.spanOutOfRange, Bool.and_eq_true, Bool.or_eq_true, bne_iff_ne, decide_eq_true_eq, ne_eq, h,
    not_false_eq_true, true_and]

/-- The values of a block whose span R156 cannot report. -/
theorem reciprocalValues_unreported {b : Block} {E : Nat}
    (h : b.events = 0 ∨ hasQual .overrange b.quals = true ∨ b.spanOutOfRange E = true) :
    b.reciprocalValues E = [b.events, 0, 0] := if_pos h

theorem reciprocalValues_reported {b : Block} {E : Nat} (he : b.events ≠ 0) (hq : hasQual .overrange b.quals = false)
    (hr : b.spanOutOfRange E = false) : b.reciprocalValues E =
      [b.events, BitVec.ofInt 48 (b.span E), BitVec.ofNat 48 ((b.span E).toNat / b.events.toNat)] :=
  if_neg (by rw [hq, hr]; exact fun h => h.elim he (fun h => h.elim nofun nofun))

/-- What a RECIPROCAL block reports of its events and its span (R148, R156). -/
theorem reciprocalValues_spec (b : Block) (E : Nat) :
    (b.events = 0 → b.reciprocalValues E = [0, 0, 0] ∧ hasQual .noEvents (b.reciprocalQuals E) = true) ∧
    (hasQual .overrange b.quals = true →
      b.reciprocalValues E = [b.events, 0, 0] ∧ hasQual .overrange (b.reciprocalQuals E) = true) ∧
    ∀ x y, b.events ≠ 0 → b.first = some x → b.last = some y →
      (interval E x y < 0 ∨ 2 ^ 47 ≤ interval E x y →
        b.reciprocalValues E = [b.events, 0, 0] ∧ hasQual .overrange (b.reciprocalQuals E) = true) ∧
      (hasQual .overrange b.quals = false → 0 ≤ interval E x y → interval E x y < 2 ^ 47 →
        b.reciprocalValues E =
          [b.events, BitVec.ofInt 48 (interval E x y),
            BitVec.ofNat 48 ((interval E x y).toNat / b.events.toNat)]) := by
  refine ⟨fun h => ⟨?_, reciprocalQuals_noEvents h⟩,
    fun h => ⟨reciprocalValues_unreported (.inr (.inl h)), reciprocalQuals_keeps h⟩, fun x y he hx hy => ?_⟩
  · rw [reciprocalValues_unreported (.inl h), h]
  · have hr := spanOutOfRange_iff (E := E) he
    rw [span_eq hx hy] at hr
    refine ⟨fun h => ?_, fun hq h0 h1 => ?_⟩
    · have hout := hr.mpr h
      exact ⟨reciprocalValues_unreported (.inr (.inr hout)), hasQual_setQualIf_self _ _ hout⟩
    · have hin : b.spanOutOfRange E = false :=
        Bool.eq_false_iff.mpr fun h => (hr.mp h).elim (by omega) (by omega)
      rw [reciprocalValues_reported he hq hin, span_eq hx hy]

/-! ### RECIPROCAL_BLOCK_COMPLETE -/

theorem reciprocalBlockComplete_effect (h : s.reciprocalComplete i = true) :
    effect (.reciprocalBlockComplete i) s = completeReciprocal i s := if_pos h

/-- With no stamp left to count, the completion makes its test and then forms the block (R148). -/
theorem completeReciprocal_tests {c : MeasureConfig} (hn : judgeMove i s = none) (hc : (s.meas i).config = some c)
    (hy : y = bothParts s.order.storeFullFirst (reciprocalDiscontinuity i c) (reciprocalStoreFull i) s) :
    completeReciprocal i s = if y.goesOn then rescanGate i (finishReciprocal i y.state) else y.state := by
  unfold completeReciprocal
  simp only [judge_none hn, hc, hy, if_true]

/-! ### The obligation -/

/-- Settles O30: an INTERVAL completion makes every move of its judgement and reports what is left, a RECIPROCAL
completion makes both parts of its test, in either order, and reports the block they leave. -/
theorem blocksComplete : Obligations.BlocksComplete := by
  refine ⟨fun _ _ => ⟨intervalComplete_iff, reciprocalComplete_iff⟩, fun _ _ _ => intervalBlockComplete_judges,
    judgeMove_empty, fun s i h hn => ?_, fun s i c b h hc hn hb => ?_⟩
  case refine_1 =>
    obtain ⟨-, c, -, hc, hk, -⟩ := intervalComplete_iff.mp h
    have hm := gateEnded_meas s i
    have hkind : (s.meas i).kind = .interval := by simp only [Measure.kind, hc, hk]
    have hquals := intervalGroup_quals (s.gateEnded i) i
    have hacts : Acts true (Only i) s (rescanGate i (finishInterval i (s.gateEnded i))) :=
      ((Acts.qualify .gateEnd).trans (.finishInterval _)).trans (.rescanGate _)
    have hcount : ((s.gateEnded i).intervalGroup i).sampleCount = ((s.gateEnded i).meas i).block.n := rfl
    have hvalues : ((s.gateEnded i).intervalGroup i).values = ((s.gateEnded i).meas i).block.intervalValues := rfl
    rw [hm] at hquals hcount hvalues
    refine ⟨_, (s.gateEnded i).intervalGroup i, intervalBlockComplete_gives h hn, hacts.frame, hacts.others,
      (finishInterval_reports _).start List.prefix_rfl (by rw [hm]; rfl), rfl, ?_, rfl, hcount, hvalues, ?_,
      fun h0 => ?_, fun hr hl => finishInterval_idle hr (by rw [hm]; exact hl), fun hr => ?_⟩
    · rw [intervalGroup_kind, hm]
      exact hkind
    · rw [hquals]
      exact hasQual_setQualIf _ _ _ _ (hasQual_self _ _)
    · rw [hquals]
      exact hasQual_setQualIf_self _ _ (beq_iff_eq.mpr h0)
    · have hqueue := intervalEnqueued_queue (s.gateEnded i) i
      have hmeas := intervalEnqueued_meas (s.gateEnded i) i
      rw [hm] at hqueue hmeas
      refine ⟨(s.gateEnded i).intervalEnqueued i, congrArg (rescanGate i) (finishInterval_room hr), hqueue,
        MeasureFrame.trans (by constructor <;> rfl) (intervalEnqueued_frame _ _), intervalEnqueued_store _ _,
        fun j hj => ?_, hmeas⟩
      rw [intervalEnqueued_others hj]
      unfold State.gateEnded
      rw [State.meas_modMeas, if_neg hj]
  case refine_2 =>
    subst hb
    obtain ⟨-, c', -, hc', hk, -⟩ := reciprocalComplete_iff.mp h
    obtain rfl : c = c' := Option.some.inj (hc.symm.trans hc')
    have hacts := Acts.completeReciprocal (i := i) s
    have hparts := reciprocalParts (i := i) s.order.storeFullFirst c s
    have htest := completeReciprocal_tests hn hc rfl
    generalize bothParts s.order.storeFullFirst (reciprocalDiscontinuity i c) (reciprocalStoreFull i) s = y
      at hparts htest
    have hend (hg : y.goesOn = false) : completeReciprocal i s = y.state := by rw [htest, hg]; rfl
    have hnot : (s.meas i).pendingA = false ↔ ¬ (s.meas i).pendingA = true := Bool.eq_false_iff
    refine ⟨completeReciprocal i s, gives_of_effect_eq nofun nofun (reciprocalBlockComplete_effect h), hacts.frame,
      hacts.others, fun hcr hmask => ?_, fun hp hmask => ?_, fun hcr hp => ?_⟩
    · obtain ⟨hg, hst, hF⟩ := hparts.first hcr hmask
      rw [hend hg]
      exact ⟨hst, fun hp => hF (hp.imp_left hnot.mp)⟩
    · obtain ⟨hg, hst, hF⟩ := hparts.second hp hmask
      rw [hend hg]
      exact ⟨hst, hF⟩
    · obtain ⟨q, rfl, hq⟩ := hparts.passes hcr (hp.imp_left hnot.mp)
      have hm := carrying_meas s i false q
      have ht : completeReciprocal i s = rescanGate i (finishReciprocal i (s.carrying i false q)) := htest
      have hover : hasQual .overrange q = hasQual .overrange (s.meas i).block.quals :=
        Bool.eq_iff_iff.mpr ((hq .overrange).trans (or_iff_left (by simp)))
      have hspec := reciprocalValues_spec ((s.meas i).carrying false q).block s.epochLength
      have hquals := reciprocalGroup_quals (s.carrying i false q) i
      have hvalues : ((s.carrying i false q).reciprocalGroup i).values =
        ((s.carrying i false q).meas i).block.reciprocalValues s.epochLength := rfl
      rw [hm] at hquals hvalues
      rw [ht]
      refine ⟨(s.carrying i false q).reciprocalGroup i,
        (finishReciprocal_reports _).start List.prefix_rfl (by rw [hm]; rfl), rfl, ?_, rfl, rfl, fun hcr => ?_,
        fun hp => ?_, fun hr hl => finishReciprocal_idle hr (by rw [hm]; exact hl), ?_⟩
      · rw [reciprocalGroup_kind, hm]
        show (s.meas i).kind = _
        simp only [Measure.kind, hc, hk]
      · rw [hquals]
        exact reciprocalQuals_keeps ((hq _).mpr (.inr (.inl ⟨rfl, hcr⟩)))
      · rw [hquals]
        exact reciprocalQuals_keeps ((hq _).mpr (.inr (.inr ⟨rfl, hp⟩)))
      · rw [hquals, hvalues, ← hover]
        exact hspec

end Sys2Proof.Machine
end

section
/-! PROOFS. Edges: a qualified edge of a pin, an ignored one, the two edges of a Test Source event, the Test Source's
cycle, and the resolution of a stamp. -/

namespace Sys2Proof.Machine

variable {s t : State} {x : Channel} {g : ChannelConfig} {c : Fin 4} {p : Polarity} {fine : BitVec 8}

/-! ### What an edge makes of its channel -/

theorem qualifies_iff {H pos : Nat} :
    x.qualifies H pos = true ↔ ∀ q, x.lastEdge = some q → q + 256 * max H 1 ≤ pos := by
  unfold Channel.qualifies
  cases x.lastEdge <;> simp

/-- Edge select and holdoff pass the edge (R32, R35). -/
def State.passes (s : State) (x : Channel) (g : ChannelConfig) (p : Polarity) (fine : BitVec 8) : Bool :=
  g.edges.passes p && x.qualifies g.holdoff (s.edgePosition fine)

theorem edgeAt_ignored (hc : x.config = some g) (h : s.passes x g p fine = false) : s.edgeAt x p fine = (x, false) := by
  unfold State.edgeAt
  simp only [hc]
  refine if_neg fun k => ?_
  rw [Bool.and_assoc, Bool.and_eq_true] at k
  exact absurd k.2 (Bool.eq_false_iff.mp h)

/-- A qualified edge is counted; prescale selects it or not (R35 to R37). -/
theorem edgeAt_qualified (hc : x.config = some g) (ht : s.hasTime = true) (h : s.passes x g p fine = true) {y : Channel}
    (hy : y = x.count p (s.edgePosition fine) s.eu.elapsed (s.edgeTime fine)) :
    (x.prescale + 1 ≠ g.prescale → s.edgeAt x p fine = ({ y with prescale := x.prescale + 1 }, false)) ∧
    (x.prescale + 1 = g.prescale →
      s.edgeAt x p fine = (({ y with prescale := 0 }).form g.rate p (s.edgeTime fine) s.eu.elapsed, true)) := by
  have hq : (s.hasTime && g.edges.passes p && x.qualifies g.holdoff (s.edgePosition fine)) = true := by
    rw [ht, Bool.true_and]
    exact h
  subst hy
  constructor
  all_goals
    intro hP
    unfold State.edgeAt Channel.select Channel.count
    simp only [hc, hq, if_true, hP, if_false, Bool.false_eq_true]

theorem passes_iff : s.passes x g p fine = true ↔ g.edges.passes p = true ∧
    ∀ q, x.lastEdge = some q → q + 256 * max g.holdoff 1 ≤ s.eu.elapsed * 256 + fine.toNat := by
  unfold State.passes
  rw [Bool.and_eq_true, qualifies_iff]
  rfl

theorem passes_eq_false_iff : s.passes x g p fine = false ↔ g.edges.passes p = false ∨
    ∃ q, x.lastEdge = some q ∧ s.eu.elapsed * 256 + fine.toNat < q + 256 * max g.holdoff 1 := by
  rw [← Bool.not_eq_true, passes_iff, not_and_or, Bool.not_eq_true]
  simp only [not_forall, not_le, exists_prop]

theorem takeEdge_ignored (h : s.edgeAt (s.chan c) p fine = (s.chan c, false)) : takeEdge c p fine s = s := by
  unfold takeEdge
  rw [h]
  exact State.setChan_self s c

theorem takeEdge_counted (h : (s.edgeAt (s.chan c) p fine).2 = false) :
    takeEdge c p fine s = s.setChan c (s.edgeAt (s.chan c) p fine).1 := if_neg (Bool.eq_false_iff.mp h)

/-! ### PIN_EDGE -/

theorem pinEdge_self (h : effectPinEdge c p fine s = s) : Gives (.pinEdge c p fine) s s :=
  gives_of_effect_eq nofun nofun h

/-- Settles O17: a pin edge is one `takeEdge`, and the branches of `edgeAt` say what that makes of the channel. -/
theorem pinEdgeCountsOrIsIgnored : Obligations.PinEdgeCountsOrIsIgnored := by
  refine ⟨fun s c p fine g hr hc ht hp hq => ?_, fun s c p fine => ⟨fun hr => ?_, fun ht hs ha => ?_, fun ha hr => ?_,
    fun g ht hc hn => ?_⟩⟩
  · obtain ⟨hcounted, hformed⟩ := edgeAt_qualified hc ht (passes_iff.mpr ⟨hp, hq⟩) rfl
    have hchan : (takeEdge c p fine s).chan c = (s.edgeAt (s.chan c) p fine).1 := by rw [takeEdge_chan, if_pos rfl]
    refine ⟨takeEdge c p fine s, pinEdge_gives p fine ht hr, takeEdge_frame c p fine s,
      fun d hd => by rw [takeEdge_chan, if_neg hd], ?_⟩
    rw [hchan]
    by_cases hP : (s.chan c).prescale + 1 = g.prescale
    · have he := hformed hP
      rw [he]
      refine ⟨rfl, rfl, rfl, rfl, fun h => absurd hP h, fun _ => ⟨rfl, rfl, rfl, rfl, fun i => ?_⟩⟩
      rw [takeEdge_sequences, he]
      simp only [true_and]
    · have he := hcounted hP
      rw [takeEdge_counted (by rw [he]), he]
      exact ⟨rfl, rfl, rfl, rfl, fun _ => ⟨rfl, rfl, rfl, rfl, rfl⟩, fun h => absurd h hP⟩
  · exact pinEdge_self (if_neg (by rw [hr]; exact nofun))
  · refine pinEdge_self ?_
    unfold effectPinEdge holdEdge
    rw [ht, if_neg Bool.false_ne_true, if_neg (not_or.mpr ⟨hs, ha⟩), ite_self]
  · have ht : s.hasTime = false := hasTime_false (by rcases ha with h | h <;> rw [h] <;> exact nofun)
      (by rcases ha with h | h <;> rw [h] <;> exact nofun)
    refine gives_of_effect_eq nofun nofun ?_
    show effectPinEdge c p fine s = _
    unfold effectPinEdge holdEdge
    rw [hr, if_pos rfl, ht, if_neg Bool.false_ne_true, if_pos ha]
  · refine pinEdge_self ?_
    unfold effectPinEdge
    rw [ht, if_pos rfl, takeEdge_ignored (edgeAt_ignored hc (passes_eq_false_iff.mpr hn)), ite_self]

/-! ### TEST_SOURCE_EVENT -/

/-- The second edge of a Test Source event comes half a tick after the first, within any holdoff: a qualified first edge
leaves it ignored (R35, R48). -/
theorem edgeAt_second_ignored (hc : x.config = some g) (ht : s.hasTime = true) (h : s.passes x g .rise 0 = true) :
    s.edgeAt (s.edgeAt x .rise 0).1 .fall 128 = ((s.edgeAt x .rise 0).1, false) := by
  obtain ⟨hcounted, hformed⟩ := edgeAt_qualified hc ht h rfl
  have hfirst : (s.edgeAt x .rise 0).1.config = some g ∧
      (s.edgeAt x .rise 0).1.lastEdge = some (s.eu.elapsed * 256 + 0) := by
    by_cases hP : x.prescale + 1 = g.prescale
    · rw [hformed hP]
      exact ⟨hc, rfl⟩
    · rw [hcounted hP]
      exact ⟨hc, rfl⟩
  refine edgeAt_ignored hfirst.1 (passes_eq_false_iff.mpr (.inr ⟨_, hfirst.2, ?_⟩))
  rw [show (128 : BitVec 8).toNat = 128 from rfl]
  omega

theorem testEventDue_time (h : s.testEventDue = true) : s.hasTime = true := by
  simp only [State.testEventDue, Bool.and_eq_true] at h
  exact h.1.1

theorem testEvent_fires_iff (s : State) (i : Fin 4) : (∃ c, s.testFires i c = true) ↔
    ∃ c, (s.chan c).reads .test = true ∧
      (((s.edgeAt (s.chan c) .rise 0).2 = true ∧ (s.sequences.get i).onStamp c .rise = true) ∨
        ((s.edgeAt (s.edgeAt (s.chan c) .rise 0).1 .fall 128).2 = true ∧
          (s.sequences.get i).onStamp c .fall = true)) := by
  simp only [State.testFires, Bool.and_eq_true, Bool.or_eq_true]

/-- Settles O18: the loop over the channels gives each TEST channel its two edges and fires each sequence once. -/
theorem testEventReachesTestChannels : Obligations.TestEventReachesTestChannels := by
  intro s hdue
  have ht := testEventDue_time hdue
  obtain ⟨hF, hchan⟩ := testChannels_chan s
  have hframe : TriggerFrame { s with channels := (testChannels s).channels, untested := some s.toStation }
      (testEvent s) := by
    obtain ⟨⟨a1, a2, a3, a4, a5, a6, a7, a8, a9, a10, a11, a12, -⟩, b1, b2, b3⟩ := hF
    exact ⟨⟨a1, a2, a3, a4, a5, a6, a7, a8, a9, a10, a11, a12, rfl⟩, b1, b2, b3⟩
  have hread (c : Fin 4) (hr : (s.chan c).reads .test = true) :
      (testEvent s).chan c = (s.edgeAt (s.edgeAt (s.chan c) .rise 0).1 .fall 128).1 := (hchan c).trans (if_pos hr)
  refine ⟨testEvent s, congrArg Host.Outcome.next (if_pos hdue), hframe, rfl,
    fun c hr => (hchan c).trans (if_neg (by rw [hr]; exact nofun)), hread, fun c g hc hi he hq => ?_, fun i => ?_,
    edgeAt_forms_iff s ht⟩
  · have hpass : s.passes (s.chan c) g .rise 0 = true :=
      passes_iff.mpr ⟨by rw [he]; rfl, fun q hl => (qualifies_iff.mp hq q hl).trans (Nat.le_add_right _ _)⟩
    rw [hread c (by simp only [Channel.reads, hc, Option.map_some, hi, beq_self_eq_true]),
      edgeAt_second_ignored hc ht hpass]
  · show (testChannels s).sequences.get i = _
    rw [testChannels_sequences]
    simp only [testEvent_fires_iff]

/-! ### The Test Source's cycle -/

theorem trailingZeros_odd (n u : Nat) : trailingZeros (n + 1) (2 * u + 1) = 0 := by
  unfold trailingZeros
  exact if_pos (by omega)

theorem trailingZeros_even (n u : Nat) : trailingZeros (n + 1) (2 * u) = 1 + trailingZeros n u := by
  rw [trailingZeros, if_neg (by omega), Nat.mul_div_cancel_left u two_pos]

/-- Of twice as many numbers, the even ones and the odd ones are counted apart. -/
theorem countP_range_two_mul (f : Nat → Bool) (n : Nat) : (List.range (2 * n)).countP f =
    (List.range n).countP (fun u => f (2 * u)) + (List.range n).countP (fun u => f (2 * u + 1)) := by
  induction n with
  | zero => rfl
  | succ n ih =>
    rw [show 2 * (n + 1) = 2 * n + 1 + 1 by omega]
    simp only [List.range_succ, List.countP_append, List.countP_singleton, ih]
    omega

/-- The odd positions belong to the highest bit, and an even one to the bit that its half belongs to in a cycle of half
the length: so a cycle of 2 ^ n positions holds as many events as the number that n bits of the density give (R47). -/
theorem countP_selected (d n fuel : Nat) (h : n ≤ fuel) :
    ((List.range (2 ^ n)).countP fun t => t != 0 && d.testBit (n - 1 - trailingZeros fuel t)) = d % 2 ^ n := by
  induction n generalizing fuel with
  | zero => simp [Nat.mod_one]
  | succ n ih =>
    obtain ⟨k, rfl⟩ : ∃ k, fuel = k + 1 := ⟨fuel - 1, by omega⟩
    have heven : (fun u => 2 * u != 0 && d.testBit (n + 1 - 1 - trailingZeros (k + 1) (2 * u)))
        = fun u => u != 0 && d.testBit (n - 1 - trailingZeros k u) := by
      funext u
      rw [trailingZeros_even, show n + 1 - 1 - (1 + trailingZeros k u) = n - 1 - trailingZeros k u by omega]
      congr 1
      exact Bool.eq_iff_iff.mpr (by simp only [bne_iff_ne]; omega)
    have hodd : (fun u => 2 * u + 1 != 0 && d.testBit (n + 1 - 1 - trailingZeros (k + 1) (2 * u + 1)))
        = fun _ => d.testBit n := by
      funext u
      rw [trailingZeros_odd]
      rfl
    have hbit : ((List.range (2 ^ n)).countP fun _ => d.testBit n) = 2 ^ n * (d.testBit n).toNat := by
      cases d.testBit n <;> simp
    rw [show 2 ^ (n + 1) = 2 * 2 ^ n from Nat.pow_succ', countP_range_two_mul, heven, hodd, ih k (by omega), hbit,
      ← Nat.pow_succ', Nat.mod_pow_succ, Nat.toNat_testBit]

/-- A position has as many trailing zero bits as 2 divides it (R47). -/
theorem trailingZeros_spec (n t : Nat) (h0 : t ≠ 0) (hn : t < 2 ^ n) : trailingZeros n t < n ∧
    2 ^ trailingZeros n t ∣ t ∧ ¬ 2 ^ (trailingZeros n t + 1) ∣ t := by
  induction n generalizing t with
  | zero => simp only [pow_zero, Nat.lt_one_iff] at hn; exact absurd hn h0
  | succ n ih =>
    rcases Nat.even_or_odd' t with ⟨u, rfl | rfl⟩
    · obtain ⟨h1, h2, h3⟩ := ih u (by omega) (by omega)
      rw [trailingZeros_even, Nat.add_comm 1, Nat.pow_succ', Nat.pow_succ']
      exact ⟨by omega, Nat.mul_dvd_mul_left 2 h2, fun h => h3 (Nat.dvd_of_mul_dvd_mul_left two_pos h)⟩
    · rw [trailingZeros_odd]
      refine ⟨by omega, by simp, ?_⟩
      omega

/-- The trailing zero bits are the one power of 2 that divides a position while the next does not. -/
theorem trailingZeros_unique {n t z : Nat} (h0 : t ≠ 0) (hn : t < 2 ^ n) (h : 2 ^ z ∣ t) (h' : ¬ 2 ^ (z + 1) ∣ t) :
    trailingZeros n t = z := by
  obtain ⟨-, h2, h3⟩ := trailingZeros_spec n t h0 hn
  have hle : ∀ {a b : Nat}, 2 ^ a ∣ t → ¬ 2 ^ (b + 1) ∣ t → a ≤ b := fun ha hb =>
    Nat.le_of_not_lt fun hlt => hb ((Nat.pow_dvd_pow 2 hlt).trans ha)
  exact Nat.le_antisymm (hle h2 h') (hle h h3)

/-- Settles O19: the count by halving the cycle, the bits by the trailing zeros. -/
theorem testCycleHoldsDensityEvents : Obligations.TestCycleHoldsDensityEvents := by
  refine fun density => ⟨?_, fun t h1 h2 => ?_⟩
  · exact (countP_selected density.toNat 16 16 le_rfl).trans (Nat.mod_eq_of_lt density.isLt)
  · have h0 : t ≠ 0 := by omega
    obtain ⟨hz, hd, hn⟩ := trailingZeros_spec 16 t h0 h2
    unfold selectedPosition
    rw [bne_iff_ne.mpr h0, Bool.true_and]
    constructor
    · intro hs
      refine ⟨15 - trailingZeros 16 t, by omega, hs, ?_, ?_⟩
      · rwa [show 15 - (15 - trailingZeros 16 t) = trailingZeros 16 t by omega]
      · rwa [show 16 - (15 - trailingZeros 16 t) = trailingZeros 16 t + 1 by omega]
    · rintro ⟨j, hj, hs, hjd, hjn⟩
      rw [show 16 - j = 15 - j + 1 by omega] at hjn
      rwa [trailingZeros_unique h0 h2 hjd hjn, show 15 - (15 - j) = j by omega]

/-! ### STAMP_RESOLUTION -/

/-- The channel once its oldest stamp in flight is out (R42). -/
def State.landed (s : State) (c : Fin 4) : State := s.modChan c fun y => { y with inFlight := y.inFlight.tail }

/-- The station once a local stamp has joined the Store (R44, R53). -/
def State.stored (s : State) (c : Fin 4) (e : Entry) (rest : List FlyingStamp) : State :=
  { s.setChan c { s.chan c with inFlight := rest, storeDrops := 0 } with
    store := (s.store ++ [s.passHeld e]).filter Entry.wanted }

section

variable {f : FlyingStamp} {rest : List FlyingStamp} {e : Entry}

theorem stampResolution_effect (ht : s.hasTime = true) (hf : (s.chan c).inFlight = f :: rest)
    (hold : f.formedAt + 8 ≤ s.eu.elapsed) : effect (.stampResolution c) s = resolveStamp c f s := by
  have hr : s.resolvable c = some f := by
    unfold State.resolvable
    simp only [hf, ht, Bool.true_and]
    exact if_pos (decide_eq_true hold)
  show effectStampResolution c s = _
  unfold effectStampResolution
  rw [hr]

theorem landed_eq (hf : (s.chan c).inFlight = f :: rest) :
    s.landed c = s.setChan c { s.chan c with inFlight := rest } := by
  have ht : (s.chan c).inFlight.tail = rest := by rw [hf]; rfl
  exact ht ▸ rfl

/-- A suppressed or dropped stamp counts one loss on the store side (R44). -/
theorem landed_countStoreDrop (hf : (s.chan c).inFlight = f :: rest) : (s.landed c).modChan c Channel.countStoreDrop
    = s.setChan c { s.chan c with inFlight := rest, storeDrops := satAdd (s.chan c).storeDrops 1 } := by
  rw [landed_eq hf]
  unfold State.modChan
  rw [State.setChan_setChan, State.chan_setChan, if_pos rfl]
  rfl

theorem landed_localEntry (s : State) (c : Fin 4) (f : FlyingStamp) : (s.landed c).localEntry c f = s.localEntry c f := by
  unfold State.localEntry State.publishes State.landed
  rw [State.chan_modChan, if_pos rfl]
  rfl

theorem resolveStamp_suppressed (hs : f.suppressed = true) :
    resolveStamp c f s = (s.landed c).modChan c Channel.countStoreDrop := if_pos hs

theorem resolveStamp_offered (hs : f.suppressed = false) : resolveStamp c f s = offerLocal c f (s.landed c) :=
  if_neg (Bool.eq_false_iff.mp hs)

theorem offerLocal_declined (h : (s.localEntry c f).wanted = false) : offerLocal c f s = s := by
  unfold offerLocal
  simp only [h, Bool.not_false, if_true]

theorem offerLocal_wanted (h : (s.localEntry c f).wanted = true) : offerLocal c f s = if s.storeRoom then
    scanArrival (s.localEntry c f) ((s.store1 (s.localEntry c f)).modChan c fun y => { y with storeDrops := 0 })
    else s.modChan c Channel.countStoreDrop := by
  unfold offerLocal
  simp only [h, Bool.not_true, Bool.false_eq_true, if_false]

theorem resolveStamp_stored (hf : (s.chan c).inFlight = f :: rest) (hs : f.suppressed = false)
    (he : e = s.localEntry c f) (hw : e.wanted = true) (hroom : s.store.length < 128) :
    resolveStamp c f s = scanArrival e (s.stored c e rest) := by
  have hle := landed_localEntry s c f
  have hsr : (s.landed c).storeRoom = true := decide_eq_true hroom
  subst he
  rw [resolveStamp_offered hs, offerLocal_wanted (by rw [hle]; exact hw), hle, if_pos hsr]
  have hst : ((s.landed c).store1 (s.localEntry c f)).modChan c (fun y => { y with storeDrops := 0 })
      = s.stored c (s.localEntry c f) rest := by
    rw [landed_eq hf]
    show ((s.setChan c _).setChan c { (s.setChan c _).chan c with storeDrops := 0 }).setStore _ = _
    rw [State.setChan_setChan, State.chan_setChan, if_pos rfl]
    rfl
  rw [hst]

theorem stored_chan (d : Fin 4) : (s.stored c e rest).chan d =
    if d = c then { s.chan c with inFlight := rest, storeDrops := 0 } else s.chan d :=
  State.chan_setChan s c d _

end

/-- Settles O20: the outcomes are the branches of the offer; the consumer set is `offeredEntry`'s. -/
theorem resolutionHasFourOutcomes : Obligations.ResolutionHasFourOutcomes := by
  rintro s c x rest e ht hf hold rfl
  have heff := stampResolution_effect ht hf hold
  have gives {t : State} (h : resolveStamp c x s = t) : Gives (.stampResolution c) s t :=
    gives_of_effect_eq nofun nofun (heff.trans h)
  have hle := landed_localEntry s c x
  refine ⟨fun i r => offeredEntry_wants .., ?_, wanted_iff _, rfl, fun hs => gives ?_, fun hs hw => gives ?_,
    fun hs hw hfull => gives ?_, fun hs hw hroom => ?_⟩
  · show s.publishes c = true ↔ _
    unfold State.publishes
    cases (s.chan c).config <;> simp
  · rw [resolveStamp_suppressed hs, landed_countStoreDrop hf]
  · rw [resolveStamp_offered hs, offerLocal_declined (by rw [hle]; exact hw), landed_eq hf]
  · have hfull : (s.landed c).storeRoom = false := decide_eq_false (Nat.not_lt.mpr hfull)
    rw [resolveStamp_offered hs, offerLocal_wanted (by rw [hle]; exact hw), hfull, if_neg Bool.false_ne_true,
      landed_countStoreDrop hf]
  · have hF := (Acts.scanArrival (s.localEntry c x) (s.stored c (s.localEntry c x) rest)).frame
    have hchan (d : Fin 4) : (scanArrival (s.localEntry c x) (s.stored c (s.localEntry c x) rest)).chan d
        = (s.stored c (s.localEntry c x) rest).chan d := congrArg (fun l : Table 4 Channel => l.get d) hF.channels
    have hstored : s.stored c (s.localEntry c x) rest = { s with
        channels := (scanArrival (s.localEntry c x) (s.stored c (s.localEntry c x) rest)).channels
        store := (s.store ++ [s.passHeld (s.localEntry c x)]).filter Entry.wanted } := by
      rw [hF.channels]
      rfl
    refine ⟨_, gives (resolveStamp_stored hf hs rfl hw hroom), ?_, fun d hd => ?_, hF.eu, hF.peers, hF.directives, ?_,
      fun hG => ?_⟩
    · rw [hchan, stored_chan, if_pos rfl]
    · rw [hchan, stored_chan, if_neg hd]
    · exact congrArg (scanArrival (s.localEntry c x)) hstored
    · exact (scanArrival_none _ _ hG).trans hstored

end Sys2Proof.Machine
end

section
/-! PROOFS. A collision of the own frame, and a Test Source event that a slip undoes. -/

namespace Sys2Proof.Machine

variable {s t : State}

/-! ### A collision -/

theorem collisionPoint_not_ended {x : Sending} (h : s.collisionPoint = true) (hx : s.link.sending = some x) :
    x.ended = false := by
  simp only [State.collisionPoint, hx, Bool.and_eq_true, Bool.not_eq_true'] at h
  exact h.1.1.1

/-- What a collision loses is every record of the frame (R45, R77). -/
theorem unsentRecords_collision {x : Sending} (h : s.collisionPoint = true) (hx : s.link.sending = some x) :
    s.unsentRecords = x.frame.records := by
  simp only [State.unsentRecords, hx, collisionPoint_not_ended h hx, Bool.false_eq_true, if_false]

/-- The first and the second collision in a row are counted (R78). -/
theorem collide_counts (h : s.link.consecutive ≠ 2) : collide s = { s with
    channels := (abandonFrame s).channels
    link := { s.link with
      sending := none
      consecutive := s.link.consecutive + 1
      collisions := satAdd s.link.collisions 1 } } := by
  have hn : ¬ s.link.consecutive + 1 = Config.muteCollisions := fun k => h (Nat.succ.inj k)
  unfold collide
  rw [abandonFrame_eq]
  exact if_neg hn

/-- The third collision in a row brings MUTE (R61, R79). -/
theorem collide_mutes (h : s.link.consecutive = 2) : collide s = { s with
    eu := { s.eu with align := some .mute }
    channels := (abandonFrame s).channels
    store := (s.store.map fun e => { e with publish := false }).filter Entry.wanted
    link := { s.link with sending := none, collisions := satAdd s.link.collisions 1 } } := by
  have hy : s.link.consecutive + 1 = Config.muteCollisions := by rw [h]; rfl
  unfold collide
  rw [abandonFrame_eq]
  exact if_pos hy

theorem collide_channels (s : State) : (collide s).channels = (abandonFrame s).channels := by
  by_cases h : s.link.consecutive = 2
  · rw [collide_mutes h]
  · rw [collide_counts h]

theorem collide_sending (s : State) : (collide s).link.sending = none := by
  by_cases h : s.link.consecutive = 2
  · rw [collide_mutes h]
  · rw [collide_counts h]

/-- Settles O44: a collision abandons the frame, whose records are lost by their channels, and is the third in a row or
an earlier one. -/
theorem collisionAbandonsFrame : Obligations.CollisionAbandonsFrame := by
  intro s x h hx
  have hc := collide_channels s
  refine ⟨collide s, gives_of_effect_eq nofun nofun (if_pos h), dataLine_none (collide_sending s), fun h2 => ?_,
    fun h2 => ⟨?_, ?_⟩, fun c => ?_⟩
  · rw [hc]
    exact collide_counts h2
  · refine faultLine_iff.mpr (.inr (.inl ?_))
    rw [collide_mutes h2]
  · rw [hc]
    exact collide_mutes h2
  · have hchan : (collide s).chan c = (abandonFrame s).chan c := congrArg (fun l : Table 4 Channel => l.get c) hc
    rw [hchan, ← unsentRecords_collision h hx]
    exact abandonFrame_chan s c

/-! ### A Test Source event undone -/

/-- Station `t` has taken this tick's Test Source event and keeps beside it the station `s`, which has not. -/
structure Undoes (s t : State) : Prop where
  pending : t.pending = s.pending
  order : t.order = s.order
  untested : s.untested = none
  kept : t.untested = some s.toStation

theorem Undoes.alone (h : Undoes s t) : t.alone s.toStation = s := by
  unfold State.alone
  rw [h.pending, h.order, ← h.untested]

/-- A Test Source event keeps the station as it stands without it (R47; log 39). -/
theorem Undoes.testEvent (h : s.testEventDue = true) : Undoes s (testEvent s) := by
  have hF := (testChannels_chan s).1
  have hn : s.untested = none := by
    simp only [State.testEventDue, Bool.and_eq_true, Option.isNone_iff_eq_none] at h
    exact h.1.2
  exact ⟨hF.pending, hF.order, hn, rfl⟩

/-- A command acts on both stations alike, while the one without the event has local time (log 39). -/
theorem Undoes.effect {c : Instr} (h : Undoes s t)
    (ht : (s.inBoth (Machine.effect c)).hasTime = true) :
    Undoes (s.inBoth (Machine.effect c)) (t.inBoth (Machine.effect c)) := by
  have hs := (effect_ends c s).1
  have hu := (effect_ends c t).1
  refine ⟨?_, ?_, ?_, ?_⟩
  · rw [State.inBoth_pending, State.inBoth_pending, hs.pending, hu.pending, h.pending]
  · rw [State.inBoth_order, State.inBoth_order, hs.order, hu.order, h.order]
  · rw [State.inBoth_untested, h.untested]
    rfl
  · rw [State.inBoth_untested, h.kept, Option.bind_some, h.alone, State.inBoth_toStation]
    exact if_pos ht

theorem after_cons {c : Instr} (l : List Instr) (h : exec c s = .next t) : s.after (c :: l) = t.after l := by
  show l.foldl _ (match exec c s with | .next t => t | _ => s) = _
  rw [h]
  rfl

/-- Commands act on both stations alike, one after another. -/
theorem Undoes.after {l : List Instr} (h : Undoes s t) (hl : ∀ c ∈ l, c ≠ .testSourceEvent ∧ c ≠ .markLeadingEdge)
    (ht : ∀ k, (s.after (l.take k)).hasTime = true) : Undoes (s.after l) (t.after l) := by
  induction l generalizing s t with
  | nil => exact h
  | cons c l ih =>
    have hc := hl c List.mem_cons_self
    have he (u : State) : exec c u = .next (u.inBoth (Machine.effect c)) :=
      exec_eq_inBoth hc.1 fun k => absurd k hc.2
    have htime (k : Nat) : ((s.inBoth (Machine.effect c)).after (l.take k)).hasTime = true := by
      rw [← after_cons _ (he s)]
      exact ht (k + 1)
    rw [after_cons _ (he s), after_cons _ (he t)]
    exact ih (h.effect (htime 0)) (fun d hd => hl d (List.mem_cons_of_mem c hd)) htime

/-- Settles O58: the slip goes on from the station that the event has kept beside it, on which every command between has
acted too. -/
theorem slipUndoesTestEvent : Obligations.SlipUndoesTestEvent := by
  intro s t l he hd hl ht hslip hslip'
  have hs : Undoes s t := by
    have h : t = testEvent s := by
      injection he.symm.trans (congrArg Host.Outcome.next (if_pos hd))
    rw [h]
    exact .testEvent hd
  have h := hs.after hl ht
  rw [exec_slip hslip, exec_slip hslip', State.withoutTestEvent_some _ h.kept, h.alone,
    State.withoutTestEvent_none _ h.untested]

end Sys2Proof.Machine
end

section
/-! PROOFS. Gates and blocks: TIMED gates, count snapshots, TOTALIZE gates that close, and late directives. -/

namespace Sys2Proof.Machine

variable {s t u v : State} {i : Fin 8} {c : MeasureConfig} {x z : TimeStamp}

/-! ### TIMED gates -/

theorem kind_of_config {m : Measure} (hc : m.config = some c) : m.kind = c.kind := by
  unfold Measure.kind
  rw [hc]

/-- A gate that opens at a time reached: a TOTALIZE measure takes its open snapshot at once (R36, R149). -/
theorem gateOpened_reached {m : Measure} (hc : m.config = some c) (hx : s.reached x = true) : s.gateOpened m x = { m with
    st := .opened, openTime := some x, closeTime := none, carriedOpening := none, closedByStamp := false
    block := if c.kind = .totalize then { m.block with openSnapshot := s.snapshot c.a.channel x } else m.block } := by
  unfold State.gateOpened
  simp only [hc, hx, Option.map_some, Option.some.injEq, if_true]

theorem closeTimed_eq (hc : (s.meas i).config = some c) : closeTimed i z s = s.setMeas i { s.meas i with
    st := .closing
    closeTime := some z
    block := if c.kind = .totalize then { (s.meas i).block with closeRequest := some z } else (s.meas i).block } := by
  rw [← kind_of_config hc]
  rfl

/-- Settles O24: the close time is the planned one, the opening the carried one. -/
theorem timedGateClosesAndReopens : Obligations.TimedGateClosesAndReopens := by
  refine ⟨fun s i c o hst hc hg ho hz hr => ?_, fun s i c x hst hc hg hx hr => ?_⟩
  · have hdue : s.timedCloseReached i = some (addTicks s.epochLength o c.length.toNat) := by
      unfold State.timedCloseReached Measure.plannedClose
      simp only [hst, hc, hz, ho, hg, hr, if_true, and_self]
    refine gives_of_effect_eq nofun nofun ?_
    simp only [effect, effectTimedGateClose, hdue]
    exact closeTimed_eq hc
  · have hdue : s.reopenReached i = some x := by
      unfold State.reopenReached
      simp only [hst, hc, hx, hg, hr, if_true, and_self]
    refine gives_of_effect_eq nofun nofun ?_
    simp only [effect, effectTimedGateReopen, hdue]
    rw [openGate_meas hc, gateOpened_reached hc hr]

/-! ### Count snapshots -/

theorem atOrAfter_eq_not_earlier (x y : TimeStamp) : atOrAfter x y = !earlier x y := rfl

theorem edgeAt_recentEdges {w : Channel} {g : ChannelConfig} {p : Polarity} {fine : BitVec 8} (hc : w.config = some g)
    (ht : s.hasTime = true) (h : s.passes w g p fine = true) :
    (s.edgeAt w p fine).1.edgeCount = w.edgeCount + 1 ∧ ∃ e : RecentEdge, e.tick = s.eu.elapsed ∧
      e.time = s.edgeTime fine ∧ (s.edgeAt w p fine).1.recentEdges
        = (w.recentEdges.filter fun e => decide (s.eu.elapsed ≤ e.tick + Config.captureLatency)) ++ [e] := by
  obtain ⟨hcounted, hformed⟩ := edgeAt_qualified hc ht h rfl
  by_cases hP : w.prescale + 1 = g.prescale
  · rw [hformed hP]
    exact ⟨rfl, _, rfl, rfl, rfl⟩
  · rw [hcounted hP]
    exact ⟨rfl, _, rfl, rfl, rfl⟩

/-- The snapshot of a channel, read of the channel and the elapsed scale alone (R36). -/
def Channel.earlierEdges (w : Channel) (elapsed : Nat) (x : TimeStamp) : BitVec 48 :=
  w.edgeCount - BitVec.ofNat 48 (w.recentEdges.filter fun e =>
    decide (elapsed ≤ e.tick + Config.captureLatency) && atOrAfter e.time x).length

theorem snapshot_eq (s : State) (d : Fin 4) (x : TimeStamp) :
    s.snapshot d x = (s.chan d).earlierEdges s.eu.elapsed x := rfl

/-- A qualified edge adds 1 to the snapshots for times later than its own (R36). -/
theorem edgeAt_earlierEdges {w : Channel} {g : ChannelConfig} {p : Polarity} {fine : BitVec 8} (hc : w.config = some g)
    (ht : s.hasTime = true) (h : s.passes w g p fine = true) (x : TimeStamp) :
    (s.edgeAt w p fine).1.earlierEdges s.eu.elapsed x
      = w.earlierEdges s.eu.elapsed x + (if earlier (s.edgeTime fine) x = true then 1 else 0) := by
  obtain ⟨hcount, e, htick, htime, hrecent⟩ := edgeAt_recentEdges hc ht h
  have hold : (w.recentEdges.filter fun e => decide (s.eu.elapsed ≤ e.tick + Config.captureLatency)).filter (fun e =>
      decide (s.eu.elapsed ≤ e.tick + Config.captureLatency) && atOrAfter e.time x)
      = w.recentEdges.filter fun e => decide (s.eu.elapsed ≤ e.tick + Config.captureLatency) && atOrAfter e.time x := by
    rw [List.filter_filter]
    congr 1
    funext e
    rw [Bool.and_right_comm, Bool.and_self]
  have hnew : (decide (s.eu.elapsed ≤ e.tick + Config.captureLatency) && atOrAfter e.time x)
      = !earlier (s.edgeTime fine) x := by
    rw [htick, htime, decide_eq_true (Nat.le_add_right _ _), Bool.true_and, atOrAfter_eq_not_earlier]
  unfold Channel.earlierEdges
  rw [hcount, hrecent, List.filter_append, hold, List.filter_singleton, hnew, List.length_append]
  cases earlier (s.edgeTime fine) x
  · simp only [Bool.not_false, cond_true, List.length_singleton, Bool.false_eq_true, if_false, BitVec.ofNat_add]
    bv_omega
  · simp only [Bool.not_true, cond_false, List.length_nil, if_true, Nat.add_zero]
    bv_omega

/-- A tick that makes an edge more than 8 ticks old leaves the snapshots for times later than that edge (log 10). -/
theorem earlierEdges_tick {w : Channel} {n : Nat}
    (h : ∀ e ∈ w.recentEdges, e.tick + 8 ≤ n → earlier e.time x = true) :
    w.earlierEdges (n + 1) x = w.earlierEdges n x := by
  have hf : (w.recentEdges.filter fun e => decide (n + 1 ≤ e.tick + Config.captureLatency) && atOrAfter e.time x)
      = w.recentEdges.filter fun e => decide (n ≤ e.tick + Config.captureLatency) && atOrAfter e.time x := by
    refine List.filter_congr fun e he => ?_
    by_cases hold : e.tick + 8 ≤ n
    · rw [atOrAfter_eq_not_earlier, h e he hold, Bool.not_true, Bool.and_false, Bool.and_false]
    · rw [decide_eq_true (show n + 1 ≤ e.tick + Config.captureLatency by unfold Config.captureLatency; omega),
        decide_eq_true (show n ≤ e.tick + Config.captureLatency by unfold Config.captureLatency; omega)]
  unfold Channel.earlierEdges
  rw [hf]

theorem advance_elapsed (s : State) :
    (advance s).eu.elapsed = s.eu.elapsed ∨ (advance s).eu.elapsed = s.eu.elapsed + 1 := by
  show (advanceEpochUnit s).elapsed = _ ∨ (advanceEpochUnit s).elapsed = _
  unfold advanceEpochUnit
  split
  · exact .inl rfl
  · exact .inl rfl
  · exact .inr rfl
  · exact .inr rfl
  · exact .inl rfl
  · exact .inl rfl
  · exact .inl rfl

theorem takeEdge_snapshot {d : Fin 4} {p : Polarity} {fine : BitVec 8} {g : ChannelConfig}
    (hc : (s.chan d).config = some g) (ht : s.hasTime = true) (h : s.passes (s.chan d) g p fine = true) (e : Fin 4)
    (x : TimeStamp) : (takeEdge d p fine s).snapshot e x
      = s.snapshot e x + (if e = d ∧ earlier (s.edgeTime fine) x = true then 1 else 0) := by
  have heu : (takeEdge d p fine s).eu = s.eu := (takeEdge_frame d p fine s).eu
  rw [snapshot_eq, snapshot_eq, heu, takeEdge_chan]
  by_cases he : e = d
  · subst he
    simp only [if_true, true_and]
    exact edgeAt_earlierEdges hc ht h x
  · simp only [he, if_false, false_and]
    exact (BitVec.add_zero _).symm

/-! ### SNAPSHOT_ANSWER -/

theorem snapshotAnswer_gives (h : s.snapshotReached i = true) : Gives (.snapshotAnswer i) s (answerSnapshots i s) :=
  gives_of_effect_eq nofun nofun (if_pos h)

theorem answerSnapshots_open (hc : (s.meas i).config = some c) (ho : (s.meas i).block.openRequest = some x)
    (hx : s.reached x = true) (hn : (s.meas i).st ≠ .closing ∨ (s.meas i).block.closeRequest = none) :
    answerSnapshots i s = s.setMeas i { s.meas i with block := { (s.meas i).block with
      openRequest := none, openSnapshot := s.snapshot c.a.channel x } } := by
  unfold answerSnapshots
  simp only [hc, ho, hx, if_true, State.meas_modMeas]
  split
  · rename_i hst hcl _
    rcases hn with h | h
    · exact absurd hst h
    · rw [h] at hcl
      cases hcl
  · rw [← hc]
    rfl

theorem answerSnapshots_close (hst : (s.meas i).st = .closing) (hc : (s.meas i).config = some c)
    (hz : (s.meas i).block.closeRequest = some x) (ho : (s.meas i).block.openRequest = none) (hx : s.reached x = true) :
    answerSnapshots i s = rescanGate i (completeTotalize i (s.snapshot c.a.channel x) s) := by
  unfold answerSnapshots
  simp only [hc, ho, hst, hz, hx, if_true]

/-- Settles O27: an open request is a write of the block, a close request finishes it, and the snapshot is the edge
counter less the late edges. -/
theorem snapshotsAreAnswered : Obligations.SnapshotsAreAnswered := by
  refine ⟨fun s i c x hc ho hx hn => ?_, fun s i c x o z hst hc hk hz hn hx ho hcl => ?_,
    fun s e x => ⟨fun h => ?_, fun d p fine g hr hc ht hp hq => ?_, fun h => ?_⟩⟩
  · have hdue : s.snapshotReached i = true := by
      unfold State.snapshotReached
      simp only [hc, ho, hx, Option.isSome_some, Bool.true_or, Bool.and_true]
    rw [← answerSnapshots_open hc ho hx hn]
    exact snapshotAnswer_gives hdue
  · have hdue : s.snapshotReached i = true := by
      unfold State.snapshotReached
      simp [hc, hn, hst, hz, hx]
    have hacts := Acts.answerSnapshots (i := i) s
    refine ⟨_, snapshotAnswer_gives hdue, hacts.frame, hacts.others, ?_⟩
    rw [answerSnapshots_close hst hc hz hn hx]
    refine ⟨fun hcr hm => ?_, fun h => ?_⟩
    · rw [completeTotalize_faults i _ s ho hcl hcr hm]
      have hF := enterFault_faults i .discontinuity true s
      rwa [rescanGate_fault _ hF.1]
    · obtain ⟨⟨g, hrep, hgm, hgk, hgf, hgv, -⟩, hview, hidle⟩ :=
        completeTotalize_reports i (s.snapshot c.a.channel x) s (h.imp_left fun h o' z' ho' hz' => by
          rwa [Option.some.inj (ho'.symm.trans ho), Option.some.inj (hz'.symm.trans hcl)])
      refine ⟨fun h0 hroom => ?_, g, hrep.rescan fun hst => hview hst .G, hgm, ?_, hgf, hgv⟩
      · have hi := hidle hroom h0
        rwa [rescanGate_idle _ hi]
      · rw [hgk, kind_of_config hc, hk]
  · rw [snapshot_eq]
    unfold Channel.earlierEdges
    rw [h]
    exact BitVec.sub_zero _
  · exact ⟨_, pinEdge_gives p fine ht hr, takeEdge_snapshot hc ht (passes_iff.mpr ⟨hp, hq⟩) e x⟩
  · rw [snapshot_eq, snapshot_eq]
    have hchan : (advance s).chan e = s.chan e := rfl
    rw [hchan]
    rcases advance_elapsed s with he | he
    · rw [he]
    · rw [he]
      exact earlierEdges_tick h

end Sys2Proof.Machine
end

section
/-! PROOFS. A directive at the measures: TOTALIZE gates that close by overrun, GATE_CLOSE and FLUSH, and the directives
that arrive late. -/

namespace Sys2Proof.Machine

variable {s t u v : State} {i : Fin 8} {c : MeasureConfig} {x z : TimeStamp}

/-! ### A directive at one of the measures -/

section

variable {f : Fin 8 → State → State} (hf : ∀ i s, Acts true (Only i) s (f i s)) (mask : BitVec 8) (s : State)
include hf

theorem forSelected_acts : Acts true (fun i => mask.getLsbD i.val = true) s (forSelected mask f s) := .serve hf s s

theorem forSelected_served (hi : mask.getLsbD i.val = true) : ∃ u, Acts true (fun j => j ≠ i) s u ∧
    Acts true (fun j => j ≠ i) (f i u) (forSelected mask f s) :=
  served_one (p := fun i => mask.getLsbD i.val) hf s s i hi

/-- A measure that is not selected, or that the directive leaves alone, stays as it is. -/
theorem forSelected_ignores (h : mask.getLsbD i.val = false ∨ ∀ u : State, u.meas i = s.meas i → f i u = u) :
    (forSelected mask f s).meas i = s.meas i := by
  by_cases hi : mask.getLsbD i.val = true
  · obtain ⟨u, hu, ht⟩ := forSelected_served hf mask s hi
    have hn := h.resolve_left (Bool.not_eq_false _ ▸ hi)
    rw [ht.meas_eq, hn u hu.meas_eq, hu.meas_eq]
  · exact (forSelected_acts hf mask s).others i hi

end

theorem Faults.served {k : FaultKind} (hu : Acts true (fun j => j ≠ i) s u) (hF : Faults u v i k)
    (ht : Acts true (fun j => j ≠ i) v t) : Faults s t i k :=
  (hF.start hu.queue (by rw [hu.meas_eq]) (by rw [hu.meas_eq])).later ht.queue ht.meas_eq

theorem Reports.served {g : Group} (hu : Acts true (fun j => j ≠ i) s u) (hR : Reports u v i g)
    (ht : Acts true (fun j => j ≠ i) v t) : Reports s t i g :=
  (hR.start hu.queue (by rw [hu.meas_eq])).later ht.queue fun _ => ht.meas_eq

/-! ### A gate that closes -/

/-- The gate of a measure that counts no edges just closes (R113). -/
theorem closeGate_shuts (hc : (s.meas i).config = some c) (hk : c.kind ≠ .totalize) :
    closeGate i z s = s.setMeas i { s.meas i with st := .closing, closeTime := some z } := by
  unfold closeGate
  simp only [hc, hk, if_false]

/-- The G role of a CLOSING measure moves no measure. -/
theorem rescanGate_closing_meas (h : (s.meas i).st = .closing) (j : Fin 8) : (rescanGate i s).meas j = s.meas j := by
  unfold rescanGate State.meas
  rw [(scanGate_closing _ true s h).1]

theorem reached_localTime (h : s.hasTime = true) : s.reached s.localTime = true := by
  unfold State.reached atOrAfter compareTime
  rw [h, compareEpoch_self]
  simp

theorem dueDirective_reached {k : Code} {d : Directive} (h : s.dueDirective k = some d) : s.reached d.time = true := by
  unfold State.dueDirective at h
  split at h
  · split at h
    · rename_i h1
      cases h
      exact h1.2
    · cases h
  · cases h

/-- The state before a due directive is taken off the list may stand for the state after. -/
theorem ClosesTotalize.of_popDirective {q : BitVec 12} (h : ClosesTotalize s.popDirective t i c z q) :
    ClosesTotalize s t i c z q := ⟨h.reports, h.faults, h.asks⟩

/-! ### GATE_OPEN, GATE_CLOSE and FLUSH at a measure -/

theorem gateOpenMeasure_takes {late : Bool} (hst : (s.meas i).st = .armed)
    (hg : (s.meas i).config.map (·.gate) = some .directive) : gateOpenMeasure i z late s =
      if ((lateGate i late s).meas i).st = .armed then openGate i z (lateGate i late s) else lateGate i late s := by
  unfold gateOpenMeasure
  simp only [hst, hg]

theorem gateOpenMeasure_ignores {late : Bool}
    (h : (s.meas i).st ≠ .armed ∨ (s.meas i).config.map (·.gate) ≠ some .directive) : gateOpenMeasure i z late s = s := by
  unfold gateOpenMeasure
  split
  · rename_i hst hg
    exact absurd hg (h.resolve_left (not_not.mpr hst))
  · rfl

theorem gateCloseMeasure_takes {late : Bool} (hst : (s.meas i).st = .opened)
    (hg : (s.meas i).config.map (·.gate) = some .directive) : gateCloseMeasure i z late s =
      if ((lateGate i late s).meas i).st = .opened then closeGate i z (lateGate i late s) else lateGate i late s := by
  unfold gateCloseMeasure
  simp only [hst, hg]

theorem gateCloseMeasure_ignores {late : Bool}
    (h : (s.meas i).st ≠ .opened ∨ (s.meas i).config.map (·.gate) ≠ some .directive) :
    gateCloseMeasure i z late s = s := by
  unfold gateCloseMeasure
  split
  · rename_i hst hg
    exact absurd hg (h.resolve_left (not_not.mpr hst))
  · rfl

theorem lateGate_masked (ha : (s.meas i).st.active = true) (hm : (s.meas i).masks .lateGate = true) :
    lateGate i true s = s.modMeas i (·.qualify (.fault .lateGate)) := takeCondition_masked .lateGate true s ha hm

theorem lateGate_unmasked (ha : (s.meas i).st.active = true) (hm : (s.meas i).masks .lateGate = false) :
    lateGate i true s = enterFault i .lateGate true s := takeCondition_unmasked .lateGate true s ha hm

/-- A FLUSH of an OPEN RECIPROCAL or TOTALIZE measure closes its gate, with PARTIAL (R114). -/
theorem flushMeasure_closes (hst : (s.meas i).st = .opened) (hk : (s.meas i).kind ≠ .interval) :
    flushMeasure i z s = rescanGate i (closeGate i z (s.modMeas i (·.qualify .partialBlock))) := by
  unfold flushMeasure
  simp only [hst]
  cases h : (s.meas i).kind
  · rfl
  · rfl
  · exact absurd h hk

theorem flushMeasure_ignores (h : ((s.meas i).st ≠ .opened ∧ (s.meas i).st ≠ .closing) ∨
      ((s.meas i).kind = .interval ∧ (s.meas i).block.n = 0) ∨
      ((s.meas i).kind ≠ .interval ∧ (s.meas i).st ≠ .opened)) : flushMeasure i z s = s := by
  unfold flushMeasure
  dsimp only
  split
  · rename_i hk hst
    have hn : (s.meas i).block.n = 0 := by simpa [hk, hst] using h
    exact if_pos hn
  · rename_i hk hst
    have hn : (s.meas i).block.n = 0 := by simpa [hk, hst] using h
    exact if_pos hn
  · rename_i hk hst
    simp [hk, hst] at h
  · rename_i hk hst
    simp [hk, hst] at h
  · rfl

/-- A FLUSH of an INTERVAL block with samples finishes it, with PARTIAL (R114). -/
theorem flushMeasure_finishes (hst : (s.meas i).st = .opened ∨ (s.meas i).st = .closing)
    (hk : (s.meas i).kind = .interval) (hn : (s.meas i).block.n ≠ 0) : ∃ w : Measure,
      w.block = ((s.meas i).qualify .partialBlock).block ∧ w.sequence = (s.meas i).sequence ∧
      flushMeasure i z s = rescanGate i (finishInterval i (s.setMeas i w)) := by
  unfold flushMeasure
  rcases hst with h | h
  · refine ⟨{ (s.meas i).qualify .partialBlock with closeTime := some z }, rfl, rfl, ?_⟩
    simp only [h, hk, hn, if_false, State.modMeas, State.setMeas_setMeas, State.meas_setMeas, if_true]
  · refine ⟨(s.meas i).qualify .partialBlock, rfl, rfl, ?_⟩
    simp only [h, hk, hn, if_false, State.modMeas]

/-! ### TOTALIZE -/

theorem gateClose_gives {d : Directive} (h : s.dueDirective .gateClose = some d) :
    Gives .gateClose s (forSelected d.mask (fun i => gateCloseMeasure i d.time false) s.popDirective) :=
  gives_of_effect_eq nofun nofun (by simp only [effect, effectGateClose, h]; rfl)

theorem flush_gives {d : Directive} (h : s.dueDirective .flush = some d) :
    Gives .flush s (forSelected d.mask (fun i => flushMeasure i d.time) s.popDirective) :=
  gives_of_effect_eq nofun nofun (by simp only [effect, effectFlush, h]; rfl)

theorem gateOverrun_gives {o : TimeStamp} (hst : (s.meas i).st = .opened) (hc : (s.meas i).config = some c)
    (hg : c.gate = .edge ∨ c.gate = .directive) (ho : (s.meas i).openTime = some o)
    (hr : s.reached (addEpochs o c.spanLimit.toNat) = true) :
    Gives (.gateOverrun i) s (rescanGate i (overrunGate i (addEpochs o c.spanLimit.toNat) s)) := by
  have hdue : s.overrunReached i = some (addEpochs o c.spanLimit.toNat) := by
    unfold State.overrunReached Measure.overrunTime
    simp only [hst, hc, ho, hg, if_true, hr]
  exact gives_of_effect_eq nofun nofun (by simp only [effect, effectGateOverrun, hdue])

/-- A gate that a FLUSH closes, in a loop over the measures. -/
theorem flush_closesTotalize {mask : BitVec 8} (hi : mask.getLsbD i.val = true) (hst : (s.meas i).st = .opened)
    (hc : (s.meas i).config = some c) (hk : c.kind = .totalize) (hr : s.reached z = true) :
    ClosesTotalize s (forSelected mask (fun i => flushMeasure i z) s) i c z
      (setQual .partialBlock (s.meas i).block.quals) := by
  obtain ⟨u, hu, ht⟩ := forSelected_served (fun i => Acts.flushMeasure (i := i) z) mask s hi
  have hm := hu.meas_eq
  have hki : (u.meas i).kind ≠ .interval := by
    rw [hm, kind_of_config hc, hk]
    nofun
  refine .of_closeGate (u := u.modMeas i (·.qualify .partialBlock)) (hu.frame.trans (by constructor <;> rfl)) hu.queue ?_
    hc hk hr (.inr (flushMeasure_closes (by rw [hm]; exact hst) hki)) ht
  rw [State.meas_modMeas, if_pos rfl, hm]
  rfl

/-- Settles O29: each of the three is `closeGate` with the block's qualifiers, and then the G role. -/
theorem totalizeGateCloses : Obligations.TotalizeGateCloses := by
  refine ⟨fun s i c o hst hc hk hg ho hr => ?_, fun s d hd => ⟨_, gateClose_gives hd, fun i c hi hst hc hk hg => ?_⟩,
    fun s d hd => ⟨_, flush_gives hd, fun i c hi hst hc hk => ?_⟩⟩
  · refine ⟨_, gateOverrun_gives hst hc hg ho hr, ?_⟩
    refine .of_closeGate (u := s.modMeas i (·.qualify .overrange)) (by constructor <;> rfl) List.prefix_rfl ?_ hc hk hr
      (.inr rfl) (.refl _)
    rw [State.meas_modMeas, if_pos rfl]
    rfl
  · have hr : s.reached d.time = true := dueDirective_reached hd
    obtain ⟨u, hu, ht⟩ := forSelected_served (fun i => Acts.gateCloseMeasure (i := i) d.time false) d.mask s.popDirective hi
    have hm : u.meas i = s.meas i := hu.meas_eq
    have hclose : gateCloseMeasure i d.time false u = closeGate i d.time u := by
      rw [gateCloseMeasure_takes (by rw [hm]; exact hst) (by rw [hm, hc, Option.map_some, hg])]
      exact if_pos (by rw [← hst, ← hm]; rfl)
    exact .of_popDirective (.of_closeGate hu.frame hu.queue hm hc hk hr (.inl hclose) ht)
  · have hr : s.reached d.time = true := dueDirective_reached hd
    exact .of_popDirective (flush_closesTotalize (s := s.popDirective) hi hst hc hk hr)

/-! ### Late directives -/

theorem arriveDirective_late {d : Directive} {straps : BitVec 4} {k : Code} (hv : s.validDirective d = true)
    (hl : s.directives.length < 8) (hi : d.immediate = false) (hlate : later d.time s.localTime = false)
    (hk : codeOf d.code = some k) :
    arriveDirective straps d s = applyDirective k d.mask s.localTime true straps s := by
  unfold arriveDirective
  have hroom : ¬ Config.listCapacity ≤ s.directives.length := Nat.not_le.mpr hl
  simp only [hv, Bool.not_true, Bool.false_eq_true, if_false, hroom, hk, hi, hlate, Bool.not_false, if_true]

/-- An unmasked late gate puts the measure into FAULT, before its gate moves (R112, R174). -/
theorem lateGate_faults {st : MeasureState} (ha : st.active = true) (hst : (s.meas i).st = st)
    (hm : (s.meas i).masks .lateGate = false) :
    Faults s (lateGate i true s) i .lateGate ∧ ((lateGate i true s).meas i).st ≠ st := by
  rw [lateGate_unmasked (by rw [hst]; exact ha) hm]
  have hF := enterFault_faults i .lateGate true s
  refine ⟨hF, fun h => ?_⟩
  rw [← h, hF.1] at ha
  cases ha

theorem lateGate_qualifies {st : MeasureState} (ha : st.active = true) (hst : (s.meas i).st = st)
    (hm : (s.meas i).masks .lateGate = true) :
    lateGate i true s = s.modMeas i (·.qualify (.fault .lateGate)) ∧ ((lateGate i true s).meas i).st = st := by
  have h := lateGate_masked (by rw [hst]; exact ha) hm
  refine ⟨h, ?_⟩
  rw [h, State.meas_modMeas, if_pos rfl]
  exact hst

theorem meas_modMeas_of {m : Measure} (hm : s.meas i = m) (f : Measure → Measure) : (s.modMeas i f).meas i = f m := by
  rw [State.meas_modMeas, if_pos rfl, hm]

section
variable {mask : BitVec 8}

/-- A gate that a late GATE_OPEN opens, in a loop over the measures (R112, R174). -/
theorem lateOpen_opens (hi : mask.getLsbD i.val = true) (hst : (s.meas i).st = .armed)
    (hg : (s.meas i).config.map (·.gate) = some .directive) (hmask : (s.meas i).masks .lateGate = true) :
    (forSelected mask (fun i => gateOpenMeasure i z true) s).meas i
      = s.gateOpened ((s.meas i).qualify (.fault .lateGate)) z := by
  obtain ⟨u, hu, hv⟩ := forSelected_served (fun i => Acts.gateOpenMeasure (i := i) z true) mask s hi
  have hm := hu.meas_eq
  obtain ⟨c, hc, -⟩ := Option.map_eq_some_iff.mp hg
  have hqm := meas_modMeas_of hm (·.qualify (.fault .lateGate))
  rw [← hm] at hst hg hmask
  obtain ⟨hq, hst'⟩ := lateGate_qualifies (st := .armed) rfl hst hmask
  rw [gateOpenMeasure_takes hst hg, if_pos hst', hq, openGate_meas (by rw [hqm]; exact hc), hqm] at hv
  rw [hv.meas_eq, State.meas_setMeas, if_pos rfl]
  exact hu.frame.gateOpened _ _

theorem lateOpen_faults (hi : mask.getLsbD i.val = true) (hst : (s.meas i).st = .armed)
    (hg : (s.meas i).config.map (·.gate) = some .directive) (hmask : (s.meas i).masks .lateGate = false) :
    Faults s (forSelected mask (fun i => gateOpenMeasure i z true) s) i .lateGate := by
  obtain ⟨u, hu, hv⟩ := forSelected_served (fun i => Acts.gateOpenMeasure (i := i) z true) mask s hi
  rw [← hu.meas_eq] at hst hg hmask
  obtain ⟨hF, hst'⟩ := lateGate_faults (st := .armed) rfl hst hmask
  rw [gateOpenMeasure_takes hst hg, if_neg hst'] at hv
  exact hF.served hu hv

/-- A masked late GATE_CLOSE closes the gate of a measure with the qualifier, in a loop over the measures (R113, R174). -/
theorem lateClose_closes (hi : mask.getLsbD i.val = true) (hst : (s.meas i).st = .opened)
    (hg : (s.meas i).config.map (·.gate) = some .directive) (hmask : (s.meas i).masks .lateGate = true) :
    ∃ u, Acts true (fun j => j ≠ i) s u ∧ Acts true (fun j => j ≠ i)
      (closeGate i z (u.modMeas i (·.qualify (.fault .lateGate))))
      (forSelected mask (fun i => gateCloseMeasure i z true) s) := by
  obtain ⟨u, hu, hv⟩ := forSelected_served (fun i => Acts.gateCloseMeasure (i := i) z true) mask s hi
  rw [← hu.meas_eq] at hst hg hmask
  obtain ⟨hq, hst'⟩ := lateGate_qualifies (st := .opened) rfl hst hmask
  rw [gateCloseMeasure_takes hst hg, if_pos hst', hq] at hv
  exact ⟨u, hu, hv⟩

theorem lateClose_shuts (hi : mask.getLsbD i.val = true) (hst : (s.meas i).st = .opened)
    (hg : (s.meas i).config.map (·.gate) = some .directive) (hmask : (s.meas i).masks .lateGate = true)
    (hk : (s.meas i).kind ≠ .totalize) : (forSelected mask (fun i => gateCloseMeasure i z true) s).meas i
      = { (s.meas i).qualify (.fault .lateGate) with st := .closing, closeTime := some z } := by
  obtain ⟨u, hu, hv⟩ := lateClose_closes (z := z) hi hst hg hmask
  obtain ⟨c, hc, -⟩ := Option.map_eq_some_iff.mp hg
  have hqm := meas_modMeas_of hu.meas_eq (·.qualify (.fault .lateGate))
  rw [closeGate_shuts (by rw [hqm]; exact hc) (kind_of_config hc ▸ hk), hqm] at hv
  rw [hv.meas_eq, State.meas_setMeas, if_pos rfl]

theorem lateClose_closesTotalize (hi : mask.getLsbD i.val = true) (hst : (s.meas i).st = .opened)
    (hg : (s.meas i).config.map (·.gate) = some .directive) (hmask : (s.meas i).masks .lateGate = true)
    (hc : (s.meas i).config = some c) (hk : c.kind = .totalize) (hr : s.reached z = true) :
    ClosesTotalize s (forSelected mask (fun i => gateCloseMeasure i z true) s) i c z
      (setQual (.fault .lateGate) (s.meas i).block.quals) := by
  obtain ⟨u, hu, hv⟩ := lateClose_closes (z := z) hi hst hg hmask
  exact .of_closeGate (u := u.modMeas i (·.qualify (.fault .lateGate))) (hu.frame.trans (by constructor <;> rfl))
    hu.queue (meas_modMeas_of hu.meas_eq _) hc hk hr (.inl rfl) hv

theorem lateClose_faults (hi : mask.getLsbD i.val = true) (hst : (s.meas i).st = .opened)
    (hg : (s.meas i).config.map (·.gate) = some .directive) (hmask : (s.meas i).masks .lateGate = false) :
    Faults s (forSelected mask (fun i => gateCloseMeasure i z true) s) i .lateGate := by
  obtain ⟨u, hu, hv⟩ := forSelected_served (fun i => Acts.gateCloseMeasure (i := i) z true) mask s hi
  rw [← hu.meas_eq] at hst hg hmask
  obtain ⟨hF, hst'⟩ := lateGate_faults (st := .opened) rfl hst hmask
  rw [gateCloseMeasure_takes hst hg, if_neg hst'] at hv
  exact hF.served hu hv

theorem flush_shuts (hi : mask.getLsbD i.val = true) (hst : (s.meas i).st = .opened)
    (hk : (s.meas i).kind = .reciprocal) : (forSelected mask (fun i => flushMeasure i z) s).meas i
      = { (s.meas i).qualify .partialBlock with st := .closing, closeTime := some z } := by
  obtain ⟨u, hu, hv⟩ := forSelected_served (fun i => Acts.flushMeasure (i := i) z) mask s hi
  have hm := hu.meas_eq
  have hqm := meas_modMeas_of hm (·.qualify .partialBlock)
  obtain ⟨c, hc, hck⟩ : ∃ c, (s.meas i).config = some c ∧ c.kind = .reciprocal := by
    unfold Measure.kind at hk
    split at hk
    · exact ⟨_, ‹_›, hk⟩
    · cases hk
  rw [flushMeasure_closes (by rw [hm]; exact hst) (by rw [hm, hk]; nofun),
    closeGate_shuts (by rw [hqm]; exact hc) (by rw [hck]; nofun), hqm] at hv
  rw [hv.meas_eq, rescanGate_closing_meas (by rw [State.meas_setMeas, if_pos rfl]), State.meas_setMeas, if_pos rfl]

/-- A FLUSH reports an INTERVAL block with samples, with PARTIAL, in a loop over the measures (R114, R155). -/
theorem flush_reportsInterval (hi : mask.getLsbD i.val = true)
    (hst : (s.meas i).st = .opened ∨ (s.meas i).st = .closing) (hk : (s.meas i).kind = .interval)
    (hn : (s.meas i).block.n ≠ 0) : ∃ g, Reports s (forSelected mask (fun i => flushMeasure i z) s) i g ∧
      g.measure = i ∧ g.sampleCount = (s.meas i).block.n ∧ g.values = (s.meas i).block.intervalValues ∧
      hasQual .partialBlock g.quals = true := by
  obtain ⟨u, hu, hv⟩ := forSelected_served (fun i => Acts.flushMeasure (i := i) z) mask s hi
  rw [← hu.meas_eq] at hst hk hn ⊢
  obtain ⟨w, hwb, hws, hw⟩ := flushMeasure_finishes (z := z) hst hk hn
  rw [hw] at hv
  have hwm : (u.setMeas i w).meas i = w := by rw [State.meas_setMeas, if_pos rfl]
  have hR := finishInterval_reports (i := i) (u.setMeas i w)
  have hcount : ((u.setMeas i w).intervalGroup i).sampleCount = ((u.setMeas i w).meas i).block.n := rfl
  have hvalues : ((u.setMeas i w).intervalGroup i).values = ((u.setMeas i w).meas i).block.intervalValues := rfl
  have hquals := intervalGroup_quals (u.setMeas i w) i
  rw [hwm, hwb] at hcount hvalues hquals
  refine ⟨(u.setMeas i w).intervalGroup i, (hR.start (u := u) List.prefix_rfl (by rw [hwm, hws])).served hu hv, rfl,
    hcount, hvalues, ?_⟩
  rw [hquals]
  exact hasQual_setQualIf _ _ _ _ (hasQual_self _ _)

end

/-- Settles O54: a late directive is applied at local time, measure by measure. -/
theorem lateDirectivesTakeEffectNow : Obligations.LateDirectivesTakeEffectNow := by
  intro s t d straps hv hl hi hlate ht
  have happly {k : Code} (hk : codeOf d.code = some k) := ht.trans (arriveDirective_late hv hl hi hlate hk)
  refine ⟨fun hk => ?_, fun hk => ?_, fun hk => ?_⟩
  · have hacts := fun i => Acts.gateOpenMeasure (i := i) s.localTime true
    obtain rfl : t = forSelected d.mask (fun i => gateOpenMeasure i s.localTime true) s := happly hk
    exact ⟨(forSelected_acts hacts d.mask s).frame, fun i => ⟨fun hi hst hg =>
      ⟨lateOpen_opens hi hst hg, lateOpen_faults hi hst hg⟩, fun hn => forSelected_ignores hacts d.mask s
        (hn.imp_right fun h u hu => gateOpenMeasure_ignores (by rw [hu]; exact h))⟩⟩
  · have hacts := fun i => Acts.gateCloseMeasure (i := i) s.localTime true
    obtain rfl : t = forSelected d.mask (fun i => gateCloseMeasure i s.localTime true) s := happly hk
    exact ⟨(forSelected_acts hacts d.mask s).frame, fun i => ⟨fun hi hst hg =>
      ⟨lateClose_shuts hi hst hg, fun c hmask htime hc hki =>
        lateClose_closesTotalize hi hst hg hmask hc hki (reached_localTime htime), lateClose_faults hi hst hg⟩,
      fun hn => forSelected_ignores hacts d.mask s
        (hn.imp_right fun h u hu => gateCloseMeasure_ignores (by rw [hu]; exact h))⟩⟩
  · have hacts := fun i => Acts.flushMeasure (i := i) s.localTime
    obtain rfl : t = forSelected d.mask (fun i => flushMeasure i s.localTime) s := happly hk
    exact ⟨(forSelected_acts hacts d.mask s).frame, fun i => ⟨fun hn => forSelected_ignores hacts d.mask s
        (hn.imp_right fun h u hu => flushMeasure_ignores (by rw [hu]; exact h)),
      flush_shuts, fun c hi hst htime hc hki => flush_closesTotalize hi hst hc hki (reached_localTime htime),
      flush_reportsInterval⟩⟩

end Sys2Proof.Machine
end

section
/-! PROOFS. The G role of an EDGE gate: its moves over the view, and a stamp that arrives. -/

namespace Sys2Proof.Machine

variable {s t u v : State} {i : Fin 8} {g : MeasureConfig} {e f : Entry} {back : List Entry} {x z o : TimeStamp}
  {fresh : Bool}

/-! ### An overrun already past -/

theorem edgeOverrun_some (hst : (s.meas i).st = .opened) (hc : (s.meas i).config = some g) (hg : g.gate = .edge)
    (ho : (s.meas i).openTime = some o) (hr : s.reached (addEpochs o g.spanLimit.toNat) = true) :
    s.edgeOverrun i = some (addEpochs o g.spanLimit.toNat) := by
  unfold State.edgeOverrun Measure.overrunTime
  simp only [hst, hc, ho, hg, true_or, if_true, hr, and_self]

theorem edgeOverrun_none (hc : (s.meas i).config = some g)
    (h : ∀ o, (s.meas i).st = .opened → g.gate = .edge → (s.meas i).openTime = some o →
      s.reached (addEpochs o g.spanLimit.toNat) = false) : s.edgeOverrun i = none := by
  cases he : s.edgeOverrun i with
  | none => rfl
  | some z =>
    obtain ⟨hst, hg⟩ := edgeOverrun_opened he
    rw [hc, Option.map_some, Option.some.injEq] at hg
    unfold State.edgeOverrun Measure.overrunTime at he
    cases ho : (s.meas i).openTime with
    | none => simp only [hst, hc, ho, reduceCtorEq] at he
    | some o =>
      simp only [hst, hc, ho, hg, true_or, if_true, true_and, h o hst hg ho, Bool.false_eq_true, if_false,
        reduceCtorEq] at he

/-- No overrun comes before the stamps of the view (R115; log 50). -/
def State.noOverrun (s : State) (fresh : Bool) (i : Fin 8) : Prop := fresh = true → s.edgeOverrun i = none

theorem State.noOverrun.guard (h : s.noOverrun fresh i) : (if fresh then s.edgeOverrun i else none) = none := by
  cases fresh with
  | false => rfl
  | true => exact h rfl

theorem State.noOverrun.sound (h : s.noOverrun fresh i) : s.scanSound fresh i := fun hf _ ho => by
  rw [h hf] at ho
  cases ho

/-! ### The moves of the G role -/

theorem scanned_nil (h : s.noOverrun fresh i) (hv : s.view i .G = []) : s.scanned fresh i = s :=
  scanned_end (by unfold scanMove; rw [h.guard, hv])

theorem scanned_inactive (h : s.noOverrun fresh i) (hv : s.view i .G = e :: back) (ha : (s.meas i).st.active = false) :
    s.scanned fresh i = s := by
  refine scanned_end ?_
  unfold scanMove
  simp only [h.guard, hv, ha, Bool.false_and, Bool.false_eq_true, if_false]
  cases hst : (s.meas i).st <;> first | rfl | (rw [hst] at ha; cases ha)

/-- The stamps that the role passes unexamined (R111, R113, R151; log 24). -/
def State.unexamined (s : State) (i : Fin 8) (e : Entry) : Prop :=
  ((s.meas i).st.active = true ∧ e.heldFor i .G = true) ∨
    ((s.meas i).st = .armed ∧ (s.meas i).opensAt e.time = false) ∨
    ((s.meas i).st = .opened ∧ (s.meas i).closesAt e.time = false) ∨
    ((s.meas i).st = .closing ∧ (s.meas i).beforeClose e.time = true)

theorem scanned_passes (h : s.noOverrun fresh i) (hv : s.view i .G = e :: back) (hp : s.unexamined i e) :
    s.scanned fresh i = (s.passEntry i .G e).scanned fresh i := by
  refine scanned_move h.sound ?_
  unfold scanMove
  rcases hp with ⟨ha, hh⟩ | ⟨hst, hx⟩ | ⟨hst, hx⟩ | ⟨hst, hx⟩
  · simp only [h.guard, hv, ha, hh, Bool.and_self, if_true]
  all_goals simp only [h.guard, hv, hst, hx, Bool.false_eq_true, if_false, if_true, ite_self]

theorem scanned_stays (h : s.noOverrun fresh i) (hv : s.view i .G = e :: back) (hh : e.heldFor i .G = false)
    (hst : (s.meas i).st = .closing) (hx : (s.meas i).beforeClose e.time = false) : s.scanned fresh i = s := by
  refine scanned_end ?_
  unfold scanMove
  simp only [h.guard, hv, hst, hh, hx, Bool.and_false, Bool.false_eq_true, if_false]

/-- A G stamp that the role takes: it opens the ARMED measure's gate, or closes the OPEN one's (R111, R113). -/
def State.takesG (s : State) (i : Fin 8) (e : Entry) : Prop :=
  ((s.meas i).st = .armed ∧ (s.meas i).opensAt e.time = true) ∨
    ((s.meas i).st = .opened ∧ (s.meas i).closesAt e.time = true)

theorem State.takesG.active (h : s.takesG i e) : (s.meas i).st.active = true := by
  rcases h with ⟨h, -⟩ | ⟨h, -⟩ <;> rw [h] <;> rfl

/-- A taken stamp with an unmasked count of 255 is a GAP fault, before the gate moves (R119, R131). -/
theorem scanned_faults (h : s.noOverrun fresh i) (hv : s.view i .G = e :: back) (hh : e.heldFor i .G = false)
    (hx : s.hasExamined i e = false) (hd : e.drops = 255) (hm : (s.meas i).masks .gap = false) (ht : s.takesG i e) :
    Faults s (s.scanned fresh i) i .gap := by
  have hex : examineG i e s = enterFault i .gap true (s.markExamined i e) := by
    unfold examineG
    simp only [hx, Bool.false_eq_true, if_false, hd, if_true, show ¬ (255 : BitVec 8) = 0 by decide]
    exact takeCondition_unmasked .gap true (s.markExamined i e) ht.active hm
  have hF : Faults s (examineG i e s) i .gap := by
    rw [hex]
    exact (enterFault_faults i .gap true (s.markExamined i e)).start List.prefix_rfl rfl rfl
  have hend : scanMove fresh i s = .inr (examineG i e s) := by
    unfold scanMove
    rcases ht with ⟨hst, ho⟩ | ⟨hst, ho⟩
    all_goals simp only [h.guard, hv, hst, hh, ho, hF.1, Bool.and_false, Bool.false_eq_true, if_false, if_true,
      reduceCtorEq]
  rwa [scanned_end hend]

/-- Station u is s with entry e passed by the G role of measure i once it has examined its drop count (R64, R131). -/
structure ExaminedPast (i : Fin 8) (e : Entry) (s u : State) : Prop where
  passes : Passes i .G e s u
  store : u = { s with store := u.store }
  examined : (examineG i e s).passEntry i .G e = u.setMeas i (s.gExamined i e)
  st : ((examineG i e s).meas i).st = (s.meas i).st

theorem examineG_past (ha : (s.meas i).st.active = true)
    (h : s.hasExamined i e = true ∨ e.drops ≠ 255 ∨ (s.meas i).masks .gap = true) : ∃ u, ExaminedPast i e s u := by
  obtain ⟨l, hl, hviews⟩ := examineG_goes ha h
  refine ⟨({ s with store := l } : State).passEntry i .G e, hviews.passes .G e, rfl, by rw [hl]; rfl, ?_⟩
  rw [hl, State.meas_setMeas, if_pos rfl]
  rfl

theorem ExaminedPast.meas (h : ExaminedPast i e s u) (j : Fin 8) : u.meas j = s.meas j := by rw [h.store]

theorem ExaminedPast.reached (h : ExaminedPast i e s u) (x : TimeStamp) : u.reached x = s.reached x := by
  rw [h.store]
  rfl

theorem ExaminedPast.snapshot (h : ExaminedPast i e s u) (d : Fin 4) (x : TimeStamp) :
    u.snapshot d x = s.snapshot d x := by
  rw [h.store]
  rfl

theorem ExaminedPast.crosses (h : ExaminedPast i e s u) (x y : TimeStamp) : u.crosses x y [] = s.crosses x y [] := by
  rw [h.store]
  rfl

theorem ExaminedPast.queue (h : ExaminedPast i e s u) : u.queue = s.queue := by rw [h.store]

theorem ExaminedPast.config (h : ExaminedPast i e s u) (hc : (s.meas i).config = some g) :
    (u.meas i).config = some g := by rw [h.meas]; exact hc

theorem scanned_opens (h : s.noOverrun fresh i) (hv : s.view i .G = e :: back) (hh : e.heldFor i .G = false)
    (hu : ExaminedPast i e s u) (hc : (s.meas i).config = some g) (hst : (s.meas i).st = .armed)
    (ho : (s.meas i).opensAt e.time = true) :
    s.scanned fresh i = rescanGate i (u.setMeas i (s.gateOpened (s.gExamined i e) e.time)) := by
  have hm : (u.setMeas i (s.gExamined i e)).meas i = s.gExamined i e := by rw [State.meas_setMeas, if_pos rfl]
  have hopen : openGate i e.time ((examineG i e s).passEntry i .G e)
      = u.setMeas i (s.gateOpened (s.gExamined i e) e.time) := by
    rw [hu.examined, openGate_meas (by rw [hm]; exact hc), hm, State.setMeas_setMeas, hu.store]
    rfl
  rw [← hopen]
  refine scanned_move h.sound ?_
  unfold scanMove
  simp only [h.guard, hv, hst, hh, ho, hu.st, Bool.and_false, Bool.false_eq_true, if_false, if_true]

theorem scanned_closes (h : s.noOverrun fresh i) (hv : s.view i .G = e :: back) (hh : e.heldFor i .G = false)
    (hu : ExaminedPast i e s u) (hst : (s.meas i).st = .opened) (ho : (s.meas i).closesAt e.time = true) :
    s.scanned fresh i = rescanGate i (closeGate i e.time (u.setMeas i { s.gExamined i e with closedByStamp := true })) := by
  have hmod : ((examineG i e s).passEntry i .G e).modMeas i (fun m => { m with closedByStamp := true })
      = u.setMeas i { s.gExamined i e with closedByStamp := true } := by
    rw [hu.examined]
    unfold State.modMeas
    rw [State.setMeas_setMeas, State.meas_setMeas, if_pos rfl]
  rw [← hmod]
  refine scanned_move h.sound ?_
  unfold scanMove
  simp only [h.guard, hv, hst, hh, ho, hu.st, Bool.and_false, Bool.false_eq_true, if_false, if_true]

/-- A scan begins with the overrun that is already past (R115; log 50). -/
theorem rescanGate_overruns (hx : s.edgeOverrun i = some z) (hc : (s.meas i).closedByStamp = false) :
    rescanGate i s = rescanGate i (overrunGate i z s) := by
  refine scanned_move (fresh := true) (f := true) (fun _ _ _ => hc) ?_
  unfold scanMove
  simp only [if_true, hx]

/-! ### What closes a gate, written into one measure -/

section

variable {m : Measure} (hc : m.config = some g)
include hc

theorem closeGate_setMeas_shuts (hk : g.kind ≠ .totalize) :
    closeGate i z (u.setMeas i m) = u.setMeas i { m with st := .closing, closeTime := some z } := by
  have hm : (u.setMeas i m).meas i = m := by rw [State.meas_setMeas, if_pos rfl]
  rw [closeGate_shuts (by rw [hm]; exact hc) hk, hm, State.setMeas_setMeas]

/-- A TOTALIZE gate that cannot take its close snapshot at once asks for it (R36, R149). -/
theorem closeGate_setMeas_asks (hk : g.kind = .totalize)
    (h : u.reached z = false ∨ m.block.openRequest ≠ none) : closeGate i z (u.setMeas i m) = u.setMeas i { m with
      st := .closing, closeTime := some z, block := { m.block with closeRequest := some z } } := by
  have hm : (u.setMeas i m).meas i = m := by rw [State.meas_setMeas, if_pos rfl]
  rcases h with h | h
  · have hr : (u.setMeas i m).reached z = false := h
    unfold closeGate
    simp only [hm, hc, hk, hr, if_true, Bool.false_and, Bool.false_eq_true, if_false, State.modMeas,
      State.setMeas_setMeas, State.meas_setMeas]
  · rw [closeGate_asks (by rw [hm]; exact hc) hk (by rw [hm]; exact h), hm, State.setMeas_setMeas]

theorem closeGate_setMeas_answers (hk : g.kind = .totalize) (hr : u.reached z = true)
    (ho : m.block.openRequest = none) : closeGate i z (u.setMeas i m)
      = completeTotalize i (u.snapshot g.a.channel z) (u.setMeas i { m with st := .closing, closeTime := some z }) := by
  have hm : (u.setMeas i m).meas i = m := by rw [State.meas_setMeas, if_pos rfl]
  rw [closeGate_answers (s := u.setMeas i m) (by rw [hm]; exact hc) hk hr (by rw [hm]; exact ho), hm, State.setMeas_setMeas]
  rfl

end

/-! ### A stamp that arrives -/

theorem scanArrival_served (e : Entry) (s : State) (hi : e.wantG.getLsbD i.val = true) : ∃ w,
    Acts true (fun j => j ≠ i) s w ∧ Acts true (fun j => j ≠ i) (w.scanned false i) (scanArrival e s) :=
  served_one (p := fun i => e.wantG.getLsbD i.val) (f := fun i s => scanGate s.scanFuel false i s)
    (fun _ s => .scanGate _ false s) s s i hi

theorem scanArrival_ignored (e : Entry) (s : State) (hi : e.wantG.getLsbD i.val = false) :
    (scanArrival e s).meas i = s.meas i := (Acts.scanArrival e s).others i (by rw [hi]; nofun)

/-- Other measures leave the stamps of a view, and whether they are held. -/
theorem Acts.stampsHeld (h : Acts true (fun j => j ≠ i) s t) (r : Role) :
    (t.view i r).map (fun f => (f.stamp, f.heldFor i r)) = (s.view i r).map fun f => (f.stamp, f.heldFor i r) := by
  have hs := congrArg (List.map fun x : Seen => ((x.station, x.channel, x.polarity, x.time, x.drops), x.held r))
    (h.seen i (by simp) r)
  unfold State.seen at hs
  rwa [List.map_map, List.map_map] at hs

theorem Acts.viewStamps (h : Acts true (fun j => j ≠ i) s t) (r : Role) :
    (t.view i r).map Entry.stamp = (s.view i r).map Entry.stamp := by
  have hs := congrArg (List.map Prod.fst) (h.stampsHeld r)
  rwa [List.map_map, List.map_map] at hs

theorem hasExamined_of_stamp (h : f.stamp = e.stamp) : s.hasExamined i f = s.hasExamined i e := by
  unfold Entry.stamp at h
  simp only [Prod.mk.injEq] at h
  unfold State.hasExamined Entry.same
  rw [h.1, h.2.1, h.2.2.2.1]

/-- Passing its one stamp empties the view. -/
theorem Passes.view_nil (h : Passes i .G f s u) (hv : s.view i .G = [f]) : u.view i .G = [] := by
  have hr := h.role
  have hf : f.same f = true := by simp [Entry.same]
  rw [hv, List.filter_singleton, hf] at hr
  exact List.map_eq_nil_iff.mp hr

theorem view_setStore_join (l : List Entry) (h : l.filter (fun f => f.inView i .G) = []) :
    (s.setStore (l ++ [e])).view i .G = if e.inView i .G then [e] else [] := by
  have hin : (fun f : Entry => f.inView i .G && f.wanted) = fun f => f.inView i .G := by
    funext f
    cases hf : f.inView i .G
    · rfl
    · exact wanted_of_inView hf
  unfold State.view
  rw [State.setStore_store, List.filter_filter, hin, List.filter_append, h, List.nil_append, List.filter_singleton]
  cases e.inView i .G <;> rfl

section

variable {c : Fin 4} {rest : List FlyingStamp}

theorem passHeld_inView (hl : (s.meas i).finalG = .live) (hi : e.wantG.getLsbD i.val = true) :
    (s.passHeld e).inView i .G = true ∧ (s.passHeld e).heldFor i .G = false := by
  have hfinal : ((s.meas i).final .G != .live) = false := by
    show ((s.meas i).finalG != .live) = false
    rw [hl]
    rfl
  have hmet : (s.metMask .G).getLsbD i.val = false := by
    unfold State.metMask
    rw [maskOf_getLsbD, hfinal, Bool.false_and]
  refine ⟨?_, ?_⟩
  · show (e.wantG &&& ~~~(s.metMask .G)).getLsbD i.val = true
    rw [BitVec.getLsbD_and, BitVec.getLsbD_not, hi, hmet]
    simp
  · show (s.heldMask .G).getLsbD i.val = false
    unfold State.heldMask
    rw [maskOf_getLsbD, hfinal]

/-- The stamp stands alone in the view it has joined (R63, R65). -/
theorem stored_view (hl : (s.meas i).finalG = .live) (hi : e.wantG.getLsbD i.val = true) (hv : s.view i .G = []) :
    (s.stored c e rest).view i .G = [s.passHeld e] :=
  (view_setStore_join (s := s) s.store hv).trans (if_pos (passHeld_inView hl hi).1)

theorem stored_hasExamined (he : e.examined = 0) (hx : s.hasExamined i e = false) :
    (s.stored c e rest).hasExamined i e = false := by
  have hp : (s.passHeld e).examined.getLsbD i.val = false := by
    show e.examined.getLsbD i.val = false
    rw [he]
    exact BitVec.getLsbD_zero
  unfold State.hasExamined at hx ⊢
  rw [List.any_eq_false] at hx ⊢
  intro f hf
  rcases List.mem_append.mp (List.mem_filter.mp hf).1 with h | h
  · exact hx f h
  · rw [List.mem_singleton.mp h, hp, Bool.and_false]
    nofun

theorem stored_snapshot (d : Fin 4) (x : TimeStamp) : (s.stored c e rest).snapshot d x = s.snapshot d x := by
  rw [snapshot_eq, snapshot_eq, stored_chan]
  split
  · rename_i h
    rw [h]
    rfl
  · rfl

end

/-- In the state w the G role of measure i judges entry f, the stamp of e that has just arrived at s, alone in its view;
t is the station once every G role has judged it. -/
structure Arrived (i : Fin 8) (e f : Entry) (s w t : State) : Prop where
  stamp : f.stamp = e.stamp
  heldFor : f.heldFor i .G = false
  view : w.view i .G = [f]
  fresh : w.hasExamined i f = false
  meas : w.meas i = s.meas i
  queue : s.queue <+: w.queue
  reached : ∀ x, w.reached x = s.reached x
  snapshot : ∀ d x, w.snapshot d x = s.snapshot d x
  crosses : ∀ x y, w.crosses x y [] = s.crosses x y []
  served : Acts true (fun j => j ≠ i) (w.scanned false i) t

theorem resolution_arrives {c : Fin 4} {y : FlyingStamp} {rest : List FlyingStamp} (he : e = s.localEntry c y)
    (hi : e.wantG.getLsbD i.val = true) (hl : (s.meas i).finalG = .live) (hv : s.view i .G = [])
    (hx : s.hasExamined i e = false) :
    ∃ f w, Arrived i e f s w (scanArrival e (s.stored c e rest)) := by
  obtain ⟨w, hw, ht⟩ := scanArrival_served e (s.stored c e rest) hi
  have hview := hw.stampsHeld .G
  rw [stored_view hl hi hv, List.map_singleton, (passHeld_inView hl hi).2] at hview
  obtain ⟨f, hf, hfe⟩ := List.map_eq_singleton_iff.mp hview
  rw [Prod.mk.injEq] at hfe
  have hstamp : f.stamp = e.stamp := hfe.1
  refine ⟨f, w, hstamp, hfe.2, hf, ?_, hw.meas_eq, hw.queue, hw.frame.reached, fun d x => ?_,
    fun x y => hw.frame.crosses x y [], ht⟩
  · rw [hasExamined_of_stamp hstamp]
    exact hw.examined i (by simp) e (stored_hasExamined (by rw [he]; rfl) hx)
  · rw [hw.frame.snapshot, stored_snapshot]

theorem Arrived.time (h : Arrived i e f s w t) : f.time = e.time := congrArg (fun x => x.2.2.2.1) h.stamp

theorem Arrived.drops (h : Arrived i e f s w t) : f.drops = e.drops := congrArg (fun x => x.2.2.2.2) h.stamp

/-- The measure with the losses of a stamp it has not examined before (R131). -/
def State.gLosses (s : State) (i : Fin 8) (e : Entry) : Measure :=
  { s.meas i with block := { (s.meas i).block with
    quals := if e.drops = 255 then setQual (.fault .gap) (s.meas i).block.quals
      else setQualIf (e.drops != 0) .drops (s.meas i).block.quals } }

theorem Arrived.gExamined (h : Arrived i e f s w t) : w.gExamined i f = s.gLosses i e := by
  unfold State.gExamined State.gLosses
  rw [h.meas, h.fresh, h.drops, if_neg Bool.false_ne_true]

theorem Arrived.gateOpened (h : Arrived i e f s w t) (m : Measure) (x : TimeStamp) :
    w.gateOpened m x = s.gateOpened m x := by
  unfold State.gateOpened
  simp only [h.reached, h.snapshot]

/-- No overrun comes before a stamp that has just arrived (R113). -/
theorem noOverrun_arrival (w : State) (i : Fin 8) : w.noOverrun false i := nofun

theorem Arrived.passed (h : Arrived i e f s w t) (hp : w.unexamined i f) : t.meas i = s.meas i ∧ t.view i .G = [] := by
  have hnil : (w.passEntry i .G f).view i .G = [] := (passEntry_passes .G f w).view_nil h.view
  have hs := (scanned_passes (noOverrun_arrival w i) h.view hp).trans (scanned_nil (noOverrun_arrival _ i) hnil)
  have ht := h.served
  rw [hs] at ht
  exact ⟨ht.meas_eq.trans h.meas, ht.views i .G hnil⟩

/-- The G role has made its last move in the state v, whose view is empty. -/
theorem Arrived.ends (h : Arrived i e f s w t) (hs : w.scanned false i = v) (hv : v.view i .G = []) :
    t.meas i = v.meas i ∧ t.view i .G = [] := by
  have ht := h.served
  rw [hs] at ht
  exact ⟨ht.meas_eq, ht.views i .G hv⟩

/-- The G role has closed the gate, and has nothing left to judge. -/
theorem Arrived.ends_closing {m : Measure} (h : Arrived i e f s w t)
    (hs : w.scanned false i = rescanGate i (u.setMeas i m)) (hv : u.view i .G = []) (hm : m.st = .closing) :
    t.meas i = m ∧ t.view i .G = [] := by
  have hy : (u.setMeas i m).meas i = m := by rw [State.meas_setMeas, if_pos rfl]
  have hnil : (u.setMeas i m).view i .G = [] := hv
  have hend := h.ends (hs.trans (rescanGate_nil i _ hnil (by rw [hy, hm]; nofun))) hnil
  rwa [hy] at hend

theorem Arrived.past (h : Arrived i e f s w t) (ha : (s.meas i).st.active = true)
    (hd : e.drops ≠ 255 ∨ (s.meas i).masks .gap = true) : ∃ u, ExaminedPast i f w u ∧ u.view i .G = [] := by
  obtain ⟨u, hu⟩ := examineG_past (s := w) (i := i) (e := f) (by rw [h.meas]; exact ha)
    (.inr (by rw [h.drops, h.meas]; exact hd))
  exact ⟨u, hu, hu.passes.view_nil h.view⟩

/-- The stamp opens the gate, and an overrun time already past closes it in the same tick (R111, R115). -/
theorem Arrived.opens {m : Measure} (h : Arrived i e f s w t) (hm : m = s.gLosses i e) (hc : (s.meas i).config = some g)
    (hg : g.gate = .edge) (hst : (s.meas i).st = .armed) (ho : (s.meas i).opensAt e.time = true)
    (hd : e.drops ≠ 255 ∨ (s.meas i).masks .gap = true) :
    (s.reached (addEpochs e.time g.spanLimit.toNat) = false →
      t.meas i = s.gateOpened m e.time ∧ t.view i .G = []) ∧
    (s.reached (addEpochs e.time g.spanLimit.toNat) = true → g.kind ≠ .totalize →
      t.meas i = { s.gateOpened m e.time with
        st := .closing
        closeTime := some (addEpochs e.time g.spanLimit.toNat)
        block := { m.block with quals := setQual .overrange m.block.quals } } ∧ t.view i .G = []) := by
  obtain ⟨u, hu, hnil⟩ := h.past (by rw [hst]; rfl) hd
  have hs := scanned_opens (noOverrun_arrival w i) h.view h.heldFor hu (by rw [h.meas]; exact hc)
    (by rw [h.meas]; exact hst) (by rw [h.meas, h.time]; exact ho)
  rw [h.gExamined, h.gateOpened, h.time, ← hm] at hs
  have hmc : m.config = some g := by rw [hm]; exact hc
  have hy : (u.setMeas i (s.gateOpened m e.time)).meas i = s.gateOpened m e.time := by
    rw [State.meas_setMeas, if_pos rfl]
  have hr : (u.setMeas i (s.gateOpened m e.time)).reached (addEpochs e.time g.spanLimit.toNat)
      = s.reached (addEpochs e.time g.spanLimit.toNat) := (hu.reached _).trans (h.reached _)
  refine ⟨fun hover => ?_, fun hover hk => ?_⟩
  · have hnone : (u.setMeas i (s.gateOpened m e.time)).noOverrun true i := fun _ =>
      edgeOverrun_none (by rw [hy]; exact hmc) fun o _ _ hot => by
        rw [hy] at hot
        rw [← Option.some.inj hot, hr]
        exact hover
    have hend := h.ends (hs.trans (scanned_nil hnone hnil)) hnil
    rwa [hy] at hend
  · have hsome := edgeOverrun_some (s := u.setMeas i (s.gateOpened m e.time)) (i := i) (g := g) (o := e.time)
      (by rw [hy]; rfl) (by rw [hy]; exact hmc) hg (by rw [hy]; rfl) (hr.trans hover)
    have hblock : (s.gateOpened m e.time).block = m.block := by
      unfold State.gateOpened
      exact if_neg (by rw [hmc, Option.map_some, Option.some.injEq]; exact hk)
    have hclose : overrunGate i (addEpochs e.time g.spanLimit.toNat) (u.setMeas i (s.gateOpened m e.time))
        = u.setMeas i { (s.gateOpened m e.time).qualify .overrange with
            st := .closing, closeTime := some (addEpochs e.time g.spanLimit.toNat) } := by
      unfold overrunGate State.modMeas
      rw [hy, State.setMeas_setMeas]
      exact closeGate_setMeas_shuts (u := u) (m := (s.gateOpened m e.time).qualify .overrange) hmc hk
    rw [rescanGate_overruns hsome (by rw [hy]; rfl), hclose] at hs
    rw [← hblock]
    exact h.ends_closing hs hnil rfl

/-- The stamp closes the gate (R113). -/
theorem Arrived.closes {m : Measure} (h : Arrived i e f s w t) (hm : m = s.gLosses i e) (hc : (s.meas i).config = some g)
    (hst : (s.meas i).st = .opened) (hot : (s.meas i).openTime = some o) (ho : later e.time o = true)
    (hd : e.drops ≠ 255 ∨ (s.meas i).masks .gap = true) :
    (g.kind ≠ .totalize →
      t.meas i = { m with st := .closing, closeTime := some e.time, closedByStamp := true } ∧ t.view i .G = []) ∧
    (g.kind = .totalize → s.reached e.time = false ∨ (s.meas i).block.openRequest ≠ none →
      t.meas i = { m with
        st := .closing, closeTime := some e.time, closedByStamp := true
        block := { m.block with closeRequest := some e.time } } ∧ t.view i .G = []) ∧
    (g.kind = .totalize → s.reached e.time = true → (s.meas i).block.openRequest = none →
      s.crosses o e.time [] = false ∨ (s.meas i).masks .discontinuity = true →
      ∃ q, Reports s t i q ∧ q.measure = i ∧ q.kind = .totalize ∧ q.isFault = false ∧
        q.values = [s.snapshot g.a.channel e.time - (s.meas i).block.openSnapshot] ∧
        ∀ k, hasQual k m.block.quals = true → hasQual k q.quals = true) := by
  obtain ⟨u, hu, hnil⟩ := h.past (by rw [hst]; rfl) hd
  have hcloses : (s.meas i).closesAt e.time = true := by
    unfold Measure.closesAt
    rw [hot]
    exact ho
  have hs := scanned_closes (noOverrun_arrival w i) h.view h.heldFor hu (by rw [h.meas]; exact hst)
    (by rw [h.meas, h.time]; exact hcloses)
  rw [h.gExamined, h.time, ← hm] at hs
  have hmc : m.config = some g := by rw [hm]; exact hc
  have hreq : m.block.openRequest = (s.meas i).block.openRequest := by rw [hm]; rfl
  have hr : u.reached e.time = s.reached e.time := (hu.reached _).trans (h.reached _)
  refine ⟨fun hk => ?_, fun hk ha => ?_, fun hk hre hn hx => ?_⟩
  · rw [closeGate_setMeas_shuts (m := { m with closedByStamp := true }) hmc hk] at hs
    exact h.ends_closing hs hnil rfl
  · rw [closeGate_setMeas_asks (m := { m with closedByStamp := true }) hmc hk (by rw [hr, hreq]; exact ha)] at hs
    exact h.ends_closing hs hnil rfl
  · rw [closeGate_setMeas_answers (m := { m with closedByStamp := true }) hmc hk (hr.trans hre) (hreq.trans hn),
      (hu.snapshot _ _).trans (h.snapshot _ _)] at hs
    generalize hM : ({ m with st := .closing, closeTime := some e.time, closedByStamp := true } : Measure) = M at hs
    have hY : (u.setMeas i M).meas i = M := by rw [State.meas_setMeas, if_pos rfl]
    have hcross : (u.setMeas i M).crosses o e.time [] = s.crosses o e.time [] := (hu.crosses _ _).trans (h.crosses _ _)
    have hMo : M.openTime = some o := by rw [← hM, hm]; exact hot
    have hMz : M.closeTime = some e.time := by rw [← hM]
    obtain ⟨⟨q, hR, hqm, hqk, hqf, hqv, hqq⟩, hview, -⟩ :=
      completeTotalize_reports i (s.snapshot g.a.channel e.time) (u.setMeas i M) (by
        rw [hY]
        refine hx.imp (fun hx o' z' ho' hz' => ?_) fun hx => ?_
        · rw [← Option.some.inj (hMo.symm.trans ho'), ← Option.some.inj (hMz.symm.trans hz'), hcross]
          exact hx
        · rw [← hM, hm]
          exact hx)
    have hrescan := hR.rescan fun hst => hview hst .G
    have ht := h.served
    rw [hs] at ht
    rw [hY] at hqk hqv hqq
    refine ⟨q, (hrescan.start (u := s) ?_ ?_).later ht.queue fun _ => ht.meas_eq, hqm, ?_, hqf, ?_, ?_⟩
    · show s.queue <+: u.queue
      rw [hu.queue]
      exact h.queue
    · rw [hY, ← hM, hm]
      rfl
    · rw [hqk, ← hM, ← hk]
      exact kind_of_config hmc
    · rw [hqv, ← hM, hm]
      rfl
    · rw [← hM] at hqq
      exact hqq

theorem Arrived.faults (h : Arrived i e f s w t) (hd : e.drops = 255) (hm : (s.meas i).masks .gap = false)
    (ht : s.takesG i e) : Faults s t i .gap := by
  have htw : w.takesG i f := by
    unfold State.takesG
    rw [h.meas, h.time]
    exact ht
  have hF := scanned_faults (noOverrun_arrival w i) h.view h.heldFor h.fresh (by rw [h.drops]; exact hd)
    (by rw [h.meas]; exact hm) htw
  exact (hF.start h.queue (by rw [h.meas]) (by rw [h.meas])).later h.served.queue h.served.meas_eq

/-- A CLOSING measure leaves the stamp in its view from the close time on (R113). -/
theorem Arrived.closing (h : Arrived i e f s w t) (hst : (s.meas i).st = .closing)
    (hz : (s.meas i).closeTime = some z) : t.meas i = s.meas i ∧ (earlier e.time z = true → t.view i .G = []) ∧
      (earlier e.time z = false → (t.view i .G).map (·.time) = [e.time]) := by
  have hbefore : (w.meas i).beforeClose f.time = earlier e.time z := by
    unfold Measure.beforeClose
    rw [h.meas, hz, h.time]
  have hstw : (w.meas i).st = .closing := by rw [h.meas]; exact hst
  cases he : earlier e.time z with
  | true =>
    obtain ⟨hm, hv⟩ := h.passed (.inr (.inr (.inr ⟨hstw, hbefore.trans he⟩)))
    exact ⟨hm, fun _ => hv, nofun⟩
  | false =>
    have hs := scanned_stays (noOverrun_arrival w i) h.view h.heldFor hstw (hbefore.trans he)
    have ht := h.served
    rw [hs] at ht
    refine ⟨ht.meas_eq.trans h.meas, nofun, fun _ => ?_⟩
    have hview := congrArg (List.map fun x => x.2.2.2.1) (ht.viewStamps .G)
    rw [List.map_map, List.map_map, h.view, List.map_singleton] at hview
    exact hview.trans (congrArg (· :: []) h.time)

/-! ### The obligation -/

theorem opensAt_iff {m : Measure} : m.opensAt x = true ↔
    ∀ y, m.searchTime = some y → if m.searchAfter then later x y = true else atOrAfter x y = true := by
  unfold Measure.opensAt
  cases m.searchTime with
  | none => simp
  | some y => cases m.searchAfter <;> simp

theorem closesAt_iff {m : Measure} : m.closesAt x = true ↔ ∀ o, m.openTime = some o → later x o = true := by
  unfold Measure.closesAt
  cases m.openTime <;> simp

theorem beforeClose_iff {m : Measure} :
    m.beforeClose x = true ↔ ∃ z, m.closeTime = some z ∧ earlier x z = true := by
  unfold Measure.beforeClose
  cases m.closeTime <;> simp

/-- Settles O25: the G role's moves one after another; a stamp that arrives stands alone in the view of a role that had
nothing left to judge. -/
theorem edgeGateFollowsStamps : Obligations.EdgeGateFollowsStamps := by
  refine ⟨fun s c x rest e i g m ht hf hold hns hroom he hi hc hl hv hx hm => ?_, fun s e i =>
    ⟨scanArrival_ignored e s, fun hi => ?_⟩, fun s i fresh g m hc hno => ?_,
    fun s i g o z m hst hc hg ho hcl hz hr hm => ?_, fun m x => ⟨opensAt_iff, closesAt_iff, beforeClose_iff⟩⟩
  case refine_1 =>
    have hwants := (offeredEntry_wants s s.loader.number c x.polarity x.time (s.chan c).storeDrops (s.publishes c)
      .G).mp (show (s.localEntry c x).inView i .G = true from he ▸ hi)
    have hg : g.gate = .edge := by
      obtain ⟨-, g', y, hc', hrole, -⟩ := hwants
      rw [Option.some.inj (hc.symm.trans hc')]
      rcases hrole with ⟨h, -⟩ | ⟨h, -⟩ | ⟨-, h, -⟩
      · cases h
      · cases h
      · exact h
    have hw : e.wanted = true := wanted_of_inView (i := i) (r := .G) hi
    obtain ⟨f, w, h⟩ := resolution_arrives (rest := rest) he hi hl hv hx
    refine ⟨_, gives_of_effect_eq nofun nofun ((stampResolution_effect ht hf hold).trans
      (resolveStamp_stored hf hns he hw hroom)), fun hst ho => ?_, fun hst ho hd => h.opens hm hc hg hst ho hd,
      fun o hst hot ho => ?_, fun o hst hot ho hd => h.closes hm hc hst hot ho hd, fun hd hmask htk => h.faults hd hmask htk,
      fun z hst hz => h.closing hst hz⟩
    · exact h.passed (.inr (.inl (by rw [h.meas, h.time]; exact ⟨hst, ho⟩)))
    · refine h.passed (.inr (.inr (.inl ?_)))
      rw [h.meas, h.time]
      exact ⟨hst, by unfold Measure.closesAt; rw [hot]; exact ho⟩
  case refine_2 =>
    obtain ⟨u, hu, ht⟩ := scanArrival_served e s hi
    exact ⟨u, hu.frame, hu.queue, hu.meas_eq, hu.stampsHeld, fun f => hu.examined i (by simp) f, ht.meas_eq, ht.viewStamps,
      ht.queue⟩
  case refine_3 =>
    have h : s.noOverrun fresh i := fun hf => edgeOverrun_none hc (hno hf)
    refine ⟨scanned_nil h, fun e back hv hm => ?_⟩
    obtain rfl : m = s.gExamined i e := hm
    refine ⟨scanned_inactive h hv, ⟨s.passEntry i .G e, passEntry_passes .G e s, rfl, scanned_passes h hv⟩,
      fun hh => ⟨scanned_stays h hv hh, fun hx hd hmask ht => scanned_faults h hv hh hx hd hmask ht, fun hd => ?_⟩⟩
    by_cases ha : (s.meas i).st.active = true
    case neg =>
      have hna {st : MeasureState} (hst : (s.meas i).st = st) (hact : st.active = true) : False := ha (hst ▸ hact)
      exact ⟨s.passEntry i .G e, passEntry_passes .G e s, rfl, fun hst => (hna hst rfl).elim,
        fun hst => (hna hst rfl).elim⟩
    case pos =>
      obtain ⟨u, hu⟩ := examineG_past (i := i) (e := e) ha hd
      refine ⟨u, hu.passes, hu.store, fun hst ho => scanned_opens h hv hh hu hc hst ho, fun hst ho => ?_⟩
      have hs := scanned_closes h hv hh hu hst ho
      have hmc : ({ s.gExamined i e with closedByStamp := true } : Measure).config = some g := hc
      refine ⟨fun hk => ?_, fun hk hask => ?_, fun hk hr hn => ?_⟩
      · rw [hs, closeGate_setMeas_shuts hmc hk]
      · rw [hs, closeGate_setMeas_asks hmc hk (by rw [hu.reached]; exact hask)]
      · rw [hs, closeGate_setMeas_answers hmc hk (by rw [hu.reached]; exact hr) hn, hu.snapshot]
  case refine_4 =>
    subst hz hm
    have hs := rescanGate_overruns (edgeOverrun_some hst hc hg ho hr) hcl
    have hover : overrunGate i (addEpochs o g.spanLimit.toNat) s
        = closeGate i (addEpochs o g.spanLimit.toNat) (s.setMeas i ((s.meas i).qualify .overrange)) := rfl
    have hmc : ((s.meas i).qualify .overrange).config = some g := hc
    rw [hs, hover]
    refine ⟨fun hk => ?_, fun hk hask => ?_, fun hk hn => ?_⟩
    · rw [closeGate_setMeas_shuts hmc hk]
      rfl
    · rw [closeGate_setMeas_asks hmc hk (.inr hask)]
      rfl
    · rw [closeGate_setMeas_answers hmc hk hr hn]
      rfl

end Sys2Proof.Machine
end

section
/-! PROOFS. The arbiter leaves the published stamps as they stand. -/

namespace Sys2Proof.Machine

variable {s t u : State} {i : Fin 8}

/-- The published stamps stand as they stood. -/
def PublishKept (s t : State) : Prop :=
  (t.store.filter (·.publish)).map Entry.stamp = (s.store.filter (·.publish)).map Entry.stamp

namespace PublishKept

theorem of_store (h : t.store = s.store) : PublishKept s t := by
  unfold PublishKept
  rw [h]

theorem refl (s : State) : PublishKept s s := of_store rfl

theorem trans (h : PublishKept s t) (k : PublishKept t u) : PublishKept s u := Eq.trans k h

theorem forEach {α : Type} {f : State → α → State} (l : List α) (h : ∀ a s, PublishKept s (f s a)) (s : State) :
    PublishKept s (forEach l f s) := by
  induction l generalizing s with
  | nil => exact refl s
  | cons a l ih => exact (h a s).trans (ih (f s a))

theorem mapStore (f : Entry → Entry) (hs : ∀ e, (f e).stamp = e.stamp) (hp : ∀ e, (f e).publish = e.publish) :
    PublishKept s (s.setStore (s.store.map f)) :=
  stamps_mapStore f _ _ hs (fun e h => (wanted_iff e).mpr (.inl h)) hp

theorem releaseMeasure (i : Fin 8) (s : State) : PublishKept s (s.releaseMeasure i) :=
  mapStore _ (fun e => by unfold Entry.leave; rw [drop_stamp, drop_stamp, drop_stamp])
    fun e => by unfold Entry.leave; rw [drop_publish, drop_publish, drop_publish]

theorem unhold (i : Fin 8) (s : State) : PublishKept s (s.unhold i) := mapStore _ (fun _ => rfl) fun _ => rfl

theorem enqueueGroup (g : Group) (s : State) : PublishKept s (enqueueGroup g s) := of_store (enqueueGroup_store g s)

theorem enterFault (k : FaultKind) (offer : Bool) (s : State) : PublishKept s (enterFault i k offer s) := by
  have h : PublishKept s ((s.modMeas i Measure.faulted).releaseMeasure i) := releaseMeasure i (s.modMeas i Measure.faulted)
  unfold Machine.enterFault
  dsimp only
  split
  · exact h.trans (enqueueGroup _ _)
  · exact h

theorem takeCondition (k : FaultKind) (offer : Bool) (s : State) : PublishKept s (takeCondition i k offer s) := by
  unfold Machine.takeCondition
  dsimp only
  split
  · split
    · exact of_store rfl
    · exact enterFault k offer s
  · split
    · exact of_store rfl
    · exact refl s

theorem askPeer (offer : Bool) (s : State) (r : Role) : PublishKept s (askPeer i offer s r) := by
  unfold Machine.askPeer
  split
  · exact refl s
  · split
    · exact refl s
    · split
      · rename_i x _ _ k _
        have h : PublishKept s (Machine.takeCondition i k offer s) := takeCondition k offer s
        unfold takePeerCondition
        dsimp only
        split
        · exact h
        · exact h
      · exact refl s

theorem openGate (x : TimeStamp) (s : State) : PublishKept s (openGate i x s) := by
  unfold Machine.openGate
  dsimp only
  split
  · split_ifs <;> exact of_store rfl
  · exact refl s

theorem openCarried (x : TimeStamp) (s : State) : PublishKept s (openCarried i x s) := by
  unfold Machine.openCarried
  split
  · split
    · exact refl s
    · exact openGate _ s
  · exact refl s

theorem nextState (rested offer : Bool) (s : State) : PublishKept s (nextState i rested offer s) := by
  unfold Machine.nextState
  dsimp only
  split
  · exact ((unhold i (s.setMeas i _)).trans (forEach _ (fun r s => askPeer offer s r) _)).trans (openCarried _ _)
  · exact releaseMeasure i (s.modMeas i Measure.idled)

theorem givePlace (s : State) : PublishKept s (givePlace i s) := by
  unfold Machine.givePlace
  dsimp only
  split
  · rename_i g _ _
    refine (enqueueGroup g s).trans ?_
    unfold afterHeldGroup
    split
    · exact enterFault _ false _
    · exact nextState true false _
  · exact of_store (enqueueGroup_store _ _)
  · exact refl s

/-- Places given out leave the published stamps (R162). -/
theorem givePlaces (n : Nat) (s : State) : PublishKept s (givePlaces n s) := by
  induction n generalizing s with
  | zero => exact refl s
  | succ n ih =>
    unfold Machine.givePlaces
    split
    · split
      · exact (givePlace s).trans (ih _)
      · exact refl s
    · exact refl s

end PublishKept

end Sys2Proof.Machine
end

section
/-! PROOFS. Published stamps: the order of their times within half the epoch numbers, and the stamps of a frame. -/

namespace Sys2Proof.Machine

variable {s t : State} {i : Fin 8} {base : BitVec 16} {x y : TimeStamp} {e f : Entry} {l : List Entry}

/-! ### Times within half the epoch numbers -/

/-- The time on a scale that begins with epoch `base`. -/
def TimeStamp.since (base : BitVec 16) (x : TimeStamp) : Nat := (x.epoch - base).toNat * 2 ^ 32 + x.steps

theorem compareEpoch_eq_compare {a b : BitVec 16} (ha : (a - base).toNat ≤ 32767) (hb : (b - base).toNat ≤ 32767) :
    compareEpoch a b = compare (b - base).toNat (a - base).toNat := by
  have hd := epochDiff_toNat (a - base) (b - base)
  rw [show b - base - (a - base) = b - a by abel] at hd
  rcases Nat.lt_trichotomy (b - base).toNat (a - base).toNat with h | h | h
  · rw [Nat.compare_eq_lt.mpr h]
    exact compareEpoch_lt_iff.mpr (by omega)
  · rw [Nat.compare_eq_eq.mpr h]
    exact compareEpoch_eq_iff.mpr (by omega)
  · rw [Nat.compare_eq_gt.mpr h]
    exact compareEpoch_gt_iff.mpr (by omega)

/-- Within half the epoch numbers the comparison of R4 is the order of the scale. -/
theorem compareTime_eq_compare (hx : (x.epoch - base).toNat ≤ 32767) (hy : (y.epoch - base).toNat ≤ 32767) :
    compareTime x y = compare (y.since base) (x.since base) := by
  have hsx : x.steps < 2 ^ 32 := by
    have := x.offset.isLt
    have := x.fine.isLt
    unfold TimeStamp.steps
    omega
  have hsy : y.steps < 2 ^ 32 := by
    have := y.offset.isLt
    have := y.fine.isLt
    unfold TimeStamp.steps
    omega
  rw [compareTime_eq, compareEpoch_eq_compare hx hy]
  unfold TimeStamp.since
  rcases Nat.lt_trichotomy (y.epoch - base).toNat (x.epoch - base).toNat with h | h | h
  · rw [Nat.compare_eq_lt.mpr h]
    exact (Nat.compare_eq_lt.mpr (by omega)).symm
  · rw [Nat.compare_eq_eq.mpr h, h]
    exact compare_congr (by omega) (by omega)
  · rw [Nat.compare_eq_gt.mpr h]
    exact (Nat.compare_eq_gt.mpr (by omega)).symm

theorem earlier_iff_since (hx : (x.epoch - base).toNat ≤ 32767) (hy : (y.epoch - base).toNat ≤ 32767) :
    earlier x y = true ↔ x.since base < y.since base := by
  unfold earlier
  rw [beq_iff_eq, compareTime_eq_compare hy hx, Nat.compare_eq_lt]

theorem atOrBefore_iff_since (hx : (x.epoch - base).toNat ≤ 32767) (hy : (y.epoch - base).toNat ≤ 32767) :
    atOrBefore x y = true ↔ x.since base ≤ y.since base := by
  unfold atOrBefore
  rw [bne_iff_ne, compareTime_eq_compare hy hx, ne_eq, Nat.compare_eq_gt, Nat.not_lt]

/-- The place of an entry in the order in which stamps are published: by time, and at one time by channel (R75). -/
def Entry.rank (base : BitVec 16) (e : Entry) : Nat := e.time.since base * 4 + e.channel.val

theorem goesBefore_iff_rank (he : (e.time.epoch - base).toNat ≤ 32767) (hf : (f.time.epoch - base).toNat ≤ 32767) :
    f.goesBefore e = true ↔ f.rank base < e.rank base := by
  have hce := e.channel.isLt
  have hcf := f.channel.isLt
  unfold Entry.goesBefore Entry.rank
  rw [Bool.or_eq_true, earlier_iff_since hf he, Bool.and_eq_true, beq_iff_eq, decide_eq_true_iff,
    compareTime_eq_compare he hf, Nat.compare_eq_eq, Fin.lt_def]
  omega

/-! ### The oldest of the published entries -/

/-- Entries that hold publish, no two of one source and time, of times within half the epoch numbers. -/
structure Orderly (base : BitVec 16) (l : List Entry) : Prop where
  publish : ∀ e ∈ l, e.publish = true
  distinct : l.Pairwise fun e f => e.same f = false
  near : ∀ e ∈ l, (e.time.epoch - base).toNat ≤ 32767

theorem same_self (e : Entry) : e.same e = true := by simp [Entry.same]

theorem same_comm (e f : Entry) : e.same f = f.same e := by
  rw [same_eq_key, same_eq_key, decide_eq_decide, eq_comm]

theorem Orderly.filter (h : Orderly base l) (p : Entry → Bool) : Orderly base (l.filter p) where
  publish := fun e he => h.publish e (List.mem_filter.mp he).1
  distinct := h.distinct.filter p
  near := fun e he => h.near e (List.mem_filter.mp he).1

theorem Orderly.same_iff (h : Orderly base l) (he : e ∈ l) (hf : f ∈ l) : e.same f = true ↔ e = f := by
  constructor
  · intro hs
    by_contra hne
    have hsymm : Std.Symm fun e f : Entry => e.same f = false := ⟨fun a b hab => by rw [same_comm]; exact hab⟩
    exact Bool.false_ne_true ((h.distinct.forall he hf hne).symm.trans hs)
  · rintro rfl
    exact same_self e

/-- Only published entries count. -/
theorem oldestPublished_filter (l : List Entry) : oldestPublished (l.filter (·.publish)) = oldestPublished l := by
  induction l with
  | nil => rfl
  | cons e l ih =>
    cases he : e.publish with
    | true =>
      rw [List.filter_cons_of_pos (by exact he)]
      unfold oldestPublished
      rw [ih]
    | false =>
      rw [List.filter_cons_of_neg (by rw [he]; nofun), ih]
      conv_rhs => unfold oldestPublished
      cases oldestPublished l <;> simp [he]

theorem oldestPublished_none (h : oldestPublished l = none) : ∀ e ∈ l, e.publish = false := by
  induction l with
  | nil => nofun
  | cons e l ih =>
    unfold oldestPublished at h
    cases ho : oldestPublished l with
    | none =>
      rw [ho] at h
      simp at h
      exact List.forall_mem_cons.mpr ⟨h, ih ho⟩
    | some f =>
      rw [ho] at h
      dsimp only at h
      split at h <;> cases h

/-- The winner of the scan is the entry of lowest rank (R75). -/
theorem Orderly.oldest (h : Orderly base l) (he : oldestPublished l = some e) :
    e ∈ l ∧ ∀ f ∈ l, e.rank base ≤ f.rank base := by
  induction l generalizing e with
  | nil => cases he
  | cons a l ih =>
    have hl : Orderly base l := ⟨fun f hf => h.publish f (List.mem_cons_of_mem a hf), (List.pairwise_cons.mp h.distinct).2,
      fun f hf => h.near f (List.mem_cons_of_mem a hf)⟩
    have ha := h.publish a List.mem_cons_self
    unfold oldestPublished at he
    cases ho : oldestPublished l with
    | none =>
      have hnil : l = [] := List.eq_nil_iff_forall_not_mem.mpr fun f hf => by
        have := oldestPublished_none ho f hf
        rw [hl.publish f hf] at this
        cases this
      rw [ho] at he
      simp only [ha, if_true, Option.some.injEq] at he
      subst hnil he
      simp
    | some b =>
      obtain ⟨hb, hmin⟩ := ih hl ho
      have hrank := goesBefore_iff_rank (h.near a List.mem_cons_self) (hl.near b hb)
      rw [ho] at he
      simp only [ha, Bool.true_and, Bool.not_eq_true'] at he
      split at he
      · rename_i hg
        cases he
        rw [Bool.eq_false_iff, ne_eq, hrank, Nat.not_lt] at hg
        exact ⟨List.mem_cons_self, List.forall_mem_cons.mpr ⟨le_rfl, fun f hf => hg.trans (hmin f hf)⟩⟩
      · rename_i hg
        cases he
        rw [Bool.not_eq_false, hrank] at hg
        exact ⟨List.mem_cons_of_mem a hb, List.forall_mem_cons.mpr ⟨hg.le, hmin⟩⟩

/-! ### The stamps of a frame -/

/-- The published entries that go into n positions: the oldest, and then the oldest of the rest (R75). -/
def pickOldest : Nat → List Entry → List Entry
  | 0, _ => []
  | n + 1, l =>
    match oldestPublished l with
    | none => []
    | some e => e :: pickOldest n (l.filter fun f => !f.same e)

theorem Orderly.filter_same (h : Orderly base l) (he : e ∈ l) :
    (l.filter fun f => !f.same e) = l.filter (· != e) :=
  List.filter_congr fun f hf => Bool.eq_iff_iff.mpr (by
    rw [Bool.not_eq_true', ← Bool.not_eq_true, h.same_iff hf he, bne_iff_ne])

theorem Orderly.nodup (h : Orderly base l) : l.Nodup :=
  h.distinct.imp fun {a b} hab hne => by
    rw [hne, same_self] at hab
    cases hab

theorem Orderly.length_rest (h : Orderly base l) (he : e ∈ l) :
    (l.filter fun f => !f.same e).length + 1 = l.length := by
  rw [h.filter_same he, ← h.nodup.erase_eq_filter, List.length_erase_add_one he]

/-- What the picked entries are, among the ones they are picked from. -/
structure Picked (base : BitVec 16) (n : Nat) (l sent : List Entry) : Prop where
  length : sent.length = min n l.length
  nodup : sent.Nodup
  mem : ∀ e ∈ sent, e ∈ l
  sorted : sent.Pairwise fun e f => e.rank base ≤ f.rank base
  oldest : ∀ e ∈ sent, ∀ x ∈ l, x ∉ sent → e.rank base ≤ x.rank base

theorem Orderly.picked (h : Orderly base l) (n : Nat) : Picked base n l (pickOldest n l) := by
  induction n generalizing l with
  | zero => exact ⟨by simp [pickOldest], List.nodup_nil, nofun, .nil, nofun⟩
  | succ n ih =>
    unfold pickOldest
    cases ho : oldestPublished l with
    | none =>
      have hnil : l = [] := List.eq_nil_iff_forall_not_mem.mpr fun f hf =>
        Bool.false_ne_true ((oldestPublished_none ho f hf).symm.trans (h.publish f hf))
      exact ⟨by simp [hnil], List.nodup_nil, nofun, .nil, nofun⟩
    | some e =>
      obtain ⟨he, hmin⟩ := h.oldest ho
      obtain ⟨hlen, hnodup, hmem, hsorted, hold⟩ := ih (h.filter fun f => !f.same e)
      have hrest := h.length_rest he
      have hne {f : Entry} : f ∈ (l.filter fun f => !f.same e) ↔ f ∈ l ∧ f ≠ e := by
        rw [h.filter_same he, List.mem_filter, bne_iff_ne]
      refine ⟨?_, List.nodup_cons.mpr ⟨fun hin => (hne.mp (hmem e hin)).2 rfl, hnodup⟩,
        List.forall_mem_cons.mpr ⟨he, fun f hf => (hne.mp (hmem f hf)).1⟩,
        List.pairwise_cons.mpr ⟨fun f hf => hmin f (hne.mp (hmem f hf)).1, hsorted⟩,
        List.forall_mem_cons.mpr ⟨fun x hx _ => hmin x hx, fun f hf x hx hxn => ?_⟩⟩
      · rw [List.length_cons, hlen]
        omega
      · rw [List.mem_cons, not_or] at hxn
        exact hold f hf x (hne.mpr ⟨hx, hxn.1⟩) hxn.2

/-- The entries that hold publish. -/
def State.published (s : State) : List Entry := s.store.filter (·.publish)

/-- Publish leaves the entry sent, and every published entry left stands as it stood (R60). -/
theorem takePublished_published (e : Entry) (s : State) :
    (takePublished e s).published = s.published.filter fun f => !f.same e := by
  show ((s.store.map fun f => if f.same e then { f with publish := false } else f).filter Entry.wanted).filter
    (·.publish) = (s.store.filter (·.publish)).filter fun f => !f.same e
  rw [List.filter_filter, List.filter_filter]
  induction s.store with
  | nil => rfl
  | cons a l ih =>
    rw [List.map_cons, List.filter_cons, List.filter_cons, ih]
    cases hs : a.same e
    · cases hp : a.publish <;> simp [hp, Entry.wanted]
    · simp

theorem takePublished_drops (e : Entry) (s : State) (c : Fin 4) : ((takePublished e s).chan c).publishDrops
    = if c = e.channel then 0 else (s.chan c).publishDrops := by
  unfold takePublished
  rw [State.chan_modChan]
  split <;> rfl

theorem oldestPublished_published (s : State) : oldestPublished s.store = oldestPublished s.published :=
  (oldestPublished_filter s.store).symm

/-- The placed stamps are the picked entries, and the station has lost their publish and their channels' losses
(R46, R60, R75). -/
theorem placeStamps_picks (n : Nat) (x : Draft) :
    (placeStamps n x).records = x.records
      ++ stampRecords (fun c => (x.state.chan c).publishDrops) (pickOldest n x.state.published) ∧
    (placeStamps n x).state.published
      = x.state.published.filter (fun f => (pickOldest n x.state.published).all fun e => !f.same e) ∧
    ∀ c, ((placeStamps n x).state.chan c).publishDrops
      = if (pickOldest n x.state.published).any (fun e => e.channel == c) then 0
        else (x.state.chan c).publishDrops := by
  induction n generalizing x with
  | zero => exact ⟨(List.append_nil _).symm, by simp [placeStamps, pickOldest], fun c => rfl⟩
  | succ n ih =>
    unfold placeStamps pickOldest
    rw [oldestPublished_published]
    cases ho : oldestPublished x.state.published with
    | none => exact ⟨(List.append_nil _).symm, by simp, fun c => rfl⟩
    | some e =>
      obtain ⟨hrec, hpub, hdrops⟩ := ih ⟨takePublished e x.state,
        x.records ++ [.stamp e.channel e.polarity (x.state.carriedDrops e) e.time]⟩
      dsimp only at hrec hpub hdrops ⊢
      simp only [takePublished_published, takePublished_drops] at hrec hpub hdrops
      refine ⟨?_, ?_, fun c => ?_⟩
      · rw [hrec, List.append_assoc]
        rfl
      · rw [hpub, List.filter_filter]
        exact List.filter_congr fun f _ => Bool.and_comm _ _
      · rw [hdrops, List.any_cons]
        by_cases hc : c = e.channel
        · subst hc
          simp
        · have hne : (e.channel == c) = false := beq_eq_false_iff_ne.mpr (Ne.symm hc)
          rw [hne, if_neg hc, Bool.false_or]

/-! ### The records that go before the stamps -/

/-- The draft before its stamps are placed: the STATUS record, the directives and the result groups (R72). -/
def State.fronted (s : State) : Draft := placeGroups (placeDirectives (placeStatus ⟨s, []⟩))

theorem fillFrame_eq (s : State) : fillFrame s = placeStamps s.fronted.free s.fronted := rfl

theorem fronted_store (s : State) : s.fronted.state.store = s.store := by
  unfold State.fronted placeGroups placeDirectives placeStatus
  dsimp only
  split <;> rfl

theorem fronted_chan (s : State) (c : Fin 4) : s.fronted.state.chan c = s.chan c := by
  unfold State.fronted placeGroups placeDirectives placeStatus
  dsimp only
  split <;> rfl

/-- The record is no STAMP record. -/
def Record.notStamp (r : Record) : Prop := ∀ c p d x, r ≠ .stamp c p d x

theorem dataRecords_notStamp (m : Fin 8) (j : Nat) (l : List (BitVec 48)) : ∀ r ∈ dataRecords m j l, r.notStamp := by
  induction l generalizing j with
  | nil => nofun
  | cons v l ih => exact List.forall_mem_cons.mpr ⟨nofun, ih (j + 1)⟩

theorem groupRecords_notStamp (g : Group) : ∀ r ∈ groupRecords g, r.notStamp :=
  List.forall_mem_cons.mpr ⟨nofun, dataRecords_notStamp g.measure 0 g.values⟩

theorem fronted_notStamp (s : State) : ∀ r ∈ s.fronted.records, r.notStamp := by
  intro r hr
  unfold State.fronted placeGroups placeDirectives at hr
  dsimp only at hr
  rw [List.mem_append, List.mem_append] at hr
  rcases hr with (hstatus | hdirective) | hgroup
  · unfold placeStatus at hstatus
    split at hstatus
    · rw [List.nil_append, List.mem_singleton] at hstatus
      rw [hstatus]
      nofun
    · cases hstatus
  · obtain ⟨d, _, rfl⟩ := List.mem_map.mp hdirective
    nofun
  · obtain ⟨l, hl, hr⟩ := List.mem_flatten.mp hgroup
    obtain ⟨g, _, rfl⟩ := List.mem_map.mp hl
    exact groupRecords_notStamp g r hr

/-! ### The frame of an own window -/

/-- What a LOCKED station sends in an own window (R72, R77). -/
def State.ownDraft (s : State) : Draft := fillFrame { s with marks := { s.marks with assembly := true } }

/-- The station that has begun to send the frame (R77). -/
def State.begun (s : State) : State :=
  { s.ownDraft.state with link := { s.ownDraft.state.link with sending := some ⟨s.ownDraft.frame, 0, false⟩ } }

theorem endReception_idle (h : s.link.receiver = none) : endReception s = s := by
  unfold endReception
  rw [h]
  exact if_neg (by simp)

theorem assemble_locked (ha : s.eu.align = some .locked) : assemble s = s.begun :=
  if_pos ((congrArg EpochUnit.align (Fills.fillFrame { s with marks := { s.marks with assembly := true } }).eu).trans ha)

theorem startOwnWindow_locked (ha : s.eu.align = some .locked) (hr : s.link.receiver = none) :
    startOwnWindow s = givePlaces Config.queueCapacity s.begun := by
  have hb : s.begun.link.receiver = none := (Fills.fillFrame _).receiver.trans hr
  unfold startOwnWindow
  rw [endReception_idle hr, assemble_locked ha, endReception_idle hb, ite_self]

/-- The horizon of a frame, over the published stamps the frame leaves (R76). -/
theorem frameHorizon_oldest (h : Orderly base s.published) (hl : (s.localHorizon.epoch - base).toNat ≤ 32767) :
    atOrBefore s.frameHorizon s.localHorizon = true ∧ (∀ e ∈ s.published, atOrBefore s.frameHorizon e.time = true) ∧
    (s.frameHorizon = s.localHorizon ∨ ∃ e ∈ s.published, s.frameHorizon = e.time) := by
  unfold State.frameHorizon
  rw [oldestPublished_published]
  cases ho : oldestPublished s.published with
  | none =>
    refine ⟨(atOrBefore_iff_since hl hl).mpr le_rfl, fun e he => ?_, .inl rfl⟩
    exact absurd (h.publish e he) (Bool.not_eq_true _ ▸ oldestPublished_none ho e he)
  | some e =>
    obtain ⟨he, hmin⟩ := h.oldest ho
    have hne := h.near e he
    have hsince {f : Entry} (hf : f ∈ s.published) : e.time.since base ≤ f.time.since base := by
      have := hmin f hf
      have := e.channel.isLt
      have := f.channel.isLt
      unfold Entry.rank at *
      omega
    have hlt := earlier_iff_since hne hl
    dsimp only
    split
    · rename_i hearly
      exact ⟨(atOrBefore_iff_since hne hl).mpr (hlt.mp hearly).le,
        fun f hf => (atOrBefore_iff_since hne (h.near f hf)).mpr (hsince hf), .inr ⟨e, he, rfl⟩⟩
    · rename_i hlate
      rw [hlt, Nat.not_lt] at hlate
      exact ⟨(atOrBefore_iff_since hl hl).mpr le_rfl,
        fun f hf => (atOrBefore_iff_since hl (h.near f hf)).mpr (hlate.trans (hsince hf)), .inl rfl⟩

/-- The published entries that a frame of the station sends (R75). -/
def State.sent (s : State) : List Entry := pickOldest s.fronted.free s.published

/-- Of orderly entries, the ones that are the same as no sent one are the ones not sent. -/
theorem Orderly.rest_eq (h : Orderly base l) {sent : List Entry} (hs : ∀ e ∈ sent, e ∈ l) :
    l.filter (fun f => sent.all fun e => !f.same e) = l.filter fun f => decide (f ∉ sent) :=
  List.filter_congr fun f hf => by
    rw [Bool.eq_iff_iff, List.all_eq_true, decide_eq_true_iff]
    constructor
    · intro hall hin
      have := hall f hin
      rw [same_self] at this
      cases this
    · intro hn e he
      rw [Bool.not_eq_true', Bool.eq_false_iff, ne_eq, h.same_iff hf (hs e he)]
      rintro rfl
      exact hn he

/-- The draft's records, and what it leaves of the published entries and of their channels' losses (R46, R60, R75). -/
theorem fillFrame_stamps (h : Orderly base s.published) :
    (fillFrame s).records = s.fronted.records ++ stampRecords (fun c => (s.chan c).publishDrops) s.sent ∧
    (fillFrame s).state.published = s.published.filter (fun f => decide (f ∉ s.sent)) ∧
    ∀ c, ((fillFrame s).state.chan c).publishDrops
      = if s.sent.any (fun e => e.channel == c) then 0 else (s.chan c).publishDrops := by
  have hp : s.fronted.state.published = s.published := congrArg (List.filter fun e : Entry => e.publish) (fronted_store s)
  have hpicks := placeStamps_picks s.fronted.free s.fronted
  rw [← fillFrame_eq, hp] at hpicks
  simp only [fronted_chan] at hpicks
  obtain ⟨hrec, hpub, hdrops⟩ := hpicks
  exact ⟨hrec, hpub.trans (h.rest_eq (h.picked s.fronted.free).mem), hdrops⟩

theorem orderly_published
    (hnear : ∀ e ∈ s.store, e.publish = true → (e.time.epoch - base).toNat ≤ 32767)
    (hdis : s.store.Pairwise fun e f => e.publish = true → f.publish = true → e.same f = false) :
    Orderly base s.published where
  publish := fun _ he => (List.mem_filter.mp he).2
  distinct := by
    refine (List.pairwise_filter.mpr ?_)
    exact hdis.imp fun h he hf => h he hf
  near := fun e he => hnear e (List.mem_filter.mp he).1 (List.mem_filter.mp he).2

theorem map_time_of_stamp {k : List Entry} (h : l.map Entry.stamp = k.map Entry.stamp) :
    l.map (fun e => (e.channel, e.time)) = k.map fun e => (e.channel, e.time) := by
  have := congrArg (List.map fun x : Fin 16 × Fin 4 × Polarity × TimeStamp × BitVec 8 => (x.2.1, x.2.2.2.1)) h
  rwa [List.map_map, List.map_map] at this

/-- Settles O41: the frame holds the front records and the oldest of the published entries, picked one by one, and its
horizon is the local one or that of the oldest entry left; the arbiter moves none of them. -/
theorem stampsArePublished : Obligations.StampsArePublished := by
  intro s base hdue ha hr hnear hlocal hdis _
  have hord := orderly_published hnear hdis
  have hpub {e : Entry} : e ∈ s.published ↔ e ∈ s.store ∧ e.publish = true := List.mem_filter
  let m : State := { s with marks := { s.marks with assembly := true } }
  obtain ⟨hrec, hrest, hdrops⟩ := fillFrame_stamps (s := m) hord
  obtain ⟨hlen, hnodup, hmem, hsorted, hold⟩ := hord.picked m.fronted.free
  have hfill := Fills.fillFrame m
  have hh : (fillFrame m).state.localHorizon = s.localHorizon := by
    unfold State.localHorizon State.localTime State.epochLength
    rw [hfill.eu, hfill.params]
  obtain ⟨hlocalH, hleft, hcase⟩ := frameHorizon_oldest (s := (fillFrame m).state) (hrest ▸ hord.filter _)
    (hh ▸ hlocal)
  rw [hh] at hlocalH hcase
  rw [hrest] at hleft hcase
  have hfree : m.fronted.free = 8 - m.fronted.records.length := rfl
  have hbefore {e f : Entry} (he : e ∈ s.published) (hf : f ∈ s.published) (h : e.rank base ≤ f.rank base) :
      f.goesBefore e = false := by
    rw [Bool.eq_false_iff, ne_eq, goesBefore_iff_rank (hord.near e he) (hord.near f hf), Nat.not_lt]
    exact h
  have hframe := (Acts.givePlaces Config.queueCapacity s.begun).frame
  have hunsent {e : Entry} (he : e ∈ s.store) (hp : e.publish = true) (hn : e ∉ m.sent) :
      e ∈ s.published.filter fun f => decide (f ∉ m.sent) :=
    List.mem_filter.mpr ⟨hpub.mpr ⟨he, hp⟩, decide_eq_true hn⟩
  refine ⟨givePlaces Config.queueCapacity s.begun, (fillFrame m).frame, m.fronted.records, m.sent,
    gives_of_effect_eq nofun nofun ((if_pos hdue).trans (startOwnWindow_locked ha hr)), ?_, hrec, fronted_notStamp m,
    ?_, hnodup, fun e he => hpub.mp (hmem e he), ?_, ?_, fun c => ?_, ?_, hlocalH, fun e he hp hn => ?_, ?_⟩
  · exact hframe.link_eqs.1
  · rw [← hfree, List.countP_eq_length_filter]
    exact hlen
  · exact hsorted.imp_of_mem fun he hf h => hbefore (hmem _ he) (hmem _ hf) h
  · exact fun e he y hy hp hn => hbefore (hmem e he) (hpub.mpr ⟨hy, hp⟩) (hold e he y (hpub.mpr ⟨hy, hp⟩) hn)
  · rw [State.chan, hframe.channels]
    exact hdrops c
  · refine (map_time_of_stamp (PublishKept.givePlaces _ s.begun)).trans (congrArg _ ?_)
    refine hrest.trans ?_
    exact (List.filter_filter ..).trans (List.filter_congr fun e _ => Bool.and_comm _ _)
  · exact hleft e (hunsent he hp hn)
  · refine hcase.imp_right fun ⟨e, he, h⟩ => ?_
    obtain ⟨hin, hn⟩ := List.mem_filter.mp he
    obtain ⟨hstore, hp⟩ := hpub.mp hin
    exact ⟨e, hstore, hp, of_decide_eq_true hn, h⟩

end Sys2Proof.Machine
end

section
/-! PROOFS. The invariant along every step. -/

namespace Sys2Proof.Machine

variable {s : State}

/-- The commands that wait are no part of the invariant. -/
theorem Inv.withPending (h : Inv s) (l : List Instr) : Inv { s with pending := l } where
  toSound := h.toSound.congr rfl rfl rfl rfl rfl rfl rfl rfl
  alone := fun w hw => (h.alone w hw).congr rfl rfl rfl rfl rfl rfl rfl rfl

/-- A command's answer has the invariant (`exec_ends`). -/
theorem exec_inv {c : Instr} {t : State} (h : Inv s) (he : exec c s = .next t) : Inv t := by
  obtain ⟨u, hu, -, hinv⟩ := exec_ends c s
  rw [hu] at he
  cases he
  exact hinv h

/-- Settles O60: a step is the command at the front of the queue, the event that is due, or one tick, and each keeps
the invariant. -/
theorem stepKeepsInvariant : Obligations.StepKeepsInvariant := by
  intro s t h hst
  unfold step at hst
  split at hst
  case h_1 c rest _ => exact exec_inv (h.withPending rest) hst
  case h_2 =>
    unfold idle at hst
    split at hst
    case h_1 c _ => exact exec_inv h hst
    case h_2 =>
      cases hst
      exact advance_inv h

end Sys2Proof.Machine
end

section
/-! PROOFS. Remote STAMP records: declined, dropped with STORE_FULL at the measures that wanted them, or stored. -/

namespace Sys2Proof.Machine

variable {s t : State} {i : Fin 8} {p : Fin 16} {c : Fin 4} {q : Polarity} {drops : BitVec 8} {x : TimeStamp}

/-! ### STORE_FULL at a measure -/

/-- A measure with STORE_FULL pending in the roles that read this source (R118). -/
def Measure.withStoreFull (m : Measure) (p : Fin 16) (c : Fin 4) : Measure :=
  { m with
    pendingA := m.pendingA || m.roleReads .A p c
    pendingB := m.pendingB || m.roleReads .B p c }

/-- STORE_FULL only becomes pending at a measure that reads the source in no G role (R118). -/
theorem takeStoreFull_pending (hG : (s.meas i).roleReads .G p c = false) :
    takeStoreFull p c i s = s.modMeas i (·.withStoreFull p c) := if_neg (Bool.eq_false_iff.mp hG)

/-- A G role that reads the source has STORE_FULL taken at once (R118). -/
theorem takeStoreFull_gate (hG : (s.meas i).roleReads .G p c = true) :
    takeStoreFull p c i s = takeCondition i .storeFull true (s.modMeas i (·.withStoreFull p c)) := if_pos hG

theorem takeStoreFull_masked (ha : (s.meas i).st.active = true) (hG : (s.meas i).roleReads .G p c = true)
    (hm : (s.meas i).masks .storeFull = true) :
    (takeStoreFull p c i s).meas i = ((s.meas i).withStoreFull p c).qualify (.fault .storeFull) := by
  have hmeas := meas_modMeas_of (s := s) (i := i) rfl (·.withStoreFull p c)
  rw [takeStoreFull_gate hG, takeCondition_masked _ _ _ (by rw [hmeas]; exact ha) (by rw [hmeas]; exact hm),
    meas_modMeas_of hmeas]

theorem takeStoreFull_faults (ha : (s.meas i).st.active = true) (hG : (s.meas i).roleReads .G p c = true)
    (hm : (s.meas i).masks .storeFull = false) : Faults s (takeStoreFull p c i s) i .storeFull := by
  have hmeas := meas_modMeas_of (s := s) (i := i) rfl (·.withStoreFull p c)
  rw [takeStoreFull_gate hG, takeCondition_unmasked _ _ _ (by rw [hmeas]; exact ha) (by rw [hmeas]; exact hm)]
  exact enterFault_faults_mod .storeFull rfl rfl

/-! ### A dropped record -/

/-- Each measure of a dropped record's consumer set takes STORE_FULL once, with nothing of it changed before or
after. -/
theorem dropRemote_served {e : Entry} (h : e.consumers.getLsbD i.val = true) : ∃ u,
    Acts true (fun j => j ≠ i) s u ∧
      Acts true (fun j => j ≠ i) (takeStoreFull e.station e.channel i u) (dropRemote e s) :=
  served_one (p := fun i => e.consumers.getLsbD i.val) (f := fun i => takeStoreFull e.station e.channel i)
    (fun _ s => .takeStoreFull _ _ s) s s i h

/-- What STORE_FULL for a source makes of measure i (R57, R58, R118). -/
structure TakesStoreFull (s t : State) (i : Fin 8) (p : Fin 16) (c : Fin 4) : Prop where
  pending : (s.meas i).roleReads .G p c = false → t.meas i = (s.meas i).withStoreFull p c
  masked : (s.meas i).roleReads .G p c = true → (s.meas i).masks .storeFull = true →
    t.meas i = ((s.meas i).withStoreFull p c).qualify (.fault .storeFull)
  faults : (s.meas i).roleReads .G p c = true → (s.meas i).masks .storeFull = false → Faults s t i .storeFull

theorem takeStoreFull_takes (ha : (s.meas i).st.active = true) : TakesStoreFull s (takeStoreFull p c i s) i p c where
  pending hG := by rw [takeStoreFull_pending hG, meas_modMeas_of rfl]
  masked := takeStoreFull_masked ha
  faults := takeStoreFull_faults ha

theorem dropRemote_takes {e : Entry} (h : e.consumers.getLsbD i.val = true) (ha : (s.meas i).st.active = true) :
    TakesStoreFull s (dropRemote e s) i e.station e.channel := by
  obtain ⟨u, hu, ht⟩ := dropRemote_served (s := s) h
  have hm := hu.meas_eq
  obtain ⟨hpending, hmasked, hfaults⟩ := takeStoreFull_takes (s := u) (p := e.station) (c := e.channel) (hm ▸ ha)
  rw [hm] at hpending hmasked hfaults
  exact ⟨fun hG => ht.meas_eq.trans (hpending hG), fun hG hk => ht.meas_eq.trans (hmasked hG hk),
    fun hG hk => .served hu (hfaults hG hk) ht⟩

/-! ### The branches of an offer -/

theorem offerRemote_declined (h : (s.offeredEntry p c q x drops false).wanted = false) :
    offerRemote p c q drops x s = s := by
  unfold offerRemote
  simp only [h, Bool.not_false, if_true]

theorem offerRemote_wanted (h : (s.offeredEntry p c q x drops false).wanted = true) :
    offerRemote p c q drops x s =
      if s.outOfOrder p c x || !s.storeRoom then dropRemote (s.offeredEntry p c q x drops false) s
      else scanArrival (s.offeredEntry p c q x drops false) (s.store1 (s.offeredEntry p c q x drops false)) := by
  unfold offerRemote
  simp only [h, Bool.not_true, Bool.false_eq_true, if_false]

theorem offerRemote_dropped (h : (s.offeredEntry p c q x drops false).wanted = true)
    (hd : s.outOfOrder p c x = true ∨ 128 ≤ s.store.length) :
    offerRemote p c q drops x s = dropRemote (s.offeredEntry p c q x drops false) s := by
  rw [offerRemote_wanted h, if_pos]
  rw [Bool.or_eq_true, Bool.not_eq_true']
  exact hd.imp_right fun hfull => decide_eq_false (Nat.not_lt.mpr hfull)

theorem offerRemote_stored (h : (s.offeredEntry p c q x drops false).wanted = true) (ho : s.outOfOrder p c x = false)
    (hroom : s.store.length < 128) : offerRemote p c q drops x s =
      scanArrival (s.offeredEntry p c q x drops false) (s.store1 (s.offeredEntry p c q x drops false)) := by
  have hr : s.storeRoom = true := decide_eq_true hroom
  rw [offerRemote_wanted h, if_neg]
  simp [ho, hr]

/-- Settles O50: the outcomes are the branches of the offer; a dropped record serves each measure of its consumer set
once with STORE_FULL. -/
theorem remoteOfferOutcomes : Obligations.RemoteOfferOutcomes := by
  rintro s p c q drops x e rfl
  have wanted_views := wanted_iff (s.offeredEntry p c q x drops false)
  refine ⟨fun i r => offeredEntry_wants .., wanted_views.trans (or_iff_right nofun), rfl, rfl, outOfOrder_iff,
    offerRemote_declined, fun hw hd => ?_, offerRemote_stored, fun hw ho hroom hG => ?_⟩
  · rw [offerRemote_dropped hw hd]
    have hacts := Acts.dropRemote (s.offeredEntry p c q x drops false) s
    have takes {i : Fin 8} (hi : (s.offeredEntry p c q x drops false).consumers.getLsbD i.val = true) :
        TakesStoreFull s (dropRemote (s.offeredEntry p c q x drops false) s) i p c :=
      dropRemote_takes hi (offeredEntry_active hi)
    exact ⟨hacts.store_len, fun i => ⟨fun hi => (takes hi).pending,
      fun hi hG => ⟨(takes hi).masked hG, (takes hi).faults hG⟩,
      fun hi => hacts.others i (Bool.eq_false_iff.mp hi)⟩⟩
  · exact (offerRemote_stored hw ho hroom).trans (scanArrival_none _ _ hG)

end Sys2Proof.Machine
end

section
/-! PROOFS. The moves of an INTERVAL judgement: what each role passes below its gate, when a gate is known open, and the
first move that is possible. -/

namespace Sys2Proof.Machine

variable {s : State} {i : Fin 8} {c : MeasureConfig} {x : Move}

/-! ### SAMPLE_SETTLE, move by move -/

theorem sampleSettle_exec (i : Fin 8) (s : State) : exec (.sampleSettle i) s =
    .next { (judge i s).state with untested := s.untested.bind fun w => (effectSampleSettle i (s.alone w)).kept } := rfl

/-- After a move that lets the judgement go on SAMPLE_SETTLE does what it does in the state the move left (R129). -/
theorem sampleSettle_move (h : judgeMove i s = some x) (hg : x.goesOn = true) :
    exec (.sampleSettle i) s = exec (.sampleSettle i) x.state := by
  have hF := (Acts.judgeMove h).frame
  have halone (w : Station) : x.state.alone w = s.alone w := by
    unfold State.alone
    rw [hF.pending, hF.order]
  rw [sampleSettle_exec, sampleSettle_exec, judge_move h hg, hF.untested]
  simp only [halone]

/-- A move that ends the judgement is the last (R129). -/
theorem sampleSettle_last (h : judgeMove i s = some x) (hg : x.goesOn = false) : Gives (.sampleSettle i) s x.state :=
  gives_of_effect_eq nofun nofun (congrArg Move.state (judge_last h hg))

/-! ### Stamps below the gate -/

theorem isBelow_iff {m : Measure} {t : TimeStamp} :
    m.isBelow t = true ↔ ∃ z, earlier t z = true ∧ m.bottom = some z := by
  unfold Measure.isBelow
  cases m.bottom <;> simp

/-- Where the A and B roles begin to judge: an ARMED measure at its floor, an OPEN or CLOSING one at its open time
(R130). -/
theorem bottom_iff {m : Measure} {z : TimeStamp} : m.bottom = some z ↔
    (m.st = .armed ∧ m.config.map (·.gate) = some .edge ∧ m.searchTime = some z) ∨
    (m.st = .armed ∧ m.config.map (·.gate) ≠ some .edge ∧ m.armingTime = some z) ∨
    ((m.st = .opened ∨ m.st = .closing) ∧ m.openTime = some z) := by
  unfold Measure.bottom Measure.floor
  cases m.st
  case armed => by_cases hg : m.config.map (·.gate) = some .edge <;> simp [hg]
  all_goals simp

theorem passable_iff {r : Role} {e : Entry} : s.passable i r = some e ↔
    (s.view i r).head? = some e ∧ (e.heldFor i r = true ∨ (s.meas i).isBelow e.time = true) := by
  unfold State.passable
  cases s.view i r with
  | nil => simp
  | cons f l =>
    simp only [List.head?_cons, Option.some.injEq, Option.ite_none_right_eq_some, Bool.or_eq_true]
    constructor
    · rintro ⟨h, rfl⟩
      exact ⟨rfl, h⟩
    · rintro ⟨rfl, h⟩
      exact ⟨h, rfl⟩

/-! ### The gate known open -/

theorem plannedClose_timed {m : Measure} {E : Nat} {z : TimeStamp} (hc : m.config = some c) (hg : c.gate = .timed) :
    m.plannedClose E = some z ↔ m.timedClose E c z := by
  unfold Measure.plannedClose Measure.timedClose
  cases m.closeTime <;> cases m.openTime <;> simp [hc, hg, eq_comm]

theorem horizonLater_iff {h : Option TimeStamp} {t : TimeStamp} :
    horizonLater h t = true ↔ ∃ z, h = some z ∧ later z t = true := by
  unfold horizonLater
  cases h <;> simp

/-- The table of R116. -/
theorem knownOpen_iff {t : TimeStamp} (hc : (s.meas i).config = some c) : s.knownOpen i t = true ↔
    ((s.meas i).st = .closing ∧ ∃ z, (s.meas i).closeTime = some z ∧ earlier t z = true) ∨
    ((s.meas i).st = .opened ∧
      (c.gate = .free ∨
        (c.gate = .timed ∧ ∃ z, (s.meas i).timedClose s.epochLength c z ∧ earlier t z = true) ∨
        (c.gate = .directive ∧ later s.localTime t = true) ∨
        (c.gate = .edge ∧ ((s.meas i).finalG ≠ .live ∨
          ∃ h, s.roleHorizon i .G = some h ∧ later h t = true)))) := by
  unfold State.knownOpen
  dsimp only
  cases hst : (s.meas i).st
  case closing => cases (s.meas i).closeTime <;> simp
  case opened =>
    simp only [hc]
    cases hg : c.gate
    case free => simp
    case timed =>
      simp only [← plannedClose_timed hc hg]
      cases (s.meas i).plannedClose s.epochLength <;> simp
    case directive => simp
    case edge => simp [horizonLater_iff]
  all_goals simp

/-! ### The moves that a judgement finds possible -/

theorem judgeMove_passA {e : Entry} (ha : (s.meas i).st.active = true) (hc : (s.meas i).config ≠ none)
    (h : s.passable i .A = some e) : judgeMove i s = some ⟨s.passEntry i .A e, true⟩ := by
  obtain ⟨c, hc⟩ := Option.ne_none_iff_exists'.mp hc
  simp only [judgeMove, hc, ha, h, if_true]

theorem judgeMove_passB {e : Entry} (ha : (s.meas i).st.active = true) (hc : (s.meas i).config ≠ none)
    (hA : s.passable i .A = none) (h : s.passable i .B = some e) :
    judgeMove i s = some ⟨s.passEntry i .B e, true⟩ := by
  obtain ⟨c, hc⟩ := Option.ne_none_iff_exists'.mp hc
  simp only [judgeMove, hc, ha, hA, h, if_true]

/-- A measure with no stamp below its gate looks for the moves of R133 to R138. -/
theorem Judges.judgeMove (h : Judges s i c) : judgeMove i s = intervalMove i c s := by
  obtain ⟨hst, hc, hk, hA, hB⟩ := h
  have ha : (s.meas i).st.active = true := by rcases hst with h | h <;> rw [h] <;> rfl
  have hn : (s.meas i).st ≠ .armed := by rcases hst with h | h <;> rw [h] <;> nofun
  simp only [Machine.judgeMove, hc, ha, hA, hB, hk, hn, if_true, if_false]

/-! ### What each place of the list of moves looks for -/

theorem staleStart_some {a : Entry} {rest : List Entry} {z : TimeStamp} (hA : s.stamps i .A = a :: rest)
    (hl : (s.meas i).lastStop = some z) (he : earlier a.time z = true) (hb : s.beyondGate i a.time = false) :
    s.staleStart i = some a := by
  simp only [State.staleStart, hA, hl, he, hb, Bool.not_false, Bool.and_self, if_true]

theorem staleStart_nil (hA : s.stamps i .A = []) : s.staleStart i = none := by
  simp only [State.staleStart, hA]

theorem barrenStop_cons {a b : Entry} {arest brest : List Entry} (hA : s.stamps i .A = a :: arest)
    (hB : s.stamps i .B = b :: brest) (hl : later b.time a.time = false) (hb : s.beyondGate i b.time = false) :
    s.barrenStop i = some b := by
  simp only [State.barrenStop, hA, hB, hl, hb, Bool.not_false, Bool.and_self, if_true]

theorem barrenStop_nil {b : Entry} {brest : List Entry} (hA : s.stamps i .A = []) (hB : s.stamps i .B = b :: brest)
    (hh : horizonLater (s.roleHorizon i .A) b.time = true) (hb : s.beyondGate i b.time = false) :
    s.barrenStop i = some b := by
  simp only [State.barrenStop, hA, hB, hh, hb, Bool.not_false, Bool.and_self, if_true]

/-- The stop of a start is the first B stamp later than it (R133). -/
theorem stopOf_some {a b : Entry} {front back : List Entry} (hB : s.stamps i .B = front ++ b :: back)
    (hfront : ∀ f ∈ front, later f.time a.time = false) (hl : later b.time a.time = true) :
    s.stopOf i a = some b :=
  List.find?_eq_some_iff_append.mpr ⟨hl, front, back, hB, fun f hf => by rw [hfront f hf]; rfl⟩

theorem stopOf_none {a : Entry} (h : ∀ b ∈ s.stamps i .B, later b.time a.time = false) : s.stopOf i a = none :=
  List.find?_eq_none.mpr fun b hb => Bool.eq_false_iff.mp (h b hb)

theorem settled_first {a b : Entry} {arest : List Entry} (hp : c.policy = .first) (hA : s.stamps i .A = a :: arest)
    (hs : s.stopOf i a = some b) (hk : s.knownOpen i b.time = true) : s.settled i c = some (a, b) := by
  simp [State.settled, hA, hs, hk, hp]

theorem settled_latest {a b start : Entry} {arest older : List Entry} (hp : c.policy = .latest)
    (hA : s.stamps i .A = a :: arest) (hs : s.stopOf i a = some b) (hk : s.knownOpen i b.time = true)
    (hh : horizonLater (s.roleHorizon i .A) b.time = true)
    (ho : (s.stamps i .A).filter (fun y => earlier y.time b.time) = older ++ [start]) :
    s.settled i c = some (start, b) := by
  rw [hA] at ho
  simp [State.settled, hA, hs, hk, hp, hh, ho]

theorem settled_none {a : Entry} {arest : List Entry} (hA : s.stamps i .A = a :: arest) (hs : s.stopOf i a = none) :
    s.settled i c = none := by
  simp only [State.settled, hA, hs]

theorem abandoned_none {a b : Entry} {arest : List Entry} (hA : s.stamps i .A = a :: arest)
    (hs : s.stopOf i a = some b) : s.abandoned i c = none := by
  simp [State.abandoned, hA, hs]

theorem abandoned_some {a : Entry} {arest : List Entry} (hA : s.stamps i .A = a :: arest) (hs : s.stopOf i a = none)
    (hh : horizonAtOrAfter (s.roleHorizon i .B) ⟨a.time.epoch + c.spanLimit + 1, 0, 0⟩ = true)
    (hb : s.beyondGate i a.time = false) : s.abandoned i c = some a := by
  simp only [State.abandoned, hA, hs, hh, hb, Option.isNone_none, Bool.not_false, Bool.and_self, if_true]

theorem superseded_first (hp : c.policy = .first) : s.superseded i c = none := if_neg (by rw [hp]; nofun)

/-- A start is superseded by a newer one that B's horizon has passed, with no stop between the two (R137). -/
theorem supersededBy_iff {a : Entry} {newer : List Entry} : s.supersededBy i a newer = true ↔
    ∃ a2 ∈ newer, horizonLater (s.roleHorizon i .B) a2.time = true ∧
      ∀ b ∈ s.stamps i .B, later b.time a.time = false ∨ atOrBefore b.time a2.time = false := by
  simp [State.supersededBy, or_iff_not_imp_left]

theorem firstSuperseded_append {a : Entry} {newer : List Entry} (ha : s.supersededBy i a newer = true)
    (hb : s.beyondGate i a.time = false) (front : List Entry)
    (hfront : ∀ f1 y f2, front = f1 ++ y :: f2 →
      s.beyondGate i y.time = true ∨ s.supersededBy i y (f2 ++ a :: newer) = false) :
    s.firstSuperseded i (front ++ a :: newer) = some a := by
  induction front with
  | nil => simp [State.firstSuperseded, ha, hb]
  | cons y front ih =>
    have hy : (s.supersededBy i y (front ++ a :: newer) && !s.beyondGate i y.time) = false := by
      rcases hfront [] y front rfl with h | h <;> simp [h]
    rw [List.cons_append, State.firstSuperseded, if_neg (by rw [hy]; nofun)]
    exact ih fun f1 z f2 hf => hfront (y :: f1) z f2 (by rw [hf]; rfl)

theorem superseded_some {front newer : List Entry} {a : Entry} (hp : c.policy = .latest)
    (hA : s.stamps i .A = front ++ a :: newer) (ha : s.supersededBy i a newer = true)
    (hb : s.beyondGate i a.time = false)
    (hfront : ∀ f1 y f2, front = f1 ++ y :: f2 →
      s.beyondGate i y.time = true ∨ s.supersededBy i y (f2 ++ a :: newer) = false) :
    s.superseded i c = some a := by
  rw [State.superseded, if_pos hp, hA]
  exact firstSuperseded_append ha hb front hfront

/-! ### The first move of the list that is possible -/

theorem intervalMove_stale {a : Entry} (h : s.staleStart i = some a) :
    intervalMove i c s = some (passMove i .A s a) := by
  simp [intervalMove, intervalMoves, h]

theorem intervalMove_barren {b : Entry} (hs : s.staleStart i = none) (h : s.barrenStop i = some b) :
    intervalMove i c s = some (passMove i .B s b) := by
  simp [intervalMove, intervalMoves, hs, h]

section

variable {a b : Entry} (hs : s.staleStart i = none) (hb : s.barrenStop i = none)
include hs hb

theorem intervalMove_settles (ha : s.abandoned i c = none) (hp : s.superseded i c = none)
    (h : s.settled i c = some (a, b)) : intervalMove i c s = some (takeSample i c a b s) := by
  simp [intervalMove, intervalMoves, hs, hb, ha, hp, h]

theorem intervalMove_superseded (ha : s.order.abandonFirst = false ∨ s.abandoned i c = none)
    (h : s.superseded i c = some a) : intervalMove i c s = some (passMove i .A s a) := by
  rcases ha with ha | ha <;> simp [intervalMove, intervalMoves, hs, hb, ha, h]

theorem intervalMove_abandons (hp : s.order.abandonFirst = true ∨ s.superseded i c = none)
    (hn : s.settled i c = none) (h : s.abandoned i c = some a) :
    intervalMove i c s = some (abandonStart i s a) := by
  cases hf : s.order.abandonFirst
  · have hp : s.superseded i c = none := hp.resolve_left (by rw [hf]; nofun)
    simp [intervalMove, intervalMoves, hs, hb, hf, hp, hn, h]
  · simp [intervalMove, intervalMoves, hs, hb, hf, h]

end

/-! ### The obligation -/

/-- SAMPLE_SETTLE makes this move: it goes on from what the move leaves, or ends with it. -/
def State.settlesBy (s : State) (i : Fin 8) (x : Move) : Prop :=
  (x.goesOn = true → exec (.sampleSettle i) s = exec (.sampleSettle i) x.state) ∧
  (x.goesOn = false → Gives (.sampleSettle i) s x.state)

theorem Judges.settlesBy (h : Judges s i c) (hx : intervalMove i c s = some x) : s.settlesBy i x :=
  have hm := h.judgeMove.trans hx
  ⟨sampleSettle_move hm, sampleSettle_last hm⟩

/-- Settles O33: under each clause's hypotheses its move is the first of the list that is possible, and SAMPLE_SETTLE
goes on from what it leaves. -/
theorem intervalMovesFollowRules : Obligations.IntervalMovesFollowRules := by
  refine ⟨fun s i r e => ⟨?_, passEntry_passes r e s⟩, fun s i c t hc => knownOpen_iff hc,
    fun s i e ha hc => ⟨fun h => ?_, fun hA h => ?_⟩, fun s i c hj => ⟨?stale, ?barren, ?barrenLate, ?settles,
      ?superseded, ?abandons⟩⟩
  · simp only [passable_iff, isBelow_iff, bottom_iff]
  · exact sampleSettle_move (judgeMove_passA ha hc h) rfl
  · exact sampleSettle_move (judgeMove_passB ha hc hA h) rfl
  case stale =>
    intro a rest z hA hl he hb
    exact (hj.settlesBy (intervalMove_stale (staleStart_some hA hl he hb))).1 rfl
  case barren =>
    intro a arest b brest hs hA hB hl hb
    exact (hj.settlesBy (intervalMove_barren hs (barrenStop_cons hA hB hl hb))).1 rfl
  case barrenLate =>
    intro b brest hA hB hh hb
    exact (hj.settlesBy (intervalMove_barren (staleStart_nil hA) (barrenStop_nil hA hB hh hb))).1 rfl
  case settles =>
    intro a arest front b back x hs hbar hA hB hfront hl hk
    have hstop := stopOf_some hB hfront hl
    have hab : s.abandoned i c = none := abandoned_none hA hstop
    refine ⟨fun hp hx => ?_, fun older start hp hsup hh ho hx => ?_⟩
    · exact hx ▸ hj.settlesBy (intervalMove_settles hs hbar hab (superseded_first hp) (settled_first hp hA hstop hk))
    · exact hx ▸ hj.settlesBy (intervalMove_settles hs hbar hab hsup (settled_latest hp hA hstop hk hh ho))
  case superseded =>
    intro front a newer hs hbar hp hab hA hfront hsup hb
    have h := superseded_some hp hA (supersededBy_iff.mpr hsup) hb hfront
    exact (hj.settlesBy (intervalMove_superseded hs hbar hab h)).1 rfl
  case abandons =>
    intro a arest hs hbar hsup hA hB hh hb
    have hstop := stopOf_none hB
    have h := intervalMove_abandons hs hbar hsup (settled_none hA hstop) (abandoned_some hA hstop hh hb)
    exact (hj.settlesBy h).1 rfl

end Sys2Proof.Machine
end

section
/-! PROOFS. The window schedule, the windows that end without a presence, and the start of a reception. -/

namespace Sys2Proof.Machine

variable {s t : State} {w o : Nat} {p : Fin 16}

/-! ### The schedule -/

theorem windowLength_pos (s : State) : 0 < s.windowLength :=
  Nat.mul_pos (by decide) (Nat.mul_pos (by decide) (Nat.two_pow_pos _))

theorem windowStart_succ (s : State) (w : Nat) : s.windowStart (w + 1) = s.windowStart w + s.windowLength := by
  unfold State.windowStart
  rw [Nat.succ_mul, Nat.add_assoc]

theorem guardTicks_le_windowStart (s : State) (w : Nat) : Config.guardTicks ≤ s.windowStart w := Nat.le_add_right _ _

/-- An offset lies in the window between whose start and whose end it stands (R68). -/
theorem windowAt_iff : s.windowAt o = some w ↔ w < s.windowCount ∧ s.windowStart w ≤ o ∧ o < s.windowStart (w + 1) := by
  have hdiv : (o - Config.guardTicks) / s.windowLength = w ↔
      w * s.windowLength ≤ o - Config.guardTicks ∧ o - Config.guardTicks < w * s.windowLength + s.windowLength := by
    have hpos := windowLength_pos s
    rw [Nat.div_eq_iff hpos]
    omega
  have hin : s.windowAt o = some w ↔
      (Config.guardTicks ≤ o ∧ w < s.windowCount) ∧ (o - Config.guardTicks) / s.windowLength = w := by
    unfold State.windowAt
    simp only [Option.ite_none_right_eq_some, Option.some.injEq, Bool.and_eq_true, decide_eq_true_eq]
    exact and_congr_left fun h => by rw [h]
  rw [hin, hdiv, windowStart_succ]
  unfold State.windowStart
  omega

theorem windowEndingAt_end (h : w < s.windowCount) : s.windowEndingAt (s.windowStart (w + 1)) = some w := by
  have hw : (s.windowStart (w + 1) - Config.guardTicks) / s.windowLength - 1 = w := by
    unfold State.windowStart
    rw [Nat.add_sub_cancel_left, Nat.mul_div_cancel _ (windowLength_pos s), Nat.add_sub_cancel]
  unfold State.windowEndingAt
  rw [hw]
  exact if_pos ⟨rfl, h⟩

/-- The windows of an epoch have room in it (R68). -/
theorem windowStart_succ_le (h : w < s.windowCount) : s.windowStart (w + 1) ≤ s.epochLength := by
  have hroom : (w + 1) * s.windowLength ≤ s.epochLength - Config.guardTicks :=
    (Nat.le_div_iff_mul_le (windowLength_pos s)).mp h
  have hpos : 0 < (w + 1) * s.windowLength := Nat.mul_pos (Nat.succ_pos w) (windowLength_pos s)
  unfold State.windowStart
  omega

theorem windowAt_guard (h : o < Config.guardTicks) : s.windowAt o = none := by
  refine Option.eq_none_iff_forall_ne_some.mpr fun w hw => ?_
  obtain ⟨-, hle, -⟩ := windowAt_iff.mp hw
  exact absurd (guardTicks_le_windowStart s w) (by omega)

/-- Settles O7: a window holds the offsets from its start to its end, and the guard is before every start. -/
theorem windowScheduleCoversWindows : Obligations.WindowScheduleCoversWindows := fun _ _ h =>
  ⟨fun _ hs he => windowAt_iff.mpr ⟨h, hs, he⟩, windowEndingAt_end h, windowStart_succ_le h, fun _ => windowAt_guard⟩

/-! ### A start tick -/

/-- Settles O46: the noted distance is the offset's distance from the start of the window that holds it. -/
theorem startTickNotesWindow : Obligations.StartTickNotesWindow := by
  intro s h
  refine ⟨_, gives_of_effect_eq nofun nofun (if_pos h), rfl, rfl, rfl, fun w hw => ?_⟩
  obtain ⟨-, hle, -⟩ := windowAt_iff.mp hw
  dsimp only
  rw [hw]
  exact Nat.add_sub_cancel' hle

/-! ### The end of a window -/

theorem windowEnd_gives (h : s.endingWindow = some p) : Gives .windowEnd s (takeWindowEnd p s) :=
  gives_of_effect_eq nofun nofun (by simp only [effect, effectWindowEnd, h])

theorem endingWindow_elapsed_zero (h : s.eu.elapsed = 0) : s.endingWindow = none := by
  simp [State.endingWindow, State.deliversWindows, h]

/-- A peer that counts its missed windows is ABSENT at the limit (R95). -/
theorem miss_counting {x : Peer} (limit : Nat) (h : x.st = .silent ∨ x.st = .present) : x.miss limit =
    { x with missed := satAdd x.missed 1, st := if (satAdd x.missed 1).toNat = limit then .absent else x.st } := by
  unfold Peer.miss
  rcases h with h | h <;> rw [h]

/-- An ABSENT or FOREIGN peer counts no missed window (R95). -/
theorem miss_resting {x : Peer} (limit : Nat) (h : x.st = .absent ∨ x.st = .foreign) : x.miss limit = x := by
  unfold Peer.miss
  rcases h with h | h <;> rw [h]

theorem missWindow_resting (h : (s.peer p).st = .absent ∨ (s.peer p).st = .foreign) : missWindow p s = s := by
  unfold missWindow
  dsimp only
  rw [miss_resting _ h, State.setPeer_self]
  exact if_neg fun k => k.2 k.1

theorem missWindow_counts (h : (s.peer p).st = .silent ∨ (s.peer p).st = .present)
    (hn : (satAdd (s.peer p).missed 1).toNat ≠ s.params.missLimit.toNat) :
    missWindow p s = s.setPeer p ((s.peer p).miss s.params.missLimit.toNat) := by
  refine if_neg fun k => k.2 ?_
  rw [miss_counting _ h, if_neg hn] at k
  exact k.1

theorem missWindow_absent (h : (s.peer p).st = .silent ∨ (s.peer p).st = .present)
    (hn : (satAdd (s.peer p).missed 1).toNat = s.params.missLimit.toNat) :
    missWindow p s = notifyPeer .sourceAbsent p (s.setPeer p ((s.peer p).miss s.params.missLimit.toNat)) := by
  refine if_pos ⟨?_, ?_⟩
  · rw [miss_counting _ h, if_pos hn]
  · rcases h with h | h <;> rw [h] <;> nofun

/-- The station once a window end has been taken, before the peer's count (R69). -/
def State.windowEnded (s : State) : State :=
  { s with
    link := { s.link with windowPresence := false }
    marks := { s.marks with windowEnd := true } }

theorem takeWindowEnd_seen (h : s.link.windowPresence = true) : takeWindowEnd p s = s.windowEnded := if_pos h

theorem takeWindowEnd_missed (h : s.link.windowPresence = false) : takeWindowEnd p s = missWindow p s.windowEnded :=
  if_neg (by
    show ¬ s.link.windowPresence = true
    rw [h]
    nofun)

/-- Settles O21: a window end with a presence, or at a peer that rests, leaves the peer; else the peer counts it, and
its measures are notified at the limit. -/
theorem windowEndCountsMisses : Obligations.WindowEndCountsMisses := by
  refine ⟨fun s h => gives_of_effect_eq nofun nofun ?_, fun s p hp => ?_⟩
  · simp only [effect, effectWindowEnd, endingWindow_elapsed_zero h]
  have hg := windowEnd_gives hp
  by_cases hq : s.link.windowPresence = true ∨ (s.peer p).st = .absent ∨ (s.peer p).st = .foreign
  case pos =>
    have hstay : takeWindowEnd p s = s.windowEnded := by
      rcases Bool.eq_false_or_eq_true s.link.windowPresence with hw | hw
      · exact takeWindowEnd_seen hw
      · rw [takeWindowEnd_missed hw]
        exact missWindow_resting (hq.resolve_left (by rw [hw]; nofun))
    rw [hstay] at hg
    refine ⟨_, s.windowEnded, hg, (s.windowEnded.setPeer_self p).symm, fun _ => ⟨rfl, rfl⟩, fun hw hc => ?_, .rfl' _⟩
    · rcases hq with h | h | h
      · rw [hw] at h; cases h
      all_goals rcases hc with k | k <;> rw [h] at k <;> cases k
  case neg =>
    obtain ⟨hw, hst⟩ := not_or.mp hq
    have hw : s.link.windowPresence = false := Bool.eq_false_iff.mpr hw
    have hc : (s.peer p).st = .silent ∨ (s.peer p).st = .present := by
      revert hst
      cases (s.peer p).st <;> simp
    let u := s.windowEnded.setPeer p ((s.peer p).miss s.params.missLimit.toNat)
    have hu : u.peer p = (s.peer p).miss s.params.missLimit.toNat := by simp [u]
    rw [takeWindowEnd_missed hw] at hg
    refine ⟨_, u, hg, by rw [hu]; rfl, fun h => absurd h hq, fun _ _ => ⟨hu.trans (miss_counting _ hc), ?_, ?_⟩, ?_⟩
    · exact missWindow_counts (s := s.windowEnded) hc
    · exact missWindow_absent (s := s.windowEnded) hc
    · by_cases hn : (satAdd (s.peer p).missed 1).toNat = s.params.missLimit.toNat
      · rw [missWindow_absent (s := s.windowEnded) hc hn]
        exact (Acts.notifyPeer .sourceAbsent p u).frame
      · rw [missWindow_counts (s := s.windowEnded) hc hn]
        exact .rfl' u

end Sys2Proof.Machine
end

section
/-! PROOFS. A frame as bits: it reads back field by field, and its CRC-8 covers header and records. -/

namespace Sys2Proof.Machine

variable {f : Frame} {l : List Bool}

/-! ### The CRC-8 -/

theorem crc8_append_bit (l : List Bool) (b : Bool) : crc8 (l ++ [b]) = crc8Bit (crc8 l) b := by
  rw [crc8, List.foldl_append]
  rfl

/-- Settles O39: the register is folded over the bits, and a frame is read over the span the CRC covers. -/
theorem frameCrcIsCrc8 : Obligations.FrameCrcIsCrc8 :=
  ⟨fun _ => rfl, fun _ => rfl, rfl, fun l b => by rw [crc8_append_bit, crc8Bit, Bool.bne_eq_xor],
    fun _ => beq_iff_eq⟩

/-! ### What stands in front of the records -/

theorem frameBits_eq (f : Frame) :
    frameBits f = startSymbol ++ (frameBody f ++ fieldBits (crc8 (frameBody f))) := List.append_assoc ..

theorem startSymbolOk_frameBits (f : Frame) : startSymbolOk (frameBits f) = true := by
  unfold startSymbolOk
  rw [frameBits_eq]
  exact beq_iff_eq.mpr (padBits_append startSymbol _)

/-- The record count stands behind start symbol and sender (R70). -/
theorem recordCountOf_frameBits (h : f.records.length ≤ 8) : recordCountOf (frameBits f) = f.records.length := by
  have hdrop : (frameBits f).drop 12 = natBits 4 f.records.length ++ (fieldBits f.epoch ++ (timeBits f.horizon
      ++ (fieldBits f.disc ++ (fieldBits f.signature ++ ((f.records.map recordBits).flatten
      ++ fieldBits (crc8 (frameBody f))))))) := by
    simp only [frameBits, frameBody, headerBits, List.append_assoc]
    rfl
  rw [recordCountOf, hdrop, takeNat_natBits_of_lt (by omega)]

theorem frameLengthOf_frameBits (h : f.records.length ≤ 8) :
    frameLengthOf (frameBits f) = 128 + 64 * f.records.length := by
  unfold frameLengthOf
  rw [recordCountOf_frameBits h, Nat.min_eq_left (by exact h)]

/-- Behind the start symbol the announced length gives header and records (R70, R83). -/
theorem padBits_frameBits (h : f.records.length ≤ 8) :
    padBits (frameLengthOf (frameBits f) - 16) ((frameBits f).drop 8) = frameBody f := by
  have hlen : frameLengthOf (frameBits f) - 16 = (frameBody f).length := by
    rw [frameLengthOf_frameBits h, frameBody_length]
    omega
  have hdrop : (frameBits f).drop 8 = frameBody f ++ fieldBits (crc8 (frameBody f)) := by
    rw [frameBits_eq]
    exact List.drop_left' rfl
  rw [hlen, hdrop, padBits_append]

/-- The last eight bits are the CRC field (R70, R71). -/
theorem crcField_frameBits (h : f.records.length ≤ 8) :
    (takeField 8 ((frameBits f).drop (frameLengthOf (frameBits f) - 8))).1 = crc8 (frameBody f) := by
  have hlen : (startSymbol ++ frameBody f).length = frameLengthOf (frameBits f) - 8 := by
    rw [frameLengthOf_frameBits h, List.length_append, frameBody_length]
    simp only [startSymbol, List.length_cons, List.length_nil]
    omega
  have hdrop : (frameBits f).drop (frameLengthOf (frameBits f) - 8) = fieldBits (crc8 (frameBody f)) :=
    List.drop_left' hlen
  rw [hdrop, ← List.append_nil (fieldBits _), takeField_fieldBits]

/-! ### The header and the records -/

theorem frameBody_eq (f : Frame) : frameBody f = natBits 4 f.sender.val ++ (natBits 4 f.records.length
    ++ (fieldBits f.epoch ++ (timeBits f.horizon ++ (fieldBits f.disc ++ (fieldBits f.signature
    ++ (f.records.map recordBits).flatten))))) := by
  simp only [frameBody, headerBits, List.append_assoc]

/-- Settles O38: each field of the header is read where it was written, and then the records one by one. -/
theorem frameReadsBack : Obligations.FrameReadsBack := by
  intro f h
  have hstart := startSymbolOk_frameBits f
  have hlen := frameLengthOf_frameBits h
  refine ⟨?_, frameBits_length f, ?_⟩
  · have hrec := readRecords_flatten f.records []
    rw [List.append_nil] at hrec
    have hfit : min f.records.length Config.framePositions = f.records.length := Nat.min_eq_left h
    unfold readFrame
    dsimp only
    rw [padBits_frameBits h, crcField_frameBits h, hstart, beq_self_eq_true, frameBody_eq]
    simp only [takeNat_natBits_of_lt (show f.sender.val < 2 ^ 4 from f.sender.isLt),
      takeNat_natBits_of_lt (show f.records.length < 2 ^ 4 by omega), takeField_fieldBits,
      takeTime_timeBits, hfit, hrec]
  · rw [receptionBits, hstart, if_pos rfl, hlen, frameBits_length]

end Sys2Proof.Machine
end

section
/-! PROOFS. The end of the own frame, and an accepted frame, record by record. -/

namespace Sys2Proof.Machine

variable {s t u : State} {x : Reception} {f : ReadFrame} {p : Fin 16} {d : Directive}

/-! ### The own frame's end -/

theorem isFor_iff {number : Fin 16} : d.isFor number = true ↔ d.target.toNat = number.val ∨ d.target.toNat = 16 := by
  simp [Directive.isFor]

theorem frameSendEnd_gives {y : Sending} (straps : BitVec 4) (h : s.endingFrame = some y) :
    Gives (.frameSendEnd straps) s (endFrame straps y s) :=
  gives_of_effect_eq nofun nofun (by simp only [effect, effectFrameSendEnd, h])

/-- A directive for this station or ALL is delivered to the own list (R81). -/
theorem selfDeliver_taken (straps : BitVec 4) (ht : u.hasTime = true) (hd : d.isFor u.loader.number = true) :
    selfDeliver straps u (.directive d) = arriveDirective straps d u :=
  if_pos (by rw [ht, hd]; rfl)

theorem selfDeliver_passed (straps : BitVec 4) (h : u.hasTime = false ∨ d.isFor u.loader.number = false) :
    selfDeliver straps u (.directive d) = u :=
  if_neg (by rcases h with h | h <;> simp [h])

theorem selfDeliver_other (straps : BitVec 4) {r : Record} (h : ∀ d, r ≠ .directive d) :
    selfDeliver straps u r = u := by
  cases r with
  | directive d => exact absurd rfl (h d)
  | _ => rfl

/-- Records without a directive for this station deliver nothing (R81). -/
theorem foldl_selfDeliver_passed (straps : BitVec 4) (l : List Record)
    (h : ∀ d, Record.directive d ∈ l → d.isFor u.loader.number = false) : l.foldl (selfDeliver straps) u = u := by
  induction l with
  | nil => rfl
  | cons r l ih =>
    have hr : selfDeliver straps u r = u := by
      cases r with
      | directive d => exact selfDeliver_passed straps (.inr (h d List.mem_cons_self))
      | _ => rfl
    rw [List.foldl_cons, hr]
    exact ih fun d hd => h d (List.mem_cons_of_mem r hd)

/-- Settles O45: the frame's end is a fold over its records, of which it delivers the directives for this station. -/
theorem frameEndSelfDelivers : Obligations.FrameEndSelfDelivers := by
  refine ⟨fun s u y straps hy hu => ?_, fun u straps d => ⟨fun ht hd => selfDeliver_taken straps ht (isFor_iff.mpr hd),
    fun h => selfDeliver_passed straps (h.imp_right fun hd => ?_), fun r => selfDeliver_other straps⟩⟩
  · have hg := frameSendEnd_gives straps hy
    have hend : endFrame straps y s = y.frame.records.foldl (selfDeliver straps) u := by rw [hu]; rfl
    have hload : u.loader = s.loader := by rw [hu]
    have htime : u.hasTime = s.hasTime := by rw [hu]; rfl
    rw [hend] at hg
    refine ⟨hg, fun hd => ?_, fun d ht hr hd => ?_⟩
    · rw [foldl_selfDeliver_passed straps _ (by rwa [hload])] at hg
      exact hg
    · rw [hr, List.foldl_cons, selfDeliver_taken straps (htime.trans ht) (by rwa [hload])] at hg
      exact hg
  · rw [Bool.eq_false_iff, ne_eq, isFor_iff, not_or]
    exact hd

/-! ### An accepted frame -/

/-- A station with local time dispatches a frame of its own epoch that passes check 8, and adopts nothing (R86, R87). -/
theorem takeFrame_equal (straps : BitVec 4) (ht : s.hasTime = true) (hp : p.val = f.sender)
    (hh : horizonOk (s.peer p) f.horizon = true) (he : f.epoch = s.eu.epoch) :
    takeFrame x straps f s = dispatch p straps f (s.noted x p) := by
  have hn : f.epoch = (s.noted x p).eu.epoch := by rw [noted_eq, he]; rfl
  have hok : (s.noted x p).epochOk f = true := by simp [State.epochOk, ← hn, compareEpoch_self]
  have hg := judgeEpoch_accepted (p := p) (b := s.peer p) straps hok hh
  rw [adoptFrom_equal hn] at hg
  exact (takeFrame_hasTime straps ht hp).trans hg

/-- A directive for this station, for ALL or of an invalid target goes to the list (R87). -/
theorem dispatchRecord_directive (straps : BitVec 4) (ht : u.hasTime = true) :
    dispatchRecord p straps u (.directive d) =
      if d.target.toNat = u.loader.number.val ∨ 16 ≤ d.target.toNat then arriveDirective straps d u else u := by
  refine (if_pos ht).trans (if_congr ?_ rfl rfl)
  rw [Bool.or_eq_true, isFor_iff, decide_eq_true_iff]
  omega

/-- Settles O48: an accepted frame of the own epoch is dispatched to the station that has noted it, a record at a
time. -/
theorem acceptedFrameIsDispatched : Obligations.AcceptedFrameIsDispatched := by
  refine ⟨fun s u bits straps x p hx ht hd hf hs he hp hh hu => ?_, fun u p straps ht => ⟨fun c q drops y => ?_,
    fun d hd => ?_, fun d hn hd => ?_, ?_, fun f => if_pos ht⟩, fun u p straps r f ht => ⟨?_, ?_⟩⟩
  · have hg := frameReceived_gives straps hx hd
    have hn : s.received.noted x p = u := by rw [hu, noted_eq]; rfl
    rw [receiveFrame_own straps hf hs, takeFrame_equal (s := s.received) straps ht hp hh he, hn] at hg
    refine ⟨hg, fun hr => ?_⟩
    have htu : u.hasTime = true := by rw [hu]; exact ht
    have hpeer : u.peer p = (s.peer p).presence := hn ▸ (noted_peer s.received x p).1
    rw [dispatch_empty straps htu hr (hpeer ▸ presence_st _)] at hg
    exact hg
  · exact if_pos ht
  · rw [dispatchRecord_directive straps ht, if_pos hd]
  · rw [dispatchRecord_directive straps ht, if_neg (by omega)]
  · exact if_pos ht
  · exact if_neg (by rw [ht]; nofun)
  · exact if_neg (by rw [ht]; nofun)

end Sys2Proof.Machine
end

section
/-! PROOFS. Trigger sequences: what a trigger and a boundary do to one, and a MUTE station's closed outbox. -/

namespace Sys2Proof.Machine

variable {s t u : State} {i : Fin 8}

/-! ### A trigger and a boundary -/

section

variable {x : TriggerSide} {q : Fin 4} {muted : Bool} {d : TriggerStep → Directive} {rest : List TriggerStep}
  {pause counted : Nat}

theorem TriggerSide.fire_running (h : (x.sequences.get q).st = .running rest pause counted) :
    x.fire q muted d = { x with triggerOverruns := satAdd x.triggerOverruns 1 } := by
  unfold TriggerSide.fire
  rw [h]

theorem TriggerSide.fire_idle {c : TriggerConfig} (h : (x.sequences.get q).st = .idle)
    (hc : (x.sequences.get q).config = some c) : x.fire q muted d = runSteps q muted d c.steps x := by
  unfold TriggerSide.fire
  rw [h, hc]

theorem TriggerSide.boundary_running (h : (x.sequences.get q).st = .running rest pause counted) :
    x.boundary q muted d = if pause ≤ counted + 1 then runSteps q muted d rest x
      else x.setSeq q { x.sequences.get q with st := .running rest pause (counted + 1) } := by
  unfold TriggerSide.boundary
  rw [h]

theorem TriggerSide.boundary_resting (h : (x.sequences.get q).st.isRunning = false) : x.boundary q muted d = x := by
  unfold TriggerSide.boundary
  split
  · rename_i hr
    rw [hr] at h
    cases h
  · rfl

end

/-- Settles O57: a trigger and a boundary are `TriggerSide.fire` and `TriggerSide.boundary`, whose runs are `Runs`. -/
theorem triggerRunsOrOverruns : Obligations.TriggerRunsOrOverruns := by
  refine fun s q => ⟨modTriggers_frame _, modTriggers_frame _,
    fun rest pause counted h => ⟨?_, fun hp => ?_, fun hp => ?_⟩, fun c hi hc => ?_, fun h => ?_, fun x => rfl,
    fun c p => fireStamp_sequences c p s q, fun m => fireEnqueue_sequences m s q⟩
  · exact TriggerSide.fire_running (x := s.triggerSide) h
  · exact (TriggerSide.boundary_running (x := s.triggerSide) h).trans (if_neg (by omega))
  · exact Runs.modTriggers q rest s _ ((TriggerSide.boundary_running (x := s.triggerSide) h).trans (if_pos hp))
  · exact Runs.modTriggers q c.steps s _ (TriggerSide.fire_idle (x := s.triggerSide) hi hc)
  · exact TriggerSide.boundary_resting (x := s.triggerSide) h

/-! ### A MUTE station -/

theorem TriggerSide.place_muted (x : TriggerSide) (d : Directive) : (x.place true d).outbox = x.outbox := by
  have h : ¬ x.takes true := fun h => by cases h.2
  rw [place_dropped d h]
  rfl

theorem TriggerSide.runSteps_muted (q : Fin 4) (d : TriggerStep → Directive) (l : List TriggerStep) (x : TriggerSide) :
    (runSteps q true d l x).outbox = x.outbox := by
  induction l generalizing x with
  | nil => rfl
  | cons a l ih =>
    unfold runSteps
    split
    · rw [ih, place_muted]
    · exact place_muted x (d a)

theorem TriggerSide.fire_muted (x : TriggerSide) (q : Fin 4) (d : TriggerStep → Directive) :
    (x.fire q true d).outbox = x.outbox := by
  unfold TriggerSide.fire
  split
  · exact runSteps_muted q d _ x
  · rfl
  · rfl

/-- A MUTE station stays MUTE, and its outbox stays as it stood (R82, R183). -/
def MuteKept (s t : State) : Prop := s.isMute = true → t.isMute = true ∧ t.link.outbox = s.link.outbox

namespace MuteKept

theorem of_eq (hl : t.link = s.link) (he : t.eu = s.eu) : MuteKept s t := fun h =>
  ⟨by unfold State.isMute at h ⊢; rw [he, h], by rw [hl]⟩

theorem refl (s : State) : MuteKept s s := of_eq rfl rfl

theorem trans (h : MuteKept s t) (k : MuteKept t u) : MuteKept s u := fun hs =>
  have ht := h hs
  have hu := k ht.1
  ⟨hu.1, hu.2.trans ht.2⟩

theorem forEach {α : Type} {f : State → α → State} (l : List α) (h : ∀ a s, MuteKept s (f s a)) (s : State) :
    MuteKept s (forEach l f s) := by
  induction l generalizing s with
  | nil => exact refl s
  | cons a l ih => exact (h a s).trans (ih (f s a))

theorem fireSequence (q : Fin 4) (s : State) : MuteKept s (fireSequence q s) := fun h =>
  ⟨h, by
    show (s.triggerSide.fire q s.isMute (stepDirective s)).outbox = s.link.outbox
    rw [h, TriggerSide.fire_muted]
    rfl⟩

theorem enqueueGroup (g : Group) (s : State) : MuteKept s (enqueueGroup g s) := by
  have h : MuteKept s { s.modMeas g.measure (fun m => { m with sequence := m.sequence + 1 }) with
      queue := s.queue ++ [{ g with sequence := (s.meas g.measure).sequence }] } := of_eq rfl rfl
  refine h.trans (forEach _ (fun q s => ?_) _)
  split
  · exact fireSequence q s
  · exact refl s

theorem enterFault (k : FaultKind) (offer : Bool) (s : State) : MuteKept s (enterFault i k offer s) := by
  have h : MuteKept s ((s.modMeas i Measure.faulted).releaseMeasure i) := of_eq rfl rfl
  unfold Machine.enterFault
  dsimp only
  split
  · exact h.trans (enqueueGroup _ _)
  · exact h

theorem takeCondition (k : FaultKind) (offer : Bool) (s : State) : MuteKept s (takeCondition i k offer s) := by
  unfold Machine.takeCondition
  dsimp only
  split_ifs
  · exact of_eq rfl rfl
  · exact enterFault k offer s
  · exact of_eq rfl rfl
  · exact refl s

theorem askPeer (offer : Bool) (s : State) (r : Role) : MuteKept s (askPeer i offer s r) := by
  unfold Machine.askPeer
  split
  · exact refl s
  · split
    · exact refl s
    · split
      · rename_i k _
        have h : MuteKept s (Machine.takeCondition i k offer s) := takeCondition k offer s
        unfold takePeerCondition
        dsimp only
        split <;> exact h
      · exact refl s

theorem openGate (x : TimeStamp) (s : State) : MuteKept s (openGate i x s) := by
  unfold Machine.openGate
  dsimp only
  split
  · split_ifs <;> exact of_eq rfl rfl
  · exact refl s

theorem openCarried (x : TimeStamp) (s : State) : MuteKept s (openCarried i x s) := by
  unfold Machine.openCarried
  split
  · split
    · exact refl s
    · exact openGate _ s
  · exact refl s

theorem nextState (rested offer : Bool) (s : State) : MuteKept s (nextState i rested offer s) := by
  unfold Machine.nextState
  dsimp only
  split
  · rename_i r c _ _
    have h : MuteKept s ((s.setMeas i ((s.meas i).rearmed (nextGate c (s.meas i) s.epochLength s.localTime rested) r
        s.localTime s.eu.elapsed)).unhold i) := of_eq rfl rfl
    exact (h.trans (forEach _ (fun r s => askPeer offer s r) _)).trans (openCarried _ _)
  · exact of_eq rfl rfl

theorem givePlace (s : State) : MuteKept s (givePlace i s) := by
  unfold Machine.givePlace
  dsimp only
  split
  · rename_i g _ _
    refine (enqueueGroup g s).trans ?_
    unfold afterHeldGroup
    split
    · exact enterFault _ false _
    · exact nextState true false _
  · rename_i g _ _
    have h : MuteKept s (s.modMeas i fun m => { m with heldReport := none }) := of_eq rfl rfl
    exact h.trans (enqueueGroup g _)
  · exact refl s

/-- A MUTE station's arbiter places no directive (R82, R162). -/
theorem givePlaces (n : Nat) (s : State) : MuteKept s (givePlaces n s) := by
  induction n generalizing s with
  | zero => exact refl s
  | succ n ih =>
    unfold Machine.givePlaces
    split
    · split
      · exact (givePlace s).trans (ih _)
      · exact refl s
    · exact refl s

end MuteKept

end Sys2Proof.Machine
end

section
/-! PROOFS. Transmit Assembly: the records in front of the stamps, what the placements leave, and the places given out;
and a reception in an own window. -/

namespace Sys2Proof.Machine

variable {s t u v : State}

/-! ### The places given out -/

theorem lowestWaiting_none : s.lowestWaiting = none ↔ ¬ s.someWaits := by
  unfold State.lowestWaiting State.someWaits
  rw [List.find?_eq_none, not_exists]
  exact ⟨fun h i => h i (List.mem_finRange i), fun h i _ => h i⟩

/-- The lowest waiting measure waits, and none before it does (R162). -/
theorem lowestWaiting_some {i : Fin 8} (h : s.lowestWaiting = some i) :
    (s.meas i).waits = true ∧ ∀ j, j < i → (s.meas j).waits = false := by
  obtain ⟨hw, front, back, hl, hf⟩ := List.find?_eq_some_iff_append.mp h
  refine ⟨hw, fun j hj => ?_⟩
  have hsort : (front ++ i :: back).Pairwise (· < ·) := hl ▸ List.pairwise_lt_finRange 8
  have hmem : j ∈ front ++ i :: back := hl ▸ List.mem_finRange j
  obtain ⟨-, hback, -⟩ := List.pairwise_append.mp hsort
  rcases List.mem_append.mp hmem with hin | hin
  · simpa using hf j hin
  · rcases List.mem_cons.mp hin with rfl | hin
    · exact absurd hj (lt_irrefl j)
    · exact absurd (hj.trans ((List.pairwise_cons.mp hback).1 j hin)) (lt_irrefl j)

theorem givePlaces_unwaited (n : Nat) (h : ¬ s.someWaits) : givePlaces n s = s := by
  cases n with
  | zero => rfl
  | succ n =>
    unfold givePlaces
    rw [lowestWaiting_none.mpr h, ite_self]

/-- The arbiter's loop is its rule, where it ends with no place left or no measure waiting. -/
theorem arbitrates_givePlaces (n : Nat) (s : State)
    (h : (givePlaces n s).queueRoom = false ∨ ¬ (givePlaces n s).someWaits) : Arbitrates s (givePlaces n s) := by
  induction n generalizing s with
  | zero => exact .ends s h
  | succ n ih =>
    unfold givePlaces at h ⊢
    by_cases hr : s.queueRoom = true
    · rw [if_pos hr] at h ⊢
      cases hl : s.lowestWaiting with
      | none => exact .ends s (.inr (lowestWaiting_none.mp hl))
      | some i =>
        rw [hl] at h
        obtain ⟨hw, hlow⟩ := lowestWaiting_some hl
        exact .gives s _ i hr hw hlow (ih (givePlace i s) h)
    · rw [if_neg hr]
      exact .ends s (.inl (by simpa using hr))

/-- As many places as the queue holds are enough for the arbiter to come to its end (R160, R162). -/
theorem givePlaces_arbitrates (s : State) : Arbitrates s (givePlaces Config.queueCapacity s) := by
  refine arbitrates_givePlaces _ s ?_
  rcases givePlaces_full Config.queueCapacity s with h | h | h
  · exact .inl h
  · exact .inr h
  · exact .inl ((queueRoom_false_iff _).mpr (by omega))

theorem MeasureFrame.link_counts (h : MeasureFrame s t) : t.link.statusDue = s.link.statusDue ∧
    t.link.collisions = s.link.collisions ∧ t.link.discards = s.link.discards := by
  rw [← h.link]
  exact ⟨rfl, rfl, rfl⟩

/-! ### The groups taken -/

/-- The first group left does not fit into the positions left (R74). -/
theorem groupsTaken_full (free : Nat) (l : List Group) {g : Group} {rest : List Group}
    (h : l.drop (groupsTaken free l) = g :: rest) :
    free < (((l.take (groupsTaken free l)).map groupRecords).flatten).length + (groupRecords g).length := by
  induction l generalizing free with
  | nil => simp at h
  | cons a l ih =>
    unfold groupsTaken at h ⊢
    split at h
    · rename_i hfit
      rw [if_pos hfit]
      rw [Nat.add_comm 1, List.drop_succ_cons] at h
      have hrest := ih _ h
      rw [Nat.add_comm 1, List.take_succ_cons, List.map_cons, List.flatten_cons, List.length_append,
        groupRecords_length a]
      omega
    · rename_i hfit
      obtain ⟨rfl, -⟩ := List.cons.inj h
      rw [if_neg hfit, groupRecords_length]
      omega

theorem groupsTaken_zero (l : List Group) : groupsTaken 0 l = 0 := by
  cases l with
  | nil => rfl
  | cons g l => exact if_neg (by omega)

/-! ### The records in front of the stamps -/

/-- The STATUS record when it is due, and the directives of the outbox (R73). -/
def State.frontRecords (s : State) : List Record :=
  (if s.link.statusDue then [.status s.status] else []) ++ s.link.outbox.map Record.directive

theorem frontRecords_length (h : s.link.outbox.length ≤ 6) : s.frontRecords.length ≤ 7 := by
  unfold State.frontRecords
  rw [List.length_append, List.length_map]
  split
  · rw [List.length_singleton]; omega
  · rw [List.length_nil]; omega

/-- The station once the STATUS record is placed, if it is due (R73, R88, R178, R182). -/
def State.statusPlaced (s : State) : State :=
  { s with
    link := { s.link with
      statusDue := false
      collisions := if s.link.statusDue then 0 else s.link.collisions
      discards := if s.link.statusDue then 0 else s.link.discards }
    directiveDrops := if s.link.statusDue then 0 else s.directiveDrops
    triggerOverruns := if s.link.statusDue then 0 else s.triggerOverruns }

theorem placeStatus_eq (s : State) :
    placeStatus ⟨s, []⟩ = ⟨s.statusPlaced, if s.link.statusDue then [.status s.status] else []⟩ := by
  unfold placeStatus State.statusPlaced
  cases h : s.link.statusDue with
  | true => rfl
  | false =>
    simp only [Bool.false_eq_true, if_false, Draft.mk.injEq, and_true]
    rw [← h]

/-- How many groups the frame takes (R74). -/
def State.groupsPlaced (s : State) : Nat := groupsTaken (s.groupLimit - s.frontRecords.length) s.queue

/-- The records of the groups the frame takes (R74). -/
def State.groupRecordsPlaced (s : State) : List Record := ((s.queue.take s.groupsPlaced).map groupRecords).flatten

/-- Where there is room for the whole outbox, every directive is placed (R73, R82). -/
theorem placeDirectives_all {x : Draft} (h : x.state.link.outbox.length ≤ x.free) : placeDirectives x =
    ⟨{ x.state with link := { x.state.link with outbox := [] } },
      x.records ++ x.state.link.outbox.map Record.directive⟩ := by
  unfold placeDirectives
  rw [List.take_of_length_le h]
  show Draft.mk { x.state with link := { x.state.link with outbox := x.state.link.outbox.drop x.free } } _ = _
  rw [List.drop_of_length_le h]

/-- Behind a STATUS record there is room for a full outbox (R72, R82). -/
theorem fronted_eq (h : s.link.outbox.length ≤ 6) : s.fronted =
    ⟨{ s.statusPlaced with
        link := { s.statusPlaced.link with outbox := [] }
        queue := s.queue.drop s.groupsPlaced },
      s.frontRecords ++ s.groupRecordsPlaced⟩ := by
  have hroom : s.link.outbox.length ≤ (placeStatus ⟨s, []⟩).free := by
    have := placeStatus_len ⟨s, []⟩
    unfold Draft.free
    simp only [Config.framePositions, List.length_nil] at *
    omega
  have hdirectives : placeDirectives (placeStatus ⟨s, []⟩) =
      ⟨{ s.statusPlaced with link := { s.statusPlaced.link with outbox := [] } }, s.frontRecords⟩ := by
    rw [placeStatus_eq] at hroom ⊢
    exact placeDirectives_all hroom
  unfold State.fronted
  rw [hdirectives]
  rfl

theorem placeStamps_frame (n : Nat) (x : Draft) : (placeStamps n x).state =
    { x.state with store := (placeStamps n x).state.store, channels := (placeStamps n x).state.channels } := by
  induction n generalizing x with
  | zero => rfl
  | succ n ih =>
    unfold placeStamps
    split
    · rfl
    · rename_i e _
      rw [ih]
      rfl

theorem stampRecords_stamps (lost : Fin 4 → BitVec 8) (l : List Entry) :
    ∀ r ∈ stampRecords lost l, ∃ c p d x, r = .stamp c p d x := by
  induction l generalizing lost with
  | nil => nofun
  | cons e l ih => exact List.forall_mem_cons.mpr ⟨⟨_, _, _, _, rfl⟩, ih _⟩

/-- The records of a frame: status, directives and groups, and then stamps (R72). -/
theorem fillFrame_records (h : s.link.outbox.length ≤ 6) : ∃ stamps,
    (fillFrame s).records = s.frontRecords ++ s.groupRecordsPlaced ++ stamps ∧
    ∀ r ∈ stamps, ∃ c p d x, r = .stamp c p d x := by
  obtain ⟨hrec, -, -⟩ := placeStamps_picks s.fronted.free s.fronted
  have hfront : s.fronted.records = s.frontRecords ++ s.groupRecordsPlaced := by rw [fronted_eq h]
  rw [← fillFrame_eq, hfront] at hrec
  exact ⟨_, hrec, stampRecords_stamps _ _⟩

/-- Without a published entry no stamp is placed (R75). -/
theorem fillFrame_unpublished (h : ∀ e ∈ s.store, e.publish = false) : fillFrame s = s.fronted := by
  have hnil : s.store.filter (·.publish) = [] := List.filter_eq_nil_iff.mpr fun e he => by rw [h e he]; nofun
  have hnone : oldestPublished s.fronted.state.store = none := by
    rw [fronted_store, ← oldestPublished_filter, hnil]
    rfl
  rw [fillFrame_eq]
  cases s.fronted.free with
  | zero => rfl
  | succ n =>
    unfold placeStamps
    rw [hnone]

/-- Of the link the placements change the outbox, and what a STATUS record reports (R73, R88). -/
theorem fillFrame_link (s : State) : (fillFrame s).state.link =
    { s.statusPlaced.link with outbox := (fillFrame s).state.link.outbox } := by
  rw [fillFrame_eq, placeStamps_frame]
  unfold State.fronted
  rw [placeStatus_eq]
  rfl

/-! ### The assembly -/

/-- The tick's mark of the assembly is set. -/
def State.marked (s : State) : State := { s with marks := { s.marks with assembly := true } }

/-- What an assembly makes of station s, but for the Store and the channels. -/
structure Assembled (s u : State) : Prop where
  queue : u.queue = s.queue.drop s.groupsPlaced
  link : u.link = { s.statusPlaced.link with outbox := [], sending := u.link.sending }
  directiveDrops : u.directiveDrops = if s.link.statusDue then 0 else s.directiveDrops
  triggerOverruns : u.triggerOverruns = if s.link.statusDue then 0 else s.triggerOverruns
  measures : u.measures = s.measures
  eu : u.eu = s.eu
  peers : u.peers = s.peers
  directives : u.directives = s.directives
  pending : u.pending = s.pending
  marks : u.marks = s.marked.marks

theorem assembled_fillFrame (h : s.link.outbox.length ≤ 6) : Assembled s (fillFrame s.marked).state := by
  have hst := placeStamps_frame s.marked.fronted.free s.marked.fronted
  rw [← fillFrame_eq, fronted_eq (s := s.marked) h] at hst
  constructor <;> rw [hst] <;> rfl

/-- Beginning to send the frame changes nothing else (R77). -/
theorem Assembled.withSending (h : Assembled s u) (y : Option Sending) :
    Assembled s { u with link := { u.link with sending := y } } :=
  { h with link := congrArg (fun l : Link => { l with sending := y }) h.link }

theorem assembled_begun (h : s.link.outbox.length ≤ 6) : Assembled s s.begun := (assembled_fillFrame h).withSending _

theorem Assembled.waits (h : Assembled s u) : u.someWaits ↔ s.someWaits := by
  unfold State.someWaits State.meas
  rw [h.measures]

section

variable (h : Assembled s u) (ht : t = givePlaces Config.queueCapacity u)

include h ht

/-- A placed STATUS record clears the link's two counts, and the places given out leave them (R88). -/
theorem Assembled.counts : t.link.statusDue = false ∧
    (s.link.statusDue = true → t.link.collisions = 0 ∧ t.link.discards = 0) ∧
    (s.link.statusDue = false → t.link.collisions = s.link.collisions ∧ t.link.discards = s.link.discards) := by
  obtain ⟨hdue, hcol, hdis⟩ := (ht ▸ Acts.givePlaces Config.queueCapacity u : Acts false _ u t).frame.link_counts
  rw [hdue, hcol, hdis, h.link]
  refine ⟨rfl, fun hs => ?_, fun hs => ?_⟩
  · exact ⟨if_pos hs, if_pos hs⟩
  · exact ⟨if_neg (by rw [hs]; nofun), if_neg (by rw [hs]; nofun)⟩

/-- The queue has lost the groups taken at its head, and grown by what the arbiter has placed (R74, R161, R162). -/
theorem Assembled.groups : s.queue = s.queue.take s.groupsPlaced ++ s.queue.drop s.groupsPlaced ∧
    s.queue.drop s.groupsPlaced <+: t.queue ∧ (¬ s.someWaits → t.queue = s.queue.drop s.groupsPlaced) := by
  refine ⟨(List.take_append_drop _ _).symm, ?_, fun hw => ?_⟩
  · rw [← h.queue, ht]
    exact (Acts.givePlaces Config.queueCapacity u).queue
  · rw [ht, givePlaces_unwaited _ (h.waits.not.mpr hw), h.queue]

theorem Assembled.arbitrates : ∃ u, u.queue = s.queue.drop s.groupsPlaced ∧ u.link.outbox = [] ∧
    u.measures = s.measures ∧ u.directiveDrops = (if s.link.statusDue then 0 else s.directiveDrops) ∧
    u.triggerOverruns = (if s.link.statusDue then 0 else s.triggerOverruns) ∧ Arbitrates u t :=
  ⟨u, h.queue, by rw [h.link], h.measures, h.directiveDrops, h.triggerOverruns, ht ▸ givePlaces_arbitrates u⟩

end

/-- Groups are taken while they fit into the limit, behind the records in front of them (R74). -/
theorem groupsPlaced_fit (s : State) (h : s.queue.take s.groupsPlaced ≠ []) :
    s.frontRecords.length + s.groupRecordsPlaced.length ≤ s.groupLimit := by
  have hfit : s.groupRecordsPlaced.length ≤ s.groupLimit - s.frontRecords.length := groupsTaken_fit _ _
  have hroom : s.groupLimit - s.frontRecords.length ≠ 0 := fun h0 => h (by
    rw [State.groupsPlaced, h0, groupsTaken_zero, List.take_zero])
  omega

theorem groupsPlaced_full (s : State) {g : Group} {rest : List Group} (h : s.queue.drop s.groupsPlaced = g :: rest) :
    s.groupLimit < s.frontRecords.length + s.groupRecordsPlaced.length + (groupRecords g).length := by
  have hfull : s.groupLimit - s.frontRecords.length < s.groupRecordsPlaced.length + (groupRecords g).length :=
    groupsTaken_full _ _ h
  omega

theorem transmitAssembly_gives (h : s.assemblyDue = true) : Gives .transmitAssembly s (startOwnWindow s) :=
  gives_of_effect_eq nofun nofun (if_pos h)

/-! ### When assembly is due, and the STATUS record -/

theorem assemblyDue_iff : s.assemblyDue = true ↔
    (s.eu.align = some .locked ∨ s.eu.align = some .mute) ∧ s.marks.assembly = false ∧
      ∃ w, s.windowAt s.eu.offset = some w ∧ s.windowStart w = s.eu.offset ∧ s.windowOwner w = s.loader.number.val := by
  unfold State.assemblyDue
  rw [Bool.and_eq_true, Bool.and_eq_true, hasTime_iff, Bool.not_eq_true', and_assoc]
  cases s.windowAt s.eu.offset with
  | none => simp
  | some w => simp

theorem maskOf_iff {n : Nat} {f : Fin n → Bool} {i : Fin n} : (maskOf n f).getLsbD i.val = true ↔ f i = true := by
  rw [maskOf_getLsbD]

theorem reported_iff {m : MeasureState} :
    m.reported = true ↔ m = .armed ∨ m = .opened ∨ m = .closing ∨ m = .reporting := by
  cases m <;> decide

theorem isRunning_iff {x : SequenceState} :
    x.isRunning = true ↔ ∃ rest pause counted, x = .running rest pause counted := by
  cases x <;> simp [SequenceState.isRunning]

/-! ### The own window of a LOCKED and of a MUTE station -/

/-- Settles O40: the frame is the draft's, and after the assembly the arbiter gives the places. -/
theorem assemblySendsFrame : Obligations.AssemblySendsFrame := by
  refine ⟨fun s hdue ha hr ho => ?_, fun s => ⟨assemblyDue_iff, rfl, rfl,
    fun i => ⟨maskOf_iff.trans beq_iff_eq, maskOf_iff.trans reported_iff⟩, rfl, rfl,
    fun i => ⟨maskOf_iff.trans beq_iff_eq, maskOf_iff.trans isRunning_iff⟩, rfl, rfl, rfl, rfl⟩⟩
  have hg := transmitAssembly_gives hdue
  obtain ⟨t, ht⟩ : ∃ t, t = givePlaces Config.queueCapacity s.begun := ⟨_, rfl⟩
  rw [startOwnWindow_locked ha hr, ← ht] at hg
  have hA := assembled_begun ho
  have hF : MeasureFrame s.begun t := ht ▸ (Acts.givePlaces Config.queueCapacity s.begun).frame
  have hfill := Fills.fillFrame s.marked
  obtain ⟨stamps, hrec, hstamps⟩ := fillFrame_records (s := s.marked) ho
  obtain ⟨hdue', hclear, hkeep⟩ := hA.counts ht
  obtain ⟨hqueue, hleft, hstill⟩ := hA.groups ht
  refine ⟨t, s.ownDraft.frame, s.frontRecords, s.queue.take s.groupsPlaced, s.queue.drop s.groupsPlaced, stamps,
    s.groupLimit, hg, hF.link_eqs.1, congrArg Loader.number hfill.loader, congrArg EpochUnit.epoch hfill.eu,
    congrArg EpochUnit.disc hfill.eu, congrArg Loader.signature hfill.loader, fillFrame_len _, hrec, rfl, rfl, hqueue,
    hleft, hstill, groupsPlaced_fit s, fun g rest => groupsPlaced_full s, hstamps, hA.arbitrates ht, hdue', hclear,
    hkeep, ?_, hF.eu.trans hA.eu, hF.peers.trans hA.peers, hF.directives.trans hA.directives,
    hF.pending.trans hA.pending⟩
  rw [hF.marks, hA.marks]
  rfl

theorem endReception_mute (h : s.eu.align = some .mute) : endReception s = s :=
  if_neg fun k => by rw [h] at k; cases k.1

theorem fillFrame_align (s : State) : (fillFrame s.marked).state.eu.align = s.eu.align := by
  rw [(Fills.fillFrame s.marked).eu]
  rfl

theorem assemble_mute (h : s.eu.align = some .mute) : assemble s = (fillFrame s.marked).state :=
  if_neg fun k => by cases h.symm.trans ((fillFrame_align s).symm.trans k)

theorem startOwnWindow_mute (h : s.eu.align = some .mute) :
    startOwnWindow s = givePlaces Config.queueCapacity (fillFrame s.marked).state := by
  unfold startOwnWindow
  rw [endReception_mute h, assemble_mute h, endReception_mute ((fillFrame_align s).trans h), ite_self]

/-- Settles O42: the draft is discarded with what it took, and the arbiter gives the places to a MUTE station. -/
theorem muteAssemblyDiscards : Obligations.MuteAssemblyDiscards := by
  intro s hdue ha hs ho hpub
  have hg := transmitAssembly_gives hdue
  obtain ⟨u, hu⟩ : ∃ u, u = (fillFrame s.marked).state := ⟨_, rfl⟩
  obtain ⟨t, ht⟩ : ∃ t, t = givePlaces Config.queueCapacity u := ⟨_, rfl⟩
  rw [startOwnWindow_mute ha, ← hu, ← ht] at hg
  have hA : Assembled s u := hu ▸ assembled_fillFrame ho
  have hF : MeasureFrame u t := ht ▸ (Acts.givePlaces Config.queueCapacity u).frame
  have hfill : Fills s.marked u := hu ▸ Fills.fillFrame s.marked
  obtain ⟨hsend, hrec, -⟩ := hF.link_eqs
  have hnone : t.link.sending = none := hsend.trans (hfill.sending.trans hs)
  have hmute : u.isMute = true := by unfold State.isMute; rw [hA.eu, ha]; rfl
  have hout : t.link.outbox = [] := by
    rw [ht, (MuteKept.givePlaces Config.queueCapacity u hmute).2, hA.link]
  have hlimit : s.groupLimit = 8 := if_neg (by simpa [State.publishWaits] using hpub)
  obtain ⟨hdue', hclear, hkeep⟩ := hA.counts ht
  obtain ⟨hqueue, hleft, hstill⟩ := hA.groups ht
  refine ⟨t, s.frontRecords, s.queue.take s.groupsPlaced, s.queue.drop s.groupsPlaced, s.groupLimit, hg, hnone,
    dataLine_none hnone, hrec.trans hfill.receiver, hdue', hout, hclear, hkeep, rfl, hlimit, hqueue, hleft, hstill,
    groupsPlaced_fit s, fun g rest => groupsPlaced_full s, hA.arbitrates ht, fun c => ?_, hF.eu.trans hA.eu,
    hF.peers.trans hA.peers⟩
  rw [State.chan, hF.channels, hu, fillFrame_unpublished (s := s.marked) hpub]
  exact congrArg Channel.publishDrops (fronted_chan s.marked c)

/-! ### A reception in an own window -/

theorem endReception_receiving {x : Reception} (ha : s.eu.align = some .locked) (hx : s.link.receiver = some x) :
    endReception s = { s with link := { s.link with
      receiver := none, discards := satAdd s.link.discards 1 } } := if_pos ⟨ha, by rw [hx]; rfl⟩

theorem endingReception_receiver {bits : List Bool} {x : Reception} (h : s.endingReception bits = some x) :
    s.link.receiver = some x := by
  unfold State.endingReception at h
  split at h
  · rename_i y hy
    split at h
    · rw [hy, h]
    · cases h
  · cases h

theorem deaf_iff : s.deaf = true ↔ s.eu.align = some .locked ∧ s.inOwnWindow = true := by
  simp [State.deaf]

/-- Without a STATUS record the assembly leaves the receiver and the discards (R88). -/
theorem assemble_reception (ha : s.eu.align = some .locked) (hd : s.link.statusDue = false) :
    (assemble s).eu = s.eu ∧ (assemble s).link.receiver = s.link.receiver ∧
    (assemble s).link.discards = s.link.discards := by
  have hl := fillFrame_link s.marked
  rw [assemble_locked ha]
  refine ⟨(Fills.fillFrame s.marked).eu, (Fills.fillFrame s.marked).receiver, ?_⟩
  show (fillFrame s.marked).state.link.discards = _
  rw [hl]
  exact if_neg (by rw [show s.marked.link.statusDue = false from hd]; nofun)

/-- Settles O43: the reception's end counts one discard, before the assembly or after it; and in an own window the
receiver is deaf. -/
theorem ownWindowEndsReception : Obligations.OwnWindowEndsReception := by
  refine ⟨fun s x hdue ha hx hd => ?_, fun s bits straps x hx ha ho => ?_, fun s ha ho => ?_⟩
  · obtain ⟨u, hu, hrec, hdis⟩ : ∃ u, startOwnWindow s = givePlaces Config.queueCapacity u ∧ u.link.receiver = none ∧
        u.link.discards = satAdd s.link.discards 1 := by
      refine ⟨_, rfl, ?_⟩
      split
      · obtain ⟨heu, hr, hdis⟩ := assemble_reception ha hd
        rw [endReception_receiving (heu ▸ ha) (hr.trans hx)]
        exact ⟨rfl, congrArg (satAdd · 1) hdis⟩
      · rw [endReception_receiving ha hx]
        exact (assemble_reception (s := { s with link := { s.link with
          receiver := none, discards := satAdd s.link.discards 1 } }) ha hd).2
    have hF := (Acts.givePlaces Config.queueCapacity u).frame
    exact ⟨_, hu ▸ transmitAssembly_gives hdue, hF.link_eqs.2.1.trans hrec, hF.link_counts.2.2.trans hdis⟩
  · refine gives_of_effect_eq nofun nofun ?_
    simp only [effect, effectFrameReceived, hx, deaf_iff.mpr ⟨ha, ho⟩, if_true]
    exact endReception_receiving ha (endingReception_receiver hx)
  · refine gives_of_effect_eq nofun nofun (if_neg ?_)
    unfold State.listening
    rw [deaf_iff.mpr ⟨ha, ho⟩]
    simp

end Sys2Proof.Machine
end

section
/-! PROOFS. A peer's presence and a foreign presence, and a peer's change at the measures that name it. -/

namespace Sys2Proof.Machine

variable {s t u : State} {i : Fin 8} {p : Fin 16} {k : FaultKind}

/-! ### Presences -/

theorem presence_heard (h : (s.peer p).st = .silent ∨ (s.peer p).st = .present) :
    presence p s = s.setPeer p { s.peer p with st := .present, missed := 0 } := by
  unfold presence Peer.presence
  rcases h with h | h <;> rw [h]

/-- A peer that returns has no horizon until its next accepted frame (R93). -/
theorem presence_returned (h : (s.peer p).st = .absent ∨ (s.peer p).st = .foreign) :
    presence p s = s.setPeer p { s.peer p with st := .present, missed := 0, horizon := none } := by
  unfold presence Peer.presence
  rcases h with h | h <;> rw [h]

theorem notifyPeer_peer (k : FaultKind) (p q : Fin 16) (s : State) : (notifyPeer k p s).peer q = s.peer q :=
  congrArg (Table.get · q) (Acts.notifyPeer k p s).frame.peers

/-- Notified or not, the peers stand as the foreign presence has made them (R94). -/
theorem foreignPresence_peer (p q : Fin 16) (s : State) : (foreignPresence p s).peer q =
    (s.setPeer p { s.peer p with st := .foreign, missed := 0 }).peer q := by
  unfold foreignPresence
  dsimp only
  split
  · rfl
  · exact notifyPeer_peer ..

/-- Settles O22: both branches of either presence; a notification moves no peer. -/
theorem presenceTables : Obligations.PresenceTables := by
  refine fun s p => ⟨presence_heard, presence_returned, ?_, fun q hq => ?_, fun h => if_pos h, fun h => if_neg h⟩
  · rw [foreignPresence_peer, State.peer_setPeer, if_pos rfl]
  · rw [foreignPresence_peer, State.peer_setPeer, if_neg hq]

/-! ### A peer's condition at one measure -/

theorem takePeerCondition_unmasked (k : FaultKind) (p : Fin 16) (offer : Bool) (s : State)
    (ha : (s.meas i).st.active = true) (hm : (s.meas i).masks k = false) :
    takePeerCondition i k p offer s = enterFault i k offer s := by
  unfold takePeerCondition
  rw [takeCondition_unmasked k offer s ha hm, ha, hm]
  rfl

/-- A REPORTING measure keeps the first unmasked condition as its pending fault, and no masked one (R120). -/
theorem takePeerCondition_reporting (k : FaultKind) (p : Fin 16) (offer : Bool) (s : State)
    (hr : (s.meas i).st = .reporting) : (takePeerCondition i k p offer s).meas i =
      if (s.meas i).masks k = true then s.meas i
      else { s.meas i with pendingFault := some ((s.meas i).pendingFault.getD k) } := by
  have hcondition : takePeerCondition i k p offer s = takeCondition i k offer s := by
    unfold takePeerCondition
    rw [hr]
    rfl
  rw [hcondition]
  unfold takeCondition
  dsimp only
  rw [if_neg (by rw [hr]; nofun)]
  cases hm : (s.meas i).masks k
  case true => exact congrArg (State.meas · i) (if_neg fun h => nomatch h.2.1)
  case false =>
    rw [if_neg Bool.false_ne_true]
    cases hp : (s.meas i).pendingFault with
    | none => rw [if_pos ⟨hr, rfl, rfl⟩, meas_modMeas_of rfl, Option.getD_none]
    | some held =>
      rw [if_neg (fun h => nomatch h.2.2), Option.getD_some, ← hp]

/-! ### Final horizons -/

/-- A role of the measure reads a source on station p. -/
theorem roleOn_iff {m : Measure} {r : Role} :
    m.roleOn r p = true ↔ ∃ x, m.roleSource r = some x ∧ x.station = p := by
  unfold Measure.roleOn
  cases m.roleSource r <;> simp

theorem holdFinal_live (h : Option TimeStamp) : holdFinal true h .live = .held h := rfl

/-- A horizon that is held already stands, and so does that of a source on another station (R100, R151). -/
theorem holdFinal_kept {on : Bool} {f : FinalHorizon} (h : Option TimeStamp) (hk : f ≠ .live ∨ on = false) :
    holdFinal on h f = f := by
  unfold holdFinal
  rcases hk with hk | hk <;> simp [hk]

theorem roleHorizon_held {r : Role} {h : Option TimeStamp} (hf : (s.meas i).final r = .held h) :
    s.roleHorizon i r = h := by
  unfold State.roleHorizon
  rw [hf]

/-! ### The notified measures -/

/-- A notified measure takes the condition once, and nothing else of the notification touches it (R99). -/
theorem notifyPeer_served (h : s.notified p i = true) : ∃ u, Acts true (fun j => j ≠ i) s u ∧
    Acts true (fun j => j ≠ i) (takePeerCondition i k p true u) (notifyPeer k p s) :=
  served_one (p := fun i => s.notified p i) (f := fun i => takePeerCondition i k p true)
    (fun _ s => .takePeerCondition k p true s) s s i h

theorem notified_of_active (ha : (s.meas i).st.active = true) (hn : (s.meas i).namesStation p = true) :
    s.notified p i = true := by
  simp [State.notified, MeasureState.reported, ha, hn]

theorem notified_of_reporting (hr : (s.meas i).st = .reporting) (hn : (s.meas i).namesStation p = true) :
    s.notified p i = true := by
  simp [State.notified, MeasureState.reported, hr, hn]

theorem notifyPeer_faults (ha : (s.meas i).st.active = true) (hn : (s.meas i).namesStation p = true)
    (hm : (s.meas i).masks k = false) : Faults s (notifyPeer k p s) i k := by
  obtain ⟨u, hu, ht⟩ := notifyPeer_served (k := k) (notified_of_active ha hn)
  rw [← hu.meas_eq] at ha hm
  rw [takePeerCondition_unmasked k p true u ha hm] at ht
  exact (enterFault_faults i k true u).served hu ht

/-- Masked, the condition sets its qualifier and the final horizons of the sources on the peer (R120, R151). -/
theorem notifyPeer_masked (ha : (s.meas i).st.active = true) (hn : (s.meas i).namesStation p = true)
    (hm : (s.meas i).masks k = true) : (notifyPeer k p s).meas i =
      ((s.meas i).qualify (.fault k)).holdFinals p (s.peer p).horizon := by
  obtain ⟨u, hu, ht⟩ := notifyPeer_served (k := k) (notified_of_active ha hn)
  have hpeer : u.peer p = s.peer p := congrArg (Table.get · p) hu.frame.peers
  rw [← hu.meas_eq] at ha hm
  rw [takePeerCondition_masked k p true u ha hm] at ht
  rw [ht.meas_eq, State.meas_setMeas, if_pos rfl, hu.meas_eq, hpeer]

theorem notifyPeer_reporting (hr : (s.meas i).st = .reporting) (hn : (s.meas i).namesStation p = true) :
    (notifyPeer k p s).meas i = if (s.meas i).masks k = true then s.meas i
      else { s.meas i with pendingFault := some ((s.meas i).pendingFault.getD k) } := by
  obtain ⟨u, hu, ht⟩ := notifyPeer_served (k := k) (notified_of_reporting hr hn)
  rw [ht.meas_eq, takePeerCondition_reporting k p true u (by rw [hu.meas_eq]; exact hr), hu.meas_eq]

/-- The final horizon of a role after a masked condition (R100, R151). -/
theorem notifyPeer_final (ha : (s.meas i).st.active = true) (hn : (s.meas i).namesStation p = true)
    (hm : (s.meas i).masks k = true) (r : Role) : ((notifyPeer k p s).meas i).final r =
      holdFinal ((s.meas i).roleOn r p) (s.peer p).horizon ((s.meas i).final r) := by
  rw [notifyPeer_masked ha hn hm, holdFinals_final]
  cases r <;> rfl

/-- Settles O23: a notified measure takes the condition alone, by its state and its mask. -/
theorem peerChangeReachesMeasures : Obligations.PeerChangeReachesMeasures := by
  refine fun s k p i => ⟨fun h => (Acts.notifyPeer k p s).others i (Bool.eq_false_iff.mp h), notifyPeer_faults,
    fun ha hn hm => ⟨?_, fun r => ⟨fun x hx hp hl => ?_, fun hk => ?_⟩⟩, fun hr hn => ?_⟩
  · rw [notifyPeer_masked ha hn hm]
    rfl
  · have hheld : ((notifyPeer k p s).meas i).final r = .held (s.peer p).horizon := by
      rw [notifyPeer_final ha hn hm, roleOn_iff.mpr ⟨x, hx, hp⟩, hl, holdFinal_live]
    exact ⟨hheld, roleHorizon_held hheld⟩
  · rw [notifyPeer_final ha hn hm]
    refine holdFinal_kept _ (hk.imp_right fun hno => Bool.eq_false_iff.mpr fun hon => ?_)
    obtain ⟨x, hx, hp⟩ := roleOn_iff.mp hon
    exact hno x hx hp
  · rw [notifyPeer_reporting hr hn]
    exact ⟨fun hm => if_pos hm, fun hm => if_neg (Bool.eq_false_iff.mp hm)⟩

end Sys2Proof.Machine
end

section
/-! PROOFS. Entries into ARMED: what the conditions of the named peers and the gate make of an armed measure, and ARM. -/

namespace Sys2Proof.Machine

variable {s t u v : State} {i : Fin 8} {c : MeasureConfig} {x : TimeStamp} {base a : Measure}

/-! ### A measure that has been asked -/

/-- Every bit of the qualifiers is a qualifier's. -/
theorem Qualifier.exists_index : ∀ n : Fin 12, ∃ q : Qualifier, q.index = n.val
  | 0 => ⟨.fault .gap, rfl⟩
  | 1 => ⟨.fault .discontinuity, rfl⟩
  | 2 => ⟨.fault .sourceAbsent, rfl⟩
  | 3 => ⟨.fault .sourceForeign, rfl⟩
  | 4 => ⟨.fault .lateGate, rfl⟩
  | 5 => ⟨.fault .storeFull, rfl⟩
  | 6 => ⟨.overrange, rfl⟩
  | 7 => ⟨.partialBlock, rfl⟩
  | 8 => ⟨.shifted, rfl⟩
  | 9 => ⟨.noEvents, rfl⟩
  | 10 => ⟨.gateEnd, rfl⟩
  | 11 => ⟨.drops, rfl⟩

theorem quals_ext {x y : BitVec 12} (h : ∀ q, hasQual q x = true ↔ hasQual q y = true) : x = y := by
  refine BitVec.eq_of_getLsbD_eq fun n hn => ?_
  obtain ⟨q, hq⟩ := Qualifier.exists_index ⟨n, hn⟩
  have hbit := Bool.eq_iff_iff.mpr (h q)
  unfold hasQual at hbit
  rwa [hq] at hbit

theorem not_peerGives (h : s.peersGive i) (k : FaultKind) : ¬ s.peerGives i k := by
  rintro ⟨r, x, hx, hn, hk⟩
  rcases h r x hx with hown | hnone
  · exact hn hown
  · rw [hnone] at hk
    cases hk

theorem Asked.config (h : Asked s i base a) : a.config = base.config := (congrArg Measure.config h.same :)
theorem Asked.st (h : Asked s i base a) : a.st = base.st := (congrArg Measure.st h.same :)

/-- Peers that give no condition leave the measure as it entered ARMED (R101). -/
theorem Asked.eq_base (h : Asked s i base a) (hg : s.peersGive i) : a = base := by
  have hquals : a.block.quals = base.block.quals := quals_ext fun q =>
    (h.quals q).trans (or_iff_left fun ⟨k, _, hk⟩ => not_peerGives hg k hk)
  have hfinal (r : Role) : a.final r = base.final r := by
    rw [h.finals]
    split
    · rename_i x hx
      refine if_neg fun ⟨hn, hk⟩ => ?_
      exact (hg r x hx).elim hn hk
    · rfl
  have hA : a.finalA = base.finalA := hfinal .A
  have hB : a.finalB = base.finalB := hfinal .B
  have hG : a.finalG = base.finalG := hfinal .G
  calc a = _ := h.same
    _ = base := by rw [hquals, hA, hB, hG]

/-- What a measure is asked about is its configuration, the peers, and the station's number. -/
theorem Asked.congr (h : Asked t i base a) (hm : (t.meas i).config = (s.meas i).config) (hl : t.loader = s.loader)
    (hp : t.peers = s.peers) : Asked s i base a where
  same := h.same
  quals q := (h.quals q).trans (by simp only [(peerGives_congr hm hl hp _).1])
  finals r := by
    rw [h.finals]
    simp only [Measure.roleSource, State.peer, hm, hl, hp]

/-! ### The gate at an arming -/

theorem openGate_meas_self (hc : (s.meas i).config = some c) (x : TimeStamp) :
    (openGate i x s).meas i = s.gateOpened (s.meas i) x := by
  rw [openGate_meas hc, State.meas_setMeas, if_pos rfl]

/-- EDGE, DIRECTIVE, and TIMED MARK away from a boundary: the gate waits (R110 to R112). -/
theorem openAtArming_waits (h : c.gate = .edge ∨ c.gate = .directive ∨
    (c.gate = .timed ∧ c.gateAlign = .mark ∧ s.marks.boundary = false)) : openAtArming i c x s = s := by
  unfold openAtArming
  split
  · rcases h with h | h | ⟨h, ha, hb⟩
    · rw [h]
    · rw [h]
    · rw [h, ha, hb]
      rfl
  · rfl

/-- FREE and TIMED NONE: the gate opens at the arming time (R110). -/
theorem openAtArming_opens (hst : (s.meas i).st = .armed) (hc : (s.meas i).config = some c)
    (h : c.gate = .free ∨ (c.gate = .timed ∧ c.gateAlign = .unaligned)) :
    (openAtArming i c x s).meas i = s.gateOpened (s.meas i) x := by
  unfold openAtArming
  rw [if_pos hst]
  rcases h with h | ⟨h, ha⟩
  · rw [h]
    exact openGate_meas_self hc x
  · rw [h, ha]
    exact openGate_meas_self hc x

/-- TIMED MARK in the tick of a boundary: the gate opens at local time (R110). -/
theorem openAtArming_aligned (hst : (s.meas i).st = .armed) (hc : (s.meas i).config = some c) (h : c.gate = .timed)
    (ha : c.gateAlign = .mark) (hb : s.marks.boundary = true) :
    (openAtArming i c x s).meas i = s.gateOpened (s.meas i) s.localTime := by
  unfold openAtArming
  rw [if_pos hst, h, ha, hb]
  exact openGate_meas_self hc _

/-! ### An IDLE measure is armed -/

/-- From s to t the IDLE measure i has been armed with arming time x: an unmasked condition of a named peer has put it
into FAULT with its report, or else it stands as asked, and its gate as its kind has it (R101, R108, R110). -/
structure Arms (s t : State) (i : Fin 8) (c : MeasureConfig) (x : TimeStamp) : Prop where
  faults : (∃ k, s.peerGives i k ∧ (s.meas i).masks k = false) →
    ∃ k, s.peerGives i k ∧ (s.meas i).masks k = false ∧ Faults s t i k
  stands : (∀ k, s.peerGives i k → (s.meas i).masks k = true) → ∃ a, Asked s i ((s.meas i).armedAt c x) a ∧
    (c.gate = .edge ∨ c.gate = .directive ∨ (c.gate = .timed ∧ c.gateAlign = .mark ∧ s.marks.boundary = false) →
      t.meas i = a) ∧
    (c.gate = .free ∨ (c.gate = .timed ∧ c.gateAlign = .unaligned) → t.meas i = s.gateOpened a x) ∧
    (c.gate = .timed → c.gateAlign = .mark → s.marks.boundary = true → t.meas i = s.gateOpened a s.localTime)

/-- ARM or auto-arm of an IDLE measure, in a state that has served other measures before. -/
theorem Arms.armMeasure (hst : (s.meas i).st = .idle) (hc : (s.meas i).config = some c) (hf : MeasureFrame s u)
    (hm : u.meas i = s.meas i) (hq : s.queue <+: u.queue) (x : TimeStamp) : Arms s (armMeasure i x u) i c x := by
  obtain ⟨hfaults, hstands⟩ := armMeasure_takes x hst hc hf hm (base := (s.meas i).armedAt c x) rfl
  refine ⟨fun hx => ?_, fun hall => ?_⟩
  · obtain ⟨k, hk, hmask, hF⟩ := hfaults hx
    exact ⟨k, hk, hmask, hF.start hq (by rw [hm]) (by rw [hm])⟩
  · obtain ⟨a, ha, he⟩ := hstands hall
    have hw : MeasureFrame s (u.setMeas i a) := hf.trans (by constructor <;> rfl)
    have hwm : (u.setMeas i a).meas i = a := by rw [State.meas_setMeas, if_pos rfl]
    have hwst : ((u.setMeas i a).meas i).st = .armed := by rw [hwm, ha.st]; rfl
    have hwc : ((u.setMeas i a).meas i).config = some c := by rw [hwm, ha.config]; exact hc
    have hmarks : (u.setMeas i a).marks = s.marks := hw.marks
    refine ⟨a, ha, fun h => ?_, fun h => ?_, fun h hal hb => ?_⟩
    · rw [he, openAtArming_waits (by rw [hmarks]; exact h), hwm]
    · rw [he, openAtArming_opens hwst hwc h, hwm, hw.gateOpened]
    · rw [he, openAtArming_aligned hwst hwc h hal (by rw [hmarks]; exact hb), hwm, hw.gateOpened, hw.localTime]

/-- What follows at other measures keeps it. -/
theorem Arms.later (h : Arms s t i c x) (ht : t.queue <+: v.queue) (hm : v.meas i = t.meas i) : Arms s v i c x where
  faults hx := by
    obtain ⟨k, hk, hmask, hF⟩ := h.faults hx
    exact ⟨k, hk, hmask, hF.later ht hm⟩
  stands := by
    rw [hm]
    exact h.stands

/-! ### ARM -/

theorem arm_gives {d : Directive} (h : s.dueDirective .arm = some d) :
    Gives .arm s (applyArm d.mask d.time s.popDirective) :=
  gives_of_effect_eq nofun nofun (by simp only [effect, effectArm, h])

theorem armMeasure_ignores (h : (s.meas i).st ≠ .idle) : armMeasure i x s = s := by
  unfold armMeasure
  split
  · rename_i hst _
    exact absurd hst h
  · rfl

theorem applyArm_arms {mask : BitVec 8} (hi : mask.getLsbD i.val = true) (hst : (s.meas i).st = .idle)
    (hc : (s.meas i).config = some c) : Arms s (applyArm mask x s) i c x := by
  obtain ⟨u, hu, ht⟩ := forSelected_served (fun i => Acts.armMeasure (i := i) x) mask s hi
  exact (Arms.armMeasure hst hc hu.frame hu.meas_eq hu.queue x).later ht.queue ht.meas_eq

/-- Settles O51: ARM serves each selected measure once, and arms it if it is IDLE. -/
theorem armArmsIdleMeasures : Obligations.ArmArmsIdleMeasures := by
  intro s d hd
  have hacts := fun i => Acts.armMeasure (i := i) d.time
  refine ⟨_, arm_gives hd, (forSelected_acts hacts d.mask s.popDirective).frame, fun i hn => ?_, fun i c hi hst hc => ?_⟩
  · exact forSelected_ignores hacts d.mask s.popDirective
      (hn.imp_right fun h u hu => armMeasure_ignores (by rw [hu]; exact h))
  · obtain ⟨hfaults, hstands⟩ : Arms s.popDirective (applyArm d.mask d.time s.popDirective) i c d.time :=
      applyArm_arms hi hst hc
    refine ⟨hfaults, fun hall => ?_, fun hgive => ?_⟩
    · obtain ⟨a, ha, hgate⟩ := hstands hall
      exact ⟨a, ha.congr rfl rfl rfl, hgate⟩
    · obtain ⟨a, ha, hwaits, hopens, -⟩ := hstands fun k hk => absurd hk (not_peerGives hgive k)
      obtain rfl := ha.eq_base hgive
      exact ⟨hwaits, fun h => by rw [hopens h]; exact ⟨rfl, rfl, rfl, rfl⟩⟩

end Sys2Proof.Machine
end

section
/-! PROOFS. Rearming: the set-up of the next gate, the conditions of the named peers, and the arbiter's places. -/

namespace Sys2Proof.Machine

variable {s t u w : State} {i : Fin 8} {c : MeasureConfig} {m base a : Measure} {g : NextGate} {r : Rearms}
  {rested offer : Bool} {now z : TimeStamp} {E : Nat}

/-! ### The next gate's set-up -/

theorem later_self (x : TimeStamp) : later x x = false := by
  simp [later, compareTime, compareEpoch_self]

/-- The planned close of a TIMED gate is its close time (R110, R113). -/
theorem plannedClose_iff (hc : m.config = some c) (hg : c.gate = .timed) :
    m.plannedClose E = some z ↔ m.timedClose E c z := by
  unfold Measure.plannedClose Measure.timedClose
  cases m.closeTime <;> cases m.openTime <;> simp [hc, hg, eq_comm]

theorem nextGate_timed (hg : c.gate = .timed) (ha : c.gateAlign = .unaligned) (hz : m.plannedClose E = some z) :
    nextGate c m E now rested =
      if later now z then ⟨none, false, some now, true⟩ else ⟨none, false, some z, false⟩ := by
  simp only [nextGate, hg, ha, hz, Option.getD_some]

/-- Nothing to search from, nothing to open at, and no SHIFTED. -/
def NextGate.blank : NextGate := ⟨none, false, none, false⟩

/-- DIRECTIVE and TIMED MARK carry nothing over (R124). -/
theorem nextGate_waits (h : c.gate = .directive ∨ (c.gate = .timed ∧ c.gateAlign = .mark)) :
    nextGate c m E now rested = .blank := by
  rcases h with h | ⟨h, ha⟩
  · simp only [nextGate, h, NextGate.blank]
  · simp only [nextGate, h, ha, NextGate.blank]

theorem nextGate_edge (hg : c.gate = .edge) : nextGate c m E now rested =
    if rested then ⟨some now, false, none, true⟩
    else if m.closedByStamp then ⟨none, false, m.closeTime, false⟩ else ⟨m.openTime, true, none, false⟩ := by
  simp only [nextGate, hg]

theorem nextGate_free (hg : c.gate = .free) : nextGate c m E now rested =
    if rested then ⟨none, false, some now, true⟩ else ⟨none, false, m.openTime, false⟩ := by
  simp only [nextGate, hg]

/-- The block carries SHIFTED when its TIMED gate's time has passed, and when an EDGE or FREE measure rested (R123,
R124). -/
theorem nextGate_shifted (hc : m.config = some c) : (nextGate c m E now rested).shifted = true ↔
    (c.gate = .timed ∧ c.gateAlign = .unaligned ∧ ∃ z, m.timedClose E c z ∧ later now z = true) ∨
      (rested = true ∧ (c.gate = .edge ∨ c.gate = .free)) := by
  cases hg : c.gate with
  | timed =>
    cases ha : c.gateAlign with
    | unaligned =>
      simp only [← plannedClose_iff hc hg]
      cases hz : m.plannedClose E with
      | none => simp [nextGate, hg, ha, hz, later_self]
      | some z =>
        rw [nextGate_timed hg ha hz]
        cases hl : later now z <;> simp [hl]
    | mark => simp [nextGate_waits (.inr ⟨hg, ha⟩), NextGate.blank]
  | edge =>
    rw [nextGate_edge hg]
    cases rested
    · cases m.closedByStamp <;> simp
    · simp
  | directive => simp [nextGate_waits (.inl hg), NextGate.blank]
  | free =>
    rw [nextGate_free hg]
    cases rested <;> simp

/-! ### A measure with its next gate set up -/

/-- The measure with the search and the carried opening of its next gate. -/
def Measure.withGate (m : Measure) (g : NextGate) : Measure :=
  { m with searchTime := g.search, searchAfter := g.after, carriedOpening := g.opening }

theorem withGate_self (hs : m.searchTime = g.search) (ha : m.searchAfter = g.after)
    (ho : m.carriedOpening = g.opening) : m.withGate g = m := by
  unfold Measure.withGate
  rw [← hs, ← ha, ← ho]

/-- A rearmed measure is the one with no search and no opening, and then its next gate. -/
theorem rearmed_withGate (tick : Nat) :
    m.rearmed g r now tick = (m.rearmed ⟨none, false, none, g.shifted⟩ r now tick).withGate g := rfl

/-- The questions to the Peer Table leave the gate's set-up (R101). -/
theorem Asked.withGate (h : Asked s i (base.withGate g) a) : ∃ b, Asked s i base b ∧ a = b.withGate g := by
  refine ⟨a.withGate ⟨base.searchTime, base.searchAfter, base.carriedOpening, g.shifted⟩,
    ⟨(congrArg (Measure.withGate · _) h.same :), h.quals, fun r => ?_⟩, ?_⟩
  · have hf := h.finals r
    cases r <;> exact hf
  · have hsearch : a.searchTime = g.search := (congrArg Measure.searchTime h.same :)
    have hafter : a.searchAfter = g.after := (congrArg Measure.searchAfter h.same :)
    have hopening : a.carriedOpening = g.opening := (congrArg Measure.carriedOpening h.same :)
    exact (withGate_self hsearch hafter hopening).symm

/-- A gate that opens has no use for its carried opening. -/
theorem gateOpened_withGate (hs : g.search = a.searchTime) (ha : g.after = a.searchAfter) (x : TimeStamp) :
    s.gateOpened (a.withGate g) x = s.gateOpened a x := by
  unfold Measure.withGate
  rw [hs, ha]
  rfl

/-! ### The carried opening -/

theorem openCarried_none (h : (s.meas i).carriedOpening = none) : openCarried i now s = s := by
  unfold openCarried
  split
  · rename_i hz
    rw [h] at hz
    cases hz
  · rfl

theorem openCarried_fault (h : (s.meas i).st = .fault) : openCarried i now s = s := by
  unfold openCarried
  rw [h]

/-- A TIMED gate whose opening still lies ahead waits for TIMED_GATE_REOPEN (R124). -/
theorem openCarried_waits (hc : (s.meas i).config = some c) (hz : (s.meas i).carriedOpening = some z)
    (hg : c.gate = .timed) (hl : later z now = true) : openCarried i now s = s := by
  unfold openCarried
  split
  · rename_i y _ hy
    rw [hz] at hy
    cases hy
    exact if_pos ⟨by rw [hc, Option.map_some, hg], hl⟩
  · rfl

theorem openCarried_opens (hst : (s.meas i).st = .armed) (hc : (s.meas i).config = some c)
    (hz : (s.meas i).carriedOpening = some z) (h : c.gate ≠ .timed ∨ later z now = false) :
    openCarried i now s = s.setMeas i (s.gateOpened (s.meas i) z) := by
  have hnow : ¬ ((s.meas i).config.map (·.gate) = some .timed ∧ later z now = true) := by
    rintro ⟨hg, hl⟩
    rw [hc, Option.map_some, Option.some.injEq] at hg
    rcases h with h | h
    · exact h hg
    · rw [h] at hl
      cases hl
  unfold openCarried
  rw [hst, hz]
  exact (if_neg hnow).trans (openGate_meas hc z)

theorem openCarried_queue (now : TimeStamp) (s : State) (hc : (s.meas i).config = some c) :
    (openCarried i now s).queue = s.queue := by
  unfold openCarried
  split
  · split
    · rfl
    · rw [openGate_meas hc]
      rfl
  · rfl

/-! ### The rearm -/

/-- The station as measure i enters ARMED by a rearm, before the Peer Table is asked (R122 to R124). -/
def State.rearming (s : State) (i : Fin 8) (g : NextGate) (r : Rearms) : State :=
  (s.setMeas i ((s.meas i).rearmed g r s.localTime s.eu.elapsed)).unhold i

theorem rearming_meas : (s.rearming i g r).meas i = (s.meas i).rearmed g r s.localTime s.eu.elapsed := by
  show (s.setMeas i _).meas i = _
  rw [State.meas_setMeas, if_pos rfl]

theorem rearming_frame (s : State) (i : Fin 8) (g : NextGate) (r : Rearms) : MeasureFrame s (s.rearming i g r) := by
  constructor <;> rfl

theorem rearming_config : ((s.rearming i g r).meas i).config = (s.meas i).config := by
  rw [rearming_meas]
  rfl

theorem rearming_peerGives (k : FaultKind) : ((s.rearming i g r).peerGives i k ↔ s.peerGives i k) ∧
    ((s.rearming i g r).meas i).masks k = (s.meas i).masks k :=
  peerGives_congr rearming_config rfl rfl k

theorem rearming_live (q : Role) : ((s.rearming i g r).meas i).final q = .live := by
  rw [rearming_meas]
  cases q <;> rfl

theorem rearming_active : ((s.rearming i g r).meas i).st.active = true := by
  rw [rearming_meas]
  rfl

theorem nextState_rearms (hr : (s.meas i).rearms.next = some r) (hc : (s.meas i).config = some c) :
    nextState i rested offer s = openCarried i s.localTime
      (askPeers i offer (s.rearming i (nextGate c (s.meas i) s.epochLength s.localTime rested) r)) := by
  unfold nextState
  simp only [hr, hc]
  rfl

/-- An unmasked condition of a named peer ends the rearm in FAULT (R101, R119, R122). -/
theorem nextState_faults (hr : (s.meas i).rearms.next = some r) (hc : (s.meas i).config = some c)
    (hx : ∃ k, s.peerGives i k ∧ (s.meas i).masks k = false) :
    (∃ k, s.peerGives i k ∧ (s.meas i).masks k = false ∧ Faults s (nextState i rested offer s) i k) ∧
      (offer = false → (nextState i rested offer s).queue = s.queue) := by
  rw [nextState_rearms hr hc]
  generalize nextGate c (s.meas i) s.epochLength s.localTime rested = g
  obtain ⟨k, hk, hm⟩ := hx
  have hgives := rearming_peerGives (s := s) (i := i) (g := g) (r := r)
  obtain ⟨k, hk, hm, hF, hq⟩ := askPeers_faults offer (s.rearming i g r) rearming_active rearming_live
    ⟨k, (hgives k).1.mpr hk, (hgives k).2.trans hm⟩
  rw [openCarried_fault hF.1]
  exact ⟨⟨k, (hgives k).1.mp hk, (hgives k).2.symm.trans hm,
    hF.start List.prefix_rfl (by rw [rearming_meas]; rfl) (by rw [rearming_meas]; rfl)⟩, hq⟩

/-- What a rearm in s has made of measure i in t, `a` being the measure as asked and g its next gate (R124). -/
structure SetsGate (s t : State) (i : Fin 8) (c : MeasureConfig) (a : Measure) (g : NextGate) : Prop where
  queue : t.queue = s.queue
  waits : g.opening = none → t.meas i = a.withGate g
  ahead : ∀ z, g.opening = some z → c.gate = .timed → later z s.localTime = true → t.meas i = a.withGate g
  opens : ∀ z, g.opening = some z → g.search = none → g.after = false →
    c.gate ≠ .timed ∨ later z s.localTime = false → t.meas i = s.gateOpened a z

/-- The carried opening of a measure that has been asked (R124). -/
theorem SetsGate.openCarried (hf : MeasureFrame s w) (hq : w.queue = s.queue) (hm : w.meas i = a.withGate g)
    (hst : a.st = .armed) (hc : a.config = some c) (hs : a.searchTime = none) (ha : a.searchAfter = false) :
    SetsGate s (openCarried i s.localTime w) i c a g := by
  have hwc : (w.meas i).config = some c := by rw [hm]; exact hc
  refine ⟨(openCarried_queue _ w hwc).trans hq, fun hn => ?_, fun z hz hg hl => ?_, fun z hz hgs hga h => ?_⟩
  · rw [openCarried_none (by rw [hm]; exact hn), hm]
  · rw [openCarried_waits hwc (by rw [hm]; exact hz) hg hl, hm]
  · rw [openCarried_opens (by rw [hm]; exact hst) hwc (by rw [hm]; exact hz) h, State.meas_setMeas, if_pos rfl, hm,
      hf.gateOpened, gateOpened_withGate (hgs.trans hs.symm) (hga.trans ha.symm)]

/-- With every condition masked the measure is ARMED as asked, and its next gate is set up (R122 to R124). -/
theorem nextState_sets (hr : (s.meas i).rearms.next = some r) (hc : (s.meas i).config = some c)
    (hg : g = nextGate c (s.meas i) s.epochLength s.localTime rested)
    (hb : base = (s.meas i).rearmed ⟨none, false, none, g.shifted⟩ r s.localTime s.eu.elapsed)
    (hall : ∀ k, s.peerGives i k → (s.meas i).masks k = true) :
    ∃ a, Asked s i base a ∧ a.withGate .blank = a ∧
      SetsGate s (nextState i rested offer s) i c a g := by
  rw [nextState_rearms hr hc, ← hg]
  have hgives := rearming_peerGives (s := s) (i := i) (g := g) (r := r)
  obtain ⟨a', ha', he⟩ := askPeers_masked offer (s.rearming i g r) rearming_active rearming_live fun k hk =>
    (hgives k).2.trans (hall k ((hgives k).1.mp hk))
  rw [rearming_meas, rearmed_withGate, ← hb] at ha'
  obtain ⟨a, ha, rfl⟩ := (ha'.congr (s := s) rearming_config rfl rfl).withGate
  have hsearch : a.searchTime = none := by rw [ha.same, hb]; rfl
  have hafter : a.searchAfter = false := by rw [ha.same, hb]; rfl
  have hcarried : a.carriedOpening = none := by rw [ha.same, hb]; rfl
  refine ⟨a, ha, withGate_self hsearch hafter hcarried, ?_⟩
  rw [he]
  refine .openCarried ((rearming_frame s i g r).trans (by constructor <;> rfl)) rfl ?_ ?_ ?_ hsearch hafter
  · rw [State.meas_setMeas, if_pos rfl]
  · rw [ha.st, hb]; rfl
  · rw [ha.config, hb]; exact hc

/-! ### The set-up, gate by gate -/

namespace SetsGate

theorem rests (h : SetsGate s t i c a g) (ha : a.withGate .blank = a)
    (hg : g = .blank) : t.meas i = a := by
  rw [h.waits (by rw [hg]; rfl), hg, ha]

/-- A TIMED gate opens at its close time: past, ahead or now (R124). -/
theorem timed (h : SetsGate s t i c a g) (ha : a.withGate .blank = a) (hg : c.gate = .timed)
    (hn : g = if later s.localTime z then ⟨none, false, some s.localTime, true⟩ else ⟨none, false, some z, false⟩) :
    (later s.localTime z = true → t.meas i = s.gateOpened a s.localTime) ∧
    (later s.localTime z = false → later z s.localTime = true → t.meas i = { a with carriedOpening := some z }) ∧
    (later s.localTime z = false → later z s.localTime = false → t.meas i = s.gateOpened a z) := by
  refine ⟨fun hl => ?_, fun hl ho => ?_, fun hl ho => ?_⟩
  · rw [if_pos hl] at hn
    subst hn
    exact h.opens _ rfl rfl rfl (.inr (later_self _))
  · rw [if_neg (Bool.eq_false_iff.mp hl)] at hn
    subst hn
    rw [h.ahead z rfl hg ho, ← ha]
    rfl
  · rw [if_neg (Bool.eq_false_iff.mp hl)] at hn
    subst hn
    exact h.opens z rfl rfl rfl (.inr ho)

/-- An EDGE gate searches from the rest's end or after the open time, or opens at the closing stamp (R124). -/
theorem edge (h : SetsGate s t i c a g) (ha : a.withGate .blank = a) (hg : c.gate = .edge)
    (hn : g = nextGate c m E s.localTime rested) :
    (rested = true → t.meas i = { a with searchTime := some s.localTime }) ∧
    (∀ z, rested = false → m.closedByStamp = true → m.closeTime = some z → t.meas i = s.gateOpened a z) ∧
    (rested = false → m.closedByStamp = false →
      t.meas i = { a with searchTime := m.openTime, searchAfter := true }) := by
  rw [nextGate_edge hg] at hn
  refine ⟨fun hr => ?_, fun z hr hs hz => ?_, fun hr hs => ?_⟩
  · simp only [hr, if_true] at hn
    subst hn
    rw [h.waits rfl, ← ha]
    rfl
  · simp only [hr, hs, hz, Bool.false_eq_true, if_false, if_true] at hn
    subst hn
    exact h.opens z rfl rfl rfl (.inl (by rw [hg]; nofun))
  · simp only [hr, hs, Bool.false_eq_true, if_false] at hn
    subst hn
    rw [h.waits rfl, ← ha]
    rfl

/-- A FREE gate opens at the rest's end, or at the open time of the block before (R124). -/
theorem free (h : SetsGate s t i c a g) (hg : c.gate = .free) (hn : g = nextGate c m E s.localTime rested) :
    (rested = true → t.meas i = s.gateOpened a s.localTime) ∧
    (∀ o, rested = false → m.openTime = some o → t.meas i = s.gateOpened a o) := by
  rw [nextGate_free hg] at hn
  refine ⟨fun hr => ?_, fun o hr ho => ?_⟩
  · simp only [hr, if_true] at hn
    subst hn
    exact h.opens _ rfl rfl rfl (.inl (by rw [hg]; nofun))
  · simp only [hr, ho, Bool.false_eq_true, if_false] at hn
    subst hn
    exact h.opens o rfl rfl rfl (.inl (by rw [hg]; nofun))

end SetsGate

/-! ### The arbiter -/

theorem givePlace_group {gr : Group} (hst : (s.meas i).st = .reporting) (hg : (s.meas i).heldGroup = some gr) :
    givePlace i s = afterHeldGroup i (s.meas i).pendingFault (enqueueGroup gr s) := by
  unfold givePlace
  simp only [hst, hg]

theorem givePlace_report {gr : Group} (hst : (s.meas i).st = .fault) (hg : (s.meas i).heldReport = some gr) :
    givePlace i s = enqueueGroup gr (s.setMeas i { s.meas i with heldReport := none }) := by
  have hplace : givePlace i s = enqueueGroup gr (s.modMeas i fun m => { m with heldReport := none }) := by
    unfold givePlace
    simp only [hst, hg]
  exact hplace

/-- A report that is not offered its place waits for the arbiter (R162). -/
theorem enterFault_waits (k : FaultKind) (s : State) : ((enterFault i k false s).meas i).st = .fault ∧
    ((enterFault i k false s).meas i).heldReport = some (faultReport i (s.meas i).kind k) := by
  unfold enterFault
  simp only [Bool.false_and, Bool.false_eq_true, if_false, State.meas_modMeas, if_true]
  refine ⟨?_, trivial⟩
  show ((s.modMeas i Measure.faulted).meas i).st = _
  rw [meas_modMeas_of rfl]
  rfl

theorem enqueueGroup_kind {gr : Group} (h : gr.measure = i) : ((enqueueGroup gr s).meas i).kind = (s.meas i).kind := by
  subst h
  rw [enqueueGroup_meas, if_pos rfl]
  rfl

/-- Settles O31: the rearm asks the peers and sets up the next gate, gate by gate; the arbiter's places are the two
branches of `givePlace`. -/
theorem rearmSetsNextGate : Obligations.RearmSetsNextGate := by
  refine ⟨fun s i c r rested offer shifted base t hr hc hsh hb ht => ?_, fun s i gr hst hg hgi => ?_,
    fun s i gr hst hg => givePlace_report hst hg⟩
  · obtain rfl : shifted = (nextGate c (s.meas i) s.epochLength s.localTime rested).shifted :=
      Bool.eq_iff_iff.mpr (hsh.trans (nextGate_shifted hc).symm)
    subst ht
    have hacts := Acts.nextState (i := i) rested offer s
    refine ⟨hacts.frame, fun j hj => hacts.others j hj, nextState_faults hr hc, fun hall => ?_⟩
    obtain ⟨a, ha, hgate, hset⟩ := nextState_sets (offer := offer) hr hc rfl hb hall
    refine ⟨hset.queue, a, ha, fun hg => hset.rests hgate (nextGate_waits hg), fun z hg hal hz => ?_,
      fun hg => hset.edge hgate hg rfl, fun hg => hset.free hg rfl⟩
    exact hset.timed hgate hg (nextGate_timed hg hal ((plannedClose_iff hc hg).mpr hz))
  · rw [givePlace_group hst hg]
    refine ⟨fun hp => by rw [hp]; rfl, fun k hp => ?_⟩
    rw [hp, ← enqueueGroup_kind (s := s) hgi]
    exact enterFault_waits k _

end Sys2Proof.Machine
end

section
/-! PROOFS. A boundary at the measures and the trigger sequences, in either order. -/

namespace Sys2Proof.Machine

variable {s t u v : State} {i : Fin 8} {c : MeasureConfig}

/-! ### Loops that serve every measure -/

/-- A loop over all the measures serves each once. -/
theorem served_each {w : Bool} {f : Fin 8 → State → State} (h : ∀ i s, Acts w (Only i) s (f i s)) (s r : State)
    (i : Fin 8) : ∃ u, Acts w (fun j => j ≠ i) s u ∧
      Acts w (fun j => j ≠ i) (f i u) (forEach r.measureOrder (fun s i => f i s) s) :=
  served_one (p := fun _ => true) h s r i rfl

/-! ### Aligned gates -/

/-- Measure i is ARMED with a TIMED gate aligned to MARK, and was not rearmed in this tick (R110, R124). -/
def State.awaitsBoundary (s : State) (i : Fin 8) (c : MeasureConfig) : Prop :=
  (s.meas i).st = .armed ∧ (s.meas i).config = some c ∧ c.gate = .timed ∧ c.gateAlign = .mark ∧
    (s.meas i).rearmTick ≠ some s.eu.elapsed

theorem openAligned_opens (h : s.awaitsBoundary i c) :
    (openAligned i s).meas i = s.gateOpened (s.meas i) s.localTime := by
  obtain ⟨hst, hc, hg, ha, hr⟩ := h
  unfold openAligned
  simp only [hst, hc]
  rw [if_pos ⟨hg, ha, hr⟩, openGate_meas_self hc]

theorem openAligned_rests (h : ∀ c, ¬ s.awaitsBoundary i c) : openAligned i s = s := by
  unfold openAligned
  dsimp only
  split
  · rename_i c hst hc
    exact if_neg fun ⟨hg, ha, hr⟩ => h c ⟨hst, hc, hg, ha, hr⟩
  · rfl

/-- What a boundary asks of a measure is the same after others have been served. -/
theorem awaitsBoundary_congr (hm : t.meas i = s.meas i) (he : t.eu = s.eu) :
    t.awaitsBoundary i c ↔ s.awaitsBoundary i c := by
  unfold State.awaitsBoundary
  rw [hm, he]

/-- The station once a boundary has opened the aligned gates, before the auto-arms (R110). -/
def State.alignedOpened (s : State) : State := forEach s.measureOrder (fun s i => openAligned i s) s

theorem alignedOpened_acts (s : State) : Acts true (fun _ => True) s s.alignedOpened :=
  .forEach _ (fun i s => (Acts.openAligned (i := i) s).weaken fun _ _ => trivial) s

theorem alignedOpened_opens (h : s.awaitsBoundary i c) :
    s.alignedOpened.meas i = s.gateOpened (s.meas i) s.localTime := by
  obtain ⟨u, hu, ht⟩ := served_each (w := true) (fun i => Acts.openAligned (i := i)) s s i
  have hm := ht.meas_eq
  rw [openAligned_opens ((awaitsBoundary_congr hu.meas_eq hu.frame.eu).mpr h), hu.meas_eq, hu.frame.gateOpened,
    hu.frame.localTime] at hm
  exact hm

theorem alignedOpened_rests (h : ∀ c, ¬ s.awaitsBoundary i c) : s.alignedOpened.meas i = s.meas i := by
  obtain ⟨u, hu, ht⟩ := served_each (w := true) (fun i => Acts.openAligned (i := i)) s s i
  rw [openAligned_rests fun c hc => h c ((awaitsBoundary_congr hu.meas_eq hu.frame.eu).mp hc)] at ht
  exact ht.meas_eq.trans hu.meas_eq

/-! ### Auto-arms -/

/-- Measure i is IDLE with auto-arm, and no DISARM or CLEAR_FAULT made it so (R109, R121). -/
def Measure.autoArms (m : Measure) (c : MeasureConfig) : Prop :=
  m.st = .idle ∧ m.config = some c ∧ c.autoArm = true ∧ m.noAutoArm = false

theorem autoArm_arms (h : (s.meas i).autoArms c) : autoArm i s = armMeasure i s.localTime s := by
  obtain ⟨-, hc, ha, hn⟩ := h
  unfold autoArm
  simp only [hc, ha, hn, Bool.not_false, Bool.and_self, if_true]

theorem autoArm_rests (h : ∀ c, ¬ (s.meas i).autoArms c) : autoArm i s = s := by
  unfold autoArm
  split
  · rename_i c hc
    split
    · rename_i ha
      rw [Bool.and_eq_true, Bool.not_eq_true'] at ha
      exact armMeasure_ignores fun hst => h c ⟨hst, hc, ha.1, ha.2⟩
    · rfl
  · rfl

/-- The station with the note that its auto-arms have acted (R109). -/
def State.autoArmNoted (s : State) : State := { s with eu := { s.eu with autoArmed := true } }

theorem boundaryMeasures_armed (h : s.eu.autoArmed = true) : boundaryMeasures s = s.alignedOpened :=
  if_pos ((congrArg EpochUnit.autoArmed (alignedOpened_acts s).frame.eu).trans h)

theorem boundaryMeasures_arming (h : s.eu.autoArmed = false) : boundaryMeasures s =
    forEach s.measureOrder (fun s i => autoArm i s) s.alignedOpened.autoArmNoted := by
  refine if_neg ?_
  show ¬ s.alignedOpened.eu.autoArmed = true
  rw [(alignedOpened_acts s).frame.eu, h]
  nofun

/-- At the first boundary after becoming LOCKED each measure's auto-arm acts once, after the aligned gates (R109). -/
theorem boundaryMeasures_served (h : s.eu.autoArmed = false) (i : Fin 8) : ∃ v, MeasureFrame s.autoArmNoted v ∧
    v.meas i = s.alignedOpened.meas i ∧ s.queue <+: v.queue ∧
    Acts true (fun j => j ≠ i) (autoArm i v) (boundaryMeasures s) := by
  obtain ⟨v, hv, ht⟩ :=
    served_each (w := true) (fun i => Acts.autoArm (i := i)) s.alignedOpened.autoArmNoted s i
  have hA := alignedOpened_acts s
  exact ⟨v, hA.frame.autoArmed.trans hv.frame, hv.meas_eq, hA.queue.trans hv.queue,
    boundaryMeasures_arming h ▸ ht⟩

/-- A measure that is not auto-armed stands as the opening of the aligned gates has left it. -/
theorem boundaryMeasures_rests (h : s.eu.autoArmed = true ∨ ∀ c, ¬ (s.alignedOpened.meas i).autoArms c) :
    (boundaryMeasures s).meas i = s.alignedOpened.meas i := by
  cases hs : s.eu.autoArmed with
  | true => rw [boundaryMeasures_armed hs]
  | false =>
    obtain ⟨v, -, hm, -, ht⟩ := boundaryMeasures_served hs i
    rw [autoArm_rests fun c hc => h.resolve_left (by rw [hs]; nofun) c (hm ▸ hc)] at ht
    exact ht.meas_eq.trans hm

theorem boundaryMeasures_opens (h : s.awaitsBoundary i c) :
    (boundaryMeasures s).meas i = s.gateOpened (s.meas i) s.localTime := by
  have hm := alignedOpened_opens h
  refine (boundaryMeasures_rests (.inr fun c hc => ?_)).trans hm
  have hst := hc.1
  rw [hm] at hst
  cases hst

theorem boundaryMeasures_leaves (h : ∀ c, ¬ s.awaitsBoundary i c)
    (ha : s.eu.autoArmed = true ∨ ∀ c, ¬ (s.meas i).autoArms c) : (boundaryMeasures s).meas i = s.meas i := by
  have hm := alignedOpened_rests h
  rw [boundaryMeasures_rests (by rwa [hm]), hm]

theorem boundaryMeasures_arms (h : (s.meas i).autoArms c) (ha : s.eu.autoArmed = false) :
    Arms s.autoArmNoted (boundaryMeasures s) i c s.localTime := by
  obtain ⟨v, hf, hm, hq, ht⟩ := boundaryMeasures_served ha i
  have hm : v.meas i = s.meas i := hm.trans (alignedOpened_rests fun c hc => by
    have hst := hc.1
    rw [h.1] at hst
    cases hst)
  have hlocal : v.localTime = s.localTime := hf.localTime
  rw [autoArm_arms (hm ▸ h), hlocal] at ht
  exact (Arms.armMeasure (s := s.autoArmNoted) h.1 h.2.1 hf hm hq _).later ht.queue ht.meas_eq

/-! ### The measures and the sequences, in either order -/

/-- The measures meet the boundary in a state that at most the sequences have moved, and keep what it made of them. -/
theorem boundaryTable_measures (s : State) : ∃ u, TriggerFrame s u ∧
    (∀ i, (boundaryTable s).meas i = (boundaryMeasures u).meas i) ∧
    (boundaryTable s).queue = (boundaryMeasures u).queue := by
  unfold boundaryTable
  split
  · exact ⟨_, (Fires.boundarySequences s).frame, fun _ => rfl, rfl⟩
  · have hF := (Fires.boundarySequences (boundaryMeasures s)).frame
    exact ⟨s, .rfl' s, fun i => congrArg (Table.get · i) hF.measures, hF.queue⟩

theorem TriggerFrame.meas (h : TriggerFrame s t) (i : Fin 8) : t.meas i = s.meas i :=
  congrArg (Table.get · i) h.measures

/-- A run of the sequences before an arming leaves what it reads (R119). -/
theorem Arms.after_triggers {x : TimeStamp} (hf : TriggerFrame s u) (h : Arms u t i c x) : Arms s t i c x := by
  have hm := hf.meas i
  have hgives := peerGives_congr (congrArg Measure.config hm) hf.loader hf.peers
  refine ⟨fun ⟨k, hk, hmask⟩ => ?_, fun hall => ?_⟩
  · obtain ⟨k, hk, hmask, hF⟩ := h.faults ⟨k, (hgives k).1.mpr hk, (hgives k).2.trans hmask⟩
    exact ⟨k, (hgives k).1.mp hk, (hgives k).2.symm.trans hmask,
      hF.start (by rw [hf.queue]) (by rw [hm]) (by rw [hm])⟩
  · obtain ⟨a, ha, hgate⟩ := h.stands fun k hk => (hgives k).2.trans (hall k ((hgives k).1.mp hk))
    rw [hm] at ha
    simp only [hf.marks, hf.toMeasureFrame.gateOpened, hf.toMeasureFrame.localTime] at hgate
    exact ⟨a, ha.congr (congrArg Measure.config hm) hf.loader hf.peers, hgate⟩

theorem boundaryTable_opens (h : s.awaitsBoundary i c) :
    (boundaryTable s).meas i = s.gateOpened (s.meas i) s.localTime := by
  obtain ⟨u, hf, hmeas, -⟩ := boundaryTable_measures s
  rw [hmeas, boundaryMeasures_opens ((awaitsBoundary_congr (hf.meas i) hf.eu).mpr h), hf.meas,
    hf.toMeasureFrame.gateOpened, hf.toMeasureFrame.localTime]

theorem boundaryTable_leaves (h : ∀ c, ¬ s.awaitsBoundary i c)
    (ha : s.eu.autoArmed = true ∨ ∀ c, ¬ (s.meas i).autoArms c) : (boundaryTable s).meas i = s.meas i := by
  obtain ⟨u, hf, hmeas, -⟩ := boundaryTable_measures s
  rw [hmeas, boundaryMeasures_leaves (fun c hc => h c ((awaitsBoundary_congr (hf.meas i) hf.eu).mp hc))
    (by rwa [hf.eu, hf.meas]), hf.meas]

theorem boundaryTable_arms (h : (s.meas i).autoArms c) (ha : s.eu.autoArmed = false) :
    Arms s.autoArmNoted (boundaryTable s) i c s.localTime := by
  obtain ⟨u, hf, hmeas, hqueue⟩ := boundaryTable_measures s
  have harms := boundaryMeasures_arms (s := u) (i := i) (c := c) (by rwa [hf.meas]) (by rwa [hf.eu])
  rw [hf.toMeasureFrame.localTime] at harms
  have hnoted : TriggerFrame s.autoArmNoted u.autoArmNoted :=
    ⟨hf.toMeasureFrame.autoArmed, hf.store, hf.measures, hf.queue⟩
  exact (harms.after_triggers hnoted).later (by rw [hqueue]) (hmeas i)

/-! ### A pause -/

theorem boundarySequence_counts {q : Fin 4} {rest : List TriggerStep} {pause counted : Nat}
    (h : (s.sequences.get q).st = .running rest pause counted) : (boundarySequence q s).sequences.get q =
      if pause ≤ counted + 1 then (runSteps q s.isMute (stepDirective s) rest s.triggerSide).sequences.get q
      else { s.sequences.get q with st := .running rest pause (counted + 1) } := by
  show (s.triggerSide.boundary q s.isMute (stepDirective s)).sequences.get q = _
  rw [TriggerSide.boundary_running (x := s.triggerSide) h]
  split
  · rfl
  · exact Table.get_set_self _ _ _

theorem boundarySequence_resting {q : Fin 4} (h : (s.sequences.get q).st.isRunning = false) :
    (boundarySequence q s).sequences.get q = s.sequences.get q := by
  show (s.triggerSide.boundary q s.isMute (stepDirective s)).sequences.get q = _
  rw [TriggerSide.boundary_resting (x := s.triggerSide) h]
  rfl

/-- Settles O14: the boundary opens the aligned gates, arms the auto-arms, and is counted by the pauses, whichever of
measures and sequences it reaches first. -/
theorem boundaryServesMeasuresAndSequences : Obligations.BoundaryServesMeasuresAndSequences := by
  refine fun s _ => ⟨boundaryTable_frame s, fun i c hst hc hg ha hr => boundaryTable_opens ⟨hst, hc, hg, ha, hr⟩,
    fun i c hst hc ha hn hfirst => ?_, fun i hgate hauto => ?_, fun q hq => ?_⟩
  · obtain ⟨hfaults, hstands⟩ := boundaryTable_arms ⟨hst, hc, ha, hn⟩ hfirst
    refine ⟨hfaults, fun hall => ?_⟩
    obtain ⟨a, hasked, hwaits, hopens, haligned⟩ := hstands hall
    refine ⟨a, hasked.congr rfl rfl rfl, hwaits, fun h => ?_⟩
    rcases h with h | ⟨hg, hal | hb⟩
    · exact hopens (.inl h)
    · exact hopens (.inr ⟨hg, hal⟩)
    · cases hal : c.gateAlign with
      | unaligned => exact hopens (.inr ⟨hg, hal⟩)
      | mark => exact haligned hg hal hb
  · refine boundaryTable_leaves (fun c ⟨hst, hc, hg, ha, hr⟩ => ?_) ?_
    · rcases hgate with h | h | h
      · exact h hst
      · exact hr h
      · exact (h c hc).elim (· hg) (· ha)
    · rcases hauto with h | h | h | h
      · exact .inr fun c hc => h hc.1
      · exact .inl h
      · refine .inr fun c ⟨_, _, _, hn⟩ => ?_
        rw [h] at hn
        cases hn
      · refine .inr fun c ⟨_, hc, ha, _⟩ => ?_
        rw [h c hc] at ha
        cases ha
  · rw [boundaryTable_sequence s q hq]
    exact ⟨fun rest pause counted h hp => (boundarySequence_counts h).trans (if_neg (Nat.not_le.mpr hp)),
      fun rest pause counted h hp => (boundarySequence_counts h).trans (if_pos hp), boundarySequence_resting⟩

end Sys2Proof.Machine
end

section
/-! PROOFS. Directives that come due at the measures, and the overrun of a gate. -/

namespace Sys2Proof.Machine

variable {s : State} {i : Fin 8} {c : MeasureConfig} {z : TimeStamp}

/-! ### What a directive leaves of the station -/

/-- A part of the state that no measure's share of a directive changes stands after the whole directive. -/
theorem forSelected_keeps {α : Type} (part : State → α) {f : Fin 8 → State → State}
    (h : ∀ i s, part (f i s) = part s) (mask : BitVec 8) (s : State) : part (forSelected mask f s) = part s := by
  have loop : ∀ (l : List (Fin 8)) (s : State),
      part (forEach l (fun s i => if mask.getLsbD i.val then f i s else s) s) = part s := by
    intro l
    induction l with
    | nil => exact fun _ => rfl
    | cons i l ih =>
      intro s
      refine (ih (if mask.getLsbD i.val then f i s else s)).trans ?_
      split
      · exact h i s
      · rfl
  exact loop _ s

/-- What a directive's loop leaves of a selected measure is what its share leaves, in a state in which that measure
still stands as before. -/
theorem forSelected_meas {f : Fin 8 → State → State} (hf : ∀ i s, Acts true (Only i) s (f i s)) {mask : BitVec 8}
    (hi : mask.getLsbD i.val = true) {m : Measure}
    (h : ∀ u, MeasureFrame s u → u.meas i = s.meas i → (f i u).meas i = m) :
    (forSelected mask f s).meas i = m := by
  obtain ⟨u, hu, ht⟩ := forSelected_served hf mask s hi
  exact ht.meas_eq.trans (h u hu.frame hu.meas_eq)

/-- A directive whose share at each measure is this rewriting of it rewrites the selected measures so. -/
theorem forSelected_rewrites {f : Fin 8 → State → State} (hf : ∀ i s, Acts true (Only i) s (f i s))
    {g : Measure → Measure} (h : ∀ i s, (f i s).meas i = g (s.meas i)) (mask : BitVec 8) (s : State) (i : Fin 8) :
    (forSelected mask f s).meas i = if mask.getLsbD i.val then g (s.meas i) else s.meas i := by
  split
  · rename_i hi
    exact forSelected_meas hf hi fun u _ hu => (h i u).trans (by rw [hu])
  · rename_i hi
    exact (forSelected_acts hf mask s).others i hi

/-! ### DISARM and CLEAR_FAULT -/

theorem becomeIdle_meas (i : Fin 8) (s : State) : (becomeIdle i s).meas i = (s.meas i).idled := by
  show (s.modMeas i Measure.idled).meas i = _
  rw [State.meas_modMeas, if_pos rfl]

theorem putIdle_meas (i : Fin 8) (s : State) :
    (putIdle i s).meas i = { (s.meas i).idled with noAutoArm := true } := by
  unfold putIdle
  rw [State.meas_modMeas, if_pos rfl, becomeIdle_meas]

/-- What DISARM makes of a measure: IDLE if it is loaded; one that was IDLE keeps its auto-arm (R121; log 40). -/
def Measure.disarmed (m : Measure) : Measure :=
  if m.st ≠ .disabled ∧ m.st ≠ .unloaded then
    { m.dropBlock with st := .idle, noAutoArm := m.noAutoArm || m.st != .idle }
  else m

/-- What CLEAR_FAULT makes of a measure: IDLE if it is in FAULT (R121). -/
def Measure.faultCleared (m : Measure) : Measure :=
  if m.st = .fault then { m.dropBlock with st := .idle, noAutoArm := true } else m

theorem disarmMeasure_meas (i : Fin 8) (s : State) : (disarmMeasure i s).meas i = (s.meas i).disarmed := by
  unfold disarmMeasure Measure.disarmed
  split
  · rename_i hst
    rw [if_neg fun h => h.1 hst]
  · rename_i hst
    rw [if_neg fun h => h.2 hst]
  · rename_i hst
    rw [becomeIdle_meas, if_pos (by rw [hst]; exact ⟨nofun, nofun⟩), hst, bne_self_eq_false, Bool.or_false]
    rfl
  · rename_i hd hu hi
    rw [putIdle_meas, if_pos ⟨hd, hu⟩, bne_iff_ne.mpr hi, Bool.or_true]
    rfl

theorem clearFaultMeasure_meas (i : Fin 8) (s : State) :
    (clearFaultMeasure i s).meas i = (s.meas i).faultCleared := by
  unfold clearFaultMeasure Measure.faultCleared
  split
  · rename_i hst
    rw [if_pos hst, putIdle_meas]
    rfl
  · rename_i hst
    exact (if_neg hst).symm

theorem disarmMeasure_queue (i : Fin 8) (s : State) : (disarmMeasure i s).queue = s.queue := by
  unfold disarmMeasure
  split <;> rfl

theorem clearFaultMeasure_queue (i : Fin 8) (s : State) : (clearFaultMeasure i s).queue = s.queue := by
  unfold clearFaultMeasure
  split <;> rfl

theorem disarm_gives {d : Directive} (h : s.dueDirective .disarm = some d) :
    Gives .disarm s (forSelected d.mask disarmMeasure s.popDirective) :=
  gives_of_effect_eq nofun nofun (by simp only [effect, effectDisarm, h]; rfl)

theorem clearFault_gives {d : Directive} (h : s.dueDirective .clearFault = some d) :
    Gives .clearFault s (forSelected d.mask clearFaultMeasure s.popDirective) :=
  gives_of_effect_eq nofun nofun (by simp only [effect, effectClearFault, h]; rfl)

/-- Settles O52: each selected measure becomes IDLE, or stays, and the queue stays. -/
theorem disarmAndClearFaultMakeIdle : Obligations.DisarmAndClearFaultMakeIdle := by
  refine fun s d => ⟨fun hd => ?_, fun hd => ?_⟩
  · have hacts := fun i => Acts.disarmMeasure (w := true) (i := i)
    exact ⟨_, disarm_gives hd, (forSelected_acts hacts d.mask s.popDirective).frame,
      forSelected_keeps (·.queue) disarmMeasure_queue d.mask s.popDirective,
      fun i => (forSelected_rewrites hacts disarmMeasure_meas d.mask s.popDirective i).trans (ite_and ..).symm⟩
  · have hacts := fun i => Acts.clearFaultMeasure (w := true) (i := i)
    exact ⟨_, clearFault_gives hd, (forSelected_acts hacts d.mask s.popDirective).frame,
      forSelected_keeps (·.queue) clearFaultMeasure_queue d.mask s.popDirective,
      fun i => (forSelected_rewrites hacts clearFaultMeasure_meas d.mask s.popDirective i).trans (ite_and ..).symm⟩

/-! ### GATE_OPEN and GATE_CLOSE -/

/-- Opening a gate writes the one measure. -/
theorem openGate_writes (i : Fin 8) (x : TimeStamp) (s : State) : ∃ m, openGate i x s = s.setMeas i m := by
  cases hc : (s.meas i).config with
  | none =>
    refine ⟨s.meas i, ?_⟩
    unfold openGate
    simp only [hc, State.setMeas_self]
  | some c => exact ⟨_, openGate_meas hc x⟩

/-- A GATE_OPEN in time opens the gate of an ARMED measure with a DIRECTIVE gate (R112). -/
theorem gateOpenMeasure_opens (hst : (s.meas i).st = .armed) (hg : (s.meas i).config.map (·.gate) = some .directive) :
    gateOpenMeasure i z false s = openGate i z s := by
  rw [gateOpenMeasure_takes hst hg]
  exact if_pos hst

/-- A GATE_CLOSE in time closes the gate of an OPEN measure with a DIRECTIVE gate (R112). -/
theorem gateCloseMeasure_closes (hst : (s.meas i).st = .opened)
    (hg : (s.meas i).config.map (·.gate) = some .directive) : gateCloseMeasure i z false s = closeGate i z s := by
  rw [gateCloseMeasure_takes hst hg]
  exact if_pos hst

theorem gateOpenMeasure_writes (i : Fin 8) (z : TimeStamp) (s : State) :
    ∃ m, gateOpenMeasure i z false s = s.setMeas i m := by
  by_cases hn : (s.meas i).st ≠ .armed ∨ (s.meas i).config.map (·.gate) ≠ some .directive
  · exact ⟨s.meas i, (gateOpenMeasure_ignores hn).trans (State.setMeas_self s i).symm⟩
  · obtain ⟨hst, hg⟩ := not_or.mp hn
    rw [gateOpenMeasure_opens (not_not.mp hst) (not_not.mp hg)]
    exact openGate_writes i z s

/-- A GATE_OPEN in time leaves the Result Queue and the Store. -/
theorem gateOpenMeasure_keeps (i : Fin 8) (z : TimeStamp) (s : State) :
    (gateOpenMeasure i z false s).queue = s.queue ∧ (gateOpenMeasure i z false s).store = s.store := by
  obtain ⟨m, hm⟩ := gateOpenMeasure_writes i z s
  rw [hm]
  exact ⟨rfl, rfl⟩

theorem gateOpen_gives {d : Directive} (h : s.dueDirective .gateOpen = some d) :
    Gives .gateOpen s (forSelected d.mask (fun i => gateOpenMeasure i d.time false) s.popDirective) :=
  gives_of_effect_eq nofun nofun (by simp only [effect, effectGateOpen, h]; rfl)

theorem gateOpen_opens {mask : BitVec 8} (hi : mask.getLsbD i.val = true) (hst : (s.meas i).st = .armed)
    (hg : (s.meas i).config.map (·.gate) = some .directive) :
    (forSelected mask (fun i => gateOpenMeasure i z false) s).meas i = s.gateOpened (s.meas i) z := by
  obtain ⟨c, hc, -⟩ := Option.map_eq_some_iff.mp hg
  refine forSelected_meas (fun i => Acts.gateOpenMeasure (i := i) z false) hi fun u hu hm => ?_
  rw [← hm] at hst hg hc ⊢
  rw [gateOpenMeasure_opens hst hg, openGate_meas hc, State.meas_setMeas, if_pos rfl]
  exact hu.gateOpened _ _

theorem gateClose_shuts {mask : BitVec 8} (hi : mask.getLsbD i.val = true) (hst : (s.meas i).st = .opened)
    (hc : (s.meas i).config = some c) (hg : c.gate = .directive) (hk : c.kind ≠ .totalize) :
    (forSelected mask (fun i => gateCloseMeasure i z false) s).meas i
      = { s.meas i with st := .closing, closeTime := some z } := by
  refine forSelected_meas (fun i => Acts.gateCloseMeasure (i := i) z false) hi fun u _ hm => ?_
  rw [← hm] at hst hc ⊢
  rw [gateCloseMeasure_closes hst (by rw [hc, Option.map_some, hg]), closeGate_shuts hc hk, State.meas_setMeas,
    if_pos rfl]

/-- Settles O53: an ARMED measure's gate opens, an OPEN one's closes, and the others stay as they are. -/
theorem directiveGatesOpenAndClose : Obligations.DirectiveGatesOpenAndClose := by
  refine fun s d => ⟨fun hd => ?_, fun hd => ?_⟩
  · have hacts := fun i => Acts.gateOpenMeasure (i := i) d.time false
    exact ⟨_, gateOpen_gives hd, (forSelected_acts hacts d.mask s.popDirective).frame,
      forSelected_keeps (·.queue) (fun i s => (gateOpenMeasure_keeps i d.time s).1) d.mask s.popDirective,
      forSelected_keeps (·.store) (fun i s => (gateOpenMeasure_keeps i d.time s).2) d.mask s.popDirective,
      fun i => ⟨gateOpen_opens (s := s.popDirective), fun hn => forSelected_ignores hacts d.mask s.popDirective
        (hn.imp_right fun h u hu => gateOpenMeasure_ignores (by rw [hu]; exact h))⟩⟩
  · have hacts := fun i => Acts.gateCloseMeasure (i := i) d.time false
    exact ⟨_, gateClose_gives hd, (forSelected_acts hacts d.mask s.popDirective).frame,
      fun i => ⟨fun c => gateClose_shuts (s := s.popDirective),
        fun hn => forSelected_ignores hacts d.mask s.popDirective
        (hn.imp_right fun h u hu => gateCloseMeasure_ignores (by rw [hu]; exact h))⟩⟩

/-! ### FLUSH -/

/-- Settles O55: a FLUSH in time does at each measure what a late one does, with its own time as time of effect. -/
theorem flushFinishesOrCloses : Obligations.FlushFinishesOrCloses := by
  intro s d hd
  have hacts := fun i => Acts.flushMeasure (i := i) d.time
  exact ⟨_, flush_gives hd, (forSelected_acts hacts d.mask s.popDirective).frame,
    fun i => ⟨fun hn => forSelected_ignores hacts d.mask s.popDirective
      (hn.imp_right fun h u hu => flushMeasure_ignores (by rw [hu]; exact h)),
    flush_shuts (s := s.popDirective), flush_reportsInterval (s := s.popDirective)⟩⟩

/-! ### GATE_OVERRUN -/

/-- An overrun just closes the gate of a measure that counts no edges, with OVERRANGE (R113, R115). -/
theorem overrunGate_shuts (hc : (s.meas i).config = some c) (hk : c.kind ≠ .totalize) :
    overrunGate i z s = s.setMeas i { (s.meas i).qualify .overrange with st := .closing, closeTime := some z } := by
  have hm := meas_modMeas_of (rfl : s.meas i = s.meas i) (·.qualify .overrange)
  unfold overrunGate
  rw [closeGate_shuts (by rw [hm]; exact hc) hk, hm, modMeas_setMeas]

/-- The G role of a CLOSING measure stops at a stamp at or after the close time (R113, R151). -/
theorem rescanGate_closing_view (hst : (s.meas i).st = .closing) (hz : (s.meas i).closeTime = some z) {e : Entry}
    {back : List Entry} (hv : (rescanGate i s).view i .G = e :: back) :
    e.heldFor i .G = false ∧ earlier e.time z = false := by
  have hfuel : (s.view i .G).length < s.scanFuel := by
    have := view_length_le s i .G
    unfold State.scanFuel
    omega
  obtain ⟨hh, hb⟩ := scanGate_closing_view _ true s hst hfuel hv
  refine ⟨hh, Bool.eq_false_iff.mpr fun he => ?_⟩
  rw [beforeClose_iff.mpr ⟨z, hz, he⟩] at hb
  cases hb

/-- Settles O26: the overrun writes the one measure, and the G role of a CLOSING measure only passes the stamps earlier
than the close time. -/
theorem gateOverrunCloses : Obligations.GateOverrunCloses := by
  intro s i c o hst hc hg ho hr
  have hacts : Acts true (Only i) s (rescanGate i (overrunGate i (addEpochs o c.spanLimit.toNat) s)) :=
    (Acts.overrunGate _ s).trans (.rescanGate _)
  refine ⟨_, gateOverrun_gives hst hc hg ho hr, hacts.frame, hacts.others, fun hk => ?_, fun hk hv => ?_⟩
  all_goals
    generalize addEpochs o c.spanLimit.toNat = z
    have hm : (overrunGate i z s).meas i =
        { (s.meas i).qualify .overrange with st := .closing, closeTime := some z } := by
      rw [overrunGate_shuts hc hk, State.meas_setMeas, if_pos rfl]
    have hclosing : ((overrunGate i z s).meas i).st = .closing := by rw [hm]
  · refine ⟨?_, (rescanGate_closing_meas hclosing i).trans hm,
      fun e back => rescanGate_closing_view hclosing (by rw [hm])⟩
    refine (scanGate_closing _ true _ hclosing).2.1.trans ?_
    rw [overrunGate_shuts hc hk]
    rfl
  · have hnil : (overrunGate i z s).view i .G = [] := by
      rw [overrunGate_shuts hc hk]
      exact hv
    rw [rescanGate_nil i _ hnil (by rw [hclosing]; nofun), hm, overrunGate_shuts hc hk]

end Sys2Proof.Machine
end

section
/-! PROOFS. The judgement of a RECIPROCAL measure: the stamp at its A cursor, and the two parts of counting it. -/

namespace Sys2Proof.Machine

variable {s t u : State} {i : Fin 8} {e : Entry} {back : List Entry} {x : Move}

/-! ### What counting a stamp does -/

theorem examineAB_meas_reciprocal (hk : (s.meas i).kind = .reciprocal) (e : Entry) :
    (examineAB i e s).meas i = { s.meas i with block := { (s.meas i).block with
      quals := setQualIf (e.drops != 0 && e.drops != 255 && !s.hasExamined i e) .drops (s.meas i).block.quals } } := by
  rw [examineAB_meas]
  split
  · rename_i h
    have hno : (e.drops != 0 && e.drops != 255 && !s.hasExamined i e) = false := by
      rcases h with h | h <;> simp [h]
    rw [hno]
    rfl
  · rename_i h
    obtain ⟨hx, h0⟩ := not_or.mp h
    split
    · rename_i h5
      rw [if_neg (by rw [hk]; nofun), h5]
      rfl
    · rename_i h5
      have hyes : (e.drops != 0 && e.drops != 255 && !s.hasExamined i e) = true := by
        rw [bne_iff_ne.mpr h0, bne_iff_ne.mpr h5, Bool.eq_false_iff.mpr hx]
        rfl
      rw [hyes]
      rfl

/-- The station once the A role has taken a later stamp and the block has counted it with its losses: what the two parts
of counting look at (R131, R147). -/
def State.counted (s : State) (i : Fin 8) (e : Entry) : State :=
  (passExamined i .A s e).modMeas i fun m =>
    { m with block := { m.block with events := m.block.events + 1 + e.drops.setWidth 48, last := some e.time } }

theorem counted_meas (hk : (s.meas i).kind = .reciprocal) (e : Entry) : (s.counted i e).meas i = { s.meas i with
    block := { (s.meas i).block with
      events := (s.meas i).block.events + 1 + e.drops.setWidth 48
      last := some e.time
      quals := setQualIf (e.drops != 0 && e.drops != 255 && !s.hasExamined i e) .drops (s.meas i).block.quals } } := by
  unfold State.counted
  rw [State.meas_modMeas, if_pos rfl, passExamined_meas, examineAB_meas_reciprocal hk]

theorem counted_queue (e : Entry) (s : State) : (s.counted i e).queue = s.queue := examineAB_queue e s

/-- What passing an entry leaves does not look at the measures. -/
theorem Passes.of_store {r : Role} (h : Passes i r e s u) (ht : t.store = u.store) : Passes i r e s t where
  role := by rw [view_of_store ht]; exact h.role
  others j q hq := by rw [view_of_store ht]; exact h.others j q hq
  publish := by rw [ht]; exact h.publish
  wanted := by rw [ht]; exact h.wanted

/-- The GAP part looks at the stamp's drop count, which nothing changes (R147). -/
theorem reciprocalGap_part (e : Entry) (s : State) (p : Bool) (q : BitVec 12) :
    PartOf s i .gap (e.drops = 255) q p (reciprocalGap i e (s.carrying i p q)) := by
  by_cases h : e.drops = 255
  · exact .found h (if_pos h)
  · exact .absent h (if_neg h)

/-- The two parts of counting a stamp, in either order (R147; log 7). -/
theorem countingParts (b : Bool) (e : Entry) (s : State) :
    BothPartsOf s i .gap .storeFull (e.drops = 255) ((s.meas i).pendingA = true) (s.meas i).block.quals
      (bothParts b (reciprocalGap i e) (reciprocalStoreFull i) s) := by
  have hg := reciprocalGap_part (i := i) e s
  have hf := reciprocalStoreFull_part (i := i) s
  have hg' := hg (s.meas i).pendingA (s.meas i).block.quals
  have hf' := hf (s.meas i).block.quals
  rw [carrying_self] at hg' hf'
  cases b with
  | false => exact hg'.then hf rfl
  | true => exact (hf'.then (hg false) rfl).symm

theorem hasQual_setQualIf_iff (p : Bool) (q r : Qualifier) (w : BitVec 12) :
    hasQual q (setQualIf p r w) = true ↔ hasQual q w = true ∨ (q = r ∧ p = true) := by
  cases p
  · exact ⟨.inl, fun h => h.resolve_right fun h' => nomatch h'.2⟩
  · exact (hasQual_setQual_iff q r w).trans (or_congr_right (and_iff_left rfl).symm)

/-- A measure as the first stamp of a block leaves it (R146). -/
def Measure.countsFrom (m : Measure) (z : TimeStamp) : Measure := { m with block := { m.block with first := some z } }

theorem countStamp_first (h : (s.meas i).block.first = none) : countStamp i e s =
    ⟨(s.setMeas i ((s.meas i).countsFrom e.time)).passEntry i .A e, true⟩ := by
  unfold countStamp
  simp only [h]
  rfl

theorem countStamp_later (h : (s.meas i).block.first ≠ none) : countStamp i e s =
    bothParts s.order.storeFullFirst (reciprocalGap i e) (reciprocalStoreFull i) (s.counted i e) := by
  obtain ⟨z, hz⟩ := Option.ne_none_iff_exists'.mp h
  unfold countStamp
  simp only [hz]
  rfl

/-- What counting a stamp after the first of its block does to the measure (R119, R131, R147). -/
theorem countStamp_parts (hk : (s.meas i).kind = .reciprocal) (h : (s.meas i).block.first ≠ none) :
    BothPartsOf (s.counted i e) i .gap .storeFull (e.drops = 255) ((s.meas i).pendingA = true)
      (setQualIf (e.drops != 0 && e.drops != 255 && !s.hasExamined i e) .drops (s.meas i).block.quals)
      (countStamp i e s) := by
  have hp := countingParts (i := i) s.order.storeFullFirst e (s.counted i e)
  rw [counted_meas hk] at hp
  rw [countStamp_later h]
  exact hp

theorem counted_masks (hk : (s.meas i).kind = .reciprocal) (e : Entry) (k : FaultKind) :
    ((s.counted i e).meas i).masks k = (s.meas i).masks k := by
  rw [counted_meas hk]
  rfl

/-- A measure as a later stamp leaves it, counted with its losses and with the qualifiers of its parts (R131, R147). -/
def State.stampCounted (s : State) (i : Fin 8) (e : Entry) : Measure :=
  { s.meas i with
    pendingA := false
    block := { (s.meas i).block with
      events := (s.meas i).block.events + 1 + e.drops.setWidth 48
      last := some e.time
      quals := setQualIf (s.meas i).pendingA (.fault .storeFull)
        (setQualIf (e.drops == 255) (.fault .gap)
          (setQualIf (e.drops != 0 && e.drops != 255 && !s.hasExamined i e) .drops (s.meas i).block.quals)) } }

/-- Parts whose conditions are absent or masked leave the stamp counted (R147). -/
theorem countStamp_counts (hk : (s.meas i).kind = .reciprocal) (h : (s.meas i).block.first ≠ none)
    (hg : e.drops ≠ 255 ∨ (s.meas i).masks .gap = true)
    (hf : (s.meas i).pendingA = false ∨ (s.meas i).masks .storeFull = true) :
    countStamp i e s = ⟨(s.counted i e).setMeas i (s.stampCounted i e), true⟩ := by
  obtain ⟨q, hy, hq⟩ := (countStamp_parts (e := e) hk h).passes (hg.imp_right (counted_masks hk e _).trans)
    (hf.imp Bool.eq_false_iff.mp (counted_masks hk e _).trans)
  have hquals : q = (s.stampCounted i e).block.quals := quals_ext fun r => by
    rw [hq]
    simp only [State.stampCounted, hasQual_setQualIf_iff, beq_iff_eq, or_assoc]
  rw [hy, State.carrying, counted_meas hk, hquals]
  rfl

/-- A fault over a counted stamp is a fault of the measure as it stood (R119). -/
theorem Faults.of_counted {k : FaultKind} (hk : (s.meas i).kind = .reciprocal) (h : Faults (s.counted i e) t i k) :
    Faults s t i k :=
  h.start (by rw [counted_queue]) (by rw [counted_meas hk]) (by rw [counted_meas hk]; rfl)

/-! ### The moves of the judgement -/

/-- An OPEN or CLOSING RECIPROCAL measure whose A cursor stands at e, a stamp it judges (R130, R146). -/
structure Meets (s : State) (i : Fin 8) (e : Entry) (back : List Entry) : Prop where
  inGate : (s.meas i).st = .opened ∨ (s.meas i).st = .closing
  kind : ∃ c, (s.meas i).config = some c ∧ c.kind = .reciprocal
  cursor : s.view i .A = e :: back
  nothingB : s.passable i .B = none
  judged : e.heldFor i .A = false
  above : (s.meas i).isBelow e.time = false

/-- With nothing below its gate a RECIPROCAL measure looks for a stamp to count. -/
theorem judgeMove_reciprocal (hst : (s.meas i).st = .opened ∨ (s.meas i).st = .closing)
    (hk : ∃ c, (s.meas i).config = some c ∧ c.kind = .reciprocal) (hA : s.passable i .A = none)
    (hB : s.passable i .B = none) : judgeMove i s = reciprocalMove i s := by
  obtain ⟨c, hc, hk⟩ := hk
  have ha : (s.meas i).st.active = true := by rcases hst with h | h <;> rw [h] <;> rfl
  have hn : (s.meas i).st ≠ .armed := by rcases hst with h | h <;> rw [h] <;> nofun
  simp only [judgeMove, hc, ha, hA, hB, hk, hn, if_true, if_false]

theorem passable_nil {r : Role} (h : s.view i r = []) : s.passable i r = none := by
  simp only [State.passable, h]

theorem Meets.move (h : Meets s i e back) : judgeMove i s =
    if s.knownOpen i e.time && !s.beyondGate i e.time then some (countStamp i e s) else none := by
  have hA : s.passable i .A = none := by
    simp only [State.passable, h.cursor, h.judged, h.above, Bool.or_self, Bool.false_eq_true, if_false]
  have hstamps : s.stamps i .A = e :: back.filter fun f => !f.heldFor i .A := by
    unfold State.stamps
    rw [h.cursor, List.filter_cons, h.judged]
    rfl
  rw [judgeMove_reciprocal h.inGate h.kind hA h.nothingB]
  unfold reciprocalMove
  simp only [hstamps]

theorem Meets.reciprocal (h : Meets s i e back) : (s.meas i).kind = .reciprocal := by
  obtain ⟨c, hc, hk⟩ := h.kind
  rw [kind_of_config hc, hk]

/-- A RECIPROCAL measure with no stamp in its views has no move. -/
theorem judgeMove_reciprocal_nil (hst : (s.meas i).st = .opened ∨ (s.meas i).st = .closing)
    (hk : ∃ c, (s.meas i).config = some c ∧ c.kind = .reciprocal) (hA : s.view i .A = []) (hB : s.view i .B = []) :
    judgeMove i s = none := by
  rw [judgeMove_reciprocal hst hk (passable_nil hA) (passable_nil hB)]
  simp only [reciprocalMove, stamps_nil hA]

/-- A move after which none is possible is the last of SAMPLE_SETTLE (R129). -/
theorem sampleSettle_only (h : judgeMove i s = some x) (hg : x.goesOn = true) (hn : judgeMove i x.state = none) :
    Gives (.sampleSettle i) s x.state := by
  have hj : judge i s = ⟨x.state, true⟩ := (judge_move h hg).trans (judge_none hn)
  refine gives_of_effect_eq nofun nofun ?_
  show (judge i s).state = _
  rw [hj]

/-- Passing the one stamp of a view empties it. -/
theorem Passes.view_single {r : Role} (h : Passes i r e s t) (hv : s.view i r = [e]) : t.view i r = [] := by
  have hr := h.role
  rw [hv, List.filter_singleton, same_self] at hr
  exact List.map_eq_nil_iff.mp hr

/-- The stamp taken, the judgement goes on with the next, and ends where there is none (R146). -/
theorem Meets.counts {m : Measure} (h : Meets s i e back) (hm : judgeMove i s = some ⟨t, true⟩)
    (hp : Passes i .A e s t) (ht : t.meas i = m) (hst : m.st = (s.meas i).st) (hc : m.config = (s.meas i).config) :
    exec (.sampleSettle i) s = exec (.sampleSettle i) t ∧
      (back = [] → s.view i .B = [] → Gives (.sampleSettle i) s t) := by
  refine ⟨sampleSettle_move hm rfl, fun hback hB => sampleSettle_only hm rfl ?_⟩
  refine judgeMove_reciprocal_nil (by rw [ht, hst]; exact h.inGate) (by rw [ht, hc]; exact h.kind)
    (hp.view_single (by rw [h.cursor, hback])) ((Acts.judgeMove hm).views i .B hB)

/-- In its gate a measure judges from its open time on (R130). -/
theorem isBelow_inGate {m : Measure} (hst : m.st = .opened ∨ m.st = .closing) {z : TimeStamp}
    (h : ∀ o, m.openTime = some o → earlier z o = false) : m.isBelow z = false := by
  have hb : m.bottom = m.openTime := by
    unfold Measure.bottom
    rcases hst with h | h <;> rw [h]
  unfold Measure.isBelow
  rw [hb]
  cases ho : m.openTime with
  | none => rfl
  | some o => exact h o ho

/-- Settles O35: the one move is `countStamp`, whose two parts, in either order, mark the block or end in FAULT. -/
theorem settleCountsReciprocalStamp : Obligations.SettleCountsReciprocalStamp := by
  intro s i c e back hst hc hck hv hB hh hbelow
  have hmeets : Meets s i e back := ⟨hst, ⟨c, hc, hck⟩, hv, hB, hh, isBelow_inGate hst hbelow⟩
  have hk := hmeets.reciprocal
  refine ⟨fun hn => ?_, fun hopen hb => ?_⟩
  · have hnone : judgeMove i s = none := by
      rw [hmeets.move]
      rcases hn with h | h <;> simp [h]
    exact gives_self nofun nofun (congrArg Move.state (judge_none hnone))
  · have hmove : judgeMove i s = some (countStamp i e s) := by
      rw [hmeets.move, hopen, hb]
      rfl
    have hacts := Acts.judgeMove hmove
    refine ⟨(countStamp i e s).state, hacts.frame, hacts.others, fun m hm => ?_, fun hf hd hmask => ?_,
      fun hf hp hmask => ?_⟩
    · rcases hm with ⟨hf, rfl⟩ | ⟨hf, hgap, hfull, rfl⟩
      · rw [countStamp_first hf] at hmove ⊢
        have hp : Passes i .A e s ((s.setMeas i ((s.meas i).countsFrom e.time)).passEntry i .A e) :=
          (passEntry_passes .A e s).of_store rfl
        have ht : ((s.setMeas i ((s.meas i).countsFrom e.time)).passEntry i .A e).meas i = _ :=
          (State.meas_setMeas s i i _).trans (if_pos rfl)
        exact ⟨ht, rfl, hp, hmeets.counts hmove hp ht rfl rfl⟩
      · rw [countStamp_counts hk hf hgap hfull] at hmove ⊢
        have hp : Passes i .A e s ((s.counted i e).setMeas i (s.stampCounted i e)) :=
          (passExamined_passes .A e s).of_store rfl
        have ht : ((s.counted i e).setMeas i (s.stampCounted i e)).meas i = _ :=
          (State.meas_setMeas _ i i _).trans (if_pos rfl)
        exact ⟨ht, counted_queue e s, hp, hmeets.counts hmove hp ht rfl rfl⟩
    · obtain ⟨hg, hst, hF⟩ := (countStamp_parts (e := e) hk hf).first hd ((counted_masks hk e _).trans hmask)
      exact ⟨sampleSettle_last hmove hg, hst,
        fun h => (hF (h.imp Bool.eq_false_iff.mp (counted_masks hk e _).trans)).of_counted hk⟩
    · obtain ⟨hg, hst, hF⟩ := (countStamp_parts (e := e) hk hf).second hp ((counted_masks hk e _).trans hmask)
      exact ⟨sampleSettle_last hmove hg, hst,
        fun h => (hF (h.imp_right (counted_masks hk e _).trans)).of_counted hk⟩

end Sys2Proof.Machine
end

section
/-! PROOFS. A judgement move by move, the sample of one start and one stop, and what an INTERVAL block reports of the
samples it holds. -/

namespace Sys2Proof.Machine

variable {s t : State} {i : Fin 8} {c : MeasureConfig} {a b e : Entry}

/-! ### Every move -/

/-- Settles O32: each move is the judgement's next, and with none the judgement leaves the station as it is. -/
theorem judgementMakesEveryMove : Obligations.JudgementMakesEveryMove := fun _ _ =>
  ⟨fun h => gives_self nofun nofun (congrArg Move.state (judge_none h)),
    fun _ h => ⟨sampleSettle_move h, sampleSettle_last h⟩⟩

/-! ### One start and one stop -/

theorem stamps_single {r : Role} (hv : s.view i r = [e]) (hh : e.heldFor i r = false) : s.stamps i r = [e] := by
  simp only [State.stamps, hv, List.filter_singleton, hh, Bool.not_false, cond_true]

/-- A stamp that is not held and not below the gate is not passed unexamined (R130, R151). -/
theorem passable_none {r : Role} {back : List Entry} (hv : s.view i r = e :: back) (hh : e.heldFor i r = false)
    (hb : (s.meas i).isBelow e.time = false) : s.passable i r = none := by
  simp only [State.passable, hv, hh, hb, Bool.or_self, Bool.false_eq_true, if_false]

theorem staleStart_none {back : List Entry} (hA : s.stamps i .A = a :: back)
    (h : ∀ z, (s.meas i).lastStop = some z → earlier a.time z = false) : s.staleStart i = none := by
  unfold State.staleStart
  rw [hA]
  cases hl : (s.meas i).lastStop with
  | none => rfl
  | some z => simp only [h z hl, Bool.false_and, Bool.false_eq_true, if_false]

theorem barrenStop_none {aback bback : List Entry} (hA : s.stamps i .A = a :: aback) (hB : s.stamps i .B = b :: bback)
    (hl : later b.time a.time = true) : s.barrenStop i = none := by
  simp only [State.barrenStop, hA, hB, hl, Bool.not_true, Bool.false_and, Bool.false_eq_true, if_false]

/-- Under FIRST an oldest start and a later stop known to lie in the gate settle as a sample (R134). -/
theorem intervalMove_takes {aback bback : List Entry} (hp : c.policy = .first) (hA : s.stamps i .A = a :: aback)
    (hB : s.stamps i .B = b :: bback) (hlast : ∀ z, (s.meas i).lastStop = some z → earlier a.time z = false)
    (hl : later b.time a.time = true) (hk : s.knownOpen i b.time = true) :
    intervalMove i c s = some (takeSample i c a b s) := by
  have hstop : s.stopOf i a = some b := stopOf_some (front := []) hB nofun hl
  exact intervalMove_settles (staleStart_none hA hlast) (barrenStop_none hA hB hl) (abandoned_none hA hstop)
    (superseded_first hp) (settled_first hp hA hstop hk)

/-! ### The sample taken -/

/-- A drop count of 0 moves nothing in the measure (R131). -/
theorem passExamined_lossless (r : Role) (h : e.drops = 0) (s : State) :
    (passExamined i r s e).meas i = s.meas i := by
  rw [passExamined_meas, examineAB_meas, if_pos (.inr h)]

theorem sampleTaken_single (hA : s.stamps i .A = [a]) (hl : later b.time a.time = true) : s.sampleTaken i b =
    (passExamined i .B (passExamined i .A s a) b).modMeas i fun m => { m with lastStop := some b.time } := by
  unfold State.sampleTaken
  rw [hA, List.filter_singleton, earlier_of_later hl]
  rfl

theorem sampleTaken_meas_lossless (hA : s.stamps i .A = [a]) (hl : later b.time a.time = true) (ha : a.drops = 0)
    (hb : b.drops = 0) : (s.sampleTaken i b).meas i = { s.meas i with lastStop := some b.time } := by
  rw [sampleTaken_single hA hl, State.meas_modMeas, if_pos rfl, passExamined_lossless .B hb,
    passExamined_lossless .A ha]

/-- The sample takes the one stamp of either view (R134). -/
theorem sampleTaken_empties (hA : s.view i .A = [a]) (hh : a.heldFor i .A = false) (hB : s.view i .B = [b])
    (hl : later b.time a.time = true) :
    (s.sampleTaken i b).view i .A = [] ∧ (s.sampleTaken i b).view i .B = [] := by
  constructor
  · rw [sampleTaken_single (stamps_single hA hh) hl]
    have hempty : (passExamined i .A s a).view i .A = [] := (passExamined_passes .A a s).view_single hA
    exact (Acts.passExamined (w := true) .B _ b).views i .A hempty
  · have h := (sampleTaken_views (i := i) b s).2.1
    rw [hB, List.filter_singleton, same_self] at h
    exact List.map_eq_nil_iff.mp h

/-- A sample from x to y that no test rejects, and that is not the block's last (R139 to R144). -/
structure Accumulates (s : State) (i : Fin 8) (c : MeasureConfig) (x y : TimeStamp) : Prop where
  span : (y.epoch - x.epoch).toNat ≤ c.spanLimit.toNat
  continuous : s.crosses x y [c.a.station, c.b.station] = false
  lossless : (s.meas i).lossMark = false
  roomA : (s.meas i).pendingA = false
  roomB : (s.meas i).pendingB = false
  accepted : c.accept.getLsbD (c.windowFlag (s.sampleValue x y)) = true
  more : (s.meas i).block.n + 1 ≠ c.blockSize

theorem Accumulates.testSample {x y : TimeStamp} (h : Accumulates s i c x y) :
    testSample i c x y s = ⟨s.accumulated i (s.sampleValue x y), true⟩ := by
  rw [testSample_within h.span, testDiscontinuity_passes h.continuous, testGap_passes h.lossless,
    testStoreFull_passes h.roomA h.roomB, testWindow_inside h.accepted, accumulateSample_more h.more]

theorem MeasureFrame.sampleValue (h : MeasureFrame s t) (x y : TimeStamp) : t.sampleValue x y = s.sampleValue x y := by
  unfold State.sampleValue
  rw [h.epochLength]

/-- The tests do not look at the last stop. -/
theorem Accumulates.of_frame {x y : TimeStamp} {z : Option TimeStamp} (h : Accumulates s i c x y)
    (hF : MeasureFrame s t) (hm : t.meas i = { s.meas i with lastStop := z }) : Accumulates t i c x y where
  span := h.span
  continuous := (hF.crosses x y _).trans h.continuous
  lossless := by rw [hm]; exact h.lossless
  roomA := by rw [hm]; exact h.roomA
  roomB := by rw [hm]; exact h.roomB
  accepted := by rw [hF.sampleValue]; exact h.accepted
  more := by rw [hm]; exact h.more

/-- The one start and the one stop, without losses, taken as a sample that is accumulated (R134, R144). -/
theorem takeSample_accumulates (hA : s.view i .A = [a]) (hh : a.heldFor i .A = false) (hB : s.view i .B = [b])
    (hl : later b.time a.time = true) (ha : a.drops = 0) (hb : b.drops = 0) (h : Accumulates s i c a.time b.time) :
    ∃ u, takeSample i c a b s = ⟨u, true⟩ ∧ u.view i .A = [] ∧ u.view i .B = [] ∧ u.queue = s.queue ∧
      u.meas i = { s.meas i with
        lastStop := some b.time
        block := (s.meas i).block.accumulate (s.sampleValue a.time b.time) } := by
  have hF := (sampleTaken_acts (i := i) b s).frame
  have hm := sampleTaken_meas_lossless (stamps_single hA hh) hl ha hb
  have htest := (h.of_frame hF hm).testSample
  rw [hF.sampleValue] at htest
  obtain ⟨hviewA, hviewB⟩ := sampleTaken_empties hA hh hB hl
  refine ⟨_, (takeSample_eq c a b s).trans htest, hviewA, hviewB, sampleTaken_queue b s, ?_⟩
  rw [accumulated_meas, hm]

/-! ### The rest of the judgement -/

/-- With no stamp in the views all that is left to do is to forget the last stop (log 41). -/
theorem intervalMove_nil (hA : s.view i .A = []) (hB : s.view i .B = []) :
    intervalMove i c s = if s.stopPassed i then some (forgetStop i s) else none := by
  have hsA := stamps_nil hA
  have hsB := stamps_nil hB
  have hsup : s.superseded i c = none := by
    unfold State.superseded
    rw [hsA]
    exact ite_self none
  have hab : s.abandoned i c = none := by simp only [State.abandoned, hsA]
  have hset : s.settled i c = none := by simp only [State.settled, hsA]
  have hbar : s.barrenStop i = none := by simp only [State.barrenStop, hsB]
  simp [intervalMove, intervalMoves, staleStart_nil hsA, hbar, hab, hsup, hset]

/-- A measure in its gate with no stamp in its views. -/
theorem Judges.of_nil (hst : (s.meas i).st = .opened ∨ (s.meas i).st = .closing) (hc : (s.meas i).config = some c)
    (hk : c.kind = .interval) (hA : s.view i .A = []) (hB : s.view i .B = []) : Judges s i c :=
  ⟨hst, hc, hk, passable_nil hA, passable_nil hB⟩

theorem forgetStop_meas (s : State) : (forgetStop i s).state.meas i = { s.meas i with lastStop := none } := by
  unfold forgetStop
  rw [State.meas_modMeas, if_pos rfl]

/-- A judgement with no stamp in the views forgets the last stop once no earlier A stamp can arrive, and ends
(log 41). -/
theorem judge_nil (hst : (s.meas i).st = .opened ∨ (s.meas i).st = .closing) (hc : (s.meas i).config = some c)
    (hk : c.kind = .interval) (hA : s.view i .A = []) (hB : s.view i .B = []) :
    judge i s = if s.stopPassed i then forgetStop i s else ⟨s, true⟩ := by
  have hmove := (Judges.of_nil hst hc hk hA hB).judgeMove.trans (intervalMove_nil hA hB)
  split
  · rename_i h
    have hm := forgetStop_meas (i := i) s
    have hnot : (forgetStop i s).state.stopPassed i = false := by
      unfold State.stopPassed
      rw [hm]
    have hJ : Judges (forgetStop i s).state i c :=
      .of_nil (by rw [hm]; exact hst) (by rw [hm]; exact hc) hk hA hB
    have hend : judgeMove i (forgetStop i s).state = none := by
      rw [hJ.judgeMove, intervalMove_nil (s := (forgetStop i s).state) hA hB, hnot]
      rfl
    rw [if_pos h] at hmove
    exact (judge_move hmove rfl).trans (judge_none hend)
  · rename_i h
    rw [if_neg h] at hmove
    exact judge_none hmove

/-- What such a judgement leaves of a measure whose last stop is z. -/
theorem judge_nil_meas {z : TimeStamp} (hst : (s.meas i).st = .opened ∨ (s.meas i).st = .closing)
    (hc : (s.meas i).config = some c) (hk : c.kind = .interval) (hA : s.view i .A = []) (hB : s.view i .B = [])
    (hz : (s.meas i).lastStop = some z) : (judge i s).state.queue = s.queue ∧
    (judge i s).state.meas i = { s.meas i with
      lastStop := if horizonAtOrAfter (s.roleHorizon i .A) z then none else some z } := by
  have hpassed : s.stopPassed i = horizonAtOrAfter (s.roleHorizon i .A) z := by
    unfold State.stopPassed
    rw [hz]
  rw [judge_nil hst hc hk hA hB, hpassed]
  split
  · exact ⟨rfl, forgetStop_meas s⟩
  · exact ⟨rfl, by rw [← hz]⟩

/-- Settles O36: the judgement takes the sample, accumulates it, and ends over empty views. -/
theorem settleAccumulatesSample : Obligations.SettleAccumulatesSample := by
  intro s i c a b hst hc hk hp hA hB hhA hhB hlast hl hopen hknown hdA hdB hspan hcross hloss hpA hpB hw hn
  have hsA := stamps_single hA hhA
  have hjudges : Judges s i c := ⟨hst, hc, hk,
    passable_none hA hhA (isBelow_inGate hst fun o ho => (hopen o ho).1),
    passable_none hB hhB (isBelow_inGate hst fun o ho => (hopen o ho).2)⟩
  have hmove : judgeMove i s = some (takeSample i c a b s) :=
    hjudges.judgeMove.trans (intervalMove_takes hp hsA (stamps_single hB hhB) hlast hl hknown)
  obtain ⟨u, htake, huA, huB, huq, hum⟩ := takeSample_accumulates hA hhA hB hl hdA hdB
    ⟨hspan, hcross, hloss, hpA, hpB, hw, hn⟩
  rw [htake] at hmove
  have hjudge : judge i s = judge i u := judge_move hmove rfl
  have hhorizon : u.roleHorizon i .A = s.roleHorizon i .A :=
    (Acts.judgeMove hmove).frame.roleHorizon .A (by rw [hum]; rfl) (by rw [hum])
  obtain ⟨hq, hm⟩ := judge_nil_meas (by rw [hum]; exact hst) (by rw [hum]; exact hc) hk huA huB (by rw [hum])
  have hacts := Acts.judge (i := i) s
  rw [hum, hhorizon, ← hjudge] at hm
  rw [← hjudge] at hq
  refine ⟨(judge i s).state, gives_of_effect_eq nofun nofun rfl, hacts.frame, hacts.others, ?_, ?_,
    hq.trans huq, hm⟩
  · rw [hjudge]
    exact (Acts.judge u).views i .A huA
  · rw [hjudge]
    exact (Acts.judge u).views i .B huB

/-! ### The samples of a block -/

/-- The accumulators of a block that holds these samples (R144). -/
structure Block.Holds (b : Block) (vs : List (BitVec 48)) : Prop where
  count : b.n.toNat = vs.length
  sum : b.sum.toNat = (vs.map BitVec.toNat).sum
  zeros : vs = [] → b.minimum = 0 ∧ b.maximum = 0
  least : vs ≠ [] → b.minimum ∈ vs
  greatest : vs ≠ [] → b.maximum ∈ vs
  between : ∀ v ∈ vs, b.minimum.toNat ≤ v.toNat ∧ v.toNat ≤ b.maximum.toNat

theorem Block.holds_empty : Block.empty.Holds [] :=
  ⟨rfl, rfl, fun _ => ⟨rfl, rfl⟩, nofun, nofun, nofun⟩

theorem sum_toNat_le (vs : List (BitVec 48)) : (vs.map BitVec.toNat).sum ≤ vs.length * 2 ^ 48 := by
  have h := List.sum_le_card_nsmul (vs.map BitVec.toNat) (2 ^ 48) fun n hn => by
    obtain ⟨v, -, rfl⟩ := List.mem_map.mp hn
    exact v.isLt.le
  simpa using h

theorem Block.Holds.n_eq_zero {b : Block} {vs : List (BitVec 48)} (h : b.Holds vs) : b.n = 0 ↔ vs = [] := by
  rw [← List.length_eq_zero_iff, ← h.count]
  exact BitVec.toNat_inj.symm

/-- One more sample (R144). -/
theorem Block.Holds.accumulate {b : Block} {vs : List (BitVec 48)} (h : b.Holds vs) (hlen : vs.length + 1 < 65536)
    (v : BitVec 48) : (b.accumulate v).Holds (vs ++ [v]) where
  count := by
    have hc := h.count
    have h1 : (1 : BitVec 16).toNat = 1 := rfl
    simp only [Block.accumulate, BitVec.toNat_add, List.length_append, List.length_singleton]
    omega
  sum := by
    have hs := h.sum
    have hb := sum_toNat_le vs
    simp only [Block.accumulate, BitVec.toNat_add, BitVec.toNat_setWidth, List.map_append, List.map_singleton,
      List.sum_append, List.sum_singleton]
    omega
  zeros hn := absurd hn (by simp)
  least _ := by
    simp only [Block.accumulate, List.mem_append, List.mem_singleton]
    split
    · exact .inr rfl
    · rename_i hmin
      exact .inl (h.least fun hn => hmin (.inl (h.n_eq_zero.mpr hn)))
  greatest _ := by
    simp only [Block.accumulate, List.mem_append, List.mem_singleton]
    split
    · exact .inr rfl
    · rename_i hmax
      exact .inl (h.greatest fun hn => hmax (.inl (h.n_eq_zero.mpr hn)))
  between w hw := by
    have hw : w ∈ vs ∨ w = v := by simpa using hw
    simp only [Block.accumulate]
    rcases hw with hw | rfl
    · have hb := h.between w hw
      have hn : b.n ≠ 0 := fun hn => List.ne_nil_of_mem hw (h.n_eq_zero.mp hn)
      simp only [hn, false_or]
      split <;> split <;> omega
    · split <;> split <;> omega

/-- The samples accumulated one after another from an empty block (R144, R152). -/
theorem Block.holds_foldl (vs : List (BitVec 48)) (hlen : vs.length < 65536) :
    (vs.foldl Block.accumulate .empty).Holds vs := by
  induction vs using List.reverseRecOn with
  | nil => exact Block.holds_empty
  | append_singleton vs v ih =>
    rw [List.length_append, List.length_singleton] at hlen
    rw [List.foldl_append]
    exact (ih (by omega)).accumulate hlen v

/-- What a block holds is a matter of its four accumulators. -/
theorem Block.Holds.of_accumulators {a b : Block} {vs : List (BitVec 48)} (h : a.Holds vs) (hn : b.n = a.n)
    (hs : b.sum = a.sum) (hmin : b.minimum = a.minimum) (hmax : b.maximum = a.maximum) : b.Holds vs := by
  obtain ⟨h1, h2, h3, h4, h5, h6⟩ := h
  rw [← hn] at h1
  rw [← hs] at h2
  rw [← hmin] at h3 h4 h6
  rw [← hmax] at h3 h5 h6
  exact ⟨h1, h2, h3, h4, h5, h6⟩

/-! ### What the block reports -/

/-- The mean of a block's samples (R155). -/
def Block.mean (b : Block) : BitVec 48 := BitVec.ofNat 48 (b.sum.toNat / b.n.toNat)

/-- The two counts of a block in one value: rejected above overrange (R155). -/
def Block.counts (b : Block) : BitVec 48 := BitVec.ofNat 48 (b.rejected.toNat * 2 ^ 24 + b.overrange.toNat)

theorem Block.intervalValues_eq (b : Block) : b.intervalValues = [b.mean, b.minimum, b.maximum, b.counts] := rfl

theorem Block.counts_toNat (b : Block) : b.counts.toNat = b.rejected.toNat * 2 ^ 24 + b.overrange.toNat := by
  have hr := b.rejected.isLt
  have ho := b.overrange.isLt
  rw [Block.counts, BitVec.toNat_ofNat, Nat.mod_eq_of_lt (by omega)]

section

variable {d : Block} {vs : List (BitVec 48)} (h : d.Holds vs)
include h

theorem Block.Holds.mean_nil (hv : vs = []) : d.mean = 0 := by
  have hs := h.sum
  subst hv
  rw [Block.mean, hs]
  simp

/-- The samples' mean lies between the least and the greatest of them. -/
theorem Block.Holds.quotient_between (hv : vs ≠ []) :
    d.minimum.toNat ≤ (vs.map BitVec.toNat).sum / vs.length ∧
      (vs.map BitVec.toNat).sum / vs.length ≤ d.maximum.toNat := by
  have hpos := List.length_pos_of_ne_nil hv
  have hlow := List.card_nsmul_le_sum (vs.map BitVec.toNat) d.minimum.toNat
    (List.forall_mem_map.mpr fun v hm => (h.between v hm).1)
  have hhigh := List.sum_le_card_nsmul (vs.map BitVec.toNat) d.maximum.toNat
    (List.forall_mem_map.mpr fun v hm => (h.between v hm).2)
  rw [List.length_map, smul_eq_mul] at hlow hhigh
  exact ⟨(Nat.le_div_iff_mul_le hpos).mpr (mul_comm vs.length _ ▸ hlow), Nat.div_le_of_le_mul hhigh⟩

theorem Block.Holds.mean_toNat (hv : vs ≠ []) : d.mean.toNat = (vs.map BitVec.toNat).sum / vs.length := by
  have hlt := (h.quotient_between hv).2.trans_lt d.maximum.isLt
  rw [Block.mean, h.sum, h.count, BitVec.toNat_ofNat, Nat.mod_eq_of_lt hlt]

end

/-- Settles O37, by induction on the samples: the accumulators hold them, so the mean fits its value. -/
theorem intervalBlockReportsItsSamples : Obligations.IntervalBlockReportsItsSamples := by
  intro vs a b hlen ha hn hs hmin hmax
  have h : b.Holds vs := (ha ▸ Block.holds_foldl vs hlen : a.Holds vs).of_accumulators hn hs hmin hmax
  refine ⟨h.count, h.sum, b.mean, b.counts, b.intervalValues_eq, b.counts_toNat,
    fun hv => ⟨h.mean_nil hv, h.zeros hv⟩, fun hv => ?_⟩
  have hmean := h.mean_toNat hv
  exact ⟨hmean, h.least hv, h.greatest hv, h.between, hmean ▸ h.quotient_between hv⟩

end Sys2Proof.Machine
end

section
/-! PROOFS. What a TOTALIZE block reports: the count of its snapshots, and where its group goes. -/

namespace Sys2Proof.Machine

variable {s : State} {i : Fin 8} {close : BitVec 48}

/-! ### Where the group of a finished block goes -/

/-- Without room the measure holds the group of a finished block (R117). -/
theorem finishBlock_holds (i : Fin 8) (n : BitVec 16) (l : List (BitVec 48)) (s : State) (h : s.queueRoom = false) :
    ((finishBlock i n l s).meas i).heldGroup = some (s.blockGroup i n l) := by
  rw [finishBlock_full i n l s h, enterReporting_meas]
  rfl

/-- The group of a finished block joins the queue or is held, with the count, the values and the qualifiers of the
block (R117, R154). -/
theorem finishBlock_delivers (i : Fin 8) (n : BitVec 16) (l : List (BitVec 48)) (s : State) :
    ∃ g, (s.queueRoom = true → s.queue ++ [g] <+: (finishBlock i n l s).queue) ∧
      (s.queueRoom = false → ((finishBlock i n l s).meas i).heldGroup = some g) ∧
      g.measure = i ∧ g.isFault = false ∧ g.sampleCount = n ∧ g.values = l ∧
      g.quals = (s.meas i).block.quals := by
  cases h : s.queueRoom
  · exact ⟨_, nofun, fun _ => finishBlock_holds i n l s h, rfl, rfl, rfl, rfl, rfl⟩
  · obtain ⟨g, hq, hm, -, hf, -, hn, hv, hquals, -⟩ := finishBlock_enqueues i n l s h
    exact ⟨g, fun _ => hq, nofun, hm, hf, hn, hv, hquals⟩

/-- The records of a group with one value: its head and one data record of index 0 (R74). -/
theorem groupRecords_single {g : Group} {v : BitVec 48} (hm : g.measure = i) (hv : g.values = [v]) :
    groupRecords g = [.head g, .data i 0 v] := by
  unfold groupRecords
  rw [hm, hv]
  rfl

/-! ### The judgement of a TOTALIZE block -/

/-- The gate of the measure runs over a discontinuity of the own station (R27, R150). -/
def State.gateCrosses (s : State) (i : Fin 8) : Bool :=
  match (s.meas i).openTime, (s.meas i).closeTime with
  | some o, some c => s.crosses o c []
  | _, _ => false

theorem gateCrosses_eq {o c : TimeStamp} (ho : (s.meas i).openTime = some o) (hc : (s.meas i).closeTime = some c) :
    s.gateCrosses i = s.crosses o c [] := by
  unfold State.gateCrosses
  rw [ho, hc]

theorem gateCrosses_eq_false_iff : s.gateCrosses i = false ↔
    ∀ o c, (s.meas i).openTime = some o → (s.meas i).closeTime = some c → s.crosses o c [] = false := by
  unfold State.gateCrosses
  cases (s.meas i).openTime <;> cases (s.meas i).closeTime <;> simp

/-- The qualifiers of a TOTALIZE block as it is finished: DISCONTINUITY when its gate runs over one, and NO_EVENTS with
a count of 0 (R150, R157). -/
def State.totalizeQuals (s : State) (i : Fin 8) (count : BitVec 48) : BitVec 12 :=
  setQualIf (count == 0) .noEvents (setQualIf (s.gateCrosses i) (.fault .discontinuity) (s.meas i).block.quals)

theorem hasQual_totalizeQuals_iff (q : Qualifier) (count : BitVec 48) :
    hasQual q (s.totalizeQuals i count) = true ↔
      (hasQual q (s.meas i).block.quals = true ∨ (q = .fault .discontinuity ∧ s.gateCrosses i = true)) ∨
        (q = .noEvents ∧ count = 0) := by
  simp only [State.totalizeQuals, hasQual_setQualIf_iff, beq_iff_eq]

/-- The station with those qualifiers on the block. -/
def State.totalizeQualified (s : State) (i : Fin 8) (count : BitVec 48) : State :=
  s.modMeas i fun m => { m with block := { m.block with quals := s.totalizeQuals i count } }

theorem totalizeQualified_quals (count : BitVec 48) :
    ((s.totalizeQualified i count).meas i).block.quals = s.totalizeQuals i count := by
  unfold State.totalizeQualified
  rw [State.meas_modMeas, if_pos rfl]

theorem totalizeQualified_plain (count : BitVec 48) (h : s.gateCrosses i = false) :
    s.modMeas i (fun m => { m with block := { m.block with quals := setQualIf (count == 0) .noEvents m.block.quals } })
      = s.totalizeQualified i count := by
  simp only [State.totalizeQualified, State.totalizeQuals, State.modMeas, h, setQualIf, Bool.false_eq_true, if_false]

theorem totalizeQualified_crossing (count : BitVec 48) (h : s.gateCrosses i = true) :
    (s.modMeas i (·.qualify (.fault .discontinuity))).modMeas i
        (fun m => { m with block := { m.block with quals := setQualIf (count == 0) .noEvents m.block.quals } })
      = s.totalizeQualified i count := by
  simp [State.totalizeQualified, State.totalizeQuals, h, setQualIf, State.modMeas, State.setMeas_setMeas,
    Measure.qualify]

/-- Over no discontinuity, or over a masked one, the close snapshot finishes the block with the difference of the two
snapshots (R150, R157). -/
theorem completeTotalize_finishBlock (h : s.gateCrosses i = false ∨ (s.meas i).masks .discontinuity = true) :
    completeTotalize i close s = finishBlock i 0 [close - (s.meas i).block.openSnapshot]
      (s.totalizeQualified i (close - (s.meas i).block.openSnapshot)) := by
  unfold completeTotalize
  dsimp only
  split
  next o c ho hc =>
    have hcross := gateCrosses_eq ho hc
    split
    next hx =>
      have hx' := hcross.trans hx
      rw [if_pos (h.resolve_left (by rw [hx']; nofun)), totalizeQualified_crossing _ hx']
    next hx => rw [totalizeQualified_plain _ (hcross.trans (Bool.eq_false_iff.mpr hx))]
  next hno =>
    rw [totalizeQualified_plain _ (gateCrosses_eq_false_iff.mpr fun o c ho hc => (hno o c ho hc).elim)]

/-- Settles O28: the block is finished with the difference of the snapshots, and its group is delivered; its
qualifiers are the block's and the two of its finishing. -/
theorem totalizeReportsCount : Obligations.TotalizeReportsCount := by
  intro s i close h
  have hgate : s.gateCrosses i = false ∨ (s.meas i).masks .discontinuity = true := by
    rcases h with ho | hc | hx | hm
    · exact .inl (gateCrosses_eq_false_iff.mpr fun o c ho' => nomatch ho.symm.trans ho')
    · exact .inl (gateCrosses_eq_false_iff.mpr fun o c _ hc' => nomatch hc.symm.trans hc')
    · exact .inl (gateCrosses_eq_false_iff.mpr hx)
    · exact .inr hm
  rw [completeTotalize_finishBlock hgate]
  set count := close - (s.meas i).block.openSnapshot
  obtain ⟨g, hroom, hfull, hm, hf, hn, hv, hquals⟩ := finishBlock_delivers i 0 [count] (s.totalizeQualified i count)
  have hqual (q : Qualifier) := hasQual_totalizeQuals_iff (s := s) (i := i) q count
  rw [← hquals.trans (totalizeQualified_quals count)] at hqual
  exact ⟨g, hroom, hfull, hm, hf, hn, hv, groupRecords_single hm hv,
    fun heq => (hqual _).mpr (.inr ⟨rfl, sub_eq_zero.mpr heq⟩),
    fun q hq => (hqual q).mpr (.inl (.inl hq)),
    fun o c ho hc hx => (hqual _).mpr (.inl (.inr ⟨rfl, (gateCrosses_eq ho hc).trans hx⟩))⟩

end Sys2Proof.Machine
end

section
/-! PROOFS. The arrival of a directive: its code, the places it can take in the list, and what becomes of it. -/

namespace Sys2Proof.Machine

variable {s : State} {d : Directive} {straps : BitVec 4} {c : Code}

/-! ### The codes -/

/-- The number that spells a code (R168). -/
def Code.number : Code → Nat
  | .arm => 1
  | .disarm => 2
  | .gateOpen => 3
  | .gateClose => 4
  | .flush => 5
  | .clearFault => 6
  | .restart => 7

theorem codeOf_eq_some_iff {x : BitVec 4} : codeOf x = some c ↔ x.toNat = c.number := by
  revert x
  cases c <;> decide

/-! ### The place in the list -/

/-- A directive goes in front of the first one later than it, and behind all before that (R170, R171). -/
theorem insertDirective_splits (d : Directive) (l : List Directive) :
    ∃ front back, l = front ++ back ∧ insertDirective d l = front ++ d :: back ∧
      (∀ x ∈ front, earlier d.time x.time = false) ∧
      (∀ x rest, back = x :: rest → earlier d.time x.time = true) := by
  induction l with
  | nil => exact ⟨[], [], rfl, rfl, nofun, nofun⟩
  | cons y l ih =>
    unfold insertDirective
    split
    next hy =>
      refine ⟨[], y :: l, rfl, rfl, nofun, fun x rest h => ?_⟩
      obtain ⟨rfl, -⟩ := List.cons.inj h
      exact hy
    next hy =>
      obtain ⟨front, back, hl, hins, hfront, hback⟩ := ih
      refine ⟨y :: front, back, by rw [hl, List.cons_append], by rw [hins, List.cons_append], ?_, hback⟩
      exact List.forall_mem_cons.mpr ⟨Bool.eq_false_iff.mpr hy, hfront⟩

/-! ### What becomes of an arriving directive -/

theorem arriveDirective_dropped (h : s.validDirective d = false ∨ 8 ≤ s.directives.length) :
    arriveDirective straps d s = s.countDirectiveDrops 1 := by
  unfold arriveDirective
  split
  next => rfl
  next hv => exact if_pos (h.resolve_left fun hf => hv (by rw [hf, Bool.not_false]))

/-- A valid directive that finds a place is classed by its immediate bit and then by its time (R171, R172). -/
theorem arriveDirective_accepted (hv : s.validDirective d = true) (hl : s.directives.length < 8)
    (hc : codeOf d.code = some c) :
    arriveDirective straps d s =
      if d.immediate = true then applyDirective c d.mask s.localTime false straps s
      else if later d.time s.localTime = true then { s with directives := insertDirective d s.directives }
      else applyDirective c d.mask s.localTime true straps s := by
  have hroom : ¬ Config.listCapacity ≤ s.directives.length := Nat.not_le.mpr hl
  unfold arriveDirective
  rw [hv, if_neg (by decide), if_neg hroom, hc]
  cases later d.time s.localTime <;> rfl

theorem arriveDirective_immediate (hv : s.validDirective d = true) (hl : s.directives.length < 8)
    (hc : codeOf d.code = some c) (hi : d.immediate = true) :
    arriveDirective straps d s = applyDirective c d.mask s.localTime false straps s := by
  rw [arriveDirective_accepted hv hl hc, if_pos hi]

theorem arriveDirective_waits (hv : s.validDirective d = true) (hl : s.directives.length < 8)
    (hc : codeOf d.code = some c) (hi : d.immediate = false) (ht : later d.time s.localTime = true) :
    arriveDirective straps d s = { s with directives := insertDirective d s.directives } := by
  rw [arriveDirective_accepted hv hl hc, if_neg (Bool.eq_false_iff.mp hi), if_pos ht]

/-- Settles O56: the conditions of R169, the seven codes, and the outcomes of an arrival one by one. -/
theorem directiveArrivalClasses : Obligations.DirectiveArrivalClasses := by
  intro s d straps
  refine ⟨validDirective_iff, ⟨codeOf_eq_some_iff, codeOf_eq_some_iff, codeOf_eq_some_iff, codeOf_eq_some_iff,
    codeOf_eq_some_iff, codeOf_eq_some_iff, codeOf_eq_some_iff⟩, arriveDirective_dropped, fun c hv hl hc =>
    ⟨arriveDirective_immediate hv hl hc, fun hi ht => arriveDirective_late hv hl hi ht hc, fun hi ht => ?_⟩⟩
  obtain ⟨front, back, hsplit, hins, hfront, hback⟩ := insertDirective_splits d s.directives
  exact ⟨front, back, hsplit, by rw [arriveDirective_waits hv hl hc hi ht, hins], hfront, hback⟩

end Sys2Proof.Machine
end

section
/-! PROOFS. Every command: a step runs the one at the front of the queue, each of them answers, and one that is out of
its condition leaves the station as it stands. -/

namespace Sys2Proof.Machine

variable {s t : State} {c : Instr}

/-- Settles O1: this is the first branch of `step`. -/
theorem stepRunsFrontCommand : Obligations.StepRunsFrontCommand := fun _ _ _ => rfl

/-- Settles O3: what is outside the station stays, whatever the command. -/
theorem everyCommandAnswers : Obligations.EveryCommandAnswers := by
  intro c s
  obtain ⟨t, hexec, hframe, -⟩ := exec_ends c s
  exact ⟨t, hexec, hframe.pending, hframe.order⟩

/-! ### Commands out of their condition -/

/-- A command that acts on a condition, outside it. -/
theorem gives_self_of_false {p : Bool} (hp : p = false) (heff : effect c s = if p then t else s)
    (ht : c ≠ .testSourceEvent) (hm : c ≠ .markLeadingEdge) : Gives c s s :=
  gives_of_effect_eq ht hm (heff.trans (if_neg (Bool.eq_false_iff.mp hp)))

/-- In reset, while the image is read and after a fault of it, a mark is ignored; it is no slip there (R11, R20). -/
theorem mark_gives_self (h : s.eu.align = none ∨ s.eu.align = some .loading ∨ s.eu.align = some .configFault) :
    Gives .markLeadingEdge s s := by
  have hno : s.hasTime = false := by rcases h with h | h | h <;> simp [State.hasTime, h]
  refine mark_gives (slips_eq_false (.inl hno)) ?_
  rcases h with h | h | h <;> simp only [effect, effectMarkLeadingEdge, h]

/-- Settles O4: a command's effect asks its condition first and is the identity outside it; a mark acts by the alignment
state, and a Test Source event acts on the station alone. -/
theorem commandsOutOfConditionDoNothing : Obligations.CommandsOutOfConditionDoNothing := by
  intro s
  exact ⟨
    -- reset, the image read, and the Epoch Unit
    fun h _ => gives_self_of_false h rfl nofun nofun,
    fun h _ => gives_self_of_false h rfl nofun nofun,
    fun h => gives_self_of_false h rfl nofun nofun,
    fun h => gives_self_of_false h rfl nofun nofun,
    fun h => gives_self_of_false h rfl nofun nofun,
    mark_gives_self,
    fun h => gives_self_of_false h rfl nofun nofun,
    fun h => gives_self_of_false h rfl nofun nofun,
    fun h => gives_self_of_false h rfl nofun nofun,
    -- channels
    fun h => congrArg Host.Outcome.next (if_neg (Bool.eq_false_iff.mp h)),
    fun _ h => gives_self nofun nofun (by simp only [effect, effectStampResolution, h]),
    -- gates and blocks
    fun _ h => gives_self_of_false h rfl nofun nofun,
    fun _ h => gives_self nofun nofun (by simp only [effect, effectTimedGateClose, h]),
    fun _ h => gives_self nofun nofun (by simp only [effect, effectTimedGateReopen, h]),
    fun _ h => gives_self nofun nofun (by simp only [effect, effectGateOverrun, h]),
    fun _ h => gives_self_of_false h rfl nofun nofun,
    fun _ h => gives_self_of_false h rfl nofun nofun,
    -- the link and the peers' windows
    fun h => gives_self_of_false h rfl nofun nofun,
    fun h => gives_self_of_false h rfl nofun nofun,
    fun h _ => gives_self nofun nofun (by simp only [effect, effectFrameSendEnd, h]),
    fun _ h _ => gives_self nofun nofun (by simp only [effect, effectFrameReceived, h]),
    fun h => gives_self_of_false h rfl nofun nofun,
    fun h => gives_self nofun nofun (by simp only [effect, effectWindowEnd, h]),
    -- directives
    fun h => gives_self nofun nofun (by simp only [effect, effectArm, h]),
    fun h => gives_self nofun nofun (by simp only [effect, effectDisarm, h]),
    fun h => gives_self nofun nofun (by simp only [effect, effectGateOpen, h]),
    fun h => gives_self nofun nofun (by simp only [effect, effectGateClose, h]),
    fun h => gives_self nofun nofun (by simp only [effect, effectFlush, h]),
    fun h => gives_self nofun nofun (by simp only [effect, effectClearFault, h]),
    fun h _ => gives_self nofun nofun (by simp only [effect, effectRestart, h])⟩

end Sys2Proof.Machine
end
